-- ==== Sys2Proof/Word.lean ====
section
/-! DEFINITION. The widths CN-CORE works in (spec/00_scope.md R15): bytes, 32-bit and 64-bit words, 16-byte
blocks, 48-bit program-store words, and the 25 lanes of the hash state.

A 16-byte value is the 128-bit number whose byte k (bits 8k+7 .. 8k) is byte k of the string (R60), so that
`lo64` and `hi64` of R15 are its two 64-bit halves and bytewise XOR is `^^^`. -/

namespace Sys2Proof

/-- One byte. -/
abbrev Byte := BitVec 8

/-- A 32-bit word: a host register, a random-math register. -/
abbrev W32 := BitVec 32

/-- A 64-bit word: a Keccak lane, one half of a 16-byte value. -/
abbrev W64 := BitVec 64

/-- A 16-byte value, byte 0 in the low bits (R15, R60). -/
abbrev Block := BitVec 128

/-- One entry of the random-math program store (spec/30_encoding.md R100). -/
abbrev ProgWord := BitVec 48

/-- The lane view of the 200-byte state (spec/10_state.md R30): lane i is bytes 8i .. 8i+7, little-endian. -/
abbrev Lanes := Vector W64 25

end Sys2Proof
end

