-- ==== Sys2Proof/Syntax.lean ====
section
/-! DEFINITION. The instructions of CN-CORE, one constructor per row of spec/opcode_table.json: the seven
operations of the random-math machine (48-bit program-store words, spec/30_encoding.md R100, R101), the three
jobs a CMD word selects (R92, R95) and the two command bits of a CTRL word (R91). -/

namespace Sys2Proof

/-- The instructions. `dst` names r[0] .. r[3] (2 bits); `src` is the 4-bit SRC field, of which 0 .. 8 name a
register and 9 .. 15 are reserved (R100, R102; refused by `Instr.wellFormed`). -/
inductive Instr where
  /-- MUL rD, rS (OPC 0, spec/45_random_math.md R272) -/
  | mul (dst : BitVec 2) (src : BitVec 4)
  /-- ADD rD, rS, C (OPC 1, R273) -/
  | add (dst : BitVec 2) (src : BitVec 4) (const : W32)
  /-- SUB rD, rS (OPC 2, R274) -/
  | sub (dst : BitVec 2) (src : BitVec 4)
  /-- ROR rD, rS (OPC 3, R275) -/
  | ror (dst : BitVec 2) (src : BitVec 4)
  /-- ROL rD, rS (OPC 4, R276) -/
  | rol (dst : BitVec 2) (src : BitVec 4)
  /-- XOR rD, rS (OPC 5, R277) -/
  | xor (dst : BitVec 2) (src : BitVec 4)
  /-- RET (OPC 6, R287); DST, SRC and C are ignored (R101) -/
  | ret
  /-- The SLOW_HASH job (CMD.OP = 0, spec/47_commands.md R355) -/
  | slowHash (variant : BitVec 3) (prehashed : Bool)
  /-- The FAST_HASH job (CMD.OP = 1, R361); VARIANT and PREHASHED are ignored (R362) -/
  | fastHash
  /-- The KECCAK_PERMUTE job (CMD.OP = 2, R368); VARIANT and PREHASHED are ignored -/
  | keccakPermute
  /-- A CTRL write with START = 1 (R350), its IE bit and its CLR bit -/
  | start (ie : Bool) (clr : Bool)
  /-- A CTRL write with CLR = 1 (R352), its START bit and its IE bit -/
  | clr (start : Bool) (ie : Bool)
deriving DecidableEq, Repr

end Sys2Proof
end

