-- ==== Sys2Proof/WellFormed.lean ====
section
/-! DEFINITION. Which instructions an encoding stands for.

The SRC field of a random-math word names r[0] .. r[8]; 9 .. 15 are reserved (spec/30_encoding.md R100, R102).
A CTRL word with both command bits is one word (R91); its canonical reading is START with its CLR bit, so CLR
with its START bit set is the same write spelled twice and is not canonical (notes/assumptions/6.md).
Every VARIANT value is stored and only refused when the job starts (R99), so every SLOW_HASH is well formed. -/

namespace Sys2Proof

/-- A SRC field that names a register of the random-math file, r[0] .. r[8] (R100). -/
def srcOk (src : BitVec 4) : Bool := decide (src.toNat < 9)

/-- The instruction is the canonical reading of an encoding that is not reserved. -/
def Instr.wellFormed : Instr → Bool
  | .mul _ src => srcOk src
  | .add _ src _ => srcOk src
  | .sub _ src => srcOk src
  | .ror _ src => srcOk src
  | .rol _ src => srcOk src
  | .xor _ src => srcOk src
  | .ret => true
  | .slowHash _ _ => true
  | .fastHash => true
  | .keccakPermute => true
  | .start _ _ => true
  | .clr withStart _ => !withStart

end Sys2Proof
end

