-- ==== Sys2Proof/Decode.lean ====
section
/-! DEFINITION. The three encodings of spec/30_encoding.md that carry an instruction: the program-store word
(R100 to R102), the CMD register word (R92, R95) and the CTRL register word (R91). Decoding is total and rejects
by name; the encoder stands after it. The generator's seed byte records (R105 to R107) are decoded in
Sys2Proof/Machine/Generator.lean, where the bytes are drawn. -/

namespace Sys2Proof

/-- An encoded instruction, with the place its word stands in: the same 32 bits mean one thing in CMD and
another in CTRL. -/
inductive EncWord where
  /-- a word of the program store PROG (R100) -/
  | prog (w : ProgWord)
  /-- a word in the CMD register (R92) -/
  | cmd (w : W32)
  /-- a word written to the CTRL register (R91) -/
  | ctrl (w : W32)
deriving DecidableEq, Repr

/-- Why a word is no instruction. -/
inductive Reject where
  /-- OPC = 7 (R102) -/
  | reservedOpcode
  /-- SRC = 9 .. 15 in a word whose operation reads SRC (R102) -/
  | reservedSource
  /-- a 1 in bits 15:9 (R102) -/
  | reservedBits
  /-- CMD.OP = 3 (R92) -/
  | reservedCommand
  /-- a CTRL word with neither START nor CLR: it only writes IE (R351) -/
  | noCommandBit
deriving DecidableEq, Repr

/-- OPC, bits 2:0 of a program-store word (R100). -/
def progOpc (w : ProgWord) : BitVec 3 := w.extractLsb' 0 3
/-- DST, bits 4:3 (R100). -/
def progDst (w : ProgWord) : BitVec 2 := w.extractLsb' 3 2
/-- SRC, bits 8:5 (R100). -/
def progSrc (w : ProgWord) : BitVec 4 := w.extractLsb' 5 4
/-- The reserved bits 15:9 (R100). -/
def progReserved (w : ProgWord) : BitVec 7 := w.extractLsb' 9 7
/-- C, bits 47:16 (R100). -/
def progConst (w : ProgWord) : W32 := w.extractLsb' 16 32

/-- The instruction if its source field names a register. -/
def withSource (src : BitVec 4) (i : Instr) : Except Reject Instr :=
  if srcOk src then .ok i else .error .reservedSource

/-- Reading a program-store word (R100 to R102). C is ignored but for ADD; RET ignores DST and SRC, so no value
of SRC makes a RET reserved (R101, spec/93_implementation_defined.md I18; notes/assumptions/5.md). -/
def decodeProg (w : ProgWord) : Except Reject Instr :=
  if progReserved w ≠ 0 then .error .reservedBits
  else
    match progOpc w with
    | 0 => withSource (progSrc w) (.mul (progDst w) (progSrc w))
    | 1 => withSource (progSrc w) (.add (progDst w) (progSrc w) (progConst w))
    | 2 => withSource (progSrc w) (.sub (progDst w) (progSrc w))
    | 3 => withSource (progSrc w) (.ror (progDst w) (progSrc w))
    | 4 => withSource (progSrc w) (.rol (progDst w) (progSrc w))
    | 5 => withSource (progSrc w) (.xor (progDst w) (progSrc w))
    | 6 => .ok .ret
    | _ => .error .reservedOpcode

/-- CMD.OP, bits 1:0 (R92). -/
def cmdOp (w : W32) : BitVec 2 := w.extractLsb' 0 2
/-- CMD.VARIANT, bits 6:4 (R92). -/
def cmdVariant (w : W32) : BitVec 3 := w.extractLsb' 4 3
/-- CMD.PREHASHED, bit 8 (R92). -/
def cmdPrehashed (w : W32) : Bool := w.getLsbD 8

/-- The CMD word with the given fields, reserved bits 0 (R92). -/
def cmdOf (op : BitVec 2) (variant : BitVec 3) (prehashed : Bool) : W32 :=
  (0#23 ++ BitVec.ofBool prehashed ++ 0#1 ++ variant ++ 0#2 ++ op)

/-- Reading a CMD word (R92, R95). The reserved bits are ignored: they are never stored. -/
def decodeCmd (w : W32) : Except Reject Instr :=
  match cmdOp w with
  | 0 => .ok (.slowHash (cmdVariant w) (cmdPrehashed w))
  | 1 => .ok .fastHash
  | 2 => .ok .keccakPermute
  | _ => .error .reservedCommand

/-- Reading a CTRL word (R91): START, IE and CLR are bits 0, 1 and 2; bits 31:3 are ignored. -/
def decodeCtrl (w : W32) : Except Reject Instr :=
  if w.getLsbD 0 then .ok (.start (w.getLsbD 1) (w.getLsbD 2))
  else if w.getLsbD 2 then .ok (.clr false (w.getLsbD 1))
  else .error .noCommandBit

/-- Decoding, total on every word. -/
def decode : EncWord → Except Reject Instr
  | .prog w => decodeProg w
  | .cmd w => decodeCmd w
  | .ctrl w => decodeCtrl w

/-- The program-store word with the given fields, bits 15:9 zero (R100). -/
def progOf (opc : BitVec 3) (dst : BitVec 2) (src : BitVec 4) (const : W32) : ProgWord :=
  const ++ 0#7 ++ src ++ dst ++ opc

/-- The CTRL word with the given fields (R91). -/
def ctrlOf (start ie clr : Bool) : W32 :=
  0#29 ++ BitVec.ofBool clr ++ BitVec.ofBool ie ++ BitVec.ofBool start

/-- The word that stands for an instruction: R101's word values, R92's and R91's fields. -/
def encode : Instr → EncWord
  | .mul d s => .prog (progOf 0 d s 0)
  | .add d s c => .prog (progOf 1 d s c)
  | .sub d s => .prog (progOf 2 d s 0)
  | .ror d s => .prog (progOf 3 d s 0)
  | .rol d s => .prog (progOf 4 d s 0)
  | .xor d s => .prog (progOf 5 d s 0)
  | .ret => .prog (progOf 6 0 0 0)
  | .slowHash v p => .cmd (cmdOf 0 v p)
  | .fastHash => .cmd (cmdOf 1 0 false)
  | .keccakPermute => .cmd (cmdOf 2 0 false)
  | .start ie clr => .ctrl (ctrlOf true ie clr)
  | .clr start ie => .ctrl (ctrlOf start ie true)

/-- The program-store word of an instruction, 0 for one that no program holds. -/
def progWordOf (i : Instr) : ProgWord :=
  match encode i with
  | .prog w => w
  | .cmd _ => 0
  | .ctrl _ => 0

/-- A bare 32-bit word of the opcode table, which does not say which register holds it, read as a CMD word where
CMD's reserved bits are 0 and OP is a command, and as a CTRL word otherwise (notes/assumptions/6.md). The
machine itself never guesses: it decodes a word where it stands. -/
def tableWord32 (w : W32) : EncWord :=
  if w &&& 0xFFFFFE8C#32 = 0 ∧ cmdOp w ≠ 3 then .cmd w else .ctrl w

/-- The place of an opcode-table word of `nbits` bits: 48 bits in the program store, 32 in a host register. -/
def tableWord (nbits w : Nat) : Option EncWord :=
  if nbits = 48 then some (.prog (BitVec.ofNat 48 w))
  else if nbits = 32 then some (tableWord32 (BitVec.ofNat 32 w))
  else none

/-- The instruction the decoder reads from an opcode-table word. -/
def decodeTableWord (nbits w : Nat) : Option Instr :=
  match tableWord nbits w with
  | none => none
  | some e =>
    match decode e with
    | .ok i => some i
    | .error _ => none

end Sys2Proof
end

