-- ==== Sys2Proof/Machine/State.lean ====
section
/-! DEFINITION. The state of one CN-CORE instance (spec/10_state.md R20 to R47), the reasons a step can stop, and
the state after reset. INVENTORY.md lists every field with its rule and its reset value.

Fields the spec does not name are the model's own and stand last: the position of a job inside its phase, the
values one rule leaves for the next, the parameters of R14 that belong to a machine or a job, and the queue of
what the outside world does (notes/assumptions/2.md, 3.md, 7.md, 8.md, 9.md). -/

namespace Sys2Proof.Machine

/-- A byte memory in canonical form: addresses strictly rising, no entry equal to what an unlisted address reads
as (0, notes/assumptions/10.md). `Memory.wf` says the form holds. -/
abbrev Memory := List Host.Cell

/-- The error codes of STATUS.ERRCODE (spec/30_encoding.md R94); codes 7 to 15 are never produced. -/
inductive ErrCode where
  | none
  | invalidInputLength
  | allocationFailure
  | badVariant
  | badLength
  | badCommand
  | internalFault
deriving DecidableEq, Repr

/-- The phases of spec/43_mixing_loop.md R200; codes 12 to 15 are never entered. -/
inductive Phase where
  | idle | check | absorb | setup | rmGen | fill | mix | finalFill | permute | extra | done | error
deriving DecidableEq, Repr

/-- Where an outer iteration of phase MIX stands: the next rule of spec/43_mixing_loop.md to apply. -/
inductive MixStep where
  /-- the iteration starts, or the phase ends after 2^19 of them (R204, R215) -/
  | half1Aes
  /-- shuffle-add of half-iteration 1 (R205) -/
  | half1Shuffle
  /-- store of half-iteration 1 (R206) -/
  | half1Store
  /-- load of half-iteration 2 (R207) -/
  | half2Load
  /-- integer math (R208), or the seeding of the random-math run (R209, R291) -/
  | half2Math
  /-- the random-math machine runs: each step executes PROG[rpc] (R271) -/
  | rmRun
  /-- the fold of r[0..3] into a1 (R293) -/
  | rmFold
  /-- the 128-bit product (R210) -/
  | half2Mul
  /-- the second fold (R211, R252) -/
  | half2Fold
  /-- the second shuffle-add (R211) -/
  | half2Shuffle
  /-- accumulate and store (R212) -/
  | half2Store
  /-- end of the iteration (R213) -/
  | iterEnd
deriving DecidableEq, Repr

/-- Where the program generator stands in phase RM_GEN: the next rule of spec/45_random_math.md to apply. -/
inductive GenStage where
  /-- load the seed (R301) -/
  | seed
  /-- start an attempt (R304) -/
  | attempt
  /-- one pass of the decode loop (R305) -/
  | decode
  /-- one pass of the padding loop (R309) -/
  | pad
  /-- keep or drop the attempt (R310, R311) -/
  | output
deriving DecidableEq, Repr

/-- The generator's state (spec/10_state.md R44): the seed buffer and index (R301) and the scratch tables of one
attempt (R304). -/
structure GenState where
  /-- GD, the 32-byte seed buffer -/
  gd : Vector Byte 32
  /-- GI, the index of the next seed byte, 0 .. 32 -/
  gi : BitVec 6
  /-- the latency counter of each register -/
  lat : Vector Nat 9
  /-- the ASIC latency counter of each register -/
  alat : Vector Nat 9
  /-- the instruction-history tag of each register (R308) -/
  inst : Vector (BitVec 24) 9
  /-- the ALU-busy table, one row per cycle 0 .. 45, one column per ALU -/
  busy : Vector (Vector Bool 3) 46
  /-- the last accepted instruction on the register was a rotation -/
  rotated : Vector Bool 4
  rotCount : Nat
  retries : Nat
  steps : Nat
  r8Used : Bool
  /-- the program so far, first instruction first -/
  code : List Instr
  /-- the length of `code` when the padding began (R309) -/
  prevLen : Nat
  /-- the model's own: the generator's next rule -/
  stage : GenStage
deriving DecidableEq, Repr

/-- What the outside world does to the core, one event each (spec/20_memory.md R64, R65;
spec/70_reset_and_hazards.md R420; spec/42_scratchpad.md R180). The order of the events in `State.inputs` says
which agent moves next (notes/assumptions/7.md). -/
inductive Input where
  /-- a host read of `width` bytes at window offset `off` -/
  | read (off : BitVec 16) (width : Nat)
  /-- a host write of the low `width` bytes of `value` at window offset `off` -/
  | write (off : BitVec 16) (width : Nat) (value : W32)
  /-- the host leaves the core one step before its next access -/
  | core
  /-- the reset input is asserted and released -/
  | reset
  /-- the platform's answer to the next buffer request becomes `granted` -/
  | grant (granted : Bool)
deriving DecidableEq, Repr

/-- The state of one CN-CORE instance. -/
structure State where
  -- host-visible registers and buffers (spec/10_state.md section 1)
  /-- CTRL.IE (R20); START and CLR always read 0 and hold nothing -/
  ie : Bool
  /-- CMD (R21), its reserved bits always 0 -/
  cmd : W32
  /-- LEN (R22) -/
  len : W32
  /-- HEIGHT_LO (R23) -/
  heightLo : W32
  /-- HEIGHT_HI (R23) -/
  heightHi : W32
  /-- STATUS.BUSY (R24) -/
  busy : Bool
  /-- STATUS.DONE (R24) -/
  done : Bool
  /-- STATUS.ERR (R24) -/
  err : Bool
  /-- STATUS.ERRCODE (R24) -/
  errcode : ErrCode
  /-- STATUS.PHASE (R24), the phase of the FSM (R45) -/
  phase : Phase
  /-- PROGRESS (R25) -/
  progress : W32
  /-- DIGEST (R26) -/
  digest : Vector Byte 32
  /-- SW, the state window (R27) -/
  sw : Vector Byte 200
  /-- MSG, the message buffer, by index (R28) -/
  msg : Memory
  -- sponge and key state (section 2)
  /-- S, the hash state, in its lane view (R30) -/
  hashState : Lanes
  /-- RK1 (R32) -/
  rk1 : Vector Block 10
  /-- RK2 (R32) -/
  rk2 : Vector Block 10
  /-- TEXT, eight sub-blocks (R33) -/
  text : Vector Block 8
  -- scratchpad (section 3)
  /-- SP, by byte address (R34) -/
  sp : Memory
  /-- the controller's ownership flag (spec/42_scratchpad.md R188) -/
  spOwned : Bool
  -- mixing-loop working registers (section 4)
  /-- a (R35) -/
  a : Block
  /-- b0 (R36) -/
  b0 : Block
  /-- b1 (R36) -/
  b1 : Block
  /-- c (R37) -/
  c : Block
  /-- t (R37) -/
  t : Block
  /-- a1 (R37) -/
  a1 : Block
  /-- hi (R37) -/
  hi : W64
  /-- lo (R37) -/
  lo : W64
  /-- div_r (R38) -/
  divR : W64
  /-- sqrt_r (R38) -/
  sqrtR : W64
  /-- tweak12 (R39) -/
  tweak12 : W64
  -- random-math machine (section 5)
  /-- r[0] .. r[8] (R40) -/
  r : Vector W32 9
  /-- PROG[0] .. PROG[70] (R41) -/
  prog : Vector ProgWord 71
  /-- PLEN (R41) -/
  plen : BitVec 7
  /-- rpc (R42) -/
  rpc : BitVec 7
  /-- the generator's state (R44) -/
  gen : GenState
  -- sequencing (section 6); the phase is STATUS.PHASE
  /-- blk, Keccak blocks absorbed (R45) -/
  blk : Nat
  /-- g, the group index of FILL and FINAL_FILL (R45) -/
  g : Nat
  /-- i, the outer iteration index (R45) -/
  i : Nat
  /-- OP as latched at START (R45, R350) -/
  jobOp : BitVec 2
  /-- VARIANT as latched -/
  jobVariant : BitVec 3
  /-- PREHASHED as latched -/
  jobPrehashed : Bool
  /-- LEN as latched -/
  jobLen : W32
  /-- HEIGHT as latched -/
  jobHeight : W64
  -- the model's own
  /-- the next rule of an outer iteration -/
  mixStep : MixStep
  /-- j1, the address of half-iteration 1 (spec/43_mixing_loop.md R204) -/
  j1 : BitVec 21
  /-- j2, the address of half-iteration 2 (R207) -/
  j2 : BitVec 21
  /-- newa, between R212 and R213 -/
  newa : Block
  /-- MSG_MAX - 200 (R14): the machine's parameter, never written -/
  msgMaxExtra : Fin 32569
  /-- sp_grant (R14): the buffer interface's answer to the next request -/
  spGrant : Bool
  /-- what the outside world will do, first event first -/
  inputs : List Input
  /-- the value the last host read returned -/
  hostData : W32
deriving DecidableEq, Repr

/-- MSG_MAX, 200 <= MSG_MAX <= 32768 by construction (spec/00_scope.md R14). -/
abbrev State.msgMax (s : State) : Nat := 200 + s.msgMaxExtra.val

/-- Why the machine stops. No state that `Sys2Proof.Safety`'s invariant allows reaches one (spec/60_exceptions.md
R388: no datapath operation can fail). -/
inductive Fault where
  /-- Raised by the fetch of PROG[rpc] when rpc > 70: the store has 71 entries (R41). Safe: the machine stops
  where no program of the generator goes. -/
  | progOutOfRange
  /-- Raised by phase ABSORB when the latched length is above MSG_MAX: the buffer has MSG_MAX bytes (R28). Safe:
  phase CHECK refuses such a job before. -/
  | messageOutOfRange
  /-- Raised by a job in a phase that R201 does not give its command: there is no such transition. Safe. -/
  | phaseOutOfSequence
deriving DecidableEq, Repr

/-- Why an instruction has no meaning. -/
inductive Refusal where
  /-- Raised by an arm of `exec` for an instruction that is not modelled; no arm does. Safe. -/
  | notModelled (mnemonic : String)
deriving DecidableEq, Repr

/-- The generator's state after reset: unspecified by the spec (R44, R47); zeros (notes/assumptions/11.md). -/
def GenState.reset : GenState where
  gd := Vector.replicate 32 0
  gi := 0
  lat := Vector.replicate 9 0
  alat := Vector.replicate 9 0
  inst := Vector.replicate 9 0
  busy := Vector.replicate 46 (Vector.replicate 3 false)
  rotated := Vector.replicate 4 false
  rotCount := 0
  retries := 0
  steps := 0
  r8Used := false
  code := []
  prevLen := 0
  stage := .seed

/-- The machine right after reset (spec/10_state.md R47, spec/70_reset_and_hazards.md R420). SW, MSG, SP and every
internal datapath register are unspecified there: this state holds zeros (notes/assumptions/10.md, 11.md). -/
def State.reset : State where
  ie := false
  cmd := 0
  len := 0
  heightLo := 0
  heightHi := 0
  busy := false
  done := false
  err := false
  errcode := .none
  phase := .idle
  progress := 0
  digest := Vector.replicate 32 0
  sw := Vector.replicate 200 0
  msg := []
  hashState := Vector.replicate 25 0
  rk1 := Vector.replicate 10 0
  rk2 := Vector.replicate 10 0
  text := Vector.replicate 8 0
  sp := []
  spOwned := false
  a := 0
  b0 := 0
  b1 := 0
  c := 0
  t := 0
  a1 := 0
  hi := 0
  lo := 0
  divR := 0
  sqrtR := 0
  tweak12 := 0
  r := Vector.replicate 9 0
  prog := Vector.replicate 71 0
  plen := 0
  rpc := 0
  gen := GenState.reset
  blk := 0
  g := 0
  i := 0
  jobOp := 0
  jobVariant := 0
  jobPrehashed := false
  jobLen := 0
  jobHeight := 0
  mixStep := .half1Aes
  j1 := 0
  j2 := 0
  newa := 0
  msgMaxExtra := 32568
  spGrant := true
  inputs := []
  hostData := 0

end Sys2Proof.Machine
end

