-- ==== Sys2Proof/Machine/Flags.lean ====
section
/-! DEFINITION. The status bits, their encodings and the interrupt output. CN-CORE has no condition codes: the only
status bits are those of STATUS, and no datapath operation writes one (spec/10_state.md R43, R46). -/

namespace Sys2Proof.Machine

/-- The code of STATUS.ERRCODE (spec/30_encoding.md R94). -/
def ErrCode.code : ErrCode → BitVec 4
  | .none => 0
  | .invalidInputLength => 1
  | .allocationFailure => 2
  | .badVariant => 3
  | .badLength => 4
  | .badCommand => 5
  | .internalFault => 6

/-- The code of STATUS.PHASE (spec/43_mixing_loop.md R200). -/
def Phase.code : Phase → BitVec 4
  | .idle => 0
  | .check => 1
  | .absorb => 2
  | .setup => 3
  | .rmGen => 4
  | .fill => 5
  | .mix => 6
  | .finalFill => 7
  | .permute => 8
  | .extra => 9
  | .done => 10
  | .error => 11

/-- The phases in which a job runs (R200, spec/10_state.md R24): STATUS.BUSY is 1 in these and in no other. -/
def Phase.running : Phase → Bool
  | .idle => false
  | .check => true
  | .absorb => true
  | .setup => true
  | .rmGen => true
  | .fill => true
  | .mix => true
  | .finalFill => true
  | .permute => true
  | .extra => true
  | .done => false
  | .error => false

/-- STATUS as the host reads it (spec/30_encoding.md R93): PHASE in 11:8, ERRCODE in 7:4, ERR, DONE and BUSY in
bits 2, 1 and 0, every other bit 0. -/
def State.statusWord (s : State) : W32 :=
  0#20 ++ s.phase.code ++ s.errcode.code ++ 0#1 ++ BitVec.ofBool s.err ++ BitVec.ofBool s.done ++ BitVec.ofBool s.busy

/-- CTRL as the host reads it: IE in bit 1, every other bit 0 (spec/10_state.md R20). -/
def State.ctrlWord (s : State) : W32 := 0#30 ++ BitVec.ofBool s.ie ++ 0#1

/-- The interrupt output (spec/60_exceptions.md R392). -/
def State.irq (s : State) : Bool := s.ie && (s.done || s.err)

end Sys2Proof.Machine
end

