-- ==== Sys2Proof/Machine/Bytes.lean ====
section
/-! DEFINITION. Byte order and the byte views of wider values (spec/00_scope.md R15, spec/20_memory.md R60):
everything is little-endian here; BLAKE-256's big-endian words (R61) are in Sys2Proof/Machine/Blake.lean. -/

namespace Sys2Proof.Machine

/-- Byte k of a value: bits 8k+7 .. 8k (R60). -/
def byteOf {n : Nat} (v : BitVec n) (k : Nat) : Byte := v.extractLsb' (8 * k) 8

/-- The number a byte string stands for, byte 0 least significant (R15, R60). -/
def leNat : List Byte → Nat
  | [] => 0
  | b :: bs => b.toNat + 256 * leNat bs

/-- The 16-byte value whose byte k is `f k`. -/
def blockOf (f : Nat → Byte) : Block := BitVec.ofNat 128 (leNat ((List.range 16).map f))

/-- The 64-bit value whose byte k is `f k`. -/
def word64Of (f : Nat → Byte) : W64 := BitVec.ofNat 64 (leNat ((List.range 8).map f))

/-- lo64 of R15. -/
def lo64 (x : Block) : W64 := x.extractLsb' 0 64

/-- hi64 of R15. -/
def hi64 (x : Block) : W64 := x.extractLsb' 64 64

/-- `bytes64(lo) || bytes64(hi)` of R15. -/
def mkBlock (lo hi : W64) : Block := hi ++ lo

/-- The low 32 bits of a 64-bit half. -/
def lo32 (v : W64) : W32 := v.extractLsb' 0 32

/-- The high 32 bits of a 64-bit half. -/
def hi32 (v : W64) : W32 := v.extractLsb' 32 32

/-- `low | high << 32`. -/
def mk64 (low high : W32) : W64 := high ++ low

/-- The 200 bytes of a lane view (spec/10_state.md R30). -/
@[irreducible] def bytesOfLanes (A : Lanes) : Vector Byte 200 :=
  Vector.ofFn fun i : Fin 200 => byteOf (A[i.val / 8]'(by omega)) (i.val % 8)

/-- The lane view of 200 bytes: lane i is LE64(S, 8i) (R30). -/
@[irreducible] def lanesOfBytes (B : Vector Byte 200) : Lanes :=
  Vector.ofFn fun i : Fin 25 => word64Of fun k => B.toArray.getD (8 * i.val + k) 0

/-- Bytes 16k .. 16k+15 of the state as a 16-byte value, k = 0 .. 11 (R30). -/
def laneBlock (A : Lanes) (k : Fin 12) : Block := mkBlock A[2 * k.val] A[2 * k.val + 1]

end Sys2Proof.Machine
end

