-- ==== Sys2Proof/Machine/Memory.lean ====
section
/-! DEFINITION. The operations over a byte memory in canonical form: the scratchpad SP (spec/20_memory.md R67 to
R70) and the message buffer MSG (spec/10_state.md R28). Byte order is decided once, in `Memory.readLE` and
`Memory.writeLE` (R60). -/

namespace Sys2Proof.Machine

/-- What an address that no entry lists reads as. The spec gives the contents of SP and MSG at reset, and of SP
at the start of a job, as unspecified (R27, R28, R34, R71): 0 here (notes/assumptions/10.md). -/
def unlisted : Byte := 0

/-- Every listed address is above `below`, the addresses rise strictly, and no entry holds what an unlisted
address reads as. -/
def Memory.wfFrom : Nat → Memory → Bool
  | _, [] => true
  | below, (k, b) :: m => decide (below ≤ k) && decide (b ≠ unlisted) && Memory.wfFrom (k + 1) m

/-- The canonical form. -/
def Memory.wf (m : Memory) : Bool := Memory.wfFrom 0 m

/-- Every listed address is below `bound`. -/
def Memory.within (bound : Nat) (m : Memory) : Bool := m.all fun cell => decide (cell.1 < bound)

/-- The byte at an address. -/
def Memory.read : Memory → Nat → Byte
  | [], _ => unlisted
  | (k, b) :: m, a => if a < k then unlisted else if a = k then b else Memory.read m a

/-- The entry for a byte in front of a memory, none where the byte is what an unlisted address reads as. -/
def Memory.cons (a : Nat) (v : Byte) (m : Memory) : Memory := if v = unlisted then m else (a, v) :: m

/-- Write one byte, keeping the canonical form. -/
def Memory.write : Memory → Nat → Byte → Memory
  | [], a, v => Memory.cons a v []
  | (k, b) :: m, a, v =>
    if a < k then Memory.cons a v ((k, b) :: m)
    else if a = k then Memory.cons a v m
    else (k, b) :: Memory.write m a v

/-- The n bytes at a, as a little-endian number (R60). -/
def Memory.readLE (m : Memory) : Nat → Nat → Nat
  | _, 0 => 0
  | a, n + 1 => (m.read a).toNat + 256 * Memory.readLE m (a + 1) n

/-- Write the low n bytes of a number at a, little-endian (R60). -/
def Memory.writeLE : Memory → Nat → Nat → Nat → Memory
  | m, _, 0, _ => m
  | m, a, n + 1, v => Memory.writeLE (m.write a (BitVec.ofNat 8 v)) (a + 1) n (v / 256)

/-- MemRead(addr, 16) (spec/00_scope.md R17, spec/20_memory.md R68). -/
@[irreducible] def Memory.readBlock (m : Memory) (a : Nat) : Block := BitVec.ofNat 128 (m.readLE a 16)

/-- MemWrite(addr, 16, v). -/
@[irreducible] def Memory.writeBlock (m : Memory) (a : Nat) (v : Block) : Memory := m.writeLE a 16 v.toNat

/-- LE64 of the bytes at a. -/
@[irreducible] def Memory.read64 (m : Memory) (a : Nat) : W64 := BitVec.ofNat 64 (m.readLE a 8)

end Sys2Proof.Machine
end

