-- ==== Sys2Proof/Machine/Ops.lean ====
section
/-! DEFINITION. The operations over the state that instructions share: the scratchpad port, moving between phases,
ending a job well, raising a job error (CN-CORE's one kind of exception, spec/60_exceptions.md section 1) and the
two ways the host leaves an error (R386). -/

namespace Sys2Proof.Machine

/-- MemRead(addr, 16) of the controller's port (spec/42_scratchpad.md R181). -/
def State.memRead (s : State) (addr : BitVec 21) : Block := s.sp.readBlock addr.toNat

/-- MemWrite(addr, 16, v) of the controller's port (R181). -/
def State.memWrite (s : State) (addr : BitVec 21) (v : Block) : State :=
  { s with sp := s.sp.writeBlock addr.toNat v }

/-- Enter a phase: PROGRESS is set to 0 at the start of each (spec/10_state.md R25). -/
def State.enterPhase (p : Phase) (s : State) : State := { s with phase := p, progress := 0 }

/-- Taking an exception: `raise JobError(code)` (spec/60_exceptions.md R383, spec/00_scope.md R18). The job's
ownership of the buffer ends with it (spec/42_scratchpad.md R180). Nothing else is rolled back. DESIGN CHOICE: the
internal registers keep their values (notes/assumptions/21.md). -/
def State.raiseJobError (code : ErrCode) (s : State) : State :=
  { s with errcode := code, err := true, done := false, busy := false, phase := .error, progress := 0,
           spOwned := false }

/-- Return from an error or a finished job by CLR (spec/47_commands.md R352, spec/60_exceptions.md R386); ignored
while a job runs. -/
def State.clrStatus (s : State) : State :=
  if s.busy then s
  else { s with done := false, err := false, errcode := .none, phase := .idle, progress := 0 }

/-- The accepted START (spec/47_commands.md R350): status cleared, BUSY set, phase CHECK, the parameters latched;
ignored while a job runs. It also leaves an error (spec/60_exceptions.md R386). -/
def State.startJob (s : State) : State :=
  if s.busy then s
  else
    { s with
      done := false, err := false, errcode := .none, busy := true, phase := .check, progress := 0
      jobOp := cmdOp s.cmd, jobVariant := cmdVariant s.cmd, jobPrehashed := cmdPrehashed s.cmd
      jobLen := s.len, jobHeight := s.heightHi ++ s.heightLo }

/-- A write to CTRL: IE, then CLR, then START (spec/47_commands.md R353). -/
def State.ctrlWrite (ie clr start : Bool) (s : State) : State :=
  let s1 : State := { s with ie := ie }
  let s2 := if clr then s1.clrStatus else s1
  if start then s2.startJob else s2

/-- The end of a job without error: BUSY 0, DONE 1, phase DONE, PROGRESS 0 (R360, R368). The job's ownership of
the buffer ends with it (spec/42_scratchpad.md R187). DESIGN CHOICE: RK1, RK2 and the other internal registers keep
the job's last values until a later job writes them; the spec gives any value between jobs
(spec/93_implementation_defined.md I8, spec/10_state.md R32; notes/assumptions/21.md). -/
def State.finishOk (s : State) : State :=
  { s with busy := false, done := true, phase := .done, progress := 0, spOwned := false }

/-- finish_ok_digest(d) (R360). -/
def State.finishOkDigest (d : Vector Byte 32) (s : State) : State := { s with digest := d }.finishOk

/-- The checks of phase CHECK in their order (spec/60_exceptions.md R381): the code of the first that fails. -/
def checkJob (op : BitVec 2) (variant : BitVec 3) (prehashed : Bool) (len msgMax : Nat) (grant : Bool) :
    Option ErrCode :=
  if op = 3 then some .badCommand
  else if op = 2 then none
  else if op = 0 ∧ variant.toNat > 4 then some .badVariant
  else if len > msgMax then some .badLength
  else if op = 1 then none
  else if variant = 1 ∧ len < 43 then some .invalidInputLength
  else if prehashed ∧ len ≠ 200 then some .badLength
  else if !grant then some .allocationFailure
  else none

/-- Byte i of the message buffer. -/
def State.msgByte (s : State) (i : Nat) : Byte := s.msg.read i

/-- The sub-blocks TEXT_0 .. TEXT_7 of S[64 .. 192) (spec/10_state.md R33). -/
@[irreducible] def textOf (S : Lanes) : Vector Block 8 := Vector.ofFn fun k : Fin 8 => laneBlock S ⟨k.val + 4, by omega⟩

/-- S with TEXT in S[64 .. 192), lanes 8 .. 23 (spec/46_finalization.md R322). -/
@[irreducible] def withText (S : Lanes) (text : Vector Block 8) : Lanes :=
  Vector.ofFn fun i : Fin 25 =>
    if h : 8 ≤ i.val ∧ i.val < 24 then
      let x := text[(i.val - 8) / 2]'(by omega)
      if i.val % 2 = 0 then lo64 x else hi64 x
    else S[i]

end Sys2Proof.Machine
end

