-- ==== Sys2Proof/Machine/HostCommands.lean ====
section
/-! DEFINITION. The two command bits of CTRL (spec/47_commands.md R350 to R353). -/

namespace Sys2Proof.Machine

/-- A CTRL write with START = 1 (R350, R353): IE takes its bit, CLR acts first if set, then START. -/
def execStart (ie clr : Bool) (s : State) : Host.Outcome State Fault Refusal := .next (s.ctrlWrite ie clr true)

/-- A CTRL write with CLR = 1 (R352, R353): IE takes its bit, then CLR acts, then START if set. -/
def execClr (withStart ie : Bool) (s : State) : Host.Outcome State Fault Refusal :=
  .next (s.ctrlWrite ie true withStart)

end Sys2Proof.Machine
end

