-- ==== Sys2Proof/Config.lean ====
section
/-! DEFINITION. The parameters of spec/00_scope.md R14 that no state of the machine holds: the three terminal
hash functions the spec leaves OPEN (R11, D19). Each is a total function from the 200 bytes of the state to a
32-byte digest, with no body: nothing can be proved about its values (notes/assumptions/1.md).

The other parameters of R14 stand elsewhere: `MSG_MAX` and the `sp_grant` line are fields of State
(notes/assumptions/2.md, 3.md), and `N_CORES` is out of the model (notes/assumptions/4.md). -/

namespace Sys2Proof

/-- `Groestl256` of spec/46_finalization.md R337, an OPEN parameter (free value). -/
opaque Config.groestl256 : Vector Byte 200 → Vector Byte 32

/-- `JH256` of spec/46_finalization.md R338, an OPEN parameter (free value). -/
opaque Config.jh256 : Vector Byte 200 → Vector Byte 32

/-- `Skein256` of spec/46_finalization.md R339, an OPEN parameter (free value). -/
opaque Config.skein256 : Vector Byte 200 → Vector Byte 32

end Sys2Proof
end

