-- ==== Sys2Proof/Machine/Blake.lean ====
section
/-! DEFINITION. BLAKE-256 (spec/46_finalization.md R330 to R336). Its message words, its length field and its
digest are big-endian (spec/20_memory.md R61). -/

namespace Sys2Proof.Machine

/-- IV[0..7] (R330). -/
def blakeIV : Vector W32 8 :=
  #v[0x6A09E667, 0xBB67AE85, 0x3C6EF372, 0xA54FF53A, 0x510E527F, 0x9B05688C, 0x1F83D9AB, 0x5BE0CD19]

/-- K[0..15] (R330). -/
def blakeK : Vector W32 16 :=
  #v[0x243F6A88, 0x85A308D3, 0x13198A2E, 0x03707344, 0xA4093822, 0x299F31D0, 0x082EFA98, 0xEC4E6C89,
     0x452821E6, 0x38D01377, 0xBE5466CF, 0x34E90C6C, 0xC0AC29B7, 0xC97C50DD, 0x3F84D5B5, 0xB5470917]

/-- sigma[0..9] (R331). -/
def blakeSigma : Vector (Vector (Fin 16) 16) 10 :=
  #v[#v[0, 1, 2, 3, 4, 5, 6, 7, 8, 9, 10, 11, 12, 13, 14, 15],
     #v[14, 10, 4, 8, 9, 15, 13, 6, 1, 12, 0, 2, 11, 7, 5, 3],
     #v[11, 8, 12, 0, 5, 2, 15, 13, 10, 14, 3, 6, 7, 1, 9, 4],
     #v[7, 9, 3, 1, 13, 12, 11, 14, 2, 6, 5, 10, 4, 0, 15, 8],
     #v[9, 0, 5, 7, 2, 4, 10, 15, 14, 1, 11, 12, 6, 8, 3, 13],
     #v[2, 12, 6, 10, 0, 11, 8, 3, 4, 13, 7, 5, 15, 14, 1, 9],
     #v[12, 5, 1, 15, 14, 13, 4, 10, 0, 7, 6, 3, 9, 2, 8, 11],
     #v[13, 11, 7, 14, 12, 1, 3, 9, 5, 0, 15, 4, 8, 6, 2, 10],
     #v[6, 15, 14, 9, 11, 3, 0, 8, 12, 2, 13, 7, 1, 4, 10, 5],
     #v[10, 2, 8, 4, 7, 6, 1, 5, 15, 11, 9, 14, 3, 12, 13, 0]]

/-- G(r, i, a, b, c, d) on the words v, for message words m (R332). -/
def blakeG (m : Vector W32 16) (r : Nat) (i : Fin 8) (a b c d : Fin 16) (v : Vector W32 16) : Vector W32 16 :=
  let s := blakeSigma[r % 10]
  let s0 := s[2 * i.val]
  let s1 := s[2 * i.val + 1]
  let v := v.set a (v[a] + v[b] + (m[s0] ^^^ blakeK[s1]))
  let v := v.set d ((v[d] ^^^ v[a]).rotateRight 16)
  let v := v.set c (v[c] + v[d])
  let v := v.set b ((v[b] ^^^ v[c]).rotateRight 12)
  let v := v.set a (v[a] + v[b] + (m[s1] ^^^ blakeK[s0]))
  let v := v.set d ((v[d] ^^^ v[a]).rotateRight 8)
  let v := v.set c (v[c] + v[d])
  v.set b ((v[b] ^^^ v[c]).rotateRight 7)

/-- Round r: the eight G of R333, columns then diagonals. -/
def blakeRound (m : Vector W32 16) (v : Vector W32 16) (r : Nat) : Vector W32 16 :=
  let v := blakeG m r 3 3 7 11 15 (blakeG m r 2 2 6 10 14 (blakeG m r 1 1 5 9 13 (blakeG m r 0 0 4 8 12 v)))
  blakeG m r 7 3 4 9 14 (blakeG m r 6 2 7 8 13 (blakeG m r 5 1 6 11 12 (blakeG m r 4 0 5 10 15 v)))

/-- v[0..15] at the start of a compression (R333). -/
def blakeInit (h : Vector W32 8) (t : Nat) : Vector W32 16 :=
  let tl := BitVec.ofNat 32 t
  let th := BitVec.ofNat 32 (t / 2 ^ 32)
  #v[h[0], h[1], h[2], h[3], h[4], h[5], h[6], h[7], blakeK[0], blakeK[1], blakeK[2], blakeK[3],
     blakeK[4] ^^^ tl, blakeK[5] ^^^ tl, blakeK[6] ^^^ th, blakeK[7] ^^^ th]

/-- Big-endian 32-bit word i of a byte string (R333). -/
def beWord (B : List Byte) (i : Nat) : W32 :=
  B.getD (4 * i) 0 ++ B.getD (4 * i + 1) 0 ++ B.getD (4 * i + 2) 0 ++ B.getD (4 * i + 3) 0

/-- compress(h, block, t) (R333). -/
def blakeCompress (h : Vector W32 8) (block : List Byte) (t : Nat) : Vector W32 8 :=
  let m : Vector W32 16 := Vector.ofFn fun i : Fin 16 => beWord block i.val
  let v := (List.range 14).foldl (blakeRound m) (blakeInit h t)
  Vector.ofFn fun i : Fin 8 => h[i] ^^^ v[i.val] ^^^ v[i.val + 8]

/-- The zero bytes between the 0x80 and the length field: as many as bring the length to 56 mod 64 (R334). -/
def blakeZeros (L : Nat) : Nat := (119 - L % 64) % 64

/-- The padding after a message of L bytes (R334): 0x80, zero bytes up to 56 mod 64, bit 0 set in the last of
them, the bit length in 8 big-endian bytes. -/
def blakePad (L : Nat) : List Byte :=
  let fill : List Byte := if blakeZeros L = 0 then [0x81#8] else 0x80#8 :: (List.replicate (blakeZeros L - 1) 0#8 ++ [0x01#8])
  fill ++ (List.range 8).map fun k => byteOf (BitVec.ofNat 64 (8 * L)) (7 - k)

/-- The counter of block k (R335). -/
def blakeCounter (L k : Nat) : Nat := if 512 * k < 8 * L then min (8 * L) (512 * (k + 1)) else 0

/-- The chain value after every block of the padded message (R336). -/
def blakeChain (M : List Byte) : Vector W32 8 :=
  let p := M ++ blakePad M.length
  (List.range (p.length / 64)).foldl
    (fun h k => blakeCompress h ((p.drop (64 * k)).take 64) (blakeCounter M.length k)) blakeIV

/-- BLAKE256(M) (R336). -/
@[irreducible] def blake256 (M : List Byte) : Vector Byte 32 :=
  let h := blakeChain M
  Vector.ofFn fun i : Fin 32 => byteOf (h[i.val / 4]'(by omega)) (3 - i.val % 4)

end Sys2Proof.Machine
end

