-- ==== Sys2Proof/Machine/Generator.lean ====
section
/-! DEFINITION. The random-math program generator (spec/45_random_math.md R300 to R312), one pass of its loops at a
time, and the byte records it reads (spec/30_encoding.md R105 to R108). Nothing bounds the number of attempts
(R313): a generation that never ends is a machine that steps for ever in phase RM_GEN. -/

namespace Sys2Proof.Machine

/-- The operations a record or the padding produces. -/
inductive GenOp where
  | mul | add | sub | ror | rol | xor
deriving DecidableEq, Repr

/-- The operation number of spec/30_encoding.md R100, used in the history tags (R307). -/
def GenOp.num : GenOp → BitVec 24
  | .mul => 0 | .add => 1 | .sub => 2 | .ror => 3 | .rol => 4 | .xor => 5

/-- LAT (R303). -/
def GenOp.latency : GenOp → Nat
  | .mul => 3 | .add => 2 | .sub => 1 | .ror => 2 | .rol => 2 | .xor => 1

/-- ALAT (R303). -/
def GenOp.asicLatency : GenOp → Nat
  | .mul => 3 | .add => 1 | .sub => 1 | .ror => 1 | .rol => 1 | .xor => 1

/-- A rotation. -/
def GenOp.isRotation : GenOp → Bool
  | .mul => false | .add => false | .sub => false | .ror => true | .rol => true | .xor => false

/-- The ALUs an operation may take, in the order they are tried: the highest index first (R303, R306). -/
def GenOp.alus : GenOp → List (Fin 3)
  | .mul => [0] | .add => [2, 1, 0] | .sub => [2, 1, 0] | .ror => [2, 1, 0] | .rol => [2, 1, 0] | .xor => [2, 1, 0]

/-- The instruction an accepted record or a padding entry stands for. -/
def GenOp.instr (op : GenOp) (d : Fin 4) (src : Fin 9) (const : W32) : Instr :=
  let dst := BitVec.ofNat 2 d.val
  let srcField := BitVec.ofNat 4 src.val
  match op with
  | .mul => .mul dst srcField
  | .add => .add dst srcField const
  | .sub => .sub dst srcField
  | .ror => .ror dst srcField
  | .rol => .rol dst srcField
  | .xor => .xor dst srcField

/-- TOTAL_LATENCY (R303). -/
def totalLatency : Nat := 45

/-- GD <- bytes64(HEIGHT) || 12 zero bytes || 0xDA || 11 zero bytes, GI <- 32 (R301). -/
@[irreducible] def genSeed (height : W64) (g : GenState) : GenState :=
  { g with
    gd := Vector.ofFn fun k : Fin 32 => if k.val < 8 then byteOf height k.val else if k.val = 20 then 0xDA#8 else 0#8
    gi := 32
    stage := .attempt }

/-- need(n) (R302). -/
def genNeed (n : Nat) (g : GenState) : GenState :=
  if g.gi.toNat + n > 32 then { g with gd := blake256 g.gd.toList, gi := 0 } else g

/-- The seed byte k places after GD[GI]. -/
def genByteAt (g : GenState) (k : Nat) : Byte := g.gd.toArray.getD (g.gi.toNat + k) 0

/-- need(n), then GI <- GI + n: the state from which the n bytes are read, and the state after. -/
def genSkip (n : Nat) (g : GenState) : GenState := { g with gi := g.gi + BitVec.ofNat 6 n }

/-- The state at the start of an attempt (R304). -/
@[irreducible] def genAttempt (g : GenState) : GenState :=
  { g with
    lat := Vector.replicate 9 0
    alat := Vector.replicate 9 0
    inst := #v[0, 1, 2, 3, 0xFFFFFF, 0xFFFFFF, 0xFFFFFF, 0xFFFFFF, 0xFFFFFF]
    busy := Vector.replicate 46 (Vector.replicate 3 false)
    rotated := Vector.replicate 4 false
    rotCount := 0
    retries := 0
    steps := 0
    r8Used := false
    code := []
    prevLen := 0
    stage := .decode }

/-- busy[row][alu]. -/
def genBusyAt (g : GenState) (row : Nat) (alu : Fin 3) : Bool :=
  match g.busy[row]? with
  | some slots => slots[alu]
  | none => false

/-- The busy table after busy[row][alu] <- true. -/
def busySet (busy : Vector (Vector Bool 3) 46) (row : Nat) (alu : Fin 3) : Vector (Vector Bool 3) 46 :=
  match busy[row]? with
  | some slots => busy.setIfInBounds row (slots.set alu true)
  | none => busy

/-- busy[row][alu] <- true. -/
def genSetBusy (g : GenState) (row : Nat) (alu : Fin 3) : GenState := { g with busy := busySet g.busy row alu }

/-- The ALU the operation takes at cycle nl, if one is free (R306's inner loop). -/
def genPickAlu (g : GenState) (op : GenOp) (nl : Nat) : Option (Fin 3) :=
  op.alus.find? fun alu =>
    !genBusyAt g nl alu && !(op = .add && genBusyAt g (nl + 1) alu) &&
      !(op.isRotation && decide (nl < g.rotCount * op.latency))

/-- R306's outer loop from cycle nl, over the `fuel` cycles left below 45: the cycle it stops at and the ALU. -/
def genFindSlot (g : GenState) (op : GenOp) : Nat → Nat → Nat × Option (Fin 3)
  | 0, nl => (nl, none)
  | fuel + 1, nl =>
    match genPickAlu g op nl with
    | some alu => (nl, some alu)
    | none => genFindSlot g op fuel (nl + 1)

/-- A register of the first four as a register of the file. -/
def genReg (d : Fin 4) : Fin 9 := ⟨d.val, by omega⟩

/-- The tables after an accept, before the constant is read and the instruction appended (R307). -/
def genClaim (op : GenOp) (d : Fin 4) (src : Fin 9) (nl : Nat) (alu : Fin 3) (g : GenState) : GenState :=
  { g with
    rotCount := if op.isRotation then g.rotCount + 1 else g.rotCount
    busy := busySet g.busy (nl - op.latency) alu
    lat := g.lat.set (genReg d) nl
    alat := g.alat.set (genReg d) (max g.alat[genReg d] g.alat[src] + op.asicLatency)
    rotated := g.rotated.set d op.isRotation
    inst := g.inst.set (genReg d)
      (BitVec.ofNat 24 g.code.length + (op.num <<< 8) + ((g.inst[src] &&& 0xFF#24) <<< 16))
    r8Used := g.r8Used || decide (src = 8) }

/-- LE32(GD, GI). -/
def genWord (g : GenState) : W32 := genByteAt g 3 ++ genByteAt g 2 ++ genByteAt g 1 ++ genByteAt g 0

/-- code.append. -/
def genAppend (i : Instr) (g : GenState) : GenState := { g with code := g.code ++ [i] }

/-- accept(op, d, s, nl, alu) (R307). -/
def genAccept (op : GenOp) (d : Fin 4) (src : Fin 9) (nl : Nat) (alu : Fin 3) (g : GenState) : GenState :=
  let claimed := genClaim op d src nl alu g
  if op = .add then
    let g1 := genNeed 4 (genSetBusy claimed (nl - op.latency + 1) alu)
    genAppend (op.instr d src (genWord g1)) (genSkip 4 g1)
  else genAppend (op.instr d src 0) claimed

/-- schedule(op, d, s) (R306). -/
def genSchedule (op : GenOp) (d : Fin 4) (src : Fin 9) (g : GenState) : GenState :=
  let first := max g.lat[genReg d] g.lat[src]
  let slot := genFindSlot g op (totalLatency - first) first
  if slot.1 > g.lat[genReg d] + 7 then g
  else
    match slot.2 with
    | some alu =>
      if slot.1 + op.latency ≤ totalLatency then genAccept op d src (slot.1 + op.latency) alu g
      else { g with retries := g.retries + 1 }
    | none => { g with retries := g.retries + 1 }

/-- The operation of a code byte, with the direction byte of a rotation (R105, R106). -/
def recordOp (cb db : Byte) : GenOp :=
  let opsel := (cb &&& 7).toNat
  if opsel = 5 then (if db.toNat < 0x80 then .ror else .rol)
  else if opsel ≥ 6 then .xor
  else if opsel ≤ 2 then .mul
  else if opsel = 3 then .add
  else .sub

/-- A record has a direction byte (R106). -/
def recordHasDirection (cb : Byte) : Bool := decide ((cb &&& 7) = 5#8)

/-- The destination of a code byte, bits 4:3 (R105). -/
def recordDst (cb : Byte) : Fin 4 := (cb.extractLsb' 3 2).toFin

/-- The source of a code byte, bits 7:5, or r[8] where ADD, SUB or XOR would read its destination (R105, R107). -/
def recordSrc (cb : Byte) (op : GenOp) : Fin 9 :=
  let src : BitVec 3 := cb.extractLsb' 5 3
  if (op = .add ∨ op = .sub ∨ op = .xor) ∧ src.toNat = (recordDst cb).val then 8
  else ⟨src.toNat, by have := src.isLt; omega⟩

/-- Reject 2 (R305, R308): the last writer of r[d] had the same operation and a source with the same tag. -/
def genSameAsLast (g : GenState) (op : GenOp) (d : Fin 4) (src : Fin 9) : Bool :=
  decide (op ≠ .mul ∧
    g.inst[genReg d] &&& 0xFFFF00#24 = (op.num <<< 8) + ((g.inst[src] &&& 0xFF#24) <<< 16))

/-- Rejects 1 and 2, else the scheduling (R305). -/
def genTry (op : GenOp) (d : Fin 4) (src : Fin 9) (g : GenState) : GenState :=
  if op.isRotation && g.rotated[d] then g
  else if genSameAsLast g op d src then g
  else genSchedule op d src g

/-- The record read, its instruction scheduled or rejected (R305 after the step count). -/
@[irreducible] def genRecord (g : GenState) : GenState :=
  let g1 := genNeed 1 g
  let cb := genByteAt g1 0
  let g2 := genSkip 1 g1
  if recordHasDirection cb then
    let g3 := genNeed 1 g2
    let op := recordOp cb (genByteAt g3 0)
    genTry op (recordDst cb) (recordSrc cb op) (genSkip 1 g3)
  else
    let op := recordOp cb 0
    genTry op (recordDst cb) (recordSrc cb op) g2

/-- A latency counter of r[0] .. r[3] is below TOTAL_LATENCY. -/
def genOpen (lat : Vector Nat 9) : Bool :=
  decide (lat[0] < totalLatency) || decide (lat[1] < totalLatency) ||
    decide (lat[2] < totalLatency) || decide (lat[3] < totalLatency)

/-- Leave the decode loop for the padding (R309). -/
def genToPad (g : GenState) : GenState := { g with prevLen := g.code.length, stage := .pad }

/-- One pass of the decode loop (R305): the loop ends when every latency counter reached 45, after 64 retries,
after 256 steps, or with 60 instructions. -/
def genDecode (g : GenState) : GenState :=
  if genOpen g.lat ∧ g.retries < 64 then
    let g1 := { g with steps := g.steps + 1 }
    if g1.steps > 256 then genToPad g1
    else
      let g2 := genRecord g1
      if g2.code.length ≥ 60 then genToPad g2 else g2
  else genToPad g

/-- The first register of r[0] .. r[3] with the least ASIC latency (R309). -/
def genLeast (alat : Vector Nat 9) : Fin 4 :=
  [1, 2, 3].foldl (fun mn i => if alat[genReg i] < alat[genReg mn] then i else mn) 0

/-- The first register of r[0] .. r[3] with the greatest ASIC latency (R309). -/
def genGreatest (alat : Vector Nat 9) : Fin 4 :=
  [1, 2, 3].foldl (fun mx i => if alat[genReg i] > alat[genReg mx] then i else mx) 0

/-- Every ASIC latency of r[0] .. r[3] is below TOTAL_LATENCY (R309). -/
def genAllOpen (alat : Vector Nat 9) : Bool :=
  decide (alat[0] < totalLatency) && decide (alat[1] < totalLatency) &&
    decide (alat[2] < totalLatency) && decide (alat[3] < totalLatency)

/-- The padding pattern ROR, MUL, MUL (R303, R309). -/
def padOp (n : Nat) : GenOp := if n % 3 = 0 then .ror else .mul

/-- One more instruction of the padding: r[mn] gets past r[mx] (R309). -/
def genPadWith (op : GenOp) (mn mx : Fin 4) (g : GenState) : GenState :=
  { g with
    lat := g.lat.set (genReg mn) (g.lat[genReg mx] + op.latency)
    alat := g.alat.set (genReg mn) (g.alat[genReg mx] + op.asicLatency)
    code := g.code ++ [op.instr mn (genReg mx) 0] }

/-- One pass of the padding loop (R309). -/
def genPad (g : GenState) : GenState :=
  if g.code.length < 70 ∧ genAllOpen g.alat then
    genPadWith (padOp (g.code.length - g.prevLen)) (genLeast g.alat) (genGreatest g.alat) g
  else { g with stage := .output }

/-- The attempt is kept (R310). -/
def genAccepted (g : GenState) : Bool :=
  g.r8Used && decide (60 ≤ g.code.length) && decide (g.code.length ≤ 70)

/-- The program store after the generator wrote a program and its RET (R311); entries above are left alone. -/
@[irreducible] def progStore (code : List Instr) (prog : Vector ProgWord 71) : Vector ProgWord 71 :=
  Vector.ofFn fun k : Fin 71 =>
    if k.val < code.length then progWordOf (code.getD k.val .ret)
    else if k.val = code.length then progWordOf .ret
    else prog[k]

/-- One pass of the generator in every stage but the last. -/
def genPass (height : W64) (g : GenState) : GenState :=
  match g.stage with
  | .seed => genSeed height g
  | .attempt => genAttempt g
  | .decode => genDecode g
  | .pad => genPad g
  | .output => { g with stage := .attempt }

end Sys2Proof.Machine
end

