-- ==== Sys2Proof/Machine/Aes.lean ====
section
/-! DEFINITION. AES key expansion, the AES round and the pseudo-round (spec/41_aes.md). Byte r + 4c of a block is
s[r, c] (R160). -/

namespace Sys2Proof.Machine

/-- Rows 0x to 7x of the S-box (R161). -/
def sboxLow : List (Vector Byte 16) :=
  [#v[0x63, 0x7c, 0x77, 0x7b, 0xf2, 0x6b, 0x6f, 0xc5, 0x30, 0x01, 0x67, 0x2b, 0xfe, 0xd7, 0xab, 0x76],
   #v[0xca, 0x82, 0xc9, 0x7d, 0xfa, 0x59, 0x47, 0xf0, 0xad, 0xd4, 0xa2, 0xaf, 0x9c, 0xa4, 0x72, 0xc0],
   #v[0xb7, 0xfd, 0x93, 0x26, 0x36, 0x3f, 0xf7, 0xcc, 0x34, 0xa5, 0xe5, 0xf1, 0x71, 0xd8, 0x31, 0x15],
   #v[0x04, 0xc7, 0x23, 0xc3, 0x18, 0x96, 0x05, 0x9a, 0x07, 0x12, 0x80, 0xe2, 0xeb, 0x27, 0xb2, 0x75],
   #v[0x09, 0x83, 0x2c, 0x1a, 0x1b, 0x6e, 0x5a, 0xa0, 0x52, 0x3b, 0xd6, 0xb3, 0x29, 0xe3, 0x2f, 0x84],
   #v[0x53, 0xd1, 0x00, 0xed, 0x20, 0xfc, 0xb1, 0x5b, 0x6a, 0xcb, 0xbe, 0x39, 0x4a, 0x4c, 0x58, 0xcf],
   #v[0xd0, 0xef, 0xaa, 0xfb, 0x43, 0x4d, 0x33, 0x85, 0x45, 0xf9, 0x02, 0x7f, 0x50, 0x3c, 0x9f, 0xa8],
   #v[0x51, 0xa3, 0x40, 0x8f, 0x92, 0x9d, 0x38, 0xf5, 0xbc, 0xb6, 0xda, 0x21, 0x10, 0xff, 0xf3, 0xd2]]

/-- Rows 8x to Fx of the S-box (R161). -/
def sboxHigh : List (Vector Byte 16) :=
  [#v[0xcd, 0x0c, 0x13, 0xec, 0x5f, 0x97, 0x44, 0x17, 0xc4, 0xa7, 0x7e, 0x3d, 0x64, 0x5d, 0x19, 0x73],
   #v[0x60, 0x81, 0x4f, 0xdc, 0x22, 0x2a, 0x90, 0x88, 0x46, 0xee, 0xb8, 0x14, 0xde, 0x5e, 0x0b, 0xdb],
   #v[0xe0, 0x32, 0x3a, 0x0a, 0x49, 0x06, 0x24, 0x5c, 0xc2, 0xd3, 0xac, 0x62, 0x91, 0x95, 0xe4, 0x79],
   #v[0xe7, 0xc8, 0x37, 0x6d, 0x8d, 0xd5, 0x4e, 0xa9, 0x6c, 0x56, 0xf4, 0xea, 0x65, 0x7a, 0xae, 0x08],
   #v[0xba, 0x78, 0x25, 0x2e, 0x1c, 0xa6, 0xb4, 0xc6, 0xe8, 0xdd, 0x74, 0x1f, 0x4b, 0xbd, 0x8b, 0x8a],
   #v[0x70, 0x3e, 0xb5, 0x66, 0x48, 0x03, 0xf6, 0x0e, 0x61, 0x35, 0x57, 0xb9, 0x86, 0xc1, 0x1d, 0x9e],
   #v[0xe1, 0xf8, 0x98, 0x11, 0x69, 0xd9, 0x8e, 0x94, 0x9b, 0x1e, 0x87, 0xe9, 0xce, 0x55, 0x28, 0xdf],
   #v[0x8c, 0xa1, 0x89, 0x0d, 0xbf, 0xe6, 0x42, 0x68, 0x41, 0x99, 0x2d, 0x0f, 0xb0, 0x54, 0xbb, 0x16]]

/-- SBOX[v]: row = high nibble, column = low nibble (R161). -/
def sbox (v : Byte) : Byte :=
  ((sboxLow ++ sboxHigh).getD (v.toNat / 16) (Vector.replicate 16 0))[v.toNat % 16]

/-- SubBytes (R163). -/
def subBytes (X : Block) : Block := blockOf fun k => sbox (byteOf X k)

/-- ShiftRows: X'[r + 4c] = X[r + 4((c + r) mod 4)] (R164). -/
def shiftRows (X : Block) : Block := blockOf fun k => byteOf X (k % 4 + 4 * ((k / 4 + k % 4) % 4))

/-- 2·v in GF(2^8) (R165). -/
def gf2 (v : Byte) : Byte := (v <<< 1) ^^^ (if v.getLsbD 7 then 0x1B#8 else 0#8)

/-- 3·v in GF(2^8) (R165). -/
def gf3 (v : Byte) : Byte := gf2 v ^^^ v

/-- MixColumns (R165): row r of a column is 2·a[r] ^ 3·a[r+1] ^ a[r+2] ^ a[r+3], rows mod 4. -/
def mixColumns (X : Block) : Block :=
  blockOf fun k =>
    let col := fun r : Nat => byteOf X ((k % 4 + r) % 4 + 4 * (k / 4))
    gf2 (col 0) ^^^ gf3 (col 1) ^^^ col 2 ^^^ col 3

/-- AESround(X, K) (R166). -/
@[irreducible] def aesRound (X K : Block) : Block := mixColumns (shiftRows (subBytes X)) ^^^ K

/-- pseudo_round(X, RK): ten rounds with RK[0] .. RK[9] (R167). -/
@[irreducible] def pseudoRound (X : Block) (rk : Vector Block 10) : Block := rk.toList.foldl aesRound X

/-- SubWord: the S-box on each byte of a 4-byte word. -/
def subWord (w : W32) : W32 := sbox (byteOf w 3) ++ sbox (byteOf w 2) ++ sbox (byteOf w 1) ++ sbox (byteOf w 0)

/-- The value t of word i from the word before it (R162): RotWord, SubWord and Rcon at multiples of 8, SubWord
alone at 4 mod 8. Rcon[1..4] = 1, 2, 4, 8 goes into byte 0. -/
def expandT (i : Nat) (prev : W32) : W32 :=
  if i % 8 = 0 then subWord (prev.rotateRight 8) ^^^ BitVec.ofNat 32 (2 ^ (i / 8 - 1))
  else if i % 8 = 4 then subWord prev
  else prev

/-- Append the next n words w[i] = w[i-8] ^ t to the words w[0 .. i) (R162). -/
def expandWords : Nat → List W32 → List W32
  | 0, w => w
  | n + 1, w =>
    expandWords n (w ++ [w.getD (w.length - 8) 0 ^^^ expandT w.length (w.getD (w.length - 1) 0)])

/-- The four words of a 16-byte value, byte order kept. -/
def blockWords (X : Block) : List W32 := [lo32 (lo64 X), hi32 (lo64 X), lo32 (hi64 X), hi32 (hi64 X)]

/-- expand(K) for the 32-byte key `k0 || k1`: RK[0] .. RK[9] (R162). -/
@[irreducible] def expandKey (k0 k1 : Block) : Vector Block 10 :=
  let w := expandWords 32 (blockWords k0 ++ blockWords k1)
  Vector.ofFn fun k : Fin 10 =>
    mkBlock (mk64 (w.getD (4 * k.val) 0) (w.getD (4 * k.val + 1) 0))
      (mk64 (w.getD (4 * k.val + 2) 0) (w.getD (4 * k.val + 3) 0))

end Sys2Proof.Machine
end

