-- ==== Sys2Proof/Machine/Keccak.lean ====
section
/-! DEFINITION. Keccak-f[1600] and the sponge absorb (spec/40_keccak.md). -/

namespace Sys2Proof.Machine

/-- A[x, y], lane x + 5y; the indices are mod 5 by their type (R130). -/
def lane (A : Lanes) (x y : Fin 5) : W64 := A[x.val + 5 * y.val]

/-- The lanes whose (x, y) is `f x y`. -/
def lanesOf (f : Fin 5 → Fin 5 → W64) : Lanes :=
  Vector.ofFn fun i : Fin 25 => f ⟨i.val % 5, by omega⟩ ⟨i.val / 5, by omega⟩

/-- C[x] of theta (R132). -/
def thetaC (A : Lanes) : Vector W64 5 :=
  Vector.ofFn fun x => lane A x 0 ^^^ lane A x 1 ^^^ lane A x 2 ^^^ lane A x 3 ^^^ lane A x 4

/-- D[x] of theta (R132). -/
def thetaD (C : Vector W64 5) : Vector W64 5 :=
  Vector.ofFn fun x => C[x - 1] ^^^ C[x + 1].rotateLeft 1

/-- Theta (R132). -/
def theta (A : Lanes) : Lanes :=
  let D := thetaD (thetaC A)
  lanesOf fun x y => lane A x y ^^^ D[x]

/-- The rotation offsets, one row per y (R133). -/
def rhoTable : Vector (Vector Nat 5) 5 :=
  #v[#v[0, 1, 62, 28, 27],
     #v[36, 44, 6, 55, 20],
     #v[3, 10, 43, 25, 39],
     #v[41, 45, 15, 21, 8],
     #v[18, 2, 61, 56, 14]]

/-- rho[x][y] (R133). -/
def rho (x y : Fin 5) : Nat := rhoTable[y][x]

/-- Rho and pi (R134), which sends A[x, y] to B[y, 2x + 3y]: the lane that comes to (X, Y) has y = X and
x = X + 3Y (mod 5). -/
def rhoPi (A : Lanes) : Lanes :=
  lanesOf fun X Y => (lane A (X + 3 * Y) X).rotateLeft (rho (X + 3 * Y) X)

/-- Chi (R135). -/
def chi (B : Lanes) : Lanes :=
  lanesOf fun x y => lane B x y ^^^ (~~~ (lane B (x + 1) y) &&& lane B (x + 2) y)

/-- Iota (R136). -/
def iota (rc : W64) (A : Lanes) : Lanes := A.set 0 (lane A 0 0 ^^^ rc)

/-- RC[0] .. RC[23] (R137). -/
def roundConstants : List W64 :=
  [0x0000000000000001#64, 0x0000000000008082#64, 0x800000000000808A#64, 0x8000000080008000#64,
   0x000000000000808B#64, 0x0000000080000001#64, 0x8000000080008081#64, 0x8000000000008009#64,
   0x000000000000008A#64, 0x0000000000000088#64, 0x0000000080008009#64, 0x000000008000000A#64]
  ++
  [0x000000008000808B#64, 0x800000000000008B#64, 0x8000000000008089#64, 0x8000000000008003#64,
   0x8000000000008002#64, 0x8000000000000080#64, 0x000000000000800A#64, 0x800000008000000A#64,
   0x8000000080008081#64, 0x8000000000008080#64, 0x0000000080000001#64, 0x8000000080008008#64]

/-- One round: theta, rho, pi, chi, iota (R131). -/
def keccakRound (A : Lanes) (rc : W64) : Lanes := iota rc (chi (rhoPi (theta A)))

/-- KeccakF on the lane view (R138): 24 rounds. -/
@[irreducible] def keccakF (A : Lanes) : Lanes := roundConstants.foldl keccakRound A

/-- The sponge rate in bytes (R140). -/
def rate : Nat := 136

/-- The number of KeccakF applications for a message of L bytes (R141 c). -/
def absorbBlocks (L : Nat) : Nat := L / rate + 1

/-- Byte j of the k-th absorbed block of a message of L bytes: the message byte where there is one; in the last
block 0x01 after the last message byte and 0x80 in byte 135 (R140, R141). -/
def absorbByte (msg : Nat → Byte) (L k j : Nat) : Byte :=
  let m := if rate * k + j < L then msg (rate * k + j) else 0
  let p := if rate * k + j = L then m ^^^ 0x01#8 else m
  if k = L / rate ∧ j = rate - 1 then p ||| 0x80#8 else p

/-- XOR 136 bytes into bytes 0 .. 135 of the state: lanes 0 .. 16 (R140). -/
def xorRate (S : Lanes) (p : Nat → Byte) : Lanes :=
  Vector.ofFn fun i : Fin 25 =>
    if i.val < 17 then S[i] ^^^ word64Of (fun b => p (8 * i.val + b)) else S[i]

/-- One KeccakF application of the absorb: the k-th block (R140). -/
@[irreducible] def absorbBlock (msg : Nat → Byte) (L k : Nat) (S : Lanes) : Lanes :=
  keccakF (xorRate S (absorbByte msg L k))

/-- The state of 200 zero bytes. -/
def zeroLanes : Lanes := Vector.replicate 25 0

/-- The first n KeccakF applications of `absorb` of the L bytes that `msg` gives (R140). -/
def absorbUpTo (msg : Nat → Byte) (L n : Nat) : Lanes :=
  (List.range n).foldl (fun S k => absorbBlock msg L k S) zeroLanes

/-- absorb(M) for the L bytes that `msg` gives (R140). -/
@[irreducible] def absorb (msg : Nat → Byte) (L : Nat) : Lanes := absorbUpTo msg L (absorbBlocks L)

/-- The first 32 bytes of a state (R144). -/
@[irreducible] def first32 (S : Lanes) : Vector Byte 32 :=
  Vector.ofFn fun i : Fin 32 => byteOf (S[i.val / 8]'(by omega)) (i.val % 8)

/-- fast_hash(M) = absorb(M)[0 .. 32) (R144). -/
@[irreducible] def fastHash (msg : Nat → Byte) (L : Nat) : Vector Byte 32 := first32 (absorb msg L)

end Sys2Proof.Machine
end

