-- ==== Sys2Proof/Machine/Scratchpad.lean ====
section
/-! DEFINITION. The phases that pass over the whole state or scratchpad, one unit of work at a time: ABSORB
(spec/40_keccak.md R140, R143), FILL (spec/42_scratchpad.md R183), FINAL_FILL (spec/46_finalization.md R321). A
phase is left by a step of its own after its last unit, so that its final PROGRESS can be seen
(spec/70_reset_and_hazards.md R441). -/

namespace Sys2Proof.Machine

/-- PROGRESS <- n, the units the phase has completed (spec/10_state.md R25). -/
def State.withProgress (n : Nat) (s : State) : State := { s with progress := BitVec.ofNat 32 n }

/-- Phase ABSORB begins: 200 zero bytes, no block absorbed (R140). -/
def State.enterAbsorb (s : State) : State := { s with hashState := zeroLanes, blk := 0 }.enterPhase .absorb

/-- One KeccakF application of phase ABSORB (R140, R143). -/
def State.absorbUnit (s : State) : State :=
  { s with hashState := absorbBlock s.msgByte s.jobLen.toNat s.blk s.hashState, blk := s.blk + 1 }.withProgress
    (s.blk + 1)

/-- Every block of the message is absorbed (R141 c). -/
def State.absorbDone (s : State) : Bool := decide (absorbBlocks s.jobLen.toNat ≤ s.blk)

/-- The number of groups of 128 bytes, 2^14 (spec/00_scope.md R12). -/
def groups : Nat := 2 ^ 14

/-- The eight sub-blocks of a group after the fill's pseudo-round (R183). -/
@[irreducible] def fillText (rk : Vector Block 10) (text : Vector Block 8) : Vector Block 8 :=
  Vector.ofFn fun k : Fin 8 => pseudoRound text[k] rk

/-- The eight MemWrites of group g (R183). -/
@[irreducible] def writeGroup (sp : Memory) (g : Nat) (text : Vector Block 8) : Memory :=
  (List.finRange 8).foldl (fun m k => m.writeBlock (128 * g + 16 * k.val) text[k]) sp

/-- Phase FILL begins: TEXT <- S[64 .. 192) (R183). -/
def State.enterFill (s : State) : State := { s with text := textOf s.hashState, g := 0 }.enterPhase .fill

/-- One group of phase FILL (R183). -/
def State.fillUnit (s : State) : State :=
  let text := fillText s.rk1 s.text
  { s with text := text, sp := writeGroup s.sp s.g text, g := s.g + 1 }.withProgress (s.g + 1)

/-- The eight sub-blocks of a group after the final fold's XOR and pseudo-round (R321). -/
@[irreducible] def foldText (rk : Vector Block 10) (sp : Memory) (g : Nat) (text : Vector Block 8) : Vector Block 8 :=
  Vector.ofFn fun k : Fin 8 => pseudoRound (text[k] ^^^ sp.readBlock (128 * g + 16 * k.val)) rk

/-- Phase FINAL_FILL begins: RK2 <- expand(S[32 .. 64)), TEXT <- S[64 .. 192) (R321). -/
def State.enterFinalFill (s : State) : State :=
  { s with rk2 := expandKey (laneBlock s.hashState 2) (laneBlock s.hashState 3), text := textOf s.hashState,
           g := 0 }.enterPhase .finalFill

/-- One group of phase FINAL_FILL (R321). -/
def State.finalFillUnit (s : State) : State :=
  { s with text := foldText s.rk2 s.sp s.g s.text, g := s.g + 1 }.withProgress (s.g + 1)

end Sys2Proof.Machine
end

