-- ==== Sys2Proof/Machine/Tweaks.lean ====
section
/-! DEFINITION. The variant tweak logic as functions of its operands (spec/44_variant_tweaks.md), and the address
function of spec/43_mixing_loop.md R203. -/

namespace Sys2Proof.Machine

/-- The shuffle-add runs (variants 2, 3 and 4, R240). -/
def shuffleGate (v : BitVec 3) : Bool := decide (2 ≤ v.toNat)

/-- Integer math, square root and second fold run (variants 2 and 3, R240). -/
def integerGate (v : BitVec 3) : Bool := decide (v = 2 ∨ v = 3)

/-- The random-math machine runs (variant 4, R240). -/
def randomGate (v : BitVec 3) : Bool := decide (v = 4)

/-- addr(X) = lo64(X) & 0x1FFFF0, a byte address of 21 bits (R203). -/
@[irreducible] def addrOf (x : Block) : BitVec 21 := (lo64 x).extractLsb' 0 21 &&& 0x1FFFF0#21

/-- tweak_byte11(w) (R242). -/
@[irreducible] def tweakByte11 (w : Block) : Block :=
  let x := byteOf w 11
  let idx := (((x >>> 3) &&& 6) ||| (x &&& 1)) <<< 1
  let m : BitVec 20 := (0x75310#20 >>> idx.toNat) &&& 0x30
  w ^^^ (m.setWidth 128 <<< 88)

/-- tweak_half2(w) (R244). -/
def tweakHalf2 (tweak12 : W64) (w : Block) : Block := mkBlock (lo64 w) (hi64 w ^^^ tweak12)

/-- add2(P, Q): two independent 64-bit additions (R245). -/
def add2 (p q : Block) : Block := mkBlock (lo64 p + lo64 q) (hi64 p + hi64 q)

/-- What shuffle leaves: the scratchpad and the returned value. -/
structure ShuffleOut where
  sp : Memory
  out : Block
deriving DecidableEq, Repr

/-- shuffle(j, out, x, y0, y1) (R245); `fold` is VARIANT = 4, where the three old chunks are folded into the
returned value (R246). -/
@[irreducible] def shuffle (fold : Bool) (sp : Memory) (j : BitVec 21) (out x y0 y1 : Block) : ShuffleOut :=
  let p1 := (j ^^^ 0x10#21).toNat
  let p2 := (j ^^^ 0x20#21).toNat
  let p3 := (j ^^^ 0x30#21).toNat
  let c1 := sp.readBlock p1
  let c2 := sp.readBlock p2
  let c3 := sp.readBlock p3
  { sp := ((sp.writeBlock p1 (add2 c3 y1)).writeBlock p2 (add2 c1 y0)).writeBlock p3 (add2 c2 x)
    out := if fold then out ^^^ c1 ^^^ c2 ^^^ c3 else out }

/-- The divisor of integer_math (R250): bit 31 and bit 0 are forced to 1. -/
def intDivisor (c : Block) (sqrtR : W64) : W32 := (lo32 (lo64 c) + lo32 (sqrtR <<< 1)) ||| 0x80000001#32

/-- The new div_r of integer_math (R250): the quotient's low 32 bits and the remainder above them. -/
@[irreducible] def intDiv (c : Block) (sqrtR : W64) : W64 :=
  let divisor : W64 := (intDivisor c sqrtR).setWidth 64
  (lo32 (hi64 c / divisor)).setWidth 64 + ((hi64 c % divisor) <<< 32)

/-- The exact integer square root by bits: the largest m below 2^bits with m * m <= n, built from the top bit
down from `acc`. -/
def isqrtFrom (n : Nat) : Nat → Nat → Nat
  | 0, acc => acc
  | b + 1, acc =>
    if (acc + 2 ^ b) * (acc + 2 ^ b) ≤ n then isqrtFrom n b (acc + 2 ^ b) else isqrtFrom n b acc

/-- isqrt(n) for n < 2^68 (R251). -/
def isqrt (n : Nat) : Nat := isqrtFrom n 34 0

/-- isqrt_v2(n) = isqrt(2^66 + 4n) - 2^33 (R251). -/
def isqrtV2 (n : W64) : W64 := BitVec.ofNat 64 (isqrt (2 ^ 66 + 4 * n.toNat) - 2 ^ 33)

/-- The new sqrt_r of integer_math (R250). -/
@[irreducible] def intSqrt (c : Block) (divR : W64) : W64 := isqrtV2 (lo64 c + divR)

/-- t after integer_math (R250): its low half XORed with div_r and sqrt_r << 32. -/
@[irreducible] def intT (t : Block) (divR sqrtR : W64) : Block := mkBlock (lo64 t ^^^ divR ^^^ (sqrtR <<< 32)) (hi64 t)

/-- What second_fold leaves: the scratchpad, hi and lo. -/
structure FoldOut where
  sp : Memory
  hi : W64
  lo : W64
deriving DecidableEq, Repr

/-- second_fold(j) (R252). -/
@[irreducible] def secondFold (sp : Memory) (j : BitVec 21) (hi lo : W64) : FoldOut :=
  let p1 := (j ^^^ 0x10#21).toNat
  let d1 := sp.readBlock p1
  let sp' := sp.writeBlock p1 (mkBlock (lo64 d1 ^^^ hi) (hi64 d1 ^^^ lo))
  let d2 := sp'.readBlock (j ^^^ 0x20#21).toNat
  { sp := sp', hi := hi ^^^ lo64 d2, lo := lo ^^^ hi64 d2 }

/-- The 128-bit product lo64(c) * lo64(t) (spec/43_mixing_loop.md R210). -/
@[irreducible] def product (c t : Block) : Block := (lo64 c).setWidth 128 * (lo64 t).setWidth 128

/-- s of R212: hi into the low half of a1, lo into the high half, no carry between them. -/
@[irreducible] def accumulate (a1 : Block) (hi lo : W64) : Block := mkBlock (lo64 a1 + hi) (hi64 a1 + lo)

/-- t after the random-math XOR (spec/45_random_math.md R291), with the registers as they stand before the run. -/
@[irreducible] def rmT (t : Block) (r : Vector W32 9) : Block := mkBlock (lo64 t ^^^ mk64 (r[0] + r[1]) (r[2] + r[3])) (hi64 t)

/-- r[4] .. r[8] from a, b0 and b1 (R291, R292). -/
@[irreducible] def rmSeed (r : Vector W32 9) (a b0 b1 : Block) : Vector W32 9 :=
  #v[r[0], r[1], r[2], r[3], lo32 (lo64 a), lo32 (hi64 a), lo32 (lo64 b0), lo32 (lo64 b1), lo32 (hi64 b1)]

/-- a1 after the random-math fold (R291, R293). -/
@[irreducible] def rmA1 (a1 : Block) (r : Vector W32 9) : Block := mkBlock (lo64 a1 ^^^ mk64 r[2] r[3]) (hi64 a1 ^^^ mk64 r[0] r[1])

end Sys2Proof.Machine
end

