-- ==== Sys2Proof/Machine/Mixing.lean ====
section
/-! DEFINITION. Setup and the main mixing loop (spec/43_mixing_loop.md R202 to R215), one rule a step, with the
variant-gated steps of spec/44_variant_tweaks.md R240 in their places. A step whose gate is closed changes nothing
but the position. The random-math run itself is stepped instruction by instruction by the fetch. -/

namespace Sys2Proof.Machine

/-- The number of outer iterations, 2^19 (R215). -/
def iterations : Nat := 2 ^ 19

/-- r[0..3] as seeded from the state (spec/45_random_math.md R290); r[4..8] unchanged. -/
@[irreducible] def rmInit (S : Lanes) (r : Vector W32 9) : Vector W32 9 :=
  #v[lo32 S[12], hi32 S[12], lo32 S[13], hi32 S[13], r[4], r[5], r[6], r[7], r[8]]

/-- Phase SETUP (R202). -/
def State.setup (v : BitVec 3) (s : State) : State :=
  let S := s.hashState
  { s with
    rk1 := expandKey (laneBlock S 0) (laneBlock S 1)
    a := laneBlock S 0 ^^^ laneBlock S 2
    b0 := laneBlock S 1 ^^^ laneBlock S 3
    b1 := if shuffleGate v then laneBlock S 4 ^^^ laneBlock S 5 else 0
    tweak12 := if v = 1 then S[24] ^^^ s.msg.read64 35 else s.tweak12
    divR := if integerGate v then S[12] else s.divR
    sqrtR := if integerGate v then S[13] else s.sqrtR
    r := if randomGate v then rmInit S s.r else s.r }

/-- Phase MIX begins. -/
def State.enterMix (s : State) : State := { s with i := 0, mixStep := .half1Aes }.enterPhase .mix

/-- Half-iteration 1, step 1 (R204). -/
def State.half1Aes (s : State) : State :=
  let j1 := addrOf s.a
  { s with j1 := j1, c := aesRound (s.memRead j1) s.a, mixStep := .half1Shuffle }

/-- The shuffle-add at address j, with the operands of R248. -/
def State.shuffleAt (v : BitVec 3) (j : BitVec 21) (s : State) : State :=
  if shuffleGate v then
    let out := shuffle (randomGate v) s.sp j s.c s.a s.b0 s.b1
    { s with sp := out.sp, c := out.out }
  else s

/-- Half-iteration 1, step 2 (R205). -/
def State.half1Shuffle (v : BitVec 3) (s : State) : State :=
  { s.shuffleAt v s.j1 with mixStep := .half1Store }

/-- Half-iteration 1, step 3 (R206). -/
def State.half1Store (v : BitVec 3) (s : State) : State :=
  let w := s.c ^^^ s.b0
  { s.memWrite s.j1 (if v = 1 then tweakByte11 w else w) with mixStep := .half2Load }

/-- Half-iteration 2, step 1 (R207). -/
def State.half2Load (s : State) : State :=
  let j2 := addrOf s.c
  { s with j2 := j2, t := s.memRead j2, a1 := s.a, mixStep := .half2Math }

/-- integer_math() (spec/44_variant_tweaks.md R250). -/
def State.integerMath (s : State) : State :=
  let divR := intDiv s.c s.sqrtR
  { s with t := intT s.t s.divR s.sqrtR, divR := divR, sqrtR := intSqrt s.c divR }

/-- random_math() up to the run (spec/45_random_math.md R291): the XOR into t, r[4..8], rpc <- 0. -/
def State.rmEnter (s : State) : State :=
  { s with t := rmT s.t s.r, r := rmSeed s.r s.a s.b0 s.b1, rpc := 0 }

/-- Half-iteration 2, steps 2 and 3 (R208, R209): the run of the random-math machine follows for variant 4. -/
def State.half2Math (v : BitVec 3) (s : State) : State :=
  if randomGate v then { s.rmEnter with mixStep := .rmRun }
  else if integerGate v then { s.integerMath with mixStep := .half2Mul }
  else { s with mixStep := .half2Mul }

/-- random_math() after the run: the fold into a1 (spec/45_random_math.md R291, R293). -/
def State.rmFold (s : State) : State := { s with a1 := rmA1 s.a1 s.r, mixStep := .half2Mul }

/-- Half-iteration 2, step 4 (R210). -/
def State.half2Mul (s : State) : State :=
  let p := product s.c s.t
  { s with hi := hi64 p, lo := lo64 p, mixStep := .half2Fold }

/-- Half-iteration 2, step 5, the second fold (R211, spec/44_variant_tweaks.md R252). -/
def State.half2Fold (v : BitVec 3) (s : State) : State :=
  if integerGate v then
    let out := secondFold s.sp s.j2 s.hi s.lo
    { s with sp := out.sp, hi := out.hi, lo := out.lo, mixStep := .half2Shuffle }
  else { s with mixStep := .half2Shuffle }

/-- Half-iteration 2, step 5, the second shuffle (R211). -/
def State.half2Shuffle (v : BitVec 3) (s : State) : State :=
  { s.shuffleAt v s.j2 with mixStep := .half2Store }

/-- Half-iteration 2, step 6 (R212): the variant-1 tweak changes only the stored copy. -/
def State.half2Store (v : BitVec 3) (s : State) : State :=
  let w := accumulate s.a1 s.hi s.lo
  { s.memWrite s.j2 (if v = 1 then tweakHalf2 s.tweak12 w else w) with newa := w ^^^ s.t, mixStep := .iterEnd }

/-- The end of an outer iteration (R213). -/
def State.iterEnd (s : State) : State :=
  { s with b1 := s.b0, b0 := s.c, a := s.newa, i := s.i + 1, mixStep := .half1Aes }.withProgress (s.i + 1)

/-- One step of phase MIX, the random-math run apart: after 2^19 iterations the phase ends (R215, R201). -/
def State.mixUnit (v : BitVec 3) (s : State) : State :=
  match s.mixStep with
  | .half1Aes => if s.i < iterations then s.half1Aes else s.enterFinalFill
  | .half1Shuffle => s.half1Shuffle v
  | .half1Store => s.half1Store v
  | .half2Load => s.half2Load
  | .half2Math => s.half2Math v
  | .rmRun => s
  | .rmFold => s.rmFold
  | .half2Mul => s.half2Mul
  | .half2Fold => s.half2Fold v
  | .half2Shuffle => s.half2Shuffle v
  | .half2Store => s.half2Store v
  | .iterEnd => s.iterEnd

end Sys2Proof.Machine
end

