-- ==== Sys2Proof/Machine/Jobs.lean ====
section
/-! DEFINITION. The three jobs (spec/47_commands.md). A job is an instruction that takes many steps: STATUS.PHASE is
its position (spec/10_state.md R45), and each step does one unit of the phase's work and moves on when the phase is
complete (spec/43_mixing_loop.md R201; spec/70_reset_and_hazards.md R440 lets a model run a job step by step). -/

namespace Sys2Proof.Machine

/-- MSG[0 .. 200) in its lane view. -/
@[irreducible] def lanesOfMessage (msg : Memory) : Lanes := Vector.ofFn fun i : Fin 25 => msg.read64 (8 * i.val)

/-- S <- MSG[0 .. 200), the prehashed input (spec/47_commands.md R356). -/
def State.loadPrehashed (s : State) : State := { s with hashState := lanesOfMessage s.msg }

/-- Phase RM_GEN begins. -/
def State.enterRmGen (s : State) : State := { s with gen := { s.gen with stage := .seed } }.enterPhase .rmGen

/-- One pass of the generator; a kept attempt writes PROG and PLEN and phase FILL begins
(spec/45_random_math.md R310, R311). -/
def State.rmGenUnit (s : State) : State :=
  if s.gen.stage = .output ∧ genAccepted s.gen then
    { s with
      prog := progStore s.gen.code s.prog
      plen := BitVec.ofNat 7 s.gen.code.length }.enterFill
  else { s with gen := genPass s.jobHeight s.gen }

/-- One unit of phase ABSORB, or what follows the phase. The message buffer has MSG_MAX bytes (R28): a job whose
length is above it cannot get here. -/
def State.absorbStep (s : State) (after : State) : Host.Outcome State Fault Refusal :=
  if s.jobLen.toNat > s.msgMax then .fault .messageOutOfRange
  else if s.absorbDone then .next after
  else .next s.absorbUnit

/-- H_sel(S), sel = S[0] & 3 (spec/46_finalization.md R323 to R325). -/
@[irreducible] def extraHash (S : Lanes) : Vector Byte 32 :=
  let bytes := bytesOfLanes S
  match S[0].extractLsb' 0 2 with
  | 0 => blake256 bytes.toList
  | 1 => Config.groestl256 bytes
  | 2 => Config.jh256 bytes
  | _ => Config.skein256 bytes

/-- Phase CHECK of SLOW_HASH: the checks of spec/60_exceptions.md R381, then the buffer is the job's
(spec/42_scratchpad.md R180) and the first phase of R201 begins. -/
def State.slowCheck (v : BitVec 3) (prehashed : Bool) (s : State) : State :=
  match checkJob 0 v prehashed s.jobLen.toNat s.msgMax s.spGrant with
  | some code => s.raiseJobError code
  | none =>
    let owned := { s with spOwned := true }
    if prehashed then owned.loadPrehashed.enterPhase .setup else owned.enterAbsorb

/-- Phase SETUP, then RM_GEN for variant 4 and FILL for the others (R201, R202). -/
def State.slowSetup (v : BitVec 3) (s : State) : State :=
  if randomGate v then (s.setup v).enterRmGen else (s.setup v).enterFill

/-- Phase PERMUTE of SLOW_HASH: S[64 .. 192) <- TEXT, S <- KeccakF(S) (spec/46_finalization.md R322). -/
def State.slowPermute (s : State) : State :=
  { s with hashState := keccakF (withText s.hashState s.text) }.enterPhase .extra

/-- SLOW_HASH (spec/47_commands.md R355). Outside a job it does nothing; while the random-math machine runs, the
job waits for it. -/
def execSlowHash (variant : BitVec 3) (prehashed : Bool) (s : State) : Host.Outcome State Fault Refusal :=
  match s.phase with
  | .idle => .next s
  | .check => .next (s.slowCheck variant prehashed)
  | .absorb => s.absorbStep (s.enterPhase .setup)
  | .setup => .next (s.slowSetup variant)
  | .rmGen => .next s.rmGenUnit
  | .fill => .next (if s.g < groups then s.fillUnit else s.enterMix)
  | .mix => .next (s.mixUnit variant)
  | .finalFill => .next (if s.g < groups then s.finalFillUnit else s.enterPhase .permute)
  | .permute => .next s.slowPermute
  | .extra => .next (s.finishOkDigest (extraHash s.hashState))
  | .done => .next s
  | .error => .next s

/-- Phase CHECK of FAST_HASH: only LEN <= MSG_MAX (R361, spec/60_exceptions.md R381). -/
def State.fastCheck (s : State) : State :=
  match checkJob 1 0 false s.jobLen.toNat s.msgMax s.spGrant with
  | some code => s.raiseJobError code
  | none => s.enterAbsorb

/-- FAST_HASH (spec/47_commands.md R361, R366). -/
def execFastHash (s : State) : Host.Outcome State Fault Refusal :=
  match s.phase with
  | .idle => .next s
  | .check => .next s.fastCheck
  | .absorb => s.absorbStep (s.finishOkDigest (first32 s.hashState))
  | .setup => .fault .phaseOutOfSequence
  | .rmGen => .fault .phaseOutOfSequence
  | .fill => .fault .phaseOutOfSequence
  | .mix => .fault .phaseOutOfSequence
  | .finalFill => .fault .phaseOutOfSequence
  | .permute => .fault .phaseOutOfSequence
  | .extra => .fault .phaseOutOfSequence
  | .done => .next s
  | .error => .next s

/-- SW <- KeccakF(SW) (spec/47_commands.md R368). -/
def State.permuteWindow (s : State) : State := { s with sw := bytesOfLanes (keccakF (lanesOfBytes s.sw)) }

/-- KECCAK_PERMUTE (spec/47_commands.md R367, R368): no check can fail, and the job is CHECK and PERMUTE. -/
def execKeccakPermute (s : State) : Host.Outcome State Fault Refusal :=
  match s.phase with
  | .idle => .next s
  | .check => .next (s.enterPhase .permute)
  | .absorb => .fault .phaseOutOfSequence
  | .setup => .fault .phaseOutOfSequence
  | .rmGen => .fault .phaseOutOfSequence
  | .fill => .fault .phaseOutOfSequence
  | .mix => .fault .phaseOutOfSequence
  | .finalFill => .fault .phaseOutOfSequence
  | .permute => .next s.permuteWindow.finishOk
  | .extra => .fault .phaseOutOfSequence
  | .done => .next s
  | .error => .next s

end Sys2Proof.Machine
end

