-- ==== Sys2Proof/Machine/Operands.lean ====
section
/-! DEFINITION. The operand forms of the random-math machine (spec/45_random_math.md R270, R271): a destination
r[0] .. r[3], a source r[0] .. r[8], and ADD's 32-bit constant, which is an operand as it stands (R103). -/

namespace Sys2Proof.Machine

/-- The destination register's index, 0 .. 3. -/
def dstIndex (dst : BitVec 2) : Fin 9 := ⟨dst.toNat, by have := dst.isLt; omega⟩

/-- The source operand r[src], none where SRC is reserved (9 .. 15, spec/30_encoding.md R102). -/
def State.readSrc (s : State) (src : BitVec 4) : Option W32 :=
  if h : src.toNat < 9 then some s.r[src.toNat] else none

/-- The destination register's value. -/
def State.readDst (s : State) (dst : BitVec 2) : W32 := s.r[dstIndex dst]

/-- Write the destination register. -/
def State.writeDst (s : State) (dst : BitVec 2) (v : W32) : State := { s with r := s.r.set (dstIndex dst) v }

/-- rpc moves to the next entry (spec/10_state.md R42). -/
def State.nextRpc (s : State) : State := { s with rpc := s.rpc + 1 }

/-- One step of a run for an operation `f` (R271): the source is read before the write, r[d] <- f(r[d], src),
rpc <- rpc + 1. A reserved source is a reserved word: the job ends with INTERNAL_FAULT (R102). -/
def State.execAlu (f : W32 → W32 → W32) (dst : BitVec 2) (src : BitVec 4) (s : State) : State :=
  match s.readSrc src with
  | some v => (s.writeDst dst (f (s.readDst dst) v)).nextRpc
  | none => s.raiseJobError .internalFault

end Sys2Proof.Machine
end

