-- ==== Sys2Proof/Machine/RandomMath.lean ====
section
/-! DEFINITION. The seven instructions of the random-math machine (spec/45_random_math.md R272 to R287). -/

namespace Sys2Proof.Machine

/-- MUL's result (R272). -/
def mulResult (x y : W32) : W32 := x * y
/-- ADD's result, with the word's constant (R273). -/
def addResult (const x y : W32) : W32 := x + y + const
/-- SUB's result (R274). -/
def subResult (x y : W32) : W32 := x - y
/-- ROR's result: the amount is the source mod 32 (R275). -/
def rorResult (x y : W32) : W32 := x.rotateRight (y.toNat % 32)
/-- ROL's result (R276). -/
def rolResult (x y : W32) : W32 := x.rotateLeft (y.toNat % 32)
/-- XOR's result (R277). -/
def xorResult (x y : W32) : W32 := x ^^^ y

/-- MUL rD, rS (R272). -/
def execMul (dst : BitVec 2) (src : BitVec 4) (s : State) : Host.Outcome State Fault Refusal :=
  .next (s.execAlu mulResult dst src)

/-- ADD rD, rS, C (R273). -/
def execAdd (dst : BitVec 2) (src : BitVec 4) (const : W32) (s : State) : Host.Outcome State Fault Refusal :=
  .next (s.execAlu (addResult const) dst src)

/-- SUB rD, rS (R274). -/
def execSub (dst : BitVec 2) (src : BitVec 4) (s : State) : Host.Outcome State Fault Refusal :=
  .next (s.execAlu subResult dst src)

/-- ROR rD, rS (R275). -/
def execRor (dst : BitVec 2) (src : BitVec 4) (s : State) : Host.Outcome State Fault Refusal :=
  .next (s.execAlu rorResult dst src)

/-- ROL rD, rS (R276). -/
def execRol (dst : BitVec 2) (src : BitVec 4) (s : State) : Host.Outcome State Fault Refusal :=
  .next (s.execAlu rolResult dst src)

/-- XOR rD, rS (R277). -/
def execXor (dst : BitVec 2) (src : BitVec 4) (s : State) : Host.Outcome State Fault Refusal :=
  .next (s.execAlu xorResult dst src)

/-- RET (R287): the run ends, rpc stops and no register changes; the loop goes on with the fold into a1 (R291). -/
def execRet (s : State) : Host.Outcome State Fault Refusal := .next { s with mixStep := .rmFold }

end Sys2Proof.Machine
end

