-- ==== Sys2Proof/Machine/Dispatch.lean ====
section
/-! DEFINITION. One arm per instruction of spec/opcode_table.json. -/

namespace Sys2Proof.Machine

def exec (i : Instr) (s : State) : Host.Outcome State Fault Refusal :=
  match i with
  | .mul dst src => Sys2Proof.Machine.execMul dst src s
  | .add dst src const => Sys2Proof.Machine.execAdd dst src const s
  | .sub dst src => Sys2Proof.Machine.execSub dst src s
  | .ror dst src => Sys2Proof.Machine.execRor dst src s
  | .rol dst src => Sys2Proof.Machine.execRol dst src s
  | .xor dst src => Sys2Proof.Machine.execXor dst src s
  | .ret => Sys2Proof.Machine.execRet s
  | .slowHash variant prehashed => Sys2Proof.Machine.execSlowHash variant prehashed s
  | .fastHash => Sys2Proof.Machine.execFastHash s
  | .keccakPermute => Sys2Proof.Machine.execKeccakPermute s
  | .start ie clr => Sys2Proof.Machine.execStart ie clr s
  | .clr withStart ie => Sys2Proof.Machine.execClr withStart ie s

end Sys2Proof.Machine
end

