-- ==== Sys2Proof/Machine/HostPort.lean ====
section
/-! DEFINITION. The host register window (spec/20_memory.md R62 to R66, spec/30_encoding.md R90 to R99): reads and
plain writes. A CTRL write with a command bit is an instruction (`hostCommand`), run by the step. -/

namespace Sys2Proof.Machine

/-- The access has a legal width, is naturally aligned, and has width 4 in the register block (R64). -/
def accessLegal (off : BitVec 16) (width : Nat) : Bool :=
  decide (width = 1 ∨ width = 2 ∨ width = 4) && decide (off.toNat % width = 0) &&
    (decide (0x100 ≤ off.toNat) || decide (width = 4))

/-- The register at a word-aligned offset of the register block; reserved offsets read 0 (R90). -/
def State.hostRegister (s : State) (off : Nat) : W32 :=
  match off with
  | 0x00 => s.ctrlWord
  | 0x04 => s.cmd
  | 0x08 => s.len
  | 0x10 => s.heightLo
  | 0x14 => s.heightHi
  | 0x20 => s.statusWord
  | 0x24 => s.progress
  | _ => 0

/-- The byte of a buffer at a window offset at or above 0x100; reserved offsets read 0 (R90). -/
def State.hostByte (s : State) (off : Nat) : Byte :=
  if 0x100 ≤ off ∧ off < 0x120 then s.digest.toArray.getD (off - 0x100) 0
  else if 0x200 ≤ off ∧ off < 0x2C8 then s.sw.toArray.getD (off - 0x200) 0
  else if 0x8000 ≤ off ∧ off < 0x8000 + s.msgMax then s.msgByte (off - 0x8000)
  else 0

/-- HostRead(off, width), zero-extended to 32 bits: a register, or the bytes of a buffer little-endian (R62). An
illegal access reads 0 (R64). -/
def State.hostRead (s : State) (off : BitVec 16) (width : Nat) : W32 :=
  if accessLegal off width then
    if off.toNat < 0x100 then s.hostRegister off.toNat
    else BitVec.ofNat 32 (leNat ((List.range width).map fun k => s.hostByte (off.toNat + k)))
  else 0

/-- A write to a register of the register block (R90): CTRL takes IE only; CMD, LEN and HEIGHT keep theirs while
a job runs (spec/70_reset_and_hazards.md R431); CMD's reserved bits are not stored (spec/10_state.md R21); every
other offset ignores the write. -/
def State.writeRegister (off : Nat) (v : W32) (s : State) : State :=
  match off with
  | 0x00 => { s with ie := v.getLsbD 1 }
  | 0x04 => if s.busy then s else { s with cmd := v &&& 0x173#32 }
  | 0x08 => if s.busy then s else { s with len := v }
  | 0x10 => if s.busy then s else { s with heightLo := v }
  | 0x14 => if s.busy then s else { s with heightHi := v }
  | _ => s

/-- A write of one byte of a buffer: SW and MSG take it unless a job runs; DIGEST and reserved offsets ignore it
(R90, spec/70_reset_and_hazards.md R431). -/
def State.writeByte (off : Nat) (b : Byte) (s : State) : State :=
  if s.busy then s
  else if 0x200 ≤ off ∧ off < 0x2C8 then { s with sw := s.sw.setIfInBounds (off - 0x200) b }
  else if 0x8000 ≤ off ∧ off < 0x8000 + s.msgMax then { s with msg := s.msg.write (off - 0x8000) b }
  else s

/-- HostWrite(off, width, v), the command bits of CTRL apart. An illegal access changes nothing (R64). -/
def State.hostWrite (off : BitVec 16) (width : Nat) (v : W32) (s : State) : State :=
  if accessLegal off width then
    if off.toNat < 0x100 then s.writeRegister off.toNat v
    else (List.range width).foldl (fun t k => t.writeByte (off.toNat + k) (byteOf v k)) s
  else s

/-- The command a host write carries: a legal write to CTRL with START or CLR set (R91). -/
def hostCommand (off : BitVec 16) (width : Nat) (v : W32) : Option Instr :=
  if off = 0 ∧ width = 4 then
    match decode (.ctrl v) with
    | .ok i => some i
    | .error _ => none
  else none

end Sys2Proof.Machine
end

