-- ==== Sys2Proof/Machine/Fetch.lean ====
section
/-! DEFINITION. What a step does next. The queue of outside events says which agent moves
(notes/assumptions/7.md); with none pending the core moves. A core move fetches an instruction: PROG[rpc] while the
random-math machine runs (spec/45_random_math.md R271), and the latched command otherwise (spec/47_commands.md
R350). -/

namespace Sys2Proof.Machine

/-- The step to take: run an instruction at a state, go to a state, or stop. -/
inductive Action where
  | run (i : Instr) (s : State)
  | go (s : State)
  | stop (r : Fault)
deriving DecidableEq, Repr

/-- The latched command as a CMD word (spec/10_state.md R45). -/
def State.latchedCmd (s : State) : W32 := cmdOf s.jobOp s.jobVariant s.jobPrehashed

/-- The random-math machine is running its program. -/
def State.running (s : State) : Bool := decide (s.phase = .mix ∧ s.mixStep = .rmRun)

/-- The fetch of PROG[rpc]; a reserved word ends the job with INTERNAL_FAULT (R271, spec/30_encoding.md R102). -/
def State.fetchProg (s : State) : Action :=
  if h : s.rpc.toNat < 71 then
    match decode (.prog s.prog[s.rpc.toNat]) with
    | .ok i => .run i s
    | .error _ => .go (s.raiseJobError .internalFault)
  else .stop .progOutOfRange

/-- The fetch of the job's command; OP = 3 ends it with BAD_COMMAND (spec/60_exceptions.md R381). -/
def State.fetchJob (s : State) : Action :=
  match decode (.cmd s.latchedCmd) with
  | .ok i => .run i s
  | .error _ => .go (s.raiseJobError .badCommand)

/-- The core's move: nothing while idle (spec/60_exceptions.md R405). -/
def State.coreAction (s : State) : Action :=
  if s.busy then (if s.running then s.fetchProg else s.fetchJob) else .go s

/-- Reset during or between jobs (spec/70_reset_and_hazards.md R420, R421). The parameters and the events still to
come are the outside world's. -/
def State.resetCore (s : State) : State :=
  { State.reset with
    msgMaxExtra := s.msgMaxExtra, spGrant := s.spGrant, inputs := s.inputs, hostData := s.hostData }

/-- One outside event. -/
def State.inputAction (e : Input) (s : State) : Action :=
  match e with
  | .read off width => .go { s with hostData := s.hostRead off width }
  | .write off width v =>
    match hostCommand off width v with
    | some i => .run i s
    | none => .go (s.hostWrite off width v)
  | .core => s.coreAction
  | .reset => .go s.resetCore
  | .grant granted => .go { s with spGrant := granted }

/-- The action of a step. -/
def State.nextAction (s : State) : Action :=
  match s.inputs with
  | [] => s.coreAction
  | e :: rest => State.inputAction e { s with inputs := rest }

/-- The state in which the next step runs a program-store word (notes/assumptions/8.md). -/
def State.withProgWord (s : State) (w : ProgWord) : State :=
  { s with
    busy := true, done := false, err := false, errcode := .none, phase := .mix, mixStep := .rmRun
    jobOp := 0, jobVariant := 4, spOwned := true, rpc := 0, prog := s.prog.set 0 w, inputs := .core :: s.inputs }

/-- The state in which the next step runs the job a CMD word selects: the job just started, in phase CHECK. -/
def State.withCmdWord (s : State) (w : W32) : State :=
  { s with
    busy := true, done := false, err := false, errcode := .none, phase := .check, progress := 0
    jobOp := cmdOp w, jobVariant := cmdVariant w, jobPrehashed := cmdPrehashed w, inputs := .core :: s.inputs }

/-- The state in which the next step is the host's write of a CTRL word. -/
def State.withCtrlWord (s : State) (w : W32) : State := { s with inputs := .write 0 4 w :: s.inputs }

/-- The state in which the next step runs an encoded instruction. -/
def State.withEncWord (s : State) (e : EncWord) : State :=
  match e with
  | .prog w => s.withProgWord w
  | .cmd w => s.withCmdWord w
  | .ctrl w => s.withCtrlWord w

end Sys2Proof.Machine
end

