-- ==== Sys2Proof/Machine/Step.lean ====
section
/-! DEFINITION. One step of the machine: an outside event or a move of the core. -/

namespace Sys2Proof.Machine

/-- One step. -/
def step (s : State) : Host.Outcome State Fault Refusal :=
  match s.nextAction with
  | .run i t => exec i t
  | .go t => .next t
  | .stop r => .fault r

/-- The state in which the very next step runs the instruction of an opcode-table word (notes/assumptions/8.md). A
width the table does not have changes nothing. -/
def State.withFetchWord (s : State) (nbits w : Nat) : State :=
  match tableWord nbits w with
  | some e => s.withEncWord e
  | none => s

end Sys2Proof.Machine
end

