-- ==== Sys2Proof/Machine/Reference.lean ====
section
/-! DEFINITION. What the jobs compute, as functions of their inputs, written from the whole-job pseudocode of
spec/47_commands.md R355 and the whole-iteration pseudocode of spec/43_mixing_loop.md R214. No step of the machine
uses this file: it is what the stepped jobs are claimed to compute. -/

namespace Sys2Proof.Machine

/-- An operation of the random-math machine that goes on to the next word: every one but RET, with a source that
names a register. -/
def isAlu : Instr → Bool
  | .mul _ src => srcOk src
  | .add _ src _ => srcOk src
  | .sub _ src => srcOk src
  | .ror _ src => srcOk src
  | .rol _ src => srcOk src
  | .xor _ src => srcOk src
  | .ret => false
  | .slowHash _ _ => false
  | .fastHash => false
  | .keccakPermute => false
  | .start _ _ => false
  | .clr _ _ => false

/-- The value of a source register (0 where SRC is reserved; `isAlu` rules that out). -/
def srcValue (r : Vector W32 9) (src : BitVec 4) : W32 := if h : src.toNat < 9 then r[src.toNat] else 0

/-- The register file after r[d] <- f(r[d], src) (spec/45_random_math.md R271). -/
def aluFile (f : W32 → W32 → W32) (dst : BitVec 2) (src : BitVec 4) (r : Vector W32 9) : Vector W32 9 :=
  r.set (dstIndex dst) (f r[dstIndex dst] (srcValue r src))

/-- The register file after one operation (R272 to R277). -/
def aluStep (i : Instr) (r : Vector W32 9) : Vector W32 9 :=
  match i with
  | .mul d src => aluFile mulResult d src r
  | .add d src const => aluFile (addResult const) d src r
  | .sub d src => aluFile subResult d src r
  | .ror d src => aluFile rorResult d src r
  | .rol d src => aluFile rolResult d src r
  | .xor d src => aluFile xorResult d src r
  | .ret => r
  | .slowHash _ _ => r
  | .fastHash => r
  | .keccakPermute => r
  | .start _ _ => r
  | .clr _ _ => r

/-- run() (R271) from entry `pc`, over at most `fuel` words; none where a reserved word is met or the words end. -/
def runProg (prog : Vector ProgWord 71) : Nat → Nat → Vector W32 9 → Option (Vector W32 9)
  | 0, _, _ => none
  | fuel + 1, pc, r =>
    if h : pc < 71 then
      match decodeProg prog[pc] with
      | .error _ => none
      | .ok .ret => some r
      | .ok i => runProg prog fuel (pc + 1) (aluStep i r)
    else none

/-- What an outer iteration of the mixing loop carries to the next. -/
structure MixRegs where
  sp : Memory
  a : Block
  b0 : Block
  b1 : Block
  divR : W64
  sqrtR : W64
  r : Vector W32 9
deriving DecidableEq, Repr

/-- What half-iteration 2 hands from its middle steps to its multiply: t, a1, and the registers they change. -/
structure MidRegs where
  t : Block
  a1 : Block
  divR : W64
  sqrtR : W64
  r : Vector W32 9
deriving DecidableEq, Repr

/-- integer_math() or random_math() or neither, as R240 gates them (R208, R209). -/
def midIteration (v : BitVec 3) (prog : Vector ProgWord 71) (m : MixRegs) (c t : Block) : Option MidRegs :=
  if v = 4 then
    match runProg prog 71 0 (rmSeed m.r m.a m.b0 m.b1) with
    | none => none
    | some r => some { t := rmT t m.r, a1 := rmA1 m.a r, divR := m.divR, sqrtR := m.sqrtR, r := r }
  else if v = 2 ∨ v = 3 then
    let divR := intDiv c m.sqrtR
    some { t := intT t m.divR m.sqrtR, a1 := m.a, divR := divR, sqrtR := intSqrt c divR, r := m.r }
  else some { t := t, a1 := m.a, divR := m.divR, sqrtR := m.sqrtR, r := m.r }

/-- The shuffle-add where the variant has it (R240). -/
def gatedShuffle (v : BitVec 3) (sp : Memory) (j : BitVec 21) (c : Block) (m : MixRegs) : ShuffleOut :=
  if 2 ≤ v.toNat then shuffle (decide (v = 4)) sp j c m.a m.b0 m.b1 else { sp := sp, out := c }

/-- mix_iteration() (R214). -/
def mixIteration (v : BitVec 3) (tweak12 : W64) (prog : Vector ProgWord 71) (m : MixRegs) : Option MixRegs :=
  let j1 := addrOf m.a
  let c0 := aesRound (m.sp.readBlock j1.toNat) m.a
  let sh1 := gatedShuffle v m.sp j1 c0 m
  let c := sh1.out
  let w1 := c ^^^ m.b0
  let sp1 := sh1.sp.writeBlock j1.toNat (if v = 1 then tweakByte11 w1 else w1)
  let j2 := addrOf c
  match midIteration v prog m c (sp1.readBlock j2.toNat) with
  | none => none
  | some mid =>
    let p := product c mid.t
    let fold := if v = 2 ∨ v = 3 then secondFold sp1 j2 (hi64 p) (lo64 p) else { sp := sp1, hi := hi64 p, lo := lo64 p }
    let sh2 := gatedShuffle v fold.sp j2 c m
    let w2 := accumulate mid.a1 fold.hi fold.lo
    some
      { sp := sh2.sp.writeBlock j2.toNat (if v = 1 then tweakHalf2 tweak12 w2 else w2)
        a := w2 ^^^ mid.t, b0 := sh2.out, b1 := m.b0, divR := mid.divR, sqrtR := mid.sqrtR, r := mid.r }

/-- n outer iterations; none where one raises INTERNAL_FAULT. -/
def mixLoop (v : BitVec 3) (tweak12 : W64) (prog : Vector ProgWord 71) : Nat → MixRegs → Option MixRegs
  | 0, m => some m
  | n + 1, m =>
    match mixIteration v tweak12 prog m with
    | none => none
    | some m' => mixLoop v tweak12 prog n m'

/-- TEXT and SP after the first n groups of the fill (spec/42_scratchpad.md R183). -/
def fillAfter (rk : Vector Block 10) (text : Vector Block 8) (sp : Memory) : Nat → Vector Block 8 × Memory
  | 0 => (text, sp)
  | n + 1 =>
    let before := fillAfter rk text sp n
    let text' := fillText rk before.1
    (text', writeGroup before.2 n text')

/-- TEXT after the first n groups of the final fold (spec/46_finalization.md R321). -/
def foldAfter (rk : Vector Block 10) (sp : Memory) (text : Vector Block 8) : Nat → Vector Block 8
  | 0 => text
  | n + 1 => foldText rk sp n (foldAfter rk sp text n)

/-- The registers the loop starts from, with the scratchpad as the fill left it (R202): `other` gives the registers
the variant does not use. -/
def mixStart (v : BitVec 3) (S : Lanes) (sp : Memory) (other : MixRegs) : MixRegs where
  sp := sp
  a := laneBlock S 0 ^^^ laneBlock S 2
  b0 := laneBlock S 1 ^^^ laneBlock S 3
  b1 := if 2 ≤ v.toNat then laneBlock S 4 ^^^ laneBlock S 5 else 0
  divR := if v = 2 ∨ v = 3 then S[12] else other.divR
  sqrtR := if v = 2 ∨ v = 3 then S[13] else other.sqrtR
  r := if v = 4 then rmInit S other.r else other.r

/-- The digest from the state S after phase MIX has left the scratchpad `sp` (R320 to R325). -/
def finalDigest (S : Lanes) (sp : Memory) : Vector Byte 32 :=
  let text := foldAfter (expandKey (laneBlock S 2) (laneBlock S 3)) sp (textOf S) groups
  extraHash (keccakF (withText S text))

/-- The digest of a SLOW_HASH job from the state S after ABSORB (or the prehashed state), LE64(MSG, 35) and the
program (R355): none where a program run meets a reserved word. `other.sp` is the scratchpad's old content. -/
def slowHashDigest (v : BitVec 3) (S : Lanes) (msg35 : W64) (prog : Vector ProgWord 71) (other : MixRegs) :
    Option (Vector Byte 32) :=
  let rk1 := expandKey (laneBlock S 0) (laneBlock S 1)
  let filled := fillAfter rk1 (textOf S) other.sp groups
  match mixLoop v (S[24] ^^^ msg35) prog iterations (mixStart v S filled.2 other) with
  | none => none
  | some m => some (finalDigest S m.sp)

/-- The registers of a state that an outer iteration carries. -/
def State.mixRegs (s : State) : MixRegs where
  sp := s.sp
  a := s.a
  b0 := s.b0
  b1 := s.b1
  divR := s.divR
  sqrtR := s.sqrtR
  r := s.r

/-- The state S a SLOW_HASH job works on: MSG[0 .. 200) or absorb(MSG[0 .. LEN)) (R355). -/
def State.slowInput (s : State) (prehashed : Bool) : Lanes :=
  if prehashed then s.loadPrehashed.hashState else absorb s.msgByte s.jobLen.toNat

end Sys2Proof.Machine
end

