-- ==== Sys2Proof/Safety.lean ====
section
/-! DEFINITION. The invariant of the machine, in the terms the claims use, and what a safe step is. -/

namespace Sys2Proof

open Sys2Proof.Machine

/-- The step answers a next state: no fault, no refusal. -/
def SafeStep (s : State) : Prop := ∃ t, step s = .next t

/-- BUSY, DONE and ERR follow the phase, so they are never 1 two at a time, and ERRCODE is an error's code exactly
when ERR is 1 (spec/10_state.md R24). -/
def StatusInv (s : State) : Prop :=
  s.busy = s.phase.running ∧ s.done = decide (s.phase = .done) ∧ s.err = decide (s.phase = .error) ∧
    (s.errcode = .none ↔ s.phase ≠ .error)

/-- The memories are canonical and hold nothing outside their address spaces (R28, R34), and the two block addresses
of an iteration are multiples of 16 (spec/20_memory.md R68). -/
def MemoryInv (s : State) : Prop :=
  s.msg.wf = true ∧ s.msg.within s.msgMax = true ∧ s.sp.wf = true ∧ s.sp.within (2 ^ 21) = true ∧
    s.j1.toNat % 16 = 0 ∧ s.j2.toNat % 16 = 0

/-- CMD's reserved bits read 0 (R21). -/
def CommandInv (s : State) : Prop := s.cmd &&& 0xFFFFFE8C#32 = 0

/-- A SLOW_HASH job past its checks owns the buffer, and its latched parameters passed them
(spec/60_exceptions.md R381). -/
def SlowInv (s : State) : Prop :=
  s.jobOp = 0 ∧ s.jobVariant.toNat ≤ 4 ∧ s.jobLen.toNat ≤ s.msgMax ∧
    (s.jobVariant = 1 → 43 ≤ s.jobLen.toNat) ∧ (s.jobPrehashed = true → s.jobLen.toNat = 200) ∧ s.spOwned = true

/-- PROG holds a generated program: PLEN operations, none of them reserved, then RET (spec/45_random_math.md R311). -/
def ProgramInv (s : State) : Prop :=
  60 ≤ s.plen.toNat ∧ s.plen.toNat ≤ 70 ∧
    ∀ k : Fin 71,
      (k.val < s.plen.toNat → ∃ i, decodeProg s.prog[k] = .ok i ∧ isAlu i = true) ∧
      (k.val = s.plen.toNat → decodeProg s.prog[k] = .ok .ret)

/-- The generator's program so far (spec/45_random_math.md R305, R309, R311). -/
def GenInv (g : GenState) : Prop :=
  (g.stage ≠ .seed → g.gi.toNat ≤ 32) ∧
    (g.stage = .decode ∨ g.stage = .pad ∨ g.stage = .output →
      g.code.length ≤ 70 ∧ ∀ i ∈ g.code, isAlu i = true) ∧
    (g.stage = .decode → g.code.length < 60)

/-- What holds in each phase (spec/43_mixing_loop.md R200, R201; spec/10_state.md R25, R45). -/
def PhaseInv (s : State) : Prop :=
  match s.phase with
  | .idle => s.progress = 0 ∧ s.spOwned = false
  | .check => s.progress = 0 ∧ s.spOwned = false
  | .absorb =>
    s.blk ≤ absorbBlocks s.jobLen.toNat ∧ s.progress = BitVec.ofNat 32 s.blk ∧ s.jobLen.toNat ≤ s.msgMax ∧
      ((s.jobOp = 1 ∧ s.spOwned = false) ∨ (SlowInv s ∧ s.jobPrehashed = false))
  | .setup => s.progress = 0 ∧ SlowInv s
  | .rmGen => s.progress = 0 ∧ SlowInv s ∧ s.jobVariant = 4 ∧ GenInv s.gen
  | .fill => s.g ≤ groups ∧ s.progress = BitVec.ofNat 32 s.g ∧ SlowInv s ∧ (s.jobVariant = 4 → ProgramInv s)
  | .mix =>
    s.i ≤ iterations ∧ s.progress = BitVec.ofNat 32 s.i ∧ SlowInv s ∧ (s.jobVariant = 4 → ProgramInv s) ∧
      (s.mixStep ≠ .half1Aes → s.i < iterations) ∧
      (s.mixStep = .rmRun → s.jobVariant = 4 ∧ s.rpc.toNat ≤ s.plen.toNat) ∧
      (s.mixStep = .rmFold → s.jobVariant = 4)
  | .finalFill => s.g ≤ groups ∧ s.progress = BitVec.ofNat 32 s.g ∧ SlowInv s
  | .permute => s.progress = 0 ∧ (SlowInv s ∨ (s.jobOp = 2 ∧ s.spOwned = false))
  | .extra => s.progress = 0 ∧ SlowInv s
  | .done => s.progress = 0 ∧ s.spOwned = false
  | .error => s.progress = 0 ∧ s.spOwned = false

/-- The machine's invariant. -/
def Inv (s : State) : Prop := StatusInv s ∧ MemoryInv s ∧ CommandInv s ∧ PhaseInv s

/-- The phases R201 lets a job's phase change to, for the latched command (spec/43_mixing_loop.md R201). -/
def nextPhases (op : BitVec 2) (variant : BitVec 3) (prehashed : Bool) : Phase → List Phase
  | .idle => []
  | .check =>
    if op = 0 then (if prehashed then [.setup, .error] else [.absorb, .error])
    else if op = 1 then [.absorb, .error]
    else if op = 2 then [.permute]
    else [.error]
  | .absorb => if op = 0 then [.setup] else [.done]
  | .setup => if variant = 4 then [.rmGen] else [.fill]
  | .rmGen => [.fill]
  | .fill => [.mix]
  | .mix => [.finalFill]
  | .finalFill => [.permute]
  | .permute => if op = 0 then [.extra] else [.done]
  | .extra => [.done]
  | .done => []
  | .error => []

/-- Register k of the random-math file, as a number. -/
def regNat (s : State) (k : Nat) : Nat := (s.r.toArray.getD k 0).toNat

/-- What a random-math operation that writes `value` to r[d] leaves: that register and rpc changed, nothing else
(spec/45_random_math.md R271). -/
def AluEffect (s : State) (d : BitVec 2) (value : Nat) (t : State) : Prop :=
  regNat t d.toNat = value ∧ (∀ k, k < 9 → k ≠ d.toNat → regNat t k = regNat s k) ∧
    t = { s with r := t.r, rpc := s.rpc + 1 }

/-- A job runs and no outside event is pending, so the next step is the core's. -/
def CoreMoves (s : State) : Prop := s.inputs = [] ∧ s.busy = true

/-- The core executes the program store. -/
def RunsProgram (s : State) : Prop := s.phase = .mix ∧ s.mixStep = .rmRun

/-- The window offsets with no register and no buffer byte (spec/30_encoding.md R90). -/
def ReservedOffset (s : State) (off : Nat) : Prop :=
  (0x0C ≤ off ∧ off < 0x10) ∨ (0x18 ≤ off ∧ off < 0x20) ∨ (0x28 ≤ off ∧ off < 0x100) ∨
    (0x120 ≤ off ∧ off < 0x200) ∨ (0x2C8 ≤ off ∧ off < 0x8000) ∨ 0x8000 + s.msgMax ≤ off

/-- An access that R64 refuses (spec/20_memory.md). -/
def RefusedAccess (off : BitVec 16) (width : Nat) : Prop :=
  ¬ (width = 1 ∨ width = 2 ∨ width = 4) ∨ off.toNat % width ≠ 0 ∨ (off.toNat < 0x100 ∧ width ≠ 4)

/-- A window offset and the buffer byte it reaches, for the two buffers the host writes (R90). -/
def WritableBytes (s : State) (off : BitVec 16) (width : Nat) : Prop :=
  (0x200 ≤ off.toNat ∧ off.toNat + width ≤ 0x2C8) ∨ (0x8000 ≤ off.toNat ∧ off.toNat + width ≤ 0x8000 + s.msgMax)

/-- Every byte outside [a, a + n) reads the same in two memories. -/
def SameOutside (a n : Nat) (m m' : Memory) : Prop := ∀ x, x < a ∨ a + n ≤ x → m'.read x = m.read x

/-- The parts of two states that a job's digest may depend on agree (spec/47_commands.md R358): the latched
parameters, the message bytes below the length, MSG_MAX and the answer to the buffer request. -/
def SameJob (s s' : State) : Prop :=
  s.jobOp = s'.jobOp ∧ s.jobVariant = s'.jobVariant ∧ s.jobPrehashed = s'.jobPrehashed ∧ s.jobLen = s'.jobLen ∧
    s.jobHeight = s'.jobHeight ∧ s.msgMaxExtra = s'.msgMaxExtra ∧ s.spGrant = s'.spGrant ∧
    ∀ i, i < s.jobLen.toNat → s.msgByte i = s'.msgByte i

/-! The program generator, pass by pass, as spec/45_random_math.md writes it over numbers: operations by their number
of R307 (MUL 0, ADD 1, SUB 2, ROR 3, ROL 4, XOR 5), tables by index. That a step is one pass is the model's
(notes/assumptions/9.md). -/

/-- LAT of R303. -/
def latencyOf (op : Nat) : Nat := [3, 2, 1, 2, 2, 1].getD op 0

/-- ALAT of R303. -/
def asicLatencyOf (op : Nat) : Nat := [3, 1, 1, 1, 1, 1].getD op 0

/-- ROR or ROL. -/
def rotates (op : Nat) : Prop := op = 3 ∨ op = 4

/-- need(n) (R302) and the reading of n bytes: byte k read, and the generator after it. -/
def drawBytes (n : Nat) (g : GenState) : (Nat → Nat) × GenState :=
  let gd := if 32 < g.gi.toNat + n then blake256 g.gd.toList else g.gd
  let gi := if 32 < g.gi.toNat + n then 0 else g.gi.toNat
  (fun k => (gd.toArray.getD (gi + k) 0).toNat, { g with gd := gd, gi := BitVec.ofNat 6 (gi + n) })

/-- The program g' holds is that of g and the instruction whose word has these fields (spec/30_encoding.md R101). -/
def Appends (op d src const : Nat) (g g' : GenState) : Prop :=
  ∃ i, encode i = .prog (BitVec.ofNat 48 (const * 2 ^ 16 + src * 2 ^ 5 + d * 2 ^ 3 + op)) ∧ g'.code = g.code ++ [i]

/-- R301. -/
def SeedRule (height : W64) (g g' : GenState) : Prop :=
  g' = { g with gd := g'.gd, gi := 32, stage := .attempt } ∧
    ∀ k : Fin 32,
      (g'.gd[k]).toNat = if k.val < 8 then height.toNat / 256 ^ k.val % 256 else if k.val = 20 then 0xDA else 0

/-- R304; GD and GI are carried over. -/
def AttemptRule (g g' : GenState) : Prop :=
  (∀ x : Fin 9, g'.lat[x] = 0 ∧ g'.alat[x] = 0 ∧ (g'.inst[x]).toNat = if x.val < 4 then x.val else 0xFFFFFF) ∧
    (∀ (c : Fin 46) (alu : Fin 3), g'.busy[c][alu] = false) ∧ (∀ x : Fin 4, g'.rotated[x] = false) ∧
    g'.rotCount = 0 ∧ g'.retries = 0 ∧ g'.steps = 0 ∧ g'.r8Used = false ∧ g'.code = [] ∧ g'.gd = g.gd ∧ g'.gi = g.gi ∧
    g'.stage = .decode

/-- An ALU the inner loop of R306 takes at cycle c. -/
def SlotFree (op : Nat) (g : GenState) (c alu : Nat) : Prop :=
  let busy := fun row => ((g.busy.toArray.getD row (Vector.replicate 3 false)).toArray.getD alu false) = true
  alu < (if op = 0 then 1 else 3) ∧ ¬ busy c ∧ ¬ (op = 1 ∧ busy (c + 1)) ∧ ¬ (rotates op ∧ c < g.rotCount * latencyOf op)

/-- R307, with nl the cycle after the latency. -/
def AcceptRule (op d src nl alu : Nat) (g g' : GenState) : Prop :=
  let drawn := drawBytes 4 g
  let const := drawn.1 0 + drawn.1 1 * 2 ^ 8 + drawn.1 2 * 2 ^ 16 + drawn.1 3 * 2 ^ 24
  Appends op d src (if op = 1 then const else 0) g g' ∧
    (∀ x : Fin 9,
      g'.lat[x] = (if x.val = d then nl else g.lat[x]) ∧
        g'.alat[x] =
          (if x.val = d then max (g.alat.toArray.getD d 0) (g.alat.toArray.getD src 0) + asicLatencyOf op
          else g.alat[x]) ∧
        (g'.inst[x]).toNat =
          if x.val = d then
            (g.code.length + op * 2 ^ 8 + (g.inst.toArray.getD src 0).toNat % 2 ^ 8 * 2 ^ 16) % 2 ^ 24
          else (g.inst[x]).toNat) ∧
    (∀ (c : Fin 46) (a : Fin 3),
      g'.busy[c][a] = true ↔
        g.busy[c][a] = true ∨
          (a.val = alu ∧ (c.val + latencyOf op = nl ∨ (op = 1 ∧ c.val + latencyOf op = nl + 1)))) ∧
    (∀ x : Fin 4, g'.rotated[x] = true ↔ if x.val = d then rotates op else g.rotated[x] = true) ∧
    (rotates op → g'.rotCount = g.rotCount + 1) ∧ (¬ rotates op → g'.rotCount = g.rotCount) ∧
    (g'.r8Used = true ↔ g.r8Used = true ∨ src = 8) ∧
    g' = { g with
      gd := if op = 1 then drawn.2.gd else g.gd, gi := if op = 1 then drawn.2.gi else g.gi, lat := g'.lat,
      alat := g'.alat, inst := g'.inst, busy := g'.busy, rotated := g'.rotated, rotCount := g'.rotCount,
      r8Used := g'.r8Used, code := g'.code }

/-- R306: the first cycle with a free ALU and its highest free ALU, or none below cycle 45. -/
def ScheduleRule (op d src : Nat) (g g' : GenState) : Prop :=
  let lat := fun x => g.lat.toArray.getD x 0
  let start := max (lat d) (lat src)
  (∀ c alu, start ≤ c → c < 45 → SlotFree op g c alu → (∀ a, alu < a → ¬ SlotFree op g c a) →
    (∀ c' a, start ≤ c' → c' < c → ¬ SlotFree op g c' a) →
    (lat d + 7 < c → g' = g) ∧
      (c ≤ lat d + 7 → c + latencyOf op ≤ 45 → AcceptRule op d src (c + latencyOf op) alu g g') ∧
      (c ≤ lat d + 7 → 45 < c + latencyOf op → g' = { g with retries := g.retries + 1 })) ∧
    ((∀ c a, start ≤ c → c < 45 → ¬ SlotFree op g c a) →
      (lat d + 7 < max 45 start → g' = g) ∧
        (max 45 start ≤ lat d + 7 → g' = { g with retries := g.retries + 1 }))

/-- Rejects 1 and 2 of R305 (R308), else the scheduling. -/
def TryRule (op d src : Nat) (g g' : GenState) : Prop :=
  let inst := fun x => (g.inst.toArray.getD x 0).toNat
  let reject1 := rotates op ∧ g.rotated.toArray.getD d false = true
  let reject2 := op ≠ 0 ∧ inst d / 2 ^ 8 = op + inst src % 2 ^ 8 * 2 ^ 8
  (reject1 ∨ reject2 → g' = g) ∧ (¬ (reject1 ∨ reject2) → ScheduleRule op d src g g')

/-- The operation of a code byte without a direction byte (R305). -/
def opOfCode (cb : Nat) : Nat :=
  if 6 ≤ cb % 8 then 5 else if cb % 8 ≤ 2 then 0 else if cb % 8 = 3 then 1 else 2

/-- The body of R305's loop after the step count: the record of spec/30_encoding.md R105 to R107, a code byte and, for a
rotation, a direction byte, which is read even where the record is then rejected. -/
def RecordRule (g g' : GenState) : Prop :=
  let code := drawBytes 1 g
  let cb := code.1 0
  let direction := drawBytes 1 code.2
  (cb % 8 = 5 →
    TryRule (if direction.1 0 < 0x80 then 3 else 4) (cb / 8 % 4) (cb / 32) direction.2 g') ∧
    (cb % 8 ≠ 5 →
      TryRule (opOfCode cb) (cb / 8 % 4) (if opOfCode cb ≠ 0 ∧ cb / 32 = cb / 8 % 4 then 8 else cb / 32) code.2 g')

/-- R305, one pass of the loop; R309 begins with the length of the program so far. -/
def DecodeRule (g g' : GenState) : Prop :=
  let more := (∃ x : Fin 9, x.val < 4 ∧ g.lat[x] < 45) ∧ g.retries < 64
  (¬ more → g' = { g with prevLen := g.code.length, stage := .pad }) ∧
    (more → 256 ≤ g.steps → g' = { g with steps := g.steps + 1, prevLen := g.code.length, stage := .pad }) ∧
    (more → g.steps < 256 →
      ∃ g1, RecordRule { g with steps := g.steps + 1 } g1 ∧
        g' = if 60 ≤ g1.code.length then { g1 with prevLen := g1.code.length, stage := .pad } else g1)

/-- R309, one pass of the loop. -/
def PadRule (g g' : GenState) : Prop :=
  let alat := fun x : Nat => g.alat.toArray.getD x 0
  let more := g.code.length < 70 ∧ ∀ x, x < 4 → alat x < 45
  let op := if (g.code.length - g.prevLen) % 3 = 0 then 3 else 0
  (¬ more → g' = { g with stage := .output }) ∧
    (more → ∀ mn mx, mn < 4 → mx < 4 →
      (∀ x, x < 4 → alat mn ≤ alat x ∧ (x < mn → alat mn < alat x)) →
      (∀ x, x < 4 → alat x ≤ alat mx ∧ (x < mx → alat x < alat mx)) →
      Appends op mn mx 0 g g' ∧
        (∀ x : Fin 9,
          g'.lat[x] = (if x.val = mn then g.lat.toArray.getD mx 0 + latencyOf op else g.lat[x]) ∧
            g'.alat[x] = if x.val = mn then alat mx + asicLatencyOf op else g.alat[x]) ∧
        g' = { g with lat := g'.lat, alat := g'.alat, code := g'.code })

/-- One pass of phase RM_GEN that does not write the program (R312): the seed, a new attempt, one pass of a loop, or an
attempt dropped (R310). -/
def PassRule (height : W64) (g g' : GenState) : Prop :=
  (g.stage = .seed → SeedRule height g g') ∧ (g.stage = .attempt → AttemptRule g g') ∧
    (g.stage = .decode → DecodeRule g g') ∧ (g.stage = .pad → PadRule g g') ∧
    (g.stage = .output → g' = { g with stage := .attempt })

/-- n moves of the core with no outside event pending. -/
abbrev runs (n : Nat) (s : State) : Host.Outcome State Fault Refusal := Host.Core.run Sys2Proof.core n s

end Sys2Proof
end

