-- ==== Sys2Proof/Certificates/Slice0/Obligations.lean ====
section
/-! DEFINITION. The statements about the model, for the provers. Each docstring names the rule of spec/ it
formalises; one that rests on a choice of the model names the log entry. -/

open Sys2Proof Sys2Proof.Machine

/-! ## Encodings -/

/-- Words of spec/95_test_vectors.md sections 7.2, 8 and 9 and of R91, R92 decode to the instructions they stand
for. -/
def Obligations.SpecWordsDecode : Prop :=
  decode (.prog 0x0000000000e0) = .ok (.mul 0 7) ∧ decode (.prog 0xd3cefcdd00f1) = .ok (.add 2 7 0xd3cefcdd) ∧
    decode (.prog 0x000000000102) = .ok (.sub 0 8) ∧ decode (.prog 0x0000000000bb) = .ok (.ror 3 5) ∧
    decode (.prog 0x0000000000e4) = .ok (.rol 0 7) ∧ decode (.prog 0x00000000000d) = .ok (.xor 1 0) ∧
    decode (.prog 0x000000000006) = .ok .ret ∧ decode (.cmd 0x00000110) = .ok (.slowHash 1 true) ∧
    decode (.cmd 0x00000001) = .ok .fastHash ∧ decode (.cmd 0x00000042) = .ok .keccakPermute ∧
    decode (.ctrl 0x00000003) = .ok (.start true false) ∧ decode (.ctrl 0x00000006) = .ok (.clr false true) ∧
    decode (.prog 0x000000000007) = .error .reservedOpcode ∧ decode (.prog 0x000000000120) = .error .reservedSource ∧
    decode (.prog 0x000000000200) = .error .reservedBits ∧ decode (.cmd 0x00000053) = .error .reservedCommand

/-- R101: the word value of each operation, with any C where the operation ignores it and any DST and SRC for RET, 9 to 15
among them (notes/assumptions/5.md, DEDUCED). -/
def Obligations.ProgramWordsDecodeByFields : Prop :=
  ∀ (d : BitVec 2) (s : BitVec 4) (c : W32),
    let word := fun op : Nat => BitVec.ofNat 48 (c.toNat <<< 16 ||| s.toNat <<< 5 ||| d.toNat <<< 3 ||| op)
    (s.toNat < 9 →
      decode (.prog (word 0)) = .ok (.mul d s) ∧ decode (.prog (word 1)) = .ok (.add d s c) ∧
        decode (.prog (word 2)) = .ok (.sub d s) ∧ decode (.prog (word 3)) = .ok (.ror d s) ∧
        decode (.prog (word 4)) = .ok (.rol d s) ∧ decode (.prog (word 5)) = .ok (.xor d s)) ∧
      decode (.prog (word 6)) = .ok .ret

/-- R102 with notes/assumptions/5.md (DEDUCED: no SRC makes a RET reserved): exactly these program-store words are
rejected. -/
def Obligations.ReservedProgramWordsRejected : Prop :=
  ∀ w : ProgWord,
    (∃ e, decode (.prog w) = .error e) ↔
      w.toNat % 8 = 7 ∨ w.toNat / 2 ^ 9 % 2 ^ 7 ≠ 0 ∨ (w.toNat % 8 ≠ 6 ∧ 9 ≤ w.toNat / 2 ^ 5 % 2 ^ 4)

/-- R91, R92: the fields of a CMD word and of a CTRL word, the reserved bits whatever they are. That a CTRL word with
START and CLR both set is START with its CLR bit is the model's spelling (notes/assumptions/6.md, DESIGN CHOICE). -/
def Obligations.HostWordsDecodeByFields : Prop :=
  (∀ w : W32,
    (w.toNat % 4 = 0 → decode (.cmd w) = .ok (.slowHash (BitVec.ofNat 3 (w.toNat / 16)) (w.toNat.testBit 8))) ∧
      (w.toNat % 4 = 1 → decode (.cmd w) = .ok .fastHash) ∧
      (w.toNat % 4 = 2 → decode (.cmd w) = .ok .keccakPermute) ∧
      (w.toNat % 4 = 3 → decode (.cmd w) = .error .reservedCommand)) ∧
    ∀ w : W32,
      (w.toNat % 2 = 1 → decode (.ctrl w) = .ok (.start (w.toNat.testBit 1) (w.toNat.testBit 2))) ∧
        (w.toNat % 2 = 0 → w.toNat.testBit 2 = true → decode (.ctrl w) = .ok (.clr false (w.toNat.testBit 1))) ∧
        (w.toNat % 2 = 0 → w.toNat.testBit 2 = false → decode (.ctrl w) = .error .noCommandBit)

/-- Decoding the word that stands for a well-formed instruction gives it back, with every operand. -/
def Obligations.DecodeInvertsEncode : Prop :=
  ∀ i : Instr, i.wellFormed = true → decode (encode i) = .ok i

/-- Whatever a word decodes to is well formed, and its own word is the word decoded with the ignored bits cleared: in
the program store bits 47:16 but for ADD, and bits 47:3 of a RET (R101); in CMD the reserved bits, and VARIANT and
PREHASHED too of FAST_HASH and KECCAK_PERMUTE (R92, R95); in CTRL the reserved bits (R91). -/
def Obligations.DecodedInstructionsAreWellFormed : Prop :=
  (∀ e i, decode e = .ok i → i.wellFormed = true) ∧
    (∀ w i, decode (.prog w) = .ok i →
      encode i = .prog (if w.toNat % 8 = 6 then w &&& 7#48 else if w.toNat % 8 = 1 then w else w &&& 0xFFFF#48)) ∧
    (∀ w i, decode (.cmd w) = .ok i → encode i = .cmd (if w.toNat % 4 = 0 then w &&& 0x173#32 else w &&& 3#32)) ∧
    ∀ w i, decode (.ctrl w) = .ok i → encode i = .ctrl (w &&& 7#32)

/-! ## Steps -/

/-- A step runs the decoded instruction. While the random-math machine runs, the word at PROG[rpc] (R271), a
reserved one ending the job (R102); else the latched command while a job runs (R350); and the command bits of a host
write to CTRL (R91), a write with neither changing IE only (R351). That the fetch of OP = 3 raises BAD_COMMAND, in
whatever phase, is the model's place for the first check of phase CHECK (notes/assumptions/19.md, DEDUCED). The queue
of outside events is the model's (notes/assumptions/7.md). -/
def Obligations.StepRunsDecodedInstruction : Prop :=
  (∀ (s : State) (h : s.rpc.toNat < 71), CoreMoves s → RunsProgram s →
    (∀ i, decode (.prog s.prog[s.rpc.toNat]) = .ok i → step s = exec i s) ∧
      (∀ e, decode (.prog s.prog[s.rpc.toNat]) = .error e → step s = .next (s.raiseJobError .internalFault))) ∧
    (∀ s : State, CoreMoves s → ¬ RunsProgram s →
      (s.jobOp = 0 → step s = exec (.slowHash s.jobVariant s.jobPrehashed) s) ∧
        (s.jobOp = 1 → step s = exec .fastHash s) ∧ (s.jobOp = 2 → step s = exec .keccakPermute s) ∧
        (s.jobOp = 3 → step s = .next (s.raiseJobError .badCommand))) ∧
    ∀ (s : State) (v : W32) (rest : List Input), s.inputs = .write 0 4 v :: rest →
      (∀ i, decode (.ctrl v) = .ok i → step s = exec i { s with inputs := rest }) ∧
        (∀ e, decode (.ctrl v) = .error e → step s = .next { s with inputs := rest, ie := v.getLsbD 1 })

/-- What an outside event does: a read returns its value and changes nothing else; `core` gives the core the step it
would take with no event pending; the answer to the next buffer request changes; with no event and no job the core
changes nothing (R405). The queue is the model's (notes/assumptions/3.md, 7.md). -/
def Obligations.StepTakesOutsideEvents : Prop :=
  (∀ (s : State) (off : BitVec 16) (width : Nat) (rest : List Input), s.inputs = .read off width :: rest →
    step s = .next { s with inputs := rest, hostData := s.hostRead off width }) ∧
    (∀ (s t : State) (rest : List Input), s.inputs = .core :: rest → step { s with inputs := [] } = .next t →
      step s = .next { t with inputs := rest }) ∧
    (∀ (s : State) (g : Bool) (rest : List Input), s.inputs = .grant g :: rest →
      step s = .next { s with inputs := rest, spGrant := g }) ∧
    ∀ s : State, s.inputs = [] → s.busy = false → step s = .next s

/-- The state the host's fetch helper builds runs the instruction of an opcode-table word as its very next step
(notes/assumptions/6.md, 8.md). -/
def Obligations.TableWordRunsNext : Prop :=
  ∀ (s : State) (nbits w : Nat) (i : Instr), decodeTableWord nbits w = some i →
    step (s.withFetchWord nbits w) = exec i { s.withFetchWord nbits w with inputs := s.inputs }

/-! ## The random-math machine -/

/-- R272 and R277. When the source is the destination the old value is read (R278). -/
def Obligations.MulAndXorResults : Prop :=
  ∀ (s : State) (d : BitVec 2) (src : BitVec 4), src.toNat < 9 →
    (∃ t, exec (.mul d src) s = .next t ∧ AluEffect s d (regNat s d.toNat * regNat s src.toNat % 2 ^ 32) t) ∧
      ∃ t, exec (.xor d src) s = .next t ∧ AluEffect s d (regNat s d.toNat ^^^ regNat s src.toNat) t

/-- R273, whose constant is not sign-extended (R103), and R274. -/
def Obligations.AddAndSubResults : Prop :=
  ∀ (s : State) (d : BitVec 2) (src : BitVec 4) (c : W32), src.toNat < 9 →
    (∃ t, exec (.add d src c) s = .next t ∧
      AluEffect s d ((regNat s d.toNat + regNat s src.toNat + c.toNat) % 2 ^ 32) t) ∧
      ∃ t, exec (.sub d src) s = .next t ∧
        AluEffect s d ((regNat s d.toNat + 2 ^ 32 - regNat s src.toNat) % 2 ^ 32) t

/-- R275 and R276, bit by bit: bit i of the result is bit i + n (ROR) or i - n (ROL) mod 32 of the old value, n the
source mod 32. -/
def Obligations.RotateResults : Prop :=
  ∀ (s : State) (d : BitVec 2) (src : BitVec 4), src.toNat < 9 →
    (∃ t, exec (.ror d src) s = .next t ∧ AluEffect s d (regNat t d.toNat) t ∧
      ∀ i, i < 32 →
        (regNat t d.toNat).testBit i = (regNat s d.toNat).testBit ((i + regNat s src.toNat % 32) % 32)) ∧
    ∃ t, exec (.rol d src) s = .next t ∧ AluEffect s d (regNat t d.toNat) t ∧
      ∀ i, i < 32 →
        (regNat t d.toNat).testBit i = (regNat s d.toNat).testBit ((i + 32 - regNat s src.toNat % 32) % 32)

/-- RET ends the run and changes no register (R287); the loop goes on with the fold into a1 (the position is the
model's, notes/assumptions/9.md). An operation whose source field is 9 .. 15 is a reserved word: it ends the job with
INTERNAL_FAULT and writes no register (R102). -/
def Obligations.RetAndReservedSourceEndRun : Prop :=
  (∀ s : State, exec .ret s = .next { s with mixStep := .rmFold }) ∧
    ∀ (s : State) (d : BitVec 2) (src : BitVec 4) (c : W32) (i : Instr), 9 ≤ src.toNat →
      i ∈ [Instr.mul d src, .add d src c, .sub d src, .ror d src, .rol d src, .xor d src] →
        i.wellFormed = false ∧ exec i s = .next (s.raiseJobError .internalFault)

/-- R271 over a generated program (R311): the run executes PROG[0] .. PROG[PLEN - 1] in order and then RET at
PROG[PLEN], one word a step, and leaves the registers of the sequential execution. -/
def Obligations.ProgramRunIsSequential : Prop :=
  ∀ s : State, CoreMoves s → RunsProgram s → s.rpc = 0 → ProgramInv s →
    ∃ r', runProg s.prog 71 0 s.r = some r' ∧
      runs (s.plen.toNat + 1) s = .next { s with r := r', rpc := s.plen, mixStep := .rmFold }

/-- R291 to R293: what random_math() does before and after the run. -/
def Obligations.RandomMathSeedsAndFolds : Prop :=
  (∀ (s : State) (p : Bool), s.phase = .mix → s.mixStep = .half2Math →
    ∃ t, exec (.slowHash 4 p) s = .next t ∧
      (lo64 t.t).toNat =
        (lo64 s.t).toNat ^^^
          ((regNat s 0 + regNat s 1) % 2 ^ 32 + (regNat s 2 + regNat s 3) % 2 ^ 32 * 2 ^ 32) ∧
      hi64 t.t = hi64 s.t ∧ (∀ k, k < 4 → regNat t k = regNat s k) ∧
      regNat t 4 = (lo64 s.a).toNat % 2 ^ 32 ∧ regNat t 5 = (hi64 s.a).toNat % 2 ^ 32 ∧
      regNat t 6 = (lo64 s.b0).toNat % 2 ^ 32 ∧ regNat t 7 = (lo64 s.b1).toNat % 2 ^ 32 ∧
      regNat t 8 = (hi64 s.b1).toNat % 2 ^ 32 ∧
      t = { s with t := t.t, r := t.r, rpc := 0, mixStep := .rmRun }) ∧
    ∀ (s : State) (v : BitVec 3) (p : Bool), s.phase = .mix → s.mixStep = .rmFold →
      ∃ t, exec (.slowHash v p) s = .next t ∧
        (lo64 t.a1).toNat = (lo64 s.a1).toNat ^^^ (regNat s 2 + regNat s 3 * 2 ^ 32) ∧
        (hi64 t.a1).toNat = (hi64 s.a1).toNat ^^^ (regNat s 0 + regNat s 1 * 2 ^ 32) ∧
        t = { s with a1 := t.a1, mixStep := .half2Mul }

/-- Phase RM_GEN. R310, R311: an accepted attempt writes the program. PROG[k] is the word of code[k], which its machine
decodes back; the program ends with one RET, and nothing else of the program store changes. Phase FILL follows with its
text. Every other pass changes the generator's state alone, by its rule: the seed (R301, R302), a new attempt (R304), a
decode pass with its rejects and its accept (R305 to R308), a padding pass (R309), an attempt dropped (R310). That a
step is one pass, and the field that names the next one, are the model's (notes/assumptions/9.md). -/
def Obligations.GeneratorWritesProgram : Prop :=
  (∀ (s : State) (v : BitVec 3) (p : Bool), s.phase = .rmGen → s.gen.stage = .output → GenInv s.gen →
    s.gen.r8Used = true → 60 ≤ s.gen.code.length →
    ∃ t, exec (.slowHash v p) s = .next t ∧ t.plen.toNat = s.gen.code.length ∧ ProgramInv t ∧
      (∀ k : Fin 71,
        (∀ h : k.val < s.gen.code.length,
          encode s.gen.code[k.val] = .prog t.prog[k] ∧ decode (.prog t.prog[k]) = .ok s.gen.code[k.val]) ∧
          (k.val = s.gen.code.length → t.prog[k] = 6) ∧ (s.gen.code.length < k.val → t.prog[k] = s.prog[k])) ∧
      t = { s with
        prog := t.prog, plen := t.plen, text := textOf s.hashState, g := 0, phase := .fill, progress := 0 }) ∧
    ∀ (s : State) (v : BitVec 3) (p : Bool), s.phase = .rmGen →
      ¬ (s.gen.stage = .output ∧ s.gen.r8Used = true ∧ 60 ≤ s.gen.code.length ∧ s.gen.code.length ≤ 70) →
      ∃ g', exec (.slowHash v p) s = .next { s with gen := g' } ∧ PassRule s.jobHeight s.gen g'

/-! ## Errors -/

/-- R381: the checks of phase CHECK, in their order, over the latched parameters; when all pass, the first phase of
R201 (R354, R356). -/
def Obligations.CheckOrder : Prop :=
  ∀ s : State, CoreMoves s → s.phase = .check →
    (s.jobOp = 3 → step s = .next (s.raiseJobError .badCommand)) ∧
      (s.jobOp = 2 → step s = .next { s with phase := .permute, progress := 0 }) ∧
      (s.jobOp = 0 → 4 < s.jobVariant.toNat → step s = .next (s.raiseJobError .badVariant)) ∧
      ((s.jobOp = 0 ∧ s.jobVariant.toNat ≤ 4) ∨ s.jobOp = 1 → s.msgMax < s.jobLen.toNat →
        step s = .next (s.raiseJobError .badLength)) ∧
      (s.jobOp = 1 → s.jobLen.toNat ≤ s.msgMax →
        step s = .next { s with hashState := Vector.replicate 25 0, blk := 0, phase := .absorb, progress := 0 }) ∧
      (s.jobOp = 0 → s.jobVariant.toNat ≤ 4 → s.jobLen.toNat ≤ s.msgMax →
        (s.jobVariant = 1 ∧ s.jobLen.toNat < 43 → step s = .next (s.raiseJobError .invalidInputLength)) ∧
          (¬ (s.jobVariant = 1 ∧ s.jobLen.toNat < 43) →
            (s.jobPrehashed = true ∧ s.jobLen.toNat ≠ 200 → step s = .next (s.raiseJobError .badLength)) ∧
              (¬ (s.jobPrehashed = true ∧ s.jobLen.toNat ≠ 200) →
                (s.spGrant = false → step s = .next (s.raiseJobError .allocationFailure)) ∧
                  (s.spGrant = true →
                    (s.jobPrehashed = true →
                      step s = .next { s.loadPrehashed with spOwned := true, phase := .setup, progress := 0 }) ∧
                      (s.jobPrehashed = false →
                        step s = .next { s with
                          spOwned := true, hashState := Vector.replicate 25 0, blk := 0, phase := .absorb,
                          progress := 0 })))))

/-- R383: the fields error entry writes, that it writes no others (the ownership of the buffer ends with the job,
notes/assumptions/15.md; that the internal registers keep their values is the model's choice, 21.md), the
interrupt by R392, and that the job takes no further step; and the checks that enter it. -/
def Obligations.ErrorEntryEffect : Prop :=
  (∀ (s : State) (code : ErrCode),
    let t := s.raiseJobError code
    t = { s with errcode := code, err := true, done := false, busy := false, phase := .error, progress := 0,
                 spOwned := false } ∧
      t.irq = s.ie ∧ (s.inputs = [] → step t = .next t)) ∧
    (∀ (s : State) (v : BitVec 3) (p : Bool) (code : ErrCode), s.phase = .check →
      checkJob 0 v p s.jobLen.toNat s.msgMax s.spGrant = some code →
      exec (.slowHash v p) s = .next (s.raiseJobError code)) ∧
    ∀ s : State, s.phase = .check → s.msgMax < s.jobLen.toNat →
      exec .fastHash s = .next (s.raiseJobError .badLength)

/-- R384 and R385: a core step that ends a job with an error leaves DIGEST, SW, CMD, LEN, HEIGHT and MSG alone;
INTERNAL_FAULT comes only from phase MIX; under the invariant an error comes only from phase CHECK, with its code. -/
def Obligations.ErrorsLeaveOutputsAlone : Prop :=
  ∀ s t : State, CoreMoves s → StatusInv s → step s = .next t → t.err = true →
    t.digest = s.digest ∧ t.sw = s.sw ∧ t.cmd = s.cmd ∧ t.len = s.len ∧ t.heightLo = s.heightLo ∧
      t.heightHi = s.heightHi ∧ t.msg = s.msg ∧ t.errcode ≠ .none ∧ (t.errcode = .internalFault → s.phase = .mix) ∧
      (Inv s → s.phase = .check ∧ t.errcode ≠ .internalFault)

/-! ## Host commands, the interrupt and the register window -/

/-- R350: START latches the parameters and starts the job; while a job runs it changes IE only (R353 for IE and
CLR). -/
def Obligations.StartLatchesParameters : Prop :=
  ∀ (s : State) (ie clr : Bool),
    (s.busy = true → exec (.start ie clr) s = .next { s with ie := ie }) ∧
      (s.busy = false → ∃ t, exec (.start ie clr) s = .next t ∧
        t.jobOp.toNat = s.cmd.toNat % 4 ∧ t.jobVariant.toNat = s.cmd.toNat / 16 % 8 ∧
        t.jobPrehashed = s.cmd.toNat.testBit 8 ∧ t.jobLen = s.len ∧
        t.jobHeight.toNat = s.heightHi.toNat * 2 ^ 32 + s.heightLo.toNat ∧
        t = { s with
          ie := ie, done := false, err := false, errcode := .none, busy := true, phase := .check, progress := 0,
          jobOp := t.jobOp, jobVariant := t.jobVariant, jobPrehashed := t.jobPrehashed, jobLen := t.jobLen,
          jobHeight := t.jobHeight })

/-- R352: CLR clears the status and changes no other register and no buffer; while a job runs it is ignored. IE
takes its bit in both cases (R353). -/
def Obligations.ClrReturnsToIdle : Prop :=
  ∀ (s : State) (ie : Bool),
    (s.busy = true → exec (.clr false ie) s = .next { s with ie := ie }) ∧
      (s.busy = false → exec (.clr false ie) s =
        .next { s with ie := ie, done := false, err := false, errcode := .none, phase := .idle, progress := 0 })

/-- R353: one CTRL write with several bits acts as three writes, of IE alone, of IE and CLR, of IE and START, in that
order. So CLR with its START bit set is START with its CLR bit set. -/
def Obligations.ControlWriteOrder : Prop :=
  (∀ (s : State) (v : W32) (rest : List Input), s.inputs = .write 0 4 v :: rest →
    step s =
      runs 3 { s with inputs := .write 0 4 (v &&& 2#32) :: .write 0 4 (v &&& 6#32) :: .write 0 4 (v &&& 3#32) :: rest }) ∧
    ∀ (s : State) (ie : Bool), exec (.clr true ie) s = exec (.start ie true) s ∧
      ∃ t, exec (.clr true ie) s = .next t ∧ t.ie = ie ∧ t.busy = true

/-- R392: the interrupt output, and the four writes that change it. -/
def Obligations.InterruptFollowsStatus : Prop :=
  ∀ s : State,
    (s.irq = true ↔ s.ie = true ∧ (s.done = true ∨ s.err = true)) ∧
      (s.done = true → ∀ t rest, s.inputs = .write 0 4 2 :: rest → step s = .next t → t.irq = true) ∧
      (∀ t rest, s.inputs = .write 0 4 0 :: rest → step s = .next t → t.irq = false) ∧
      (s.busy = false → ∀ t ie clr, exec (.start ie clr) s = .next t → t.irq = false) ∧
      (s.busy = false → ∀ t ie, exec (.clr false ie) s = .next t → t.irq = false)

/-- R431: while a job runs a host write changes nothing but IE, which a CTRL write still updates; reads are allowed,
and DIGEST and SW keep their values until the job ends. -/
def Obligations.BusyLockHoldsInputs : Prop :=
  (∀ (s : State) (off : BitVec 16) (width : Nat) (v : W32) (rest : List Input), s.busy = true →
    s.inputs = .write off width v :: rest →
    step s = .next { s with inputs := rest, ie := if off = 0 ∧ width = 4 then v.getLsbD 1 else s.ie }) ∧
    (∀ (s : State) (off : BitVec 16) (width : Nat) (rest : List Input), s.inputs = .read off width :: rest →
      step s = .next { s with inputs := rest, hostData := s.hostRead off width }) ∧
    ∀ s t : State, CoreMoves s → step s = .next t → t.busy = true → t.digest = s.digest ∧ t.sw = s.sw

/-- R91 to R93: what the host reads in the register block, and what an idle core's registers take from a write: CMD
without its reserved bits (R21), LEN and HEIGHT whole, STATUS and PROGRESS nothing (R24, R25). -/
def Obligations.RegisterBlockReadsAndWrites : Prop :=
  (∀ s : State,
    (s.hostRead 0x00 4).toNat = s.ie.toNat * 2 ∧ s.hostRead 0x04 4 = s.cmd ∧ s.hostRead 0x08 4 = s.len ∧
      s.hostRead 0x10 4 = s.heightLo ∧ s.hostRead 0x14 4 = s.heightHi ∧
      (s.hostRead 0x20 4).toNat =
        s.phase.code.toNat * 2 ^ 8 + s.errcode.code.toNat * 2 ^ 4 + s.err.toNat * 4 + s.done.toNat * 2 +
          s.busy.toNat ∧
      s.hostRead 0x24 4 = s.progress) ∧
    ∀ (s : State) (v : W32) (rest : List Input), s.busy = false →
      (s.inputs = .write 0x04 4 v :: rest → step s = .next { s with inputs := rest, cmd := v &&& 0x173#32 }) ∧
        (s.inputs = .write 0x08 4 v :: rest → step s = .next { s with inputs := rest, len := v }) ∧
        (s.inputs = .write 0x10 4 v :: rest → step s = .next { s with inputs := rest, heightLo := v }) ∧
        (s.inputs = .write 0x14 4 v :: rest → step s = .next { s with inputs := rest, heightHi := v }) ∧
        (s.inputs = .write 0x20 4 v :: rest → step s = .next { s with inputs := rest }) ∧
        (s.inputs = .write 0x24 4 v :: rest → step s = .next { s with inputs := rest })

/-- R64 and R63: a refused access, and an access to reserved offsets only, reads 0 and writes nothing; so does a
write to DIGEST (R26). -/
def Obligations.RefusedAndReservedAccesses : Prop :=
  ∀ (s : State) (off : BitVec 16) (width : Nat) (v : W32) (rest : List Input),
    (RefusedAccess off width ∨ (∀ k, k < width → ReservedOffset s (off.toNat + k)) → s.hostRead off width = 0) ∧
      (RefusedAccess off width ∨ (∀ k, k < width → ReservedOffset s (off.toNat + k)) ∨
          (0x100 ≤ off.toNat ∧ off.toNat + width ≤ 0x120) →
        s.inputs = .write off width v :: rest → step s = .next { s with inputs := rest })

/-- R62, R90, R26 to R28: byte i of DIGEST, SW and MSG sits at window offset base + i, little-endian in a read or a
write of 2 or 4 bytes, and a legal write to SW or MSG while no job runs is read back, changes the bytes it names and no
other. An access that begins inside MSG and ends past it reads 0 and writes nothing past it, byte by byte
(notes/assumptions/13.md, DEDUCED). -/
def Obligations.BufferWritesReadBack : Prop :=
  (∀ (s : State) (off : BitVec 16) (width : Nat) (v : W32) (rest : List Input), s.busy = false → s.msg.wf = true →
    ¬ RefusedAccess off width → WritableBytes s off width → s.inputs = .write off width v :: rest →
    ∃ t, step s = .next t ∧ t = { s with inputs := rest, sw := t.sw, msg := t.msg } ∧
      (t.hostRead off width).toNat = v.toNat % 256 ^ width ∧
      ∀ k, k < off.toNat ∨ off.toNat + width ≤ k → t.hostByte k = s.hostByte k) ∧
    (∀ (s : State) (off : BitVec 16) (width : Nat), ¬ RefusedAccess off width → 0x100 ≤ off.toNat →
      (s.hostRead off width).toNat < 256 ^ width ∧
        ∀ k, k < width →
          let b := (s.hostRead off width).toNat / 256 ^ k % 256
          (∀ i : Fin 32, off.toNat + k = 0x100 + i.val → b = (s.digest[i]).toNat) ∧
            (∀ i : Fin 200, off.toNat + k = 0x200 + i.val → b = (s.sw[i]).toNat) ∧
            (∀ i, i < s.msgMax → off.toNat + k = 0x8000 + i → b = (s.msg.read i).toNat) ∧
            (ReservedOffset s (off.toNat + k) → b = 0)) ∧
    ∀ (s : State) (off : BitVec 16) (width : Nat) (v : W32) (rest : List Input), s.busy = false → s.msg.wf = true →
      ¬ RefusedAccess off width → 0x100 ≤ off.toNat → s.inputs = .write off width v :: rest →
      ∃ t, step s = .next t ∧ t = { s with inputs := rest, sw := t.sw, msg := t.msg } ∧
        (∀ i : Fin 200,
          t.sw[i] =
            if off.toNat ≤ 0x200 + i.val ∧ 0x200 + i.val < off.toNat + width then
              BitVec.ofNat 8 (v.toNat / 256 ^ (0x200 + i.val - off.toNat))
            else s.sw[i]) ∧
        ∀ i,
          t.msg.read i =
            if i < s.msgMax ∧ off.toNat ≤ 0x8000 + i ∧ 0x8000 + i < off.toNat + width then
              BitVec.ofNat 8 (v.toNat / 256 ^ (0x8000 + i - off.toNat))
            else s.msg.read i

/-- R420 and R421: the values the spec gives reset, at State.reset and after a reset in any state, a job running or
not. -/
def Obligations.ResetClearsRegisters : Prop :=
  ∀ t : State,
    (t = State.reset ∨ ∃ s rest, s.inputs = .reset :: rest ∧ step s = .next t) →
      t.ie = false ∧ t.cmd = 0 ∧ t.len = 0 ∧ t.heightLo = 0 ∧ t.heightHi = 0 ∧ t.busy = false ∧ t.done = false ∧
        t.err = false ∧ t.errcode = .none ∧ t.phase = .idle ∧ t.hostRead 0x20 4 = 0 ∧ t.progress = 0 ∧
        t.digest = Vector.replicate 32 0 ∧ t.blk = 0 ∧ t.g = 0 ∧ t.i = 0 ∧ t.irq = false

/-! ## Keccak and the jobs over it -/

/-- R132 and R134 to R136: the steps of a round, lane by lane, indices mod 5. -/
def Obligations.KeccakStepsByLane : Prop :=
  ∀ (A : Lanes) (x y : Fin 5) (rc : W64),
    let C := fun x : Fin 5 => lane A x 0 ^^^ lane A x 1 ^^^ lane A x 2 ^^^ lane A x 3 ^^^ lane A x 4
    lane (theta A) x y = lane A x y ^^^ (C (x - 1) ^^^ (C (x + 1)).rotateLeft 1) ∧
      lane (rhoPi A) y (2 * x + 3 * y) = (lane A x y).rotateLeft (rho x y) ∧
      lane (chi A) x y = lane A x y ^^^ (~~~ (lane A (x + 1) y) &&& lane A (x + 2) y) ∧
      lane (iota rc A) x y = if x = 0 ∧ y = 0 then lane A x y ^^^ rc else lane A x y

/-- R138: KeccakF is its 24 rounds, and is a bijection on 200-byte strings. -/
def Obligations.KeccakPermutes : Prop :=
  (∀ A : Lanes, keccakF A = roundConstants.foldl (fun A rc => iota rc (chi (rhoPi (theta A)))) A) ∧
    roundConstants.length = 24 ∧
    Function.Bijective fun B : Vector Byte 200 => bytesOfLanes (keccakF (lanesOfBytes B))

/-- R140 and R141: where each message byte and each padding byte of a message of L bytes goes, the number of blocks,
and that only bytes 0 .. 135 of the state receive any. -/
def Obligations.AbsorbPlacesEveryByte : Prop :=
  ∀ (msg : Nat → Byte) (L : Nat),
    absorbBlocks L = L / 136 + 1 ∧
      (∀ i, i < L → absorbByte msg L (i / 136) (i % 136) = msg i) ∧
      (L % 136 = 135 → absorbByte msg L (L / 136) 135 = 0x81) ∧
      (L % 136 ≠ 135 → absorbByte msg L (L / 136) (L % 136) = 0x01 ∧ absorbByte msg L (L / 136) 135 = 0x80 ∧
        ∀ j, L % 136 < j → j < 135 → absorbByte msg L (L / 136) j = 0) ∧
      ∀ (S : Lanes) (p : Nat → Byte) (i : Fin 200),
        (bytesOfLanes (xorRate S p))[i] =
          if i.val < 136 then (bytesOfLanes S)[i] ^^^ p i.val else (bytesOfLanes S)[i]

/-- R361, R362 and R366, phase by phase: only the length is checked; each unit is one KeccakF application; the end
writes DIGEST. Given a length in bounds, FAST_HASH completes in every phase it has. Phase ABSORB of SLOW_HASH is the
same and goes on to SETUP (R201, R355): a job of any variant that passes its checks has S = absorb(MSG[0 .. LEN)) after
it. That the internal registers keep their values at the end of the job is the model's choice
(notes/assumptions/21.md). -/
def Obligations.FastHashPhases : Prop :=
  (∀ s : State, s.jobLen.toNat ≤ s.msgMax →
    (s.phase = .check →
      exec .fastHash s = .next { s with hashState := Vector.replicate 25 0, blk := 0, phase := .absorb, progress := 0 }) ∧
      (s.phase = .absorb → s.blk < s.jobLen.toNat / 136 + 1 →
        exec .fastHash s =
          .next { s with
            hashState := keccakF (xorRate s.hashState (absorbByte s.msgByte s.jobLen.toNat s.blk)),
            blk := s.blk + 1, progress := BitVec.ofNat 32 (s.blk + 1) }) ∧
      (s.phase = .absorb → s.jobLen.toNat / 136 + 1 ≤ s.blk →
        ∃ t, exec .fastHash s = .next t ∧ (∀ i : Fin 32, t.digest[i] = (bytesOfLanes s.hashState)[i.val]) ∧
          t = { s with digest := t.digest, busy := false, done := true, phase := .done, progress := 0, spOwned := false })) ∧
    (∀ (s : State) (v : BitVec 3) (p : Bool), s.jobLen.toNat ≤ s.msgMax → s.phase = .absorb →
      (s.blk < s.jobLen.toNat / 136 + 1 →
        exec (.slowHash v p) s =
          .next { s with
            hashState := keccakF (xorRate s.hashState (absorbByte s.msgByte s.jobLen.toNat s.blk)),
            blk := s.blk + 1, progress := BitVec.ofNat 32 (s.blk + 1) }) ∧
        (s.jobLen.toNat / 136 + 1 ≤ s.blk →
          exec (.slowHash v p) s = .next { s with phase := .setup, progress := 0 })) ∧
    ∀ s : State, CoreMoves s → s.phase = .check → s.jobOp = 0 → s.jobPrehashed = false →
      checkJob 0 s.jobVariant false s.jobLen.toNat s.msgMax s.spGrant = none →
      ∃ n, runs n s =
        .next { s with
          spOwned := true, hashState := absorb s.msgByte s.jobLen.toNat, blk := s.jobLen.toNat / 136 + 1,
          phase := .setup, progress := 0 }

/-- R361 and R366: FAST_HASH of a message of at most MSG_MAX bytes ends with DIGEST = absorb(MSG[0 .. LEN))[0 .. 32)
after floor(LEN/136) + 1 KeccakF applications, and changes nothing else the host sees but STATUS. That the other
internal registers keep their values is the model's choice (notes/assumptions/21.md). -/
def Obligations.FastHashDigest : Prop :=
  ∀ s : State, CoreMoves s → s.phase = .check → s.jobOp = 1 → s.jobLen.toNat ≤ s.msgMax →
    ∃ n, runs n s =
      .next { s with
        digest := first32 (absorb s.msgByte s.jobLen.toNat), hashState := absorb s.msgByte s.jobLen.toNat,
        blk := s.jobLen.toNat / 136 + 1, busy := false, done := true, phase := .done, progress := 0, spOwned := false }

/-- R367 and R368: KECCAK_PERMUTE is CHECK and PERMUTE, and writes SW <- KeccakF(SW) and the status; DIGEST and
everything else keep their values, the internal registers by the model's choice (notes/assumptions/21.md). -/
def Obligations.KeccakPermuteJob : Prop :=
  (∀ s : State, s.phase = .check → exec .keccakPermute s = .next { s with phase := .permute, progress := 0 }) ∧
    (∀ s : State, s.phase = .permute →
      exec .keccakPermute s =
        .next { s with
          sw := bytesOfLanes (keccakF (lanesOfBytes s.sw)), busy := false, done := true, phase := .done, progress := 0,
          spOwned := false }) ∧
    ∀ s : State, CoreMoves s → s.phase = .check → s.jobOp = 2 →
      ∃ t, runs 2 s = .next t ∧ lanesOfBytes t.sw = keccakF (lanesOfBytes s.sw) ∧ t.busy = false ∧ t.done = true ∧
        t.digest = s.digest

/-! ## AES, the fill and the fold -/

/-- R163 to R166, byte by byte: column c of AESround(X, K), from the S-box, ShiftRows' source columns, the matrix of
MixColumns and the round key. -/
def Obligations.AesRoundByBytes : Prop :=
  ∀ (X K : Block) (c : Fin 4),
    let two := fun v : Byte => (v <<< 1) ^^^ (if v &&& 0x80#8 = 0 then 0#8 else 0x1B#8)
    let three := fun v : Byte => two v ^^^ v
    let a := fun r : Nat => sbox (byteOf X (r + 4 * ((c.val + r) % 4)))
    let out := fun r : Nat => byteOf (aesRound X K) (r + 4 * c.val) ^^^ byteOf K (r + 4 * c.val)
    out 0 = (two (a 0) ^^^ three (a 1) ^^^ a 2 ^^^ a 3) ∧ out 1 = (a 0 ^^^ two (a 1) ^^^ three (a 2) ^^^ a 3) ∧
      out 2 = (a 0 ^^^ a 1 ^^^ two (a 2) ^^^ three (a 3)) ∧ out 3 = (three (a 0) ^^^ a 1 ^^^ a 2 ^^^ two (a 3))

/-- R162: the recurrence of the key schedule, word by word. -/
def Obligations.KeyExpansionRecurrence : Prop :=
  ∀ k0 k1 : Block,
    let rk := expandKey k0 k1
    let w := fun i : Nat => (rk.toArray.getD (i / 4) 0).extractLsb' (32 * (i % 4)) 32
    let bytes := fun b0 b1 b2 b3 : Byte => b3 ++ b2 ++ b1 ++ b0
    rk[0] = k0 ∧ rk[1] = k1 ∧
      ∀ i, 8 ≤ i → i < 40 →
        let t := w (i - 1)
        w i = w (i - 8) ^^^
          (if i % 8 = 0 then
            bytes (sbox (byteOf t 1) ^^^ BitVec.ofNat 8 (2 ^ (i / 8 - 1))) (sbox (byteOf t 2)) (sbox (byteOf t 3))
              (sbox (byteOf t 0))
          else if i % 8 = 4 then
            bytes (sbox (byteOf t 0)) (sbox (byteOf t 1)) (sbox (byteOf t 2)) (sbox (byteOf t 3))
          else t)

/-- R202: the registers phase SETUP loads, and that it loads no others; RM_GEN follows for VARIANT = 4 and FILL for the
rest, which starts with TEXT (R183). -/
def Obligations.SetupLoadsRegisters : Prop :=
  ∀ (s : State) (v : BitVec 3) (p : Bool), s.phase = .setup →
    ∃ t, exec (.slowHash v p) s = .next t ∧ t.rk1 = expandKey (laneBlock s.hashState 0) (laneBlock s.hashState 1) ∧
      lo64 t.a = s.hashState[0] ^^^ s.hashState[4] ∧ hi64 t.a = s.hashState[1] ^^^ s.hashState[5] ∧
      lo64 t.b0 = s.hashState[2] ^^^ s.hashState[6] ∧ hi64 t.b0 = s.hashState[3] ^^^ s.hashState[7] ∧
      (2 ≤ v.toNat → lo64 t.b1 = s.hashState[8] ^^^ s.hashState[10] ∧ hi64 t.b1 = s.hashState[9] ^^^ s.hashState[11]) ∧
      (v.toNat < 2 → t.b1 = 0) ∧
      t.tweak12 = (if v = 1 then s.hashState[24] ^^^ s.msg.read64 35 else s.tweak12) ∧
      t.divR = (if v = 2 ∨ v = 3 then s.hashState[12] else s.divR) ∧
      t.sqrtR = (if v = 2 ∨ v = 3 then s.hashState[13] else s.sqrtR) ∧
      (v = 4 → regNat t 0 = s.hashState[12].toNat % 2 ^ 32 ∧ regNat t 1 = s.hashState[12].toNat / 2 ^ 32 ∧
        regNat t 2 = s.hashState[13].toNat % 2 ^ 32 ∧ regNat t 3 = s.hashState[13].toNat / 2 ^ 32 ∧
        ∀ k, 4 ≤ k → k < 9 → regNat t k = regNat s k) ∧
      (v ≠ 4 → t.r = s.r) ∧
      t = { s with
        rk1 := t.rk1, a := t.a, b0 := t.b0, b1 := t.b1, tweak12 := t.tweak12, divR := t.divR, sqrtR := t.sqrtR, r := t.r,
        phase := if v = 4 then .rmGen else .fill, progress := 0, text := if v = 4 then s.text else textOf s.hashState,
        g := if v = 4 then s.g else 0, gen := if v = 4 then { s.gen with stage := .seed } else s.gen }

/-- R183, one group: the eight pseudo-rounds, the eight MemWrites at 128g + 16k, every other byte of the scratchpad
unchanged. PROGRESS is g + 1 after group g, the number of completed groups, by R25 and R441, where R183 writes g
(notes/assumptions/17.md, DEDUCED). -/
def Obligations.FillGroup : Prop :=
  ∀ (s : State) (v : BitVec 3) (p : Bool), s.phase = .fill → s.g < 2 ^ 14 → s.sp.wf = true →
    ∃ t, exec (.slowHash v p) s = .next t ∧
      (∀ k : Fin 8, t.text[k] = pseudoRound s.text[k] s.rk1 ∧ t.sp.readBlock (128 * s.g + 16 * k.val) = t.text[k]) ∧
      SameOutside (128 * s.g) 128 s.sp t.sp ∧
      t = { s with text := t.text, sp := t.sp, g := s.g + 1, progress := BitVec.ofNat 32 (s.g + 1) }

/-- R184: after the 2^14 groups of phase FILL, group g's block k is the pseudo-round applied g + 1 times to sub-block
k of the initial text. PROGRESS is 2^14 then (R441; notes/assumptions/17.md). -/
def Obligations.FillContents : Prop :=
  ∀ s : State, CoreMoves s → s.phase = .fill → s.jobOp = 0 → s.g = 0 → s.sp.wf = true →
    ∃ t, runs (2 ^ 14) s = .next t ∧ t.phase = .fill ∧ t.progress = 16384 ∧
      ∀ g, g < 2 ^ 14 → ∀ k : Fin 8,
        t.sp.readBlock (128 * g + 16 * k.val) = (fun X => pseudoRound X s.rk1)^[g + 1] s.text[k]

/-- R185: every byte of SP is written in phase FILL, so the state after it does not depend on the scratchpad
before. -/
def Obligations.FillForgetsOldScratchpad : Prop :=
  ∀ (s : State) (m : Memory), CoreMoves s → s.phase = .fill → s.jobOp = 0 → s.g = 0 → s.sp.wf = true →
    s.sp.within (2 ^ 21) = true → m.wf = true → m.within (2 ^ 21) = true →
    ∃ t, runs (2 ^ 14) s = .next t ∧ runs (2 ^ 14) { s with sp := m } = .next t

/-- R321, R322, R323 to R325 and R360: one group of the final fold, the permutation with TEXT in S[64 .. 192), and the
digest by the selector, each with what it leaves alone. PROGRESS is g + 1 after group g, the number of completed
groups, by R25 and R441, where R321 writes g (notes/assumptions/17.md, DEDUCED). That the internal registers keep
their values at the end of the job is the model's choice (notes/assumptions/21.md). -/
def Obligations.FinalizationSteps : Prop :=
  (∀ (s : State) (v : BitVec 3) (p : Bool), s.phase = .finalFill → s.g < 2 ^ 14 →
    ∃ t, exec (.slowHash v p) s = .next t ∧
      (∀ k : Fin 8, t.text[k] = pseudoRound (s.text[k] ^^^ s.sp.readBlock (128 * s.g + 16 * k.val)) s.rk2) ∧
      t = { s with text := t.text, g := s.g + 1, progress := BitVec.ofNat 32 (s.g + 1) }) ∧
    (∀ (s : State) (v : BitVec 3) (p : Bool), s.phase = .permute →
      ∃ S : Lanes, exec (.slowHash v p) s = .next { s with hashState := keccakF S, phase := .extra, progress := 0 } ∧
        (∀ k : Fin 8, ∀ h : 2 * k.val + 9 < 25, mkBlock (S[2 * k.val + 8]) (S[2 * k.val + 9]) = s.text[k]) ∧
        ∀ i : Fin 25, i.val < 8 ∨ i.val = 24 → S[i] = s.hashState[i]) ∧
    ∀ (s : State) (v : BitVec 3) (p : Bool), s.phase = .extra →
      let bytes := bytesOfLanes s.hashState
      let sel := bytes[0].toNat % 4
      exec (.slowHash v p) s =
        .next { s with
          digest :=
            if sel = 0 then blake256 bytes.toList
            else if sel = 1 then Config.groestl256 bytes
            else if sel = 2 then Config.jh256 bytes
            else Config.skein256 bytes
          busy := false, done := true, phase := .done, progress := 0, spOwned := false }

/-- R334 and R336: the padded message is a whole number of 64-byte blocks, as few as hold the message and its
padding: 0x80 first, bit 0 set in the byte before the length, the bit length big-endian in the last eight. -/
def Obligations.BlakePaddingFillsBlocks : Prop :=
  ∀ L : Nat,
    (L + (blakePad L).length) % 64 = 0 ∧ 9 ≤ (blakePad L).length ∧ (blakePad L).length ≤ 72 ∧
      (L % 64 = 55 → (blakePad L)[0]? = some 0x81) ∧
      (L % 64 ≠ 55 → (blakePad L)[0]? = some 0x80 ∧ (blakePad L)[(blakePad L).length - 9]? = some 0x01 ∧
        ∀ k, 0 < k → k + 9 < (blakePad L).length → (blakePad L)[k]? = some 0x00) ∧
      ∀ k, k < 8 →
        (blakePad L)[(blakePad L).length - 8 + k]? = some (BitVec.ofNat 8 (8 * L / 256 ^ (7 - k)))

/-! ## The mixing loop -/

/-- R203, with R69 and R247: both addresses of an iteration are block addresses inside the scratchpad, and the three chunks
are three other blocks of the same 64-byte line. -/
def Obligations.ScratchpadAddressesInBounds : Prop :=
  ∀ x : Block,
    let j := addrOf x
    j.toNat = 16 * ((lo64 x).toNat / 16 % 2 ^ 17) ∧ j.toNat = (lo64 x).toNat &&& 0x1FFFF0 ∧ j.toNat + 16 ≤ 2 ^ 21 ∧
      ∀ k k' : Fin 4,
        let chunk := fun k : Fin 4 => (j ^^^ BitVec.ofNat 21 (16 * k.val)).toNat
        chunk k % 16 = 0 ∧ chunk k + 16 ≤ 2 ^ 21 ∧ chunk k / 64 = j.toNat / 64 ∧ (k ≠ k' → chunk k ≠ chunk k')

/-- R204, R207 and R210: the two loads, the AES round and the 128-bit product, each with what it leaves alone. -/
def Obligations.MixLoadsAndProduct : Prop :=
  ∀ (s : State) (v : BitVec 3) (p : Bool), s.phase = .mix →
    (s.mixStep = .half1Aes → s.i < 2 ^ 19 →
      ∃ t, exec (.slowHash v p) s = .next t ∧ t.j1.toNat = 16 * ((lo64 s.a).toNat / 16 % 2 ^ 17) ∧
        t.c = aesRound (s.sp.readBlock t.j1.toNat) s.a ∧ t = { s with j1 := t.j1, c := t.c, mixStep := .half1Shuffle }) ∧
      (s.mixStep = .half2Load →
        ∃ t, exec (.slowHash v p) s = .next t ∧ t.j2.toNat = 16 * ((lo64 s.c).toNat / 16 % 2 ^ 17) ∧
          t.t = s.sp.readBlock t.j2.toNat ∧ t = { s with j2 := t.j2, t := t.t, a1 := s.a, mixStep := .half2Math }) ∧
      (s.mixStep = .half2Mul →
        ∃ t, exec (.slowHash v p) s = .next t ∧
          t.hi.toNat * 2 ^ 64 + t.lo.toNat = (lo64 s.c).toNat * (lo64 s.t).toNat ∧
          t = { s with hi := t.hi, lo := t.lo, mixStep := .half2Fold })

/-- R206, R212, R213 with R244: the two stores and the end of the iteration. The variant-1 tweaks change the stored
copy only; every byte of the scratchpad outside the block stored to is unchanged. -/
def Obligations.MixStores : Prop :=
  ∀ (s : State) (v : BitVec 3) (p : Bool), s.phase = .mix → s.sp.wf = true →
    (s.mixStep = .half1Store →
      ∃ t, exec (.slowHash v p) s = .next t ∧
        t.sp.readBlock s.j1.toNat = (if v = 1 then tweakByte11 (s.c ^^^ s.b0) else s.c ^^^ s.b0) ∧
        SameOutside s.j1.toNat 16 s.sp t.sp ∧ t = { s with sp := t.sp, mixStep := .half2Load }) ∧
      (s.mixStep = .half2Store →
        ∃ t, exec (.slowHash v p) s = .next t ∧
          lo64 t.newa = (lo64 s.a1 + s.hi) ^^^ lo64 s.t ∧ hi64 t.newa = (hi64 s.a1 + s.lo) ^^^ hi64 s.t ∧
          lo64 (t.sp.readBlock s.j2.toNat) = lo64 s.a1 + s.hi ∧
          hi64 (t.sp.readBlock s.j2.toNat) = (if v = 1 then (hi64 s.a1 + s.lo) ^^^ s.tweak12 else hi64 s.a1 + s.lo) ∧
          SameOutside s.j2.toNat 16 s.sp t.sp ∧ t = { s with sp := t.sp, newa := t.newa, mixStep := .iterEnd }) ∧
      (s.mixStep = .iterEnd →
        exec (.slowHash v p) s =
          .next { s with
            b1 := s.b0, b0 := s.c, a := s.newa, i := s.i + 1, progress := BitVec.ofNat 32 (s.i + 1),
            mixStep := .half1Aes })

/-- R245 and R246, at both call sites with the operands of R248: the three chunks rotate and take their additions,
half by half; VARIANT = 4 folds the old chunks into c; every other byte is unchanged; variants 0 and 1 do nothing
(R240). -/
def Obligations.ShuffleAddRotatesChunks : Prop :=
  ∀ (s : State) (v : BitVec 3) (p : Bool) (j : BitVec 21) (after : MixStep), s.phase = .mix → s.sp.wf = true →
    (s.mixStep = .half1Shuffle ∧ j = s.j1 ∧ after = .half1Store) ∨
      (s.mixStep = .half2Shuffle ∧ j = s.j2 ∧ after = .half2Store) →
    let chunk := fun (m : Memory) (k : Nat) => m.readBlock (j ^^^ BitVec.ofNat 21 (16 * k)).toNat
    ∃ t, exec (.slowHash v p) s = .next t ∧ t = { s with sp := t.sp, c := t.c, mixStep := after } ∧
      (v.toNat < 2 → t.sp = s.sp ∧ t.c = s.c) ∧
      (2 ≤ v.toNat →
        lo64 (chunk t.sp 1) = lo64 (chunk s.sp 3) + lo64 s.b1 ∧ hi64 (chunk t.sp 1) = hi64 (chunk s.sp 3) + hi64 s.b1 ∧
          lo64 (chunk t.sp 2) = lo64 (chunk s.sp 1) + lo64 s.b0 ∧ hi64 (chunk t.sp 2) = hi64 (chunk s.sp 1) + hi64 s.b0 ∧
          lo64 (chunk t.sp 3) = lo64 (chunk s.sp 2) + lo64 s.a ∧ hi64 (chunk t.sp 3) = hi64 (chunk s.sp 2) + hi64 s.a ∧
          t.c = (if v = 4 then s.c ^^^ chunk s.sp 1 ^^^ chunk s.sp 2 ^^^ chunk s.sp 3 else s.c) ∧
          ∀ x, (∀ k : Fin 3, ∀ b, b < 16 → x ≠ (j ^^^ BitVec.ofNat 21 (16 * (k.val + 1))).toNat + b) →
            t.sp.read x = s.sp.read x)

/-- R252: the second fold for variants 2 and 3, and nothing for the others (R240). -/
def Obligations.SecondFoldEffect : Prop :=
  ∀ (s : State) (v : BitVec 3) (p : Bool), s.phase = .mix → s.mixStep = .half2Fold → s.sp.wf = true →
    let p1 := (s.j2 ^^^ 0x10#21).toNat
    let d1 := s.sp.readBlock p1
    let d2 := s.sp.readBlock (s.j2 ^^^ 0x20#21).toNat
    ∃ t, exec (.slowHash v p) s = .next t ∧ t = { s with sp := t.sp, hi := t.hi, lo := t.lo, mixStep := .half2Shuffle } ∧
      (v = 2 ∨ v = 3 →
        lo64 (t.sp.readBlock p1) = lo64 d1 ^^^ s.hi ∧ hi64 (t.sp.readBlock p1) = hi64 d1 ^^^ s.lo ∧
          t.hi = s.hi ^^^ lo64 d2 ∧ t.lo = s.lo ^^^ hi64 d2 ∧ SameOutside p1 16 s.sp t.sp) ∧
      (¬ (v = 2 ∨ v = 3) → t.sp = s.sp ∧ t.hi = s.hi ∧ t.lo = s.lo)

/-- R250, R251 and R253: integer_math() in exact arithmetic. The square root is stated by its defining
inequalities. -/
def Obligations.IntegerMathResult : Prop :=
  ∀ (s : State) (v : BitVec 3) (p : Bool), s.phase = .mix → s.mixStep = .half2Math → v = 2 ∨ v = 3 →
    let dividend := (hi64 s.c).toNat
    let divisor := ((lo64 s.c).toNat + s.sqrtR.toNat * 2 % 2 ^ 32) % 2 ^ 32 ||| 0x80000001
    ∃ t, exec (.slowHash v p) s = .next t ∧ 2 ^ 31 + 1 ≤ divisor ∧ divisor ≤ 2 ^ 32 - 1 ∧
      lo64 t.t = lo64 s.t ^^^ s.divR ^^^ (s.sqrtR <<< 32) ∧ hi64 t.t = hi64 s.t ∧
      t.divR.toNat = dividend / divisor % 2 ^ 32 + dividend % divisor * 2 ^ 32 ∧
      (let n := ((lo64 s.c).toNat + t.divR.toNat) % 2 ^ 64
       let m := t.sqrtR.toNat + 2 ^ 33
       m * m ≤ 2 ^ 66 + 4 * n ∧ 2 ^ 66 + 4 * n < (m + 1) * (m + 1)) ∧
      t = { s with t := t.t, divR := t.divR, sqrtR := t.sqrtR, mixStep := .half2Mul }

/-- R251 and R254: isqrt_v2 is the exact integer square root its formula names, never above 3558067407,
non-decreasing, 0 up to 2^32, with the corner values R254 lists. -/
def Obligations.IsqrtIsExact : Prop :=
  (∀ n : W64,
    let m := (isqrtV2 n).toNat + 2 ^ 33
    m * m ≤ 2 ^ 66 + 4 * n.toNat ∧ 2 ^ 66 + 4 * n.toNat < (m + 1) * (m + 1) ∧ (isqrtV2 n).toNat ≤ 3558067407) ∧
    (∀ n n' : W64, n.toNat ≤ n'.toNat → (isqrtV2 n).toNat ≤ (isqrtV2 n').toNat) ∧
    (∀ n : W64, n.toNat ≤ 2 ^ 32 → isqrtV2 n = 0) ∧ isqrtV2 (BitVec.ofNat 64 (2 ^ 32 + 1)) = 1 ∧
    isqrtV2 (BitVec.ofNat 64 (2 ^ 63)) = 1930543745 ∧ isqrtV2 (BitVec.ofNat 64 (2 ^ 64 - 1)) = 3558067407

/-- R243: byte 11 of tweak_byte11 by the table, and every other byte unchanged. -/
def Obligations.TweakByteElevenTable : Prop :=
  ∀ w : Block,
    let x := byteOf w 11
    let k := 4 * (x.getLsbD 5).toNat + 2 * (x.getLsbD 4).toNat + (x.getLsbD 0).toNat
    let m : List Byte := [0x10, 0x00, 0x30, 0x00, 0x10, 0x10, 0x30, 0x10]
    byteOf (tweakByte11 w) 11 = x ^^^ m.getD k 0 ∧
      ∀ n : Fin 16, n.val ≠ 11 → byteOf (tweakByte11 w) n.val = byteOf w n.val

/-- R214: the steps of one outer iteration, taken one at a time, compute mix_iteration(), and the iteration
advances. -/
def Obligations.IterationMatchesReference : Prop :=
  ∀ (s : State) (m : MixRegs), CoreMoves s → s.phase = .mix → s.mixStep = .half1Aes → s.i < 2 ^ 19 → s.jobOp = 0 →
    mixIteration s.jobVariant s.tweak12 s.prog s.mixRegs = some m →
    ∃ n t, runs n s = .next t ∧ t.mixRegs = m ∧ t.i = s.i + 1 ∧ t.mixStep = .half1Aes ∧ t.phase = .mix ∧
      t.progress = BitVec.ofNat 32 (s.i + 1) ∧ t.hashState = s.hashState ∧ t.prog = s.prog ∧ t.digest = s.digest ∧
      t.sw = s.sw ∧ t.msg = s.msg ∧ CoreMoves t

/-! ## Whole jobs -/

/-- R355 for variants 0 to 3: a SLOW_HASH job that passes its checks ends with the digest of slow_hash, whatever the
old content of the registers and the scratchpad, and DIGEST and STATUS are all the host sees change (R370). -/
def Obligations.SlowHashDigest : Prop :=
  ∀ s : State, CoreMoves s → s.phase = .check → s.jobOp = 0 → s.jobVariant.toNat ≤ 3 →
    checkJob 0 s.jobVariant s.jobPrehashed s.jobLen.toNat s.msgMax s.spGrant = none →
    ∃ n t, runs n s = .next t ∧
      slowHashDigest s.jobVariant (s.slowInput s.jobPrehashed) (s.msg.read64 35) s.prog s.mixRegs = some t.digest ∧
      t.done = true ∧ t.busy = false ∧ t.phase = .done ∧ t.progress = 0 ∧ t.sw = s.sw ∧ t.msg = s.msg ∧ t.cmd = s.cmd ∧
      t.len = s.len ∧ t.heightLo = s.heightLo ∧ t.heightHi = s.heightHi

/-- R355 for VARIANT = 4 from phase FILL on, with a program the generator wrote (R311): the 2^19 iterations and their
program runs, the final fold, the permutation and the terminal hash. -/
def Obligations.SlowHashVariantFourDigest : Prop :=
  ∀ s : State, CoreMoves s → s.phase = .fill → s.g = 0 → s.jobOp = 0 → s.jobVariant = 4 → ProgramInv s →
    ∃ n t d, runs n s = .next t ∧
      (match mixLoop 4 s.tweak12 s.prog iterations
          { s.mixRegs with sp := (fillAfter s.rk1 s.text s.sp (2 ^ 14)).2 } with
        | none => none
        | some m => some (finalDigest s.hashState m.sp)) = some d ∧
      t.digest = d ∧ t.done = true ∧ t.busy = false ∧ t.phase = .done ∧ t.sw = s.sw ∧ t.msg = s.msg

/-- R358, for SLOW_HASH and FAST_HASH: two jobs with the same parameters, the same message bytes below LEN and the same
answer to the buffer request go through the same phases in step, end with the same error or with the same digest,
whatever else differs: the scratchpad, every internal register, SW, HEIGHT's registers, the last digest. -/
def Obligations.JobsAreDeterministic : Prop :=
  ∀ (s s' : State) (n : Nat) (t : State), CoreMoves s → CoreMoves s' → s.phase = .check → s'.phase = .check →
    s.jobOp = 0 ∨ s.jobOp = 1 → SameJob s s' → s.sp.wf = true → s'.sp.wf = true → s.sp.within (2 ^ 21) = true →
    s'.sp.within (2 ^ 21) = true → runs n s = .next t →
    ∃ t', runs n s' = .next t' ∧ t'.phase = t.phase ∧ (t.phase = .error → t'.errcode = t.errcode) ∧
      (t.phase = .done → t'.done = true ∧ t'.digest = t.digest)

/-- R217: HEIGHT reaches the digest only through VARIANT = 4. For the other variants the whole run is the same at
every height. -/
def Obligations.HeightReachesOnlyVariantFour : Prop :=
  ∀ (s t : State) (h : W64) (n : Nat), CoreMoves s → s.phase = .check → s.jobOp = 0 → s.jobVariant ≠ 4 →
    runs n s = .next t → runs n { s with jobHeight := h } = .next { t with jobHeight := h }

/-- R216: VARIANT = 3 runs exactly the steps of VARIANT = 2. -/
def Obligations.VariantThreeIsVariantTwo : Prop :=
  ∀ (s t : State) (n : Nat), CoreMoves s → s.phase = .check → s.jobOp = 0 → s.jobVariant = 2 →
    runs n s = .next t → runs n { s with jobVariant := 3 } = .next { t with jobVariant := 3 }

/-- R441 with the sequences of R201: a core step of a job stays in its phase, with PROGRESS not falling, or moves to
the next phase of its command, and leaves ABSORB, FILL, MIX and FINAL_FILL only with their final PROGRESS. -/
def Obligations.PhaseSequence : Prop :=
  ∀ s t : State, Inv s → CoreMoves s → step s = .next t →
    ((t.phase = s.phase ∧ s.progress.toNat ≤ t.progress.toNat) ∨
      (t.phase ≠ s.phase ∧ t.phase ∈ nextPhases s.jobOp s.jobVariant s.jobPrehashed s.phase ∧ t.progress = 0)) ∧
      (t.phase ≠ s.phase →
        (s.phase = .absorb → s.progress.toNat = s.jobLen.toNat / 136 + 1) ∧
          (s.phase = .fill ∨ s.phase = .finalFill → s.progress.toNat = 2 ^ 14) ∧
          (s.phase = .mix → s.progress.toNat = 2 ^ 19))

/-! ## The invariant -/

/-- The invariant holds at reset. -/
def Obligations.ResetMeetsInvariant : Prop := Inv State.reset

/-- Every step keeps the invariant: the status bits follow the phase and exclude one another (R24), the memories stay
canonical and in bounds (R28, R34, R69), CMD's reserved bits stay 0 (R21), PROGRESS counts the phase's units (R25), a
job past its checks has passed them (R381), and the program store of a VARIANT = 4 job holds a generated program
(R311). -/
def Obligations.StepKeepsInvariant : Prop :=
  ∀ s t : State, Inv s → step s = .next t → Inv t

/-- R388, R102 and R69: under the invariant no step stops with a fault or a refusal, and no step raises
INTERNAL_FAULT. -/
def Obligations.InvariantStepsNeverStop : Prop :=
  ∀ s : State, Inv s →
    SafeStep s ∧ ∀ t, step s = .next t → t.errcode = .internalFault → s.errcode = .internalFault
end

