-- ==== Sys2Proof/Laws/Bytes.lean ====
section
/-! SUPPORT. The byte view and the lane view of the hash state (spec/10_state.md R30) are inverse to each other, and
what each holds where. Plain `simp` over a 200-byte vector is slow: cite these. -/

namespace Sys2Proof.Machine

/-- Byte k of a word, as a number. -/
theorem toNat_byteOf {n : Nat} (v : BitVec n) (k : Nat) : (byteOf v k).toNat = v.toNat / 2 ^ (8 * k) % 256 := by
  simp [byteOf, Nat.shiftRight_eq_div_pow]

/-- A lane is put together again from its own bytes. -/
theorem word64_bytes (w : W64) : word64Of (fun k => byteOf w k) = w := by
  apply BitVec.eq_of_toNat_eq
  have := w.isLt
  simp only [word64Of, List.range, List.range.loop, List.map, leNat, toNat_byteOf, BitVec.toNat_ofNat]
  omega

/-- A lane depends on its eight bytes only. -/
theorem word64_congr {f g : Nat → Byte} (h : ∀ k, k < 8 → f k = g k) : word64Of f = word64Of g := by
  unfold word64Of; congr 2
  apply List.map_congr_left; intro k hk; exact h k (List.mem_range.1 hk)

/-- Byte k of the lane made of eight bytes is byte k. -/
theorem byte_word64 (f : Nat → Byte) (k : Nat) (hk : k < 8) : byteOf (word64Of f) k = f k := by
  apply BitVec.eq_of_toNat_eq
  rw [toNat_byteOf]
  simp only [word64Of, List.range, List.range.loop, List.map, leNat, BitVec.toNat_ofNat]
  have h0 := (f 0).isLt; have h1 := (f 1).isLt; have h2 := (f 2).isLt; have h3 := (f 3).isLt
  have h4 := (f 4).isLt; have h5 := (f 5).isLt; have h6 := (f 6).isLt; have h7 := (f 7).isLt
  have : k = 0 ∨ k = 1 ∨ k = 2 ∨ k = 3 ∨ k = 4 ∨ k = 5 ∨ k = 6 ∨ k = 7 := by omega
  rcases this with rfl | rfl | rfl | rfl | rfl | rfl | rfl | rfl <;> omega

/-- Byte i of the byte view is byte i mod 8 of lane i / 8 (spec/10_state.md R30). -/
theorem bytesOfLanes_get (A : Lanes) (i : Nat) (hi : i < 200) :
    (bytesOfLanes A)[i] = byteOf (A[i / 8]'(by omega)) (i % 8) := by
  unfold bytesOfLanes; rw [Vector.getElem_ofFn]

/-- The same, read with a default. -/
theorem bytesOfLanes_getD (A : Lanes) (i : Nat) (hi : i < 200) :
    (bytesOfLanes A).toArray.getD i 0 = byteOf (A[i / 8]'(by omega)) (i % 8) := by
  rw [← bytesOfLanes_get A i hi]
  rw [Array.getD_eq_getD_getElem?, Array.getElem?_eq_getElem (by rw [Vector.size_toArray]; exact hi), Option.getD_some, Vector.getElem_toArray]

/-- Lane i of the lane view is made of bytes 8i .. 8i + 7 (R30). -/
theorem lanesOfBytes_get (B : Vector Byte 200) (i : Nat) (hi : i < 25) :
    (lanesOfBytes B)[i] = word64Of fun k => B.toArray.getD (8 * i + k) 0 := by
  unfold lanesOfBytes; rw [Vector.getElem_ofFn]

/-- The lane view of the byte view is the lanes. -/
theorem lanes_bytes (A : Lanes) : lanesOfBytes (bytesOfLanes A) = A := by
  apply Vector.ext; intro i hi
  rw [lanesOfBytes_get _ _ hi]
  refine Eq.trans ?_ (word64_bytes A[i])
  apply word64_congr; intro k hk
  rw [bytesOfLanes_getD _ _ (by omega)]
  have h1 : (8 * i + k) / 8 = i := by omega
  have h2 : (8 * i + k) % 8 = k := by omega
  simp only [h1, h2]

/-- The byte view of the lane view is the bytes. -/
theorem bytes_lanes (B : Vector Byte 200) : bytesOfLanes (lanesOfBytes B) = B := by
  apply Vector.ext; intro i hi
  rw [bytesOfLanes_get _ _ hi, lanesOfBytes_get, byte_word64 _ _ (by omega)]
  have : 8 * (i / 8) + i % 8 = i := by omega
  rw [this, Array.getD_eq_getD_getElem?, Array.getElem?_eq_getElem (by rw [Vector.size_toArray]; exact hi), Option.getD_some, Vector.getElem_toArray]

end Sys2Proof.Machine
end

