-- ==== Sys2Proof/Laws/Decode.lean ====
section
/-! SUPPORT. What the field readers of Sys2Proof/Decode.lean give on the words the encoder builds, one lemma per field,
and what the table's word reading does. -/

namespace Sys2Proof

@[simp] theorem progOpc_progOf (o : BitVec 3) (d : BitVec 2) (s : BitVec 4) (c : W32) :
    progOpc (progOf o d s c) = o := by
  ext i hi
  simp [progOpc, progOf]
  grind

@[simp] theorem progDst_progOf (o : BitVec 3) (d : BitVec 2) (s : BitVec 4) (c : W32) :
    progDst (progOf o d s c) = d := by
  ext i hi
  simp [progDst, progOf]
  grind

@[simp] theorem progSrc_progOf (o : BitVec 3) (d : BitVec 2) (s : BitVec 4) (c : W32) :
    progSrc (progOf o d s c) = s := by
  ext i hi
  simp [progSrc, progOf]
  grind

@[simp] theorem progReserved_progOf (o : BitVec 3) (d : BitVec 2) (s : BitVec 4) (c : W32) :
    progReserved (progOf o d s c) = 0 := by
  ext i hi
  simp [progReserved, progOf]
  grind

@[simp] theorem progConst_progOf (o : BitVec 3) (d : BitVec 2) (s : BitVec 4) (c : W32) :
    progConst (progOf o d s c) = c := by
  ext i hi
  simp [progConst, progOf]
  grind

@[simp] theorem cmdOp_cmdOf (o : BitVec 2) (v : BitVec 3) (p : Bool) : cmdOp (cmdOf o v p) = o := by
  revert o v p; decide

@[simp] theorem cmdVariant_cmdOf (o : BitVec 2) (v : BitVec 3) (p : Bool) : cmdVariant (cmdOf o v p) = v := by
  revert o v p; decide

@[simp] theorem cmdPrehashed_cmdOf (o : BitVec 2) (v : BitVec 3) (p : Bool) : cmdPrehashed (cmdOf o v p) = p := by
  revert o v p; decide

theorem ctrlOf_start (st ie cl : Bool) : (ctrlOf st ie cl).getLsbD 0 = st := by revert st ie cl; decide
theorem ctrlOf_ie (st ie cl : Bool) : (ctrlOf st ie cl).getLsbD 1 = ie := by revert st ie cl; decide
theorem ctrlOf_clr (st ie cl : Bool) : (ctrlOf st ie cl).getLsbD 2 = cl := by revert st ie cl; decide

/-- A source is accepted exactly when it names a register. -/
theorem withSource_eq_ok {src : BitVec 4} {i j : Instr} : withSource src i = .ok j ↔ src.toNat < 9 ∧ i = j := by
  unfold withSource srcOk
  by_cases h : src.toNat < 9 <;> simp [h]

end Sys2Proof
end

