-- ==== Sys2Proof/Laws/GenRules.lean ====
section
/-! SUPPORT. Each operation of the program generator follows its rule of spec/45_random_math.md, in the terms of
Sys2Proof/Safety.lean: numbered operations, tables by index. -/

namespace Sys2Proof.Machine

/-- The number of an operation in the rules (R307). -/
def GenOp.number : GenOp → Nat
  | .mul => 0 | .add => 1 | .sub => 2 | .ror => 3 | .rol => 4 | .xor => 5

/-- The tables of R303 by operation and by number. -/
theorem tables_by_number (op : GenOp) : op.latency = latencyOf (op.number) ∧ op.asicLatency = asicLatencyOf (op.number) ∧ (op.isRotation = true ↔ rotates (op.number)) := by
  cases op <;> simp [GenOp.latency, GenOp.asicLatency, GenOp.isRotation, latencyOf, asicLatencyOf, rotates, GenOp.number]

/-- A lookup with a default inside a vector. -/
theorem getD_toArray {n : Nat} {α : Type} (v : Vector α n) (i : Nat) (h : i < n) (d : α) : v.toArray.getD i d = v[i] := by
  rw [Array.getD_eq_getD_getElem?, Array.getElem?_eq_getElem (by rw [Vector.size_toArray]; exact h), Option.getD_some, Vector.getElem_toArray]

/-- The word of an instruction of the generator, by its fields (spec/30_encoding.md R101). -/
theorem encode_genInstr (op : GenOp) (d : Fin 4) (src : Fin 9) (c : W32) :
   encode (op.instr d src c) = .prog (BitVec.ofNat 48 ((if op.number = 1 then c.toNat else 0) * 2 ^ 16 + src.val * 2 ^ 5 + d.val * 2 ^ 3 + op.number)) := by
  have hd := d.isLt; have hs := src.isLt; have hc := c.isLt
  have key : ∀ (o : BitVec 3) (x : W32), progOf o (BitVec.ofNat 2 d.val) (BitVec.ofNat 4 src.val) x = BitVec.ofNat 48 (x.toNat * 2 ^ 16 + src.val * 2 ^ 5 + d.val * 2 ^ 3 + o.toNat) := by
    intro o x
    apply BitVec.eq_of_toNat_eq
    have ho := o.isLt; have hx := x.isLt
    simp only [progOf, BitVec.toNat_append, BitVec.toNat_ofNat, Nat.shiftLeft_eq]
    rw [Nat.mul_comm _ (2^3), ← Nat.two_pow_add_eq_or_of_lt (by omega), Nat.mul_comm _ (2^2), ← Nat.two_pow_add_eq_or_of_lt (by omega), Nat.mul_comm _ (2^4), ← Nat.two_pow_add_eq_or_of_lt (by omega), Nat.mul_comm _ (2^7), ← Nat.two_pow_add_eq_or_of_lt (by omega)]
    omega
  cases op <;> simp only [GenOp.instr, encode, key, GenOp.number] <;> simp

/-- Appending an instruction of the generator, in the terms of the rules. -/
theorem appends_instr (op : GenOp) (d : Fin 4) (src : Fin 9) (c : W32) (g g' : GenState) (h : g'.code = g.code ++ [op.instr d src c]) (x : Nat)
   (hx : x = if op.number = 1 then c.toNat else 0) :
   Appends (op.number) d.val src.val x g g' := ⟨_, by rw [encode_genInstr, hx], h⟩

/-- The busy table as the rules read it. -/
theorem genBusyAt_eq (g : GenState) (row : Nat) (alu : Fin 3) : genBusyAt g row alu = (g.busy.toArray.getD row (Vector.replicate 3 false)).toArray.getD alu.val false := by
  unfold genBusyAt
  by_cases h : row < 46
  · rw [getD_toArray _ _ h, getD_toArray _ _ alu.isLt]; simp [h]
  · have : g.busy[row]? = none := by simp; omega
    rw [this]
    have : g.busy.toArray.getD row (Vector.replicate 3 false) = Vector.replicate 3 false := by
      rw [Array.getD_eq_getD_getElem?, Array.getElem?_eq_none (by rw [Vector.size_toArray]; omega)]; rfl
    rw [this, getD_toArray _ _ alu.isLt]; simp

/-- The condition under which the model takes an ALU. -/
def slotFreeB (g : GenState) (op : GenOp) (nl : Nat) (alu : Fin 3) : Bool := !genBusyAt g nl alu && !(op = .add && genBusyAt g (nl + 1) alu) &&
      !(op.isRotation && decide (nl < g.rotCount * op.latency))

/-- It is the condition of R306. -/
theorem slotFree_iff (g : GenState) (op : GenOp) (c : Nat) (a : Nat) : SlotFree (op.number) g c a ↔ ∃ h : a < 3, (op.number = 0 → a < 1) ∧ slotFreeB g op c ⟨a, h⟩ = true := by
  unfold SlotFree slotFreeB
  have hl := tables_by_number op
  rw [← hl.1, ← hl.2.2]
  constructor
  · rintro ⟨h1, h2, h3, h4⟩
    have h : a < 3 := by split at h1 <;> omega
    refine ⟨h, fun hz => by rw [if_pos hz] at h1; exact h1, ?_⟩
    rw [genBusyAt_eq, genBusyAt_eq]
    cases op <;> simp_all [GenOp.number, GenOp.isRotation, rotates]
  · rintro ⟨h, h1, h2⟩
    rw [genBusyAt_eq, genBusyAt_eq] at h2
    refine ⟨by split <;> omega, ?_⟩
    cases op <;> simp_all [GenOp.number, GenOp.isRotation, rotates]

/-- The first free one of three ALUs tried from the highest. -/
theorem find_highest (f : Fin 3 → Bool) (alu : Fin 3) (h : [(2 : Fin 3), 1, 0].find? f = some alu) : f alu = true ∧ ∀ a : Fin 3, alu.val < a.val → f a = false := by
  cases h2 : f 2 <;> cases h1 : f 1 <;> cases h0 : f 0 <;> simp [List.find?, h2, h1, h0] at h <;> subst h <;>
    refine ⟨by assumption, fun a ha => ?_⟩ <;>
    (have hh : a = 0 ∨ a = 1 ∨ a = 2 := by omega) <;> rcases hh with rfl | rfl | rfl <;> first | assumption | (simp at ha)

/-- The one ALU of a multiplication. -/
theorem find_only (f : Fin 3 → Bool) (alu : Fin 3) (h : [(0 : Fin 3)].find? f = some alu) : alu = 0 ∧ f 0 = true := by
  cases h0 : f 0 <;> simp [List.find?, h0] at h
  exact ⟨h.symm, rfl⟩

/-- The ALU taken is free and the highest free one (R306). -/
theorem genPickAlu_some {g : GenState} {op : GenOp} {c : Nat} {alu : Fin 3} (h : genPickAlu g op c = some alu) : SlotFree (op.number) g c alu.val ∧ ∀ a, alu.val < a → ¬ SlotFree (op.number) g c a := by
  have e : genPickAlu g op c = op.alus.find? (slotFreeB g op c) := rfl
  rw [e] at h
  simp only [slotFree_iff]
  by_cases hm : op = .mul
  · subst hm
    obtain ⟨rfl, h0⟩ := find_only _ _ h
    exact ⟨⟨by decide, fun _ => by decide, h0⟩, fun a ha hx => by have := hx.2.1 (show GenOp.mul.number = 0 from rfl); simp at ha; omega⟩
  · have ea : op.alus = [2, 1, 0] := by cases op <;> first | rfl | exact absurd rfl hm
    rw [ea] at h
    have f := find_highest _ _ h
    have hn : op.number ≠ 0 := by cases op <;> simp [GenOp.number] at hm ⊢
    refine ⟨⟨alu.isLt, fun x => absurd x hn, f.1⟩, fun a ha hx => ?_⟩
    obtain ⟨h1, _, h3⟩ := hx
    rw [f.2 ⟨a, h1⟩ ha] at h3; cases h3

/-- None is taken only where none is free (R306). -/
theorem genPickAlu_none {g : GenState} {op : GenOp} {c : Nat} (h : genPickAlu g op c = none) : ∀ a, ¬ SlotFree (op.number) g c a := by
  have e : genPickAlu g op c = op.alus.find? (slotFreeB g op c) := rfl
  rw [e, List.find?_eq_none] at h
  intro a ha
  rw [slotFree_iff] at ha
  obtain ⟨h1, h2, h3⟩ := ha
  refine h ⟨a, h1⟩ ?_ h3
  have : a = 0 ∨ a = 1 ∨ a = 2 := by omega
  cases op <;> simp [GenOp.alus, GenOp.number] at h2 ⊢
  case mul => exact h2
  all_goals rcases this with rfl | rfl | rfl <;> simp

/-- The slot search stops at the first cycle with a free ALU, or at the end (R306). -/
theorem genFindSlot_spec (g : GenState) (op : GenOp) : ∀ fuel nl, 
   (∃ c alu, genFindSlot g op fuel nl = (c, some alu) ∧ nl ≤ c ∧ c < nl + fuel ∧ genPickAlu g op c = some alu ∧ ∀ c', nl ≤ c' → c' < c → genPickAlu g op c' = none) ∨
   (genFindSlot g op fuel nl = (nl + fuel, none) ∧ ∀ c', nl ≤ c' → c' < nl + fuel → genPickAlu g op c' = none)
  | 0, nl => .inr ⟨rfl, fun c' h1 h2 => by omega⟩
  | fuel + 1, nl => by
    unfold genFindSlot
    cases hp : genPickAlu g op nl with
    | some alu => exact .inl ⟨nl, alu, rfl, by omega, by omega, hp, fun c' h1 h2 => by omega⟩
    | none =>
      rcases genFindSlot_spec g op fuel (nl + 1) with ⟨c, alu, h1, h2, h3, h4, h5⟩ | ⟨h1, h2⟩
      · refine .inl ⟨c, alu, h1, by omega, by omega, h4, fun c' a b => ?_⟩
        rcases Nat.lt_or_ge nl c' with h | h
        · exact h5 c' (by omega) b
        · rw [show c' = nl by omega]; exact hp
      · refine .inr ⟨by rw [show nl + (fuel + 1) = nl + 1 + fuel by omega]; exact h1, fun c' a b => ?_⟩
        rcases Nat.lt_or_ge nl c' with h | h
        · exact h2 c' (by omega) (by omega)
        · rw [show c' = nl by omega]; exact hp

/-- need(n) and the reading of n bytes, in the terms of the rules (R302). -/
theorem genNeed_draws (n : Nat) (g : GenState) : (∀ k, (genByteAt (genNeed n g) k).toNat = (drawBytes n g).1 k) ∧ genSkip n (genNeed n g) = (drawBytes n g).2 := by
  unfold drawBytes genNeed genSkip genByteAt
  by_cases h : 32 < g.gi.toNat + n
  · simp [h]
  · simp only [gt_iff_lt, h, if_false]
    refine ⟨fun k => trivial, ?_⟩
    congr 1
    apply BitVec.eq_of_toNat_eq
    simp [BitVec.toNat_add]

/-- busy[row][alu] <- true inside the table. -/
theorem busySet_eq (b : Vector (Vector Bool 3) 46) (row : Nat) (alu : Fin 3) : busySet b row alu = if h : row < 46 then b.set row (b[row].set alu true) else b := by
  unfold busySet
  by_cases h : row < 46
  · have : b[row]? = some b[row] := by simp [h]
    rw [this, dif_pos h]; apply Vector.ext; intro i hi; simp [Vector.getElem_setIfInBounds, Vector.getElem_set]
  · have : b[row]? = none := by simp; omega
    rw [this, dif_neg h]

/-- It sets that entry and no other. -/
theorem busySet_get (b : Vector (Vector Bool 3) 46) (row : Nat) (alu : Fin 3) (c : Nat) (hc : c < 46) (a : Nat) (ha : a < 3) :
   (busySet b row alu)[c][a] = true ↔ b[c][a] = true ∨ (a = alu.val ∧ c = row) := by
  simp only [busySet_eq]
  by_cases h : row < 46
  · simp only [h, dif_pos, Vector.getElem_set]
    by_cases hr : row = c
    · subst hr; simp only [if_true, Vector.getElem_set]
      by_cases h2 : alu.val = a
      · rw [if_pos h2]; simp [h2]
      · rw [if_neg h2]; constructor
        · exact .inl
        · rintro (h | ⟨h, _⟩); exact h; omega
    · simp only [hr, if_false]; constructor
      · exact .inl
      · rintro (h | ⟨_, h⟩); exact h; omega
  · simp only [h, dif_neg, not_false_eq_true]; constructor
    · exact .inl
    · rintro (h | ⟨_, h⟩); exact h; omega

/-- LE32. -/
theorem toNat_append_bytes (a b c d : Byte) : (d ++ c ++ b ++ a : BitVec 32).toNat = a.toNat + b.toNat * 2 ^ 8 + c.toNat * 2 ^ 16 + d.toNat * 2 ^ 24 := by
  have := a.isLt; have := b.isLt; have := c.isLt; have := d.isLt
  simp only [BitVec.toNat_append, Nat.shiftLeft_eq]
  rw [Nat.mul_comm _ (2^8), ← Nat.two_pow_add_eq_or_of_lt (by omega), Nat.mul_comm _ (2^8), ← Nat.two_pow_add_eq_or_of_lt (by omega), Nat.mul_comm _ (2^8), ← Nat.two_pow_add_eq_or_of_lt (by omega)]
  omega

/-- ADD is number 1. -/
theorem number_eq_one (op : GenOp) : op.number = 1 ↔ op = .add := by cases op <;> simp [GenOp.number]

/-- The history tag an accept writes, as a number (R307). -/
theorem historyTag_toNat (op : GenOp) (l : Nat) (x : BitVec 24) : (BitVec.ofNat 24 l + (op.num <<< 8) + ((x &&& 0xFF#24) <<< 16)).toNat = (l + op.number * 2 ^ 8 + x.toNat % 2 ^ 8 * 2 ^ 16) % 2 ^ 24 := by
  have h : (x &&& 0xFF#24).toNat = x.toNat % 2 ^ 8 := by
    rw [BitVec.toNat_and]; exact Nat.and_two_pow_sub_one_eq_mod x.toNat 8
  have hn : op.num.toNat = op.number := by cases op <;> rfl
  have hl : op.number < 6 := by cases op <;> decide
  simp only [BitVec.toNat_add, BitVec.toNat_shiftLeft, BitVec.toNat_ofNat, Nat.shiftLeft_eq]
  have h' : (x &&& 0xFF#24).toNat = x.toNat % 2 ^ 8 := h
  rw [h', hn]
  omega

/-- The constant of an accepted ADD, and the generator after it is read (R307). -/
theorem constant_draws (g : GenState) (op : GenOp) (d : Fin 4) (src : Fin 9) (nl : Nat) (alu : Fin 3) (row : Nat) :
   let g1 := genNeed 4 (genSetBusy (genClaim op d src nl alu g) row alu)
   (genWord g1).toNat = (drawBytes 4 g).1 0 + (drawBytes 4 g).1 1 * 2 ^ 8 + (drawBytes 4 g).1 2 * 2 ^ 16 + (drawBytes 4 g).1 3 * 2 ^ 24 ∧
   genSkip 4 g1 = { genClaim op d src nl alu g with gd := (drawBytes 4 g).2.gd, gi := (drawBytes 4 g).2.gi, busy := busySet (genClaim op d src nl alu g).busy row alu } := by
  have h := genNeed_draws 4 (genSetBusy (genClaim op d src nl alu g) row alu)
  refine ⟨?_, ?_⟩
  · simp only [genWord]
    rw [toNat_append_bytes, h.1, h.1, h.1, h.1]; rfl
  · simp only; rw [h.2]; rfl

/-- The tables after an accept follow R307. -/
theorem accept_of_claim (op : GenOp) (d : Fin 4) (src : Fin 9) (c : Nat) (alu : Fin 3) (g : GenState) (i : Instr) (gd : Vector Byte 32) (gi : BitVec 6) (bs : Vector (Vector Bool 3) 46)
    (hi : ∃ K : W32, i = op.instr d src K ∧ (op = .add → K.toNat = (drawBytes 4 g).1 0 + (drawBytes 4 g).1 1 * 2 ^ 8 + (drawBytes 4 g).1 2 * 2 ^ 16 + (drawBytes 4 g).1 3 * 2 ^ 24))
    (hgd : gd = if op = .add then (drawBytes 4 g).2.gd else g.gd) (hgi : gi = if op = .add then (drawBytes 4 g).2.gi else g.gi)
    (hb : ∀ (x : Fin 46) (a : Fin 3), bs[x][a] = true ↔ g.busy[x][a] = true ∨ (a.val = alu.val ∧ (x.val = c ∨ (op = .add ∧ x.val = c + 1)))) :
    AcceptRule (op.number) d.val src.val (c + latencyOf (op.number)) alu.val g (genAppend i { genClaim op d src (c + op.latency) alu g with gd := gd, gi := gi, busy := bs }) := by
  have hl := tables_by_number op
  have hd := d.isLt
  have reg : ∀ x : Fin 9, ((genReg d).val = x.val) ↔ x.val = d.val := fun x => ⟨fun h => h.symm, fun h => h.symm⟩
  obtain ⟨K, rfl, hK⟩ := hi
  refine ⟨appends_instr op d src K g _ rfl _ ?_, fun x => ⟨?_, ?_, ?_⟩, fun x a => ?_, fun x => ?_, fun h => ?_, fun h => ?_, ?_, ?_⟩
  · by_cases ha : op = .add
    · rw [if_pos ((number_eq_one op).2 ha), if_pos ((number_eq_one op).2 ha), hK ha]
    · rw [if_neg (fun h => ha ((number_eq_one op).1 h)), if_neg (fun h => ha ((number_eq_one op).1 h))]
  · rw [← hl.1]; simp only [genAppend, genClaim, Fin.getElem_fin, Vector.getElem_set, reg]
  · rw [← hl.2.1, getD_toArray _ _ (by omega), getD_toArray _ _ src.isLt]
    simp only [genAppend, genClaim, Fin.getElem_fin, Vector.getElem_set, reg]; rfl
  · rw [getD_toArray _ _ src.isLt]
    simp only [genAppend, genClaim, Fin.getElem_fin, Vector.getElem_set, reg]
    split
    · exact historyTag_toNat op _ _
    · rfl
  · refine (hb x a).trans ?_
    rw [← hl.1, number_eq_one]
    constructor <;> rintro (h | ⟨h1, h2⟩)
    · exact .inl h
    · exact .inr ⟨h1, by rcases h2 with h2 | ⟨h2, h3⟩; left; omega; right; exact ⟨h2, by omega⟩⟩
    · exact .inl h
    · exact .inr ⟨h1, by rcases h2 with h2 | ⟨h2, h3⟩; left; omega; right; exact ⟨h2, by omega⟩⟩
  · simp only [genAppend, genClaim, Fin.getElem_fin, Vector.getElem_set]
    by_cases hx : d.val = x.val
    · rw [if_pos hx, if_pos hx.symm]; exact hl.2.2
    · rw [if_neg hx, if_neg (fun h => hx h.symm)]
  · exact if_pos (hl.2.2.2 h)
  · exact if_neg (fun e => h (hl.2.2.1 e))
  · show (g.r8Used || decide (src = 8)) = true ↔ _
    rw [Bool.or_eq_true, decide_eq_true_eq, Fin.ext_iff]; rfl
  · subst hgd hgi
    by_cases ha : op = .add
    · simp only [ha, if_true]; rfl
    · simp only [show ¬ op.number = 1 from fun h => ha ((number_eq_one op).1 h), ha, if_false]; rfl

/-- accept follows R307. -/
theorem genAccept_rule (op : GenOp) (d : Fin 4) (src : Fin 9) (c : Nat) (alu : Fin 3) (g : GenState) :
    AcceptRule (op.number) d.val src.val (c + latencyOf (op.number)) alu.val g (genAccept op d src (c + op.latency) alu g) := by
  have cl : c + op.latency - op.latency = c := by omega
  have b1 : ∀ (x : Fin 46) (a : Fin 3), (busySet g.busy c alu)[x][a] = true ↔ g.busy[x][a] = true ∨ (a.val = alu.val ∧ x.val = c) := fun x a => busySet_get g.busy c alu x.val x.isLt a.val a.isLt
  have e1 : (genClaim op d src (c + op.latency) alu g).busy = busySet g.busy c alu := by show busySet g.busy (c + op.latency - op.latency) alu = _; rw [cl]
  unfold genAccept
  simp only
  by_cases ha : op = .add
  · rw [if_pos ha, cl]
    have n := constant_draws g op d src (c + op.latency) alu (c + 1)
    simp only at n
    rw [n.2]
    refine accept_of_claim op d src c alu g _ _ _ _ ⟨_, rfl, fun _ => n.1⟩ (by rw [if_pos ha]) (by rw [if_pos ha]) (fun x a => ?_)
    rw [e1]
    refine (busySet_get _ (c + 1) alu x.val x.isLt a.val a.isLt).trans ?_
    rw [show ((busySet g.busy c alu)[x.val][a.val] = true) = ((busySet g.busy c alu)[x][a] = true) from rfl, b1]
    simp only [ha, true_and]; tauto
  · rw [if_neg ha]
    refine accept_of_claim op d src c alu g _ g.gd g.gi (genClaim op d src (c + op.latency) alu g).busy ⟨_, rfl, fun h => absurd h ha⟩ (by rw [if_neg ha]) (by rw [if_neg ha]) (fun x a => ?_)
    rw [e1, b1]; simp only [ha, false_and, or_false]
/-- schedule follows R306. -/
theorem genSchedule_rule (op : GenOp) (d : Fin 4) (src : Fin 9) (g : GenState) :
    ScheduleRule (op.number) d.val src.val g (genSchedule op d src g) := by
  have hl := tables_by_number op
  have getd : ∀ (x : Nat) (hx : x < 9), g.lat.toArray.getD x 0 = g.lat[x] := fun x hx => getD_toArray g.lat x hx 0
  have hd := d.isLt
  unfold ScheduleRule
  simp only
  rw [getd _ (by omega : d.val < 9), getd _ src.isLt]
  have ed : g.lat[genReg d] = g.lat[d.val] := rfl
  have es : g.lat[src] = g.lat[src.val] := rfl
  have hf := genFindSlot_spec g op (totalLatency - max g.lat[d.val] g.lat[src.val]) (max g.lat[d.val] g.lat[src.val])
  have ht : totalLatency = 45 := rfl
  unfold genSchedule
  simp only [ed, es]
  generalize max g.lat[d.val] g.lat[src.val] = start at *
  generalize g.lat[d.val] = ld at *
  rcases hf with ⟨c, alu, h1, h2, h3, h4, h5⟩ | ⟨h1, h2⟩
  · have p := genPickAlu_some h4
    refine ⟨fun c' alu' a1 a2 a3 a4 a5 => ?_, fun hn => absurd p.1 (hn c alu.val h2 (by omega))⟩
    have : c' = c := by
      rcases Nat.lt_trichotomy c' c with h | h | h
      · exact absurd a3 (genPickAlu_none (h5 c' a1 h) alu')
      · exact h
      · exact absurd p.1 (a5 c alu.val h2 h)
    subst this
    have : alu' = alu.val := by
      rcases Nat.lt_trichotomy alu' alu.val with h | h | h
      · exact absurd p.1 (a4 _ h)
      · exact h
      · exact absurd a3 (p.2 _ h)
    subst this
    rw [h1]
    refine ⟨fun q => ?_, fun q q2 => ?_, fun q q2 => ?_⟩
    · rw [if_pos (by show c' > _; omega)]
    · rw [if_neg (by show ¬ c' > _; omega)]; simp only
      rw [if_pos (by rw [hl.1]; omega)]; exact genAccept_rule op d src c' alu g
    · rw [if_neg (by show ¬ c' > _; omega)]; simp only
      rw [if_neg (by rw [hl.1]; omega)]
  · refine ⟨fun c' alu' a1 a2 a3 a4 a5 => absurd a3 (genPickAlu_none (h2 c' a1 (by omega)) alu'), fun hn => ?_⟩
    rw [h1]
    have : start + (totalLatency - start) = max 45 start := by omega
    rw [this]
    exact ⟨fun q => by rw [if_pos (by show max 45 start > _; omega)], fun q => by rw [if_neg (by show ¬ max 45 start > _; omega)]⟩

/-- The mask of R305 for reject 2. -/
theorem historyMask_bits : ∀ i : Fin 24, (0xFFFF00#24).getLsbD i.val = decide (8 ≤ i.val) := by decide

/-- Reject 2 compares bits 23:8 (R305). -/
theorem historyMask_iff (x : BitVec 24) (y z : Nat) (hz : z < 256) (hy : y < 256) : (x &&& 0xFFFF00#24 = BitVec.ofNat 24 (y * 2^8 + z * 2 ^ 16)) ↔ x.toNat / 2 ^ 8 = y + z * 2 ^ 8 := by
  have e : (x &&& 0xFFFF00#24).toNat = x.toNat / 2 ^ 8 * 2 ^ 8 := by
    have : x &&& 0xFFFF00#24 = (x >>> 8) <<< 8 := by
      apply BitVec.eq_of_getLsbD_eq; intro i hi
      rw [BitVec.getLsbD_and, historyMask_bits ⟨i, hi⟩, BitVec.getLsbD_shiftLeft, BitVec.getLsbD_ushiftRight]
      by_cases h : i < 8
      · simp [h]
      · simp [h, show 8 ≤ i by omega, show 8 + (i - 8) = i by omega, hi]
    show (x &&& 0xFFFF00#24).toNat = _
    rw [this, BitVec.toNat_shiftLeft, BitVec.toNat_ushiftRight, Nat.shiftRight_eq_div_pow, Nat.shiftLeft_eq]
    have := x.isLt; omega
  rw [← BitVec.toNat_inj, e, BitVec.toNat_ofNat]
  have := x.isLt
  omega

/-- Reject 2 as a comparison of numbers (R305, R308). -/
theorem genSameAsLast_iff (g : GenState) (op : GenOp) (d : Fin 4) (src : Fin 9) : genSameAsLast g op d src = true ↔
   op.number ≠ 0 ∧ (g.inst.toArray.getD d.val 0).toNat / 2 ^ 8 = op.number + (g.inst.toArray.getD src.val 0).toNat % 2 ^ 8 * 2 ^ 8 := by
  have hd := d.isLt
  unfold genSameAsLast
  rw [decide_eq_true_eq, getD_toArray _ _ (by omega : d.val < 9), getD_toArray _ _ src.isLt]
  have hn : op.number < 6 := by cases op <;> decide
  have e : (op.num <<< 8) + ((g.inst[src] &&& 0xFF#24) <<< 16) = BitVec.ofNat 24 (op.number * 2 ^ 8 + g.inst[src].toNat % 2 ^ 8 * 2 ^ 16) := by
    apply BitVec.eq_of_toNat_eq
    have := historyTag_toNat op 0 g.inst[src]
    rw [show (BitVec.ofNat 24 0 + op.num <<< 8 : BitVec 24) = op.num <<< 8 by simp] at this
    rw [this, BitVec.toNat_ofNat]; omega
  rw [e]
  have := historyMask_iff g.inst[genReg d] (op.number) (g.inst[src].toNat % 2 ^ 8) (by omega) (by omega)
  rw [this]
  have : op ≠ .mul ↔ op.number ≠ 0 := by cases op <;> simp [GenOp.number]
  rw [this]; rfl

/-- The operation of a record (spec/30_encoding.md R105, R106). -/
theorem recordOp_number (cb db : Byte) : (recordOp cb db).number = (if cb.toNat % 8 = 5 then (if db.toNat < 0x80 then 3 else 4)
    else if 6 ≤ cb.toNat % 8 then 5 else if cb.toNat % 8 ≤ 2 then 0 else if cb.toNat % 8 = 3 then 1 else 2) := by
  have : (cb &&& 7).toNat = cb.toNat % 8 := by rw [BitVec.toNat_and]; exact Nat.and_two_pow_sub_one_eq_mod cb.toNat 3
  unfold recordOp; simp only [this]
  repeat' split
  all_goals rfl

/-- A rotation record has a direction byte. -/
theorem recordHasDirection_iff (cb : Byte) : recordHasDirection cb = true ↔ cb.toNat % 8 = 5 := by
  have : (cb &&& 7).toNat = cb.toNat % 8 := by rw [BitVec.toNat_and]; exact Nat.and_two_pow_sub_one_eq_mod cb.toNat 3
  unfold recordHasDirection; rw [decide_eq_true_eq, ← BitVec.toNat_inj, this]; rfl

/-- The destination of a record. -/
theorem recordDst_val (cb : Byte) : (recordDst cb).val = cb.toNat / 8 % 4 := by
  unfold recordDst; show (cb.extractLsb' 3 2).toNat = _
  simp [Nat.shiftRight_eq_div_pow]

/-- The source of a record (R107). -/
theorem recordSrc_val (cb : Byte) (op : GenOp) : (recordSrc cb op).val = if (op.number = 1 ∨ op.number = 2 ∨ op.number = 5) ∧ cb.toNat / 32 = cb.toNat / 8 % 4 then 8 else cb.toNat / 32 := by
  have hs : (cb.extractLsb' 5 3).toNat = cb.toNat / 32 := by
    have := cb.isLt
    simp [Nat.shiftRight_eq_div_pow]; omega
  unfold recordSrc; simp only [hs, recordDst_val]
  have : (op = .add ∨ op = .sub ∨ op = .xor) ↔ (op.number = 1 ∨ op.number = 2 ∨ op.number = 5) := by cases op <;> simp [GenOp.number]
  simp only [this]
  split <;> rfl

/-- The rejects and the scheduling follow R305. -/
theorem genTry_rule {op : GenOp} {d : Fin 4} {src : Fin 9} {g : GenState} {o d' s' : Nat} (ho : op.number = o) (hd : d.val = d') (hs : src.val = s') : TryRule o d' s' g (genTry op d src g) := by
  subst ho hd hs
  have r1 : (op.isRotation && g.rotated[d]) = true ↔ rotates (op.number) ∧ g.rotated.toArray.getD d.val false = true := by
    rw [Bool.and_eq_true, (tables_by_number op).2.2, getD_toArray _ _ d.isLt]; rfl
  have r2 := genSameAsLast_iff g op d src
  unfold TryRule genTry
  simp only
  rw [← r1, ← r2]
  constructor
  · intro h
    by_cases h1 : (op.isRotation && g.rotated[d]) = true
    · rw [if_pos h1]
    · rw [if_neg h1, if_pos (by tauto)]
  · intro h
    rw [if_neg (fun e => h (.inl e)), if_neg (fun e => h (.inr e))]
    exact genSchedule_rule _ _ _ _

/-- A record is read and tried as R305 says. -/
theorem genRecord_rule (g : GenState) : RecordRule g (genRecord g) := by
  have d1 := genNeed_draws 1 g
  have d2 := genNeed_draws 1 (genSkip 1 (genNeed 1 g))
  unfold RecordRule
  simp only
  rw [← d1.2, ← d1.1, ← d2.1, ← d2.2]
  unfold genRecord
  simp only
  generalize genByteAt (genNeed 1 g) 0 = cb
  refine ⟨fun h => ?_, fun h => ?_⟩
  · rw [if_pos ((recordHasDirection_iff _).2 h)]
    have ho := recordOp_number cb (genByteAt (genNeed 1 (genSkip 1 (genNeed 1 g))) 0)
    rw [if_pos h] at ho
    refine genTry_rule ho (recordDst_val _) ?_
    rw [recordSrc_val, ho, if_neg]
    split <;> simp
  · rw [if_neg (fun e => h ((recordHasDirection_iff _).1 e))]
    have ho := recordOp_number cb 0
    rw [if_neg h] at ho
    refine genTry_rule ho (recordDst_val _) ?_
    rw [recordSrc_val, ho]
    have e : ∀ x : Nat, ((if 6 ≤ x % 8 then 5 else if x % 8 ≤ 2 then 0 else if x % 8 = 3 then 1 else 2) = 1 ∨ (if 6 ≤ x % 8 then 5 else if x % 8 ≤ 2 then 0 else if x % 8 = 3 then 1 else 2) = 2 ∨ (if 6 ≤ x % 8 then 5 else if x % 8 ≤ 2 then 0 else if x % 8 = 3 then 1 else 2) = 5) ↔ opOfCode x ≠ 0 := by
      intro x; unfold opOfCode; split_ifs <;> simp
    simp only [e]

/-- A pass of the decode loop follows R305. -/
theorem genDecode_rule (g : GenState) : DecodeRule g (genDecode g) := by
  have hopen : (genOpen g.lat = true ∧ g.retries < 64) ↔ (∃ x : Fin 9, x.val < 4 ∧ g.lat[x] < 45) ∧ g.retries < 64 := by
    refine and_congr_left fun _ => ?_
    unfold genOpen totalLatency
    simp only [Bool.or_eq_true, decide_eq_true_eq]
    constructor
    · rintro (((h | h) | h) | h)
      exacts [⟨0, by decide, h⟩, ⟨1, by decide, h⟩, ⟨2, by decide, h⟩, ⟨3, by decide, h⟩]
    · rintro ⟨x, hx, h⟩
      have : x = 0 ∨ x = 1 ∨ x = 2 ∨ x = 3 := by omega
      rcases this with rfl | rfl | rfl | rfl <;> simp_all
  unfold DecodeRule genDecode
  simp only
  rw [← hopen]
  refine ⟨fun h => by rw [if_neg h]; rfl, fun h h2 => by rw [if_pos h, if_pos (by omega)]; rfl, fun h h2 => ?_⟩
  rw [if_pos h, if_neg (by omega)]
  exact ⟨_, genRecord_rule _, rfl⟩

/-- A left scan keeps the first least value. -/
theorem least_first (f : Fin 4 → Nat) (x : Fin 4) : let m := [(1 : Fin 4), 2, 3].foldl (fun mn i => if f i < f mn then i else mn) 0
    f m ≤ f x ∧ (x.val < m.val → f m < f x) := by
  simp only [List.foldl]
  have : x = 0 ∨ x = 1 ∨ x = 2 ∨ x = 3 := by omega
  rcases this with rfl | rfl | rfl | rfl <;> split_ifs <;> simp <;> omega

/-- A left scan keeps the first greatest value. -/
theorem greatest_first (f : Fin 4 → Nat) (x : Fin 4) : let m := [(1 : Fin 4), 2, 3].foldl (fun mx i => if f i > f mx then i else mx) 0
    f x ≤ f m ∧ (x.val < m.val → f x < f m) := by
  simp only [List.foldl]
  have : x = 0 ∨ x = 1 ∨ x = 2 ∨ x = 3 := by omega
  rcases this with rfl | rfl | rfl | rfl <;> split_ifs <;> simp <;> omega

/-- mn of R309. -/
theorem genLeast_spec (al : Vector Nat 9) (x : Fin 4) : al[genReg (genLeast al)] ≤ al[genReg x] ∧ (x.val < (genLeast al).val → al[genReg (genLeast al)] < al[genReg x]) :=
  least_first (fun i => al[genReg i]) x

/-- mx of R309. -/
theorem genGreatest_spec (al : Vector Nat 9) (x : Fin 4) : al[genReg x] ≤ al[genReg (genGreatest al)] ∧ (x.val < (genGreatest al).val → al[genReg x] < al[genReg (genGreatest al)]) :=
  greatest_first (fun i => al[genReg i]) x

/-- One more instruction of the padding (R309). -/
theorem genPadWith_rule {op : GenOp} {mn mx : Fin 4} {g : GenState} {o n x : Nat} (ho : op.number = o) (hn : mn.val = n) (hx : mx.val = x) :
   Appends o n x 0 g (genPadWith op mn mx g) ∧
        (∀ k : Fin 9,
          (genPadWith op mn mx g).lat[k] = (if k.val = n then g.lat.toArray.getD x 0 + latencyOf o else g.lat[k]) ∧
            (genPadWith op mn mx g).alat[k] = if k.val = n then g.alat.toArray.getD x 0 + asicLatencyOf o else g.alat[k]) ∧
        genPadWith op mn mx g = { g with lat := (genPadWith op mn mx g).lat, alat := (genPadWith op mn mx g).alat, code := (genPadWith op mn mx g).code } := by
  subst ho hn hx
  have hl := tables_by_number op
  have h4 := mx.isLt
  refine ⟨appends_instr op mn (genReg mx) 0 g _ rfl 0 (by split <;> rfl), fun k => ⟨?_, ?_⟩, rfl⟩
  · simp only [genPadWith, Fin.getElem_fin, Vector.getElem_set]
    rw [getD_toArray _ _ (by omega), ← hl.1]
    have : (genReg mn).val = k.val ↔ k.val = mn.val := eq_comm
    simp only [this]; rfl
  · simp only [genPadWith, Fin.getElem_fin, Vector.getElem_set]
    rw [getD_toArray _ _ (by omega), ← hl.2.1]
    have : (genReg mn).val = k.val ↔ k.val = mn.val := eq_comm
    simp only [this]; rfl

/-- A pass of the padding loop follows R309. -/
theorem genPad_rule (g : GenState) : PadRule g (genPad g) := by
  have getd : ∀ (v : Vector Nat 9) (x : Nat) (hx : x < 9), v.toArray.getD x 0 = v[x] := fun v x hx => getD_toArray v x hx 0
  have hopen : genAllOpen g.alat = true ↔ ∀ x, x < 4 → g.alat.toArray.getD x 0 < 45 := by
    unfold genAllOpen totalLatency
    simp only [Bool.and_eq_true, decide_eq_true_eq]
    constructor
    · rintro ⟨⟨⟨h0, h1⟩, h2⟩, h3⟩ x hx
      rw [getd _ _ (by omega)]
      have : x = 0 ∨ x = 1 ∨ x = 2 ∨ x = 3 := by omega
      rcases this with rfl | rfl | rfl | rfl <;> assumption
    · intro h
      have a := h 0 (by decide); have b := h 1 (by decide); have c := h 2 (by decide); have d := h 3 (by decide)
      rw [getd _ _ (by decide)] at a b c d
      exact ⟨⟨⟨a, b⟩, c⟩, d⟩
  unfold PadRule genPad
  simp only
  rw [← hopen]
  refine ⟨fun h => by rw [if_neg h], fun h mn mx hmn hmx q1 q2 => ?_⟩
  rw [if_pos h]
  have l1 := genLeast_spec g.alat; have l2 := genGreatest_spec g.alat
  have e1 : (genLeast g.alat).val = mn := by
    have h1 := l1 ⟨mn, hmn⟩
    have h2 := q1 (genLeast g.alat).val (genLeast g.alat).isLt
    rw [getd _ _ (by omega), getd _ _ (by omega)] at h2
    have r1 : g.alat[genReg (genLeast g.alat)] = g.alat[(genLeast g.alat).val] := rfl
    have r2 : g.alat[genReg ⟨mn, hmn⟩] = g.alat[mn] := rfl
    simp only [r1, r2] at h1
    omega
  have e2 : (genGreatest g.alat).val = mx := by
    have h1 := l2 ⟨mx, hmx⟩
    have h2 := q2 (genGreatest g.alat).val (genGreatest g.alat).isLt
    rw [getd _ _ (by omega), getd _ _ (by omega)] at h2
    have r1 : g.alat[genReg (genGreatest g.alat)] = g.alat[(genGreatest g.alat).val] := rfl
    have r2 : g.alat[genReg ⟨mx, hmx⟩] = g.alat[mx] := rfl
    simp only [r1, r2] at h1
    omega
  have eo : (padOp (g.code.length - g.prevLen)).number = if (g.code.length - g.prevLen) % 3 = 0 then 3 else 0 := by
    unfold padOp; split <;> rfl
  exact genPadWith_rule eo e1 e2

/-- The seed follows R301. -/
theorem genSeed_rule (h : W64) (g : GenState) : SeedRule h g (genSeed h g) := by
  unfold genSeed
  refine ⟨rfl, fun k => ?_⟩
  simp only [Fin.getElem_fin, Vector.getElem_ofFn]
  by_cases hk : k.val < 8
  · simp only [hk, if_true]; rw [toNat_byteOf, Nat.pow_mul]
  · simp only [hk, if_false]; split <;> rfl

/-- A new attempt follows R304. -/
theorem genAttempt_rule (g : GenState) : AttemptRule g (genAttempt g) := by
  have tags : ∀ x : Fin 9, ((#v[0, 1, 2, 3, 0xFFFFFF, 0xFFFFFF, 0xFFFFFF, 0xFFFFFF, 0xFFFFFF] : Vector (BitVec 24) 9)[x]).toNat =
      if x.val < 4 then x.val else 0xFFFFFF := by decide
  unfold genAttempt
  exact ⟨fun x => ⟨by simp, by simp, tags x⟩, fun c a => by simp, fun x => by simp, rfl, rfl, rfl, rfl, rfl, rfl, rfl, rfl⟩

end Sys2Proof.Machine
end

