-- ==== Sys2Proof/Laws/Generator.lean ====
section
/-! SUPPORT. What the program generator can do, pass by pass (spec/45_random_math.md R300 to R312). -/

namespace Sys2Proof.Machine

/-- The word the generator writes for an operation decodes to it (spec/45_random_math.md R311). -/
theorem decodeProg_progWordOf {i : Instr} (h : isAlu i = true) : decodeProg (progWordOf i) = .ok i := by
  cases i <;> simp [isAlu, srcOk] at h <;> simp [progWordOf, encode, decodeProg, withSource, srcOk, h]

/-- Every instruction the generator makes is an operation with a register source. -/
theorem isAlu_instr (op : GenOp) (d : Fin 4) (src : Fin 9) (c : W32) : isAlu (op.instr d src c) = true := by
  have : (BitVec.ofNat 4 src.val).toNat < 9 := by have := src.isLt; simp; omega
  cases op <;> simp [GenOp.instr, isAlu, srcOk] <;> omega

/-- The seed index is at most 32 (spec/10_state.md R44). -/
def SeedIndexOk (g : GenState) : Prop := g.gi.toNat ≤ 32

/-- need(n) leaves room for n bytes (R302). -/
theorem seedIndex_genNeed {n : Nat} {g : GenState} (hn : n ≤ 32) (h : SeedIndexOk g) : SeedIndexOk (genNeed n g) ∧ (genNeed n g).gi.toNat + n ≤ 32 := by
  unfold genNeed SeedIndexOk
  split
  · simp; omega
  · exact ⟨h, by omega⟩

/-- Reading n bytes after need(n) keeps the index in range. -/
theorem seedIndex_genSkip {n : Nat} {g : GenState} (h : g.gi.toNat + n ≤ 32) : SeedIndexOk (genSkip n g) := by
  unfold genSkip SeedIndexOk
  simp; omega

/-- need(n) changes neither the program nor the stage. -/
theorem genNeed_keeps (n : Nat) (g : GenState) : (genNeed n g).code = g.code ∧ (genNeed n g).stage = g.stage := by
  unfold genNeed; split <;> simp

/-- accept appends one instruction (R307). -/
theorem genAccept_spec (op : GenOp) (d : Fin 4) (src : Fin 9) (nl : Nat) (alu : Fin 3) (g : GenState) (h : SeedIndexOk g) :
    SeedIndexOk (genAccept op d src nl alu g) ∧ (genAccept op d src nl alu g).stage = g.stage ∧
      ∃ c, (genAccept op d src nl alu g).code = g.code ++ [op.instr d src c] := by
  unfold genAccept
  dsimp only
  split
  · have room := seedIndex_genNeed (n := 4) (g := genSetBusy (genClaim op d src nl alu g) (nl - op.latency + 1) alu)
      (by omega) h
    refine ⟨seedIndex_genSkip room.2, (genNeed_keeps 4 _).2, ⟨?_, ?_⟩⟩
    · exact genWord (genNeed 4 (genSetBusy (genClaim op d src nl alu g) (nl - op.latency + 1) alu))
    · show (genNeed 4 _).code ++ _ = _
      rw [(genNeed_keeps 4 _).1]; rfl
  · exact ⟨h, rfl, 0, rfl⟩

/-- What one record can do: nothing to the program, or one more operation. -/
def DecodePass (g g' : GenState) : Prop := SeedIndexOk g' ∧ g'.stage = g.stage ∧ (g'.code = g.code ∨ ∃ i, isAlu i = true ∧ g'.code = g.code ++ [i])

/-- schedule accepts one instruction or none (R306). -/
theorem genSchedule_spec (op : GenOp) (d : Fin 4) (src : Fin 9) (g : GenState) (h : SeedIndexOk g) : DecodePass g (genSchedule op d src g) := by
  unfold genSchedule
  dsimp only
  split
  · exact ⟨h, rfl, .inl rfl⟩
  · split
    · split
      · obtain ⟨a, b, c, hc⟩ := genAccept_spec op d src _ ‹_› g h
        exact ⟨a, b, .inr ⟨_, isAlu_instr .., hc⟩⟩
      · exact ⟨h, rfl, .inl rfl⟩
    · exact ⟨h, rfl, .inl rfl⟩

/-- A pass seen from an earlier state with the same program. -/
theorem decodePass_trans {g g1 g2 : GenState} (hc : g1.code = g.code) (hs : g1.stage = g.stage) (h : DecodePass g1 g2) : DecodePass g g2 := by
  obtain ⟨a, b, c⟩ := h
  rw [hc] at c
  exact ⟨a, b.trans hs, c⟩

/-- Rejects 1 and 2 change nothing (R305). -/
theorem genTry_spec (op : GenOp) (d : Fin 4) (src : Fin 9) (g : GenState) (h : SeedIndexOk g) : DecodePass g (genTry op d src g) := by
  unfold genTry
  split
  · exact ⟨h, rfl, .inl rfl⟩
  · split
    · exact ⟨h, rfl, .inl rfl⟩
    · exact genSchedule_spec _ _ _ _ h

/-- A record adds one instruction or none (R305). -/
theorem genRecord_spec (g : GenState) (h : SeedIndexOk g) : DecodePass g (genRecord g) := by
  unfold genRecord
  have e1 := seedIndex_genNeed (n := 1) (by omega) h
  have k1 := genNeed_keeps 1 g
  have e2 : SeedIndexOk (genSkip 1 (genNeed 1 g)) := seedIndex_genSkip e1.2
  have e3 := seedIndex_genNeed (n := 1) (by omega) e2
  have k3 := genNeed_keeps 1 (genSkip 1 (genNeed 1 g))
  have s1 : (genSkip 1 (genNeed 1 g)).code = g.code ∧ (genSkip 1 (genNeed 1 g)).stage = g.stage := k1
  have s2 : (genSkip 1 (genNeed 1 (genSkip 1 (genNeed 1 g)))).code = g.code ∧
      (genSkip 1 (genNeed 1 (genSkip 1 (genNeed 1 g)))).stage = g.stage := ⟨k3.1.trans k1.1, k3.2.trans k1.2⟩
  dsimp only
  split
  · exact decodePass_trans s2.1 s2.2 (genTry_spec _ _ _ _ (seedIndex_genSkip e3.2))
  · exact decodePass_trans s1.1 s1.2 (genTry_spec _ _ _ _ e2)

/-- A pass adds at most one instruction, and only operations. -/
theorem decodePass_length {g g' : GenState} (h : DecodePass g g') (n : Nat) (hl : g.code.length < n) (ha : ∀ i ∈ g.code, isAlu i = true) :
    g'.code.length ≤ n ∧ ∀ i ∈ g'.code, isAlu i = true := by
  obtain ⟨_, _, e | ⟨i, hi, e⟩⟩ := h
  · rw [e]; exact ⟨by omega, ha⟩
  · rw [e]; refine ⟨by simp; omega, fun j hj => ?_⟩
    rcases List.mem_append.1 hj with hj | hj
    · exact ha j hj
    · rw [List.mem_singleton.1 hj]; exact hi

/-- A pass of the generator keeps its invariant. -/
theorem genInv_genPass (h : W64) (g : GenState) (hg : GenInv g) : GenInv (genPass h g) := by
  obtain ⟨h1, h2, h3⟩ := hg
  unfold genPass
  cases hs : g.stage with
  | seed => simp [GenInv, genSeed]
  | attempt => simpa [GenInv, genAttempt, hs] using h1
  | decode =>
    have hg : SeedIndexOk g := h1 (by simp [hs])
    have h2' := h2 (.inl hs)
    have h3' := h3 hs
    dsimp only
    unfold genDecode
    have pad : ∀ g' : GenState, SeedIndexOk g' → g'.code.length ≤ 70 → (∀ i ∈ g'.code, isAlu i = true) → GenInv (genToPad g') := by
      intro g' a b c
      exact ⟨fun _ => a, fun _ => ⟨b, c⟩, fun x => by simp [genToPad] at x⟩
    split
    · dsimp only
      split
      · exact pad _ hg (by show g.code.length ≤ 70; omega) h2'.2
      · have hr := genRecord_spec { g with steps := g.steps + 1 } hg
        have hc := decodePass_length hr 60 h3' h2'.2
        split
        · exact pad _ hr.1 (by omega) hc.2
        · refine ⟨fun _ => hr.1, fun _ => ⟨by omega, hc.2⟩, fun _ => by omega⟩
    · exact pad _ hg (by omega) h2'.2
  | pad =>
    have hg := h1 (by simp [hs])
    have h2' := h2 (.inr (.inl hs))
    dsimp only
    unfold genPad
    split
    · rename_i hc
      unfold genPadWith
      refine ⟨fun _ => hg, fun _ => ⟨by simp; omega, fun i hi => ?_⟩, fun x => by simp [hs] at x⟩
      rcases List.mem_append.1 hi with hj | hj
      · exact h2'.2 i hj
      · rw [List.mem_singleton.1 hj]; exact isAlu_instr ..
    · refine ⟨fun _ => hg, fun _ => h2', fun x => by simp at x⟩
  | output =>
    refine ⟨fun _ => h1 (by simp [hs]), fun x => ?_, fun x => ?_⟩ <;> simp at x

end Sys2Proof.Machine
end

