-- ==== Sys2Proof/Laws/Memory.lean ====
section
/-! SUPPORT. The laws of a byte memory: every write keeps the canonical form and the address bound, a read after a
write gives the value written, and a write leaves every other address alone (spec/20_memory.md R70). -/

namespace Sys2Proof.Machine

theorem Memory.wfFrom_mono {lo hi : Nat} (h : lo ≤ hi) : ∀ {m : Memory}, Memory.wfFrom hi m = true → Memory.wfFrom lo m = true
  | [], _ => rfl
  | (k, b) :: m, hm => by
    simp only [Memory.wfFrom, Bool.and_eq_true, decide_eq_true_eq] at hm ⊢
    exact ⟨⟨by omega, hm.1.2⟩, hm.2⟩

/-- Below the lowest listed address everything reads as unlisted. -/
theorem Memory.read_below {lo a : Nat} (h : a < lo) : ∀ {m : Memory}, Memory.wfFrom lo m = true → m.read a = unlisted
  | [], _ => rfl
  | (k, b) :: m, hm => by
    simp only [Memory.wfFrom, Bool.and_eq_true, decide_eq_true_eq] at hm
    simp [Memory.read, show a < k by omega]

theorem Memory.wfFrom_cons {lo a : Nat} {v : Byte} {m : Memory} (h : lo ≤ a) (hm : Memory.wfFrom (a + 1) m = true) :
    Memory.wfFrom lo (Memory.cons a v m) = true := by
  unfold Memory.cons
  split
  · exact Memory.wfFrom_mono (by omega) hm
  · simp_all [Memory.wfFrom]

theorem Memory.wfFrom_write {a : Nat} {v : Byte} :
    ∀ {m : Memory} {lo : Nat}, lo ≤ a → Memory.wfFrom lo m = true → Memory.wfFrom lo (m.write a v) = true
  | [], lo, h, _ => Memory.wfFrom_cons h rfl
  | (k, b) :: m, lo, h, hm => by
    simp only [Memory.wfFrom, Bool.and_eq_true, decide_eq_true_eq] at hm
    unfold Memory.write
    split
    · exact Memory.wfFrom_cons h (by simp [Memory.wfFrom, hm, show a + 1 ≤ k by omega])
    · split
      · next hk => subst hk; exact Memory.wfFrom_cons h hm.2
      · simp only [Memory.wfFrom, Bool.and_eq_true, decide_eq_true_eq]
        exact ⟨hm.1, Memory.wfFrom_write (by omega) hm.2⟩

/-- A write keeps the canonical form. -/
theorem Memory.wf_write {m : Memory} {a : Nat} {v : Byte} (h : m.wf = true) : (m.write a v).wf = true :=
  Memory.wfFrom_write (Nat.zero_le a) h

theorem Memory.within_write {bound a : Nat} {v : Byte} (ha : a < bound) :
    ∀ {m : Memory}, m.within bound = true → (m.write a v).within bound = true
  | [], _ => by unfold Memory.write Memory.cons; split <;> simp_all [Memory.within]
  | (k, b) :: m, h => by
    have hm : k < bound ∧ Memory.within bound m = true := by simpa [Memory.within] using h
    unfold Memory.write
    split
    · unfold Memory.cons; split
      · exact h
      · simpa [Memory.within, ha] using h
    · split
      · unfold Memory.cons; split
        · exact hm.2
        · simpa [Memory.within, ha] using hm.2
      · have := Memory.within_write (v := v) ha hm.2
        simp [Memory.within, hm.1] at this ⊢
        exact this

theorem Memory.read_cons_same {lo a : Nat} {v : Byte} {m : Memory} (h : a < lo) (hm : Memory.wfFrom lo m = true) :
    (Memory.cons a v m).read a = v := by
  unfold Memory.cons
  split
  · next hv => rw [Memory.read_below h hm, hv]
  · simp [Memory.read]

theorem Memory.read_write_sameFrom {a : Nat} {v : Byte} :
    ∀ {m : Memory} {lo : Nat}, Memory.wfFrom lo m = true → (m.write a v).read a = v
  | [], _, _ => Memory.read_cons_same (lo := a + 1) (by omega) rfl
  | (k, b) :: m, lo, hm => by
    simp only [Memory.wfFrom, Bool.and_eq_true, decide_eq_true_eq] at hm
    unfold Memory.write
    split
    · exact Memory.read_cons_same (lo := k) (by omega) (by simp [Memory.wfFrom, hm])
    · split
      · next hk => subst hk; exact Memory.read_cons_same (by omega) hm.2
      · simp only [Memory.read]
        rw [if_neg (by omega), if_neg (by omega), Memory.read_write_sameFrom hm.2]

/-- A read after a write to the same address gives the value written. -/
theorem Memory.read_write_same {m : Memory} {a : Nat} {v : Byte} (h : m.wf = true) : (m.write a v).read a = v :=
  Memory.read_write_sameFrom h

theorem Memory.read_cons_other {lo a x : Nat} {v : Byte} {m : Memory} (hx : x ≠ a) (h : a < lo)
    (hm : Memory.wfFrom lo m = true) : (Memory.cons a v m).read x = m.read x := by
  unfold Memory.cons
  split
  · rfl
  · simp only [Memory.read]
    by_cases hl : x < a
    · rw [if_pos hl, Memory.read_below (show x < lo by omega) hm]
    · rw [if_neg hl, if_neg hx]

theorem Memory.read_write_otherFrom {a x : Nat} {v : Byte} (hx : x ≠ a) :
    ∀ {m : Memory} {lo : Nat}, Memory.wfFrom lo m = true → (m.write a v).read x = m.read x
  | [], _, _ => Memory.read_cons_other (lo := a + 1) hx (by omega) rfl
  | (k, b) :: m, lo, hm => by
    have hm' := hm
    simp only [Memory.wfFrom, Bool.and_eq_true, decide_eq_true_eq] at hm
    unfold Memory.write
    split
    · exact Memory.read_cons_other (lo := k) hx (by omega) (by simp [Memory.wfFrom, hm])
    · split
      · next hk =>
        subst hk
        rw [Memory.read_cons_other hx (by omega) hm.2]
        simp only [Memory.read]
        by_cases hl : x < a
        · rw [if_pos hl, Memory.read_below (show x < a + 1 by omega) hm.2]
        · rw [if_neg hl, if_neg hx]
      · simp only [Memory.read, Memory.read_write_otherFrom hx hm.2]

/-- A write leaves every other address alone. -/
theorem Memory.read_write_other {m : Memory} {a x : Nat} {v : Byte} (h : m.wf = true) (hx : x ≠ a) :
    (m.write a v).read x = m.read x :=
  Memory.read_write_otherFrom hx h

theorem Memory.wf_writeLE : ∀ {n : Nat} {m : Memory} {a v : Nat}, m.wf = true → (m.writeLE a n v).wf = true
  | 0, _, _, _, h => h
  | n + 1, m, a, v, h => Memory.wf_writeLE (n := n) (m := m.write a (BitVec.ofNat 8 v)) (Memory.wf_write h)

theorem Memory.within_writeLE {bound : Nat} :
    ∀ {n : Nat} {m : Memory} {a v : Nat}, a + n ≤ bound → m.within bound = true → (m.writeLE a n v).within bound = true
  | 0, _, _, _, _, h => h
  | n + 1, m, a, v, ha, h =>
    Memory.within_writeLE (n := n) (m := m.write a (BitVec.ofNat 8 v)) (a := a + 1) (by omega)
      (Memory.within_write (by omega) h)

/-- A wide write leaves every byte outside it alone. -/
theorem Memory.read_writeLE_other {x : Nat} :
    ∀ {n : Nat} {m : Memory} {a v : Nat}, m.wf = true → (x < a ∨ a + n ≤ x) → (m.writeLE a n v).read x = m.read x
  | 0, _, _, _, _, _ => rfl
  | n + 1, m, a, v, h, hx => by
    show ((m.write a _).writeLE (a + 1) n (v / 256)).read x = m.read x
    rw [Memory.read_writeLE_other (Memory.wf_write h) (by omega), Memory.read_write_other h (by omega)]

theorem Memory.readLE_congr {m m' : Memory} :
    ∀ {n a : Nat}, (∀ x, a ≤ x → x < a + n → m.read x = m'.read x) → m.readLE a n = m'.readLE a n
  | 0, _, _ => rfl
  | n + 1, a, h => by
    simp only [Memory.readLE]
    rw [h a (by omega) (by omega), Memory.readLE_congr (n := n) fun x h1 h2 => h x (by omega) (by omega)]

/-- A wide read after a wide write to the same place gives the value written. -/
theorem Memory.readLE_writeLE : ∀ {n : Nat} {m : Memory} {a v : Nat}, m.wf = true →
    (m.writeLE a n v).readLE a n = v % 256 ^ n
  | 0, _, _, v, _ => by simp [Memory.readLE, Nat.mod_one]
  | n + 1, m, a, v, h => by
    have ih := Memory.readLE_writeLE (n := n) (m := m.write a (BitVec.ofNat 8 v)) (a := a + 1) (v := v / 256)
      (Memory.wf_write h)
    have hb : ((m.write a (BitVec.ofNat 8 v)).writeLE (a + 1) n (v / 256)).read a = BitVec.ofNat 8 v := by
      rw [Memory.read_writeLE_other (Memory.wf_write h) (by omega), Memory.read_write_same h]
    show (((m.write a _).writeLE (a + 1) n (v / 256)).read a).toNat
      + 256 * ((m.write a _).writeLE (a + 1) n (v / 256)).readLE (a + 1) n = _
    have hv : v % 256 ^ (n + 1) = v % 256 + 256 * (v / 256 % 256 ^ n) := by rw [Nat.pow_succ', Nat.mod_mul]
    rw [ih, hb, BitVec.toNat_ofNat, hv]

theorem Memory.wf_writeBlock {m : Memory} {a : Nat} {v : Block} (h : m.wf = true) : (m.writeBlock a v).wf = true := by
  unfold Memory.writeBlock
  exact Memory.wf_writeLE h

theorem Memory.within_writeBlock {bound : Nat} {m : Memory} {a : Nat} {v : Block} (ha : a + 16 ≤ bound)
    (h : m.within bound = true) : (m.writeBlock a v).within bound = true := by
  unfold Memory.writeBlock
  exact Memory.within_writeLE ha h

/-- MemRead after MemWrite of the same block gives the block written (R70). -/
theorem Memory.readBlock_writeBlock {m : Memory} {a : Nat} {v : Block} (h : m.wf = true) :
    (m.writeBlock a v).readBlock a = v := by
  unfold Memory.readBlock Memory.writeBlock
  rw [Memory.readLE_writeLE h]
  apply BitVec.eq_of_toNat_eq
  rw [BitVec.toNat_ofNat, show (256 : Nat) ^ 16 = 2 ^ 128 by norm_num, Nat.mod_mod]
  exact Nat.mod_eq_of_lt v.isLt

/-- MemWrite leaves every byte outside its block alone. -/
theorem Memory.read_writeBlock_other {m : Memory} {a x : Nat} {v : Block} (h : m.wf = true) (hx : x < a ∨ a + 16 ≤ x) :
    (m.writeBlock a v).read x = m.read x := by
  unfold Memory.writeBlock
  exact Memory.read_writeLE_other h hx

/-- MemWrite leaves a block that it does not overlap alone. -/
theorem Memory.readBlock_writeBlock_other {m : Memory} {a b : Nat} {v : Block} (h : m.wf = true)
    (hb : b + 16 ≤ a ∨ a + 16 ≤ b) : (m.writeBlock a v).readBlock b = m.readBlock b := by
  unfold Memory.readBlock
  rw [Memory.readLE_congr fun x h1 h2 => Memory.read_writeBlock_other h (by omega)]

/-- Two canonical memories that read alike everywhere are the same list. -/
theorem Memory.ext_read : ∀ {m m' : Memory} {lo : Nat}, Memory.wfFrom lo m = true → Memory.wfFrom lo m' = true →
    (∀ x, m.read x = m'.read x) → m = m'
  | [], [], _, _, _, _ => rfl
  | [], (k, b) :: m', lo, _, h', hr => by
    simp only [Memory.wfFrom, Bool.and_eq_true, decide_eq_true_eq] at h'
    have := hr k
    simp [Memory.read] at this
    exact absurd this.symm h'.1.2
  | (k, b) :: m, [], lo, h, _, hr => by
    simp only [Memory.wfFrom, Bool.and_eq_true, decide_eq_true_eq] at h
    have := hr k
    simp [Memory.read] at this
    exact absurd this h.1.2
  | (k, b) :: m, (k', b') :: m', lo, h, h', hr => by
    simp only [Memory.wfFrom, Bool.and_eq_true, decide_eq_true_eq] at h h'
    have hk : k = k' := by
      rcases Nat.lt_trichotomy k k' with hlt | heq | hlt
      · have := hr k
        simp [Memory.read, hlt] at this
        exact absurd this h.1.2
      · exact heq
      · have := hr k'
        simp [Memory.read, hlt] at this
        exact absurd this.symm h'.1.2
    subst hk
    have hb : b = b' := by simpa [Memory.read] using hr k
    subst hb
    have : m = m' := by
      refine Memory.ext_read h.2 h'.2 fun x => ?_
      by_cases hx : x ≤ k
      · rw [Memory.read_below (show x < k + 1 by omega) h.2, Memory.read_below (show x < k + 1 by omega) h'.2]
      · have := hr x
        simpa [Memory.read, show ¬ x < k by omega, show ¬ x = k by omega] using this
    rw [this]

end Sys2Proof.Machine
end

