-- ==== Sys2Proof/Laws/HostPort.lean ====
section
/-! SUPPORT. What an access to the buffers of the host window can do, byte by byte (spec/20_memory.md R62 to R64). -/

namespace Sys2Proof.Machine

/-- An access that R64 does not refuse is legal. -/
theorem accessLegal_of_not_refused {off : BitVec 16} {w : Nat} (h : ¬ RefusedAccess off w) :
    accessLegal off w = true ∧ (w = 1 ∨ w = 2 ∨ w = 4) ∧ off.toNat % w = 0 := by
  unfold RefusedAccess at h
  have hw : w = 1 ∨ w = 2 ∨ w = 4 := by by_contra hh; exact h (.inl hh)
  have ha : off.toNat % w = 0 := by by_contra hh; exact h (.inr (.inl hh))
  have hr : 0x100 ≤ off.toNat ∨ w = 4 := by by_contra hh; exact h (.inr (.inr (by omega)))
  refine ⟨?_, hw, ha⟩
  simp only [accessLegal, Bool.and_eq_true, Bool.or_eq_true, decide_eq_true_eq]
  exact ⟨⟨hw, ha⟩, hr⟩

/-- The bytes of the number that 1, 2 or 4 bytes stand for (R60). -/
theorem leNat_bytes (f : Nat → Byte) (w : Nat) (h : w = 1 ∨ w = 2 ∨ w = 4) :
    leNat ((List.range w).map f) < 256 ^ w ∧
      ∀ k, k < w → leNat ((List.range w).map f) / 256 ^ k % 256 = (f k).toNat := by
  have h0 := (f 0).isLt; have h1 := (f 1).isLt; have h2 := (f 2).isLt; have h3 := (f 3).isLt
  rcases h with rfl | rfl | rfl
  all_goals
    simp only [List.range, List.range.loop, List.map, leNat]
    refine ⟨by omega, fun k hk => ?_⟩
    have : k = 0 ∨ k = 1 ∨ k = 2 ∨ k = 3 := by omega
    rcases this with rfl | rfl | rfl | rfl <;> omega

/-- What the write of one byte of a buffer can do (R62, R90). -/
theorem writeByte_spec {s : State} (hb : s.busy = false) (hw : s.msg.wf = true) (o : Nat) (b : Byte) :
    ∃ t, s.writeByte o b = t ∧
      t = { s with sw := t.sw, msg := t.msg } ∧ t.msg.wf = true ∧
      (∀ i : Fin 200, t.sw[i] = if o = 0x200 + i.val then b else s.sw[i]) ∧
      ∀ i, t.msg.read i = if i < s.msgMax ∧ o = 0x8000 + i then b else s.msg.read i := by
  refine ⟨_, rfl, ?_⟩
  unfold State.writeByte
  rw [if_neg (by rw [hb]; decide)]
  have hM : s.msgMax ≤ 32768 := by have := s.msgMaxExtra.isLt; show 200 + s.msgMaxExtra.val ≤ _; omega
  split
  · rename_i h
    refine ⟨rfl, hw, fun i => ?_, fun i => ?_⟩
    · have := i.isLt
      simp only [Fin.getElem_fin, Vector.getElem_setIfInBounds]
      by_cases h2 : o - 0x200 = i.val
      · rw [if_pos h2]; exact (if_pos (by omega)).symm
      · rw [if_neg h2]; exact (if_neg (by omega)).symm
    · rw [if_neg (by omega)]
  · split
    · rename_i h h2
      refine ⟨rfl, Memory.wf_write hw .., fun i => ?_, fun i => ?_⟩
      · have := i.isLt; exact (if_neg (by omega)).symm
      · by_cases h3 : o - 0x8000 = i
        · subst h3; rw [if_pos (by omega)]; exact Memory.read_write_same hw ..
        · rw [if_neg (by omega)]; exact Memory.read_write_other hw (fun e => h3 e.symm)
    · rename_i h h2
      refine ⟨rfl, hw, fun i => ?_, fun i => ?_⟩
      · have := i.isLt; exact (if_neg (by omega)).symm
      · rw [if_neg (by omega)]

/-- What the write of n bytes in a row can do. -/
theorem writeBytes_spec {s : State} (hb : s.busy = false) (hw : s.msg.wf = true) (o : Nat) (f : Nat → Byte) :
    ∀ n, ∃ t, (List.range n).foldl (fun t k => t.writeByte (o + k) (f k)) s = t ∧
      t = { s with sw := t.sw, msg := t.msg } ∧ t.msg.wf = true ∧
      (∀ i : Fin 200, t.sw[i] = if o ≤ 0x200 + i.val ∧ 0x200 + i.val < o + n then f (0x200 + i.val - o) else s.sw[i]) ∧
      ∀ i, t.msg.read i = if i < s.msgMax ∧ o ≤ 0x8000 + i ∧ 0x8000 + i < o + n then f (0x8000 + i - o) else s.msg.read i
  | 0 => ⟨s, rfl, rfl, hw, fun i => by rw [if_neg (by omega)], fun i => by rw [if_neg (by omega)]⟩
  | n + 1 => by
    obtain ⟨t, h1, h2, h3, h4, h5⟩ := writeBytes_spec hb hw o f n
    obtain ⟨u, g1, g2, g3, g4, g5⟩ := writeByte_spec (s := t) (by rw [h2]; exact hb) h3 (o + n) (f n)
    have hM : t.msgMax = s.msgMax := by rw [h2]
    refine ⟨u, by rw [List.range_succ, List.foldl_append, h1]; exact g1, by rw [g2, h2], g3, fun i => ?_, fun i => ?_⟩
    · rw [g4 i, h4 i]
      by_cases h : o + n = 0x200 + i.val
      · rw [if_pos h, if_pos (by omega), show 0x200 + i.val - o = n by omega]
      · rw [if_neg h]
        by_cases h' : o ≤ 0x200 + i.val ∧ 0x200 + i.val < o + n
        · rw [if_pos h', if_pos (by omega)]
        · rw [if_neg h', if_neg (by omega)]
    · rw [g5 i, h5 i, hM]
      by_cases h : i < s.msgMax ∧ o + n = 0x8000 + i
      · rw [if_pos h, if_pos (by omega), show 0x8000 + i - o = n by omega]
      · rw [if_neg h]
        by_cases h' : i < s.msgMax ∧ o ≤ 0x8000 + i ∧ 0x8000 + i < o + n
        · rw [if_pos h', if_pos (by omega)]
        · rw [if_neg h', if_neg (by omega)]

/-- Byte k of a word, by division. -/
theorem byteOf_eq_ofNat (v : W32) (k : Nat) : byteOf v k = BitVec.ofNat 8 (v.toNat / 256 ^ k) := by
  apply BitVec.eq_of_toNat_eq
  rw [toNat_byteOf, BitVec.toNat_ofNat, Nat.pow_mul]

end Sys2Proof.Machine
end

