-- ==== Sys2Proof/Laws/State.lean ====
section
/-! SUPPORT. One lemma per field of State for each shared update: what the update leaves in it. -/

namespace Sys2Proof.Machine

variable (s : State)

@[simp] theorem State.enterPhase_ie (p : Phase) : (s.enterPhase p).ie = s.ie := rfl
@[simp] theorem State.enterPhase_cmd (p : Phase) : (s.enterPhase p).cmd = s.cmd := rfl
@[simp] theorem State.enterPhase_len (p : Phase) : (s.enterPhase p).len = s.len := rfl
@[simp] theorem State.enterPhase_heightLo (p : Phase) : (s.enterPhase p).heightLo = s.heightLo := rfl
@[simp] theorem State.enterPhase_heightHi (p : Phase) : (s.enterPhase p).heightHi = s.heightHi := rfl
@[simp] theorem State.enterPhase_busy (p : Phase) : (s.enterPhase p).busy = s.busy := rfl
@[simp] theorem State.enterPhase_done (p : Phase) : (s.enterPhase p).done = s.done := rfl
@[simp] theorem State.enterPhase_err (p : Phase) : (s.enterPhase p).err = s.err := rfl
@[simp] theorem State.enterPhase_errcode (p : Phase) : (s.enterPhase p).errcode = s.errcode := rfl
@[simp] theorem State.enterPhase_phase (p : Phase) : (s.enterPhase p).phase = p := rfl
@[simp] theorem State.enterPhase_progress (p : Phase) : (s.enterPhase p).progress = 0 := rfl
@[simp] theorem State.enterPhase_digest (p : Phase) : (s.enterPhase p).digest = s.digest := rfl
@[simp] theorem State.enterPhase_sw (p : Phase) : (s.enterPhase p).sw = s.sw := rfl
@[simp] theorem State.enterPhase_msg (p : Phase) : (s.enterPhase p).msg = s.msg := rfl
@[simp] theorem State.enterPhase_hashState (p : Phase) : (s.enterPhase p).hashState = s.hashState := rfl
@[simp] theorem State.enterPhase_rk1 (p : Phase) : (s.enterPhase p).rk1 = s.rk1 := rfl
@[simp] theorem State.enterPhase_rk2 (p : Phase) : (s.enterPhase p).rk2 = s.rk2 := rfl
@[simp] theorem State.enterPhase_text (p : Phase) : (s.enterPhase p).text = s.text := rfl
@[simp] theorem State.enterPhase_sp (p : Phase) : (s.enterPhase p).sp = s.sp := rfl
@[simp] theorem State.enterPhase_spOwned (p : Phase) : (s.enterPhase p).spOwned = s.spOwned := rfl
@[simp] theorem State.enterPhase_a (p : Phase) : (s.enterPhase p).a = s.a := rfl
@[simp] theorem State.enterPhase_b0 (p : Phase) : (s.enterPhase p).b0 = s.b0 := rfl
@[simp] theorem State.enterPhase_b1 (p : Phase) : (s.enterPhase p).b1 = s.b1 := rfl
@[simp] theorem State.enterPhase_c (p : Phase) : (s.enterPhase p).c = s.c := rfl
@[simp] theorem State.enterPhase_t (p : Phase) : (s.enterPhase p).t = s.t := rfl
@[simp] theorem State.enterPhase_a1 (p : Phase) : (s.enterPhase p).a1 = s.a1 := rfl
@[simp] theorem State.enterPhase_hi (p : Phase) : (s.enterPhase p).hi = s.hi := rfl
@[simp] theorem State.enterPhase_lo (p : Phase) : (s.enterPhase p).lo = s.lo := rfl
@[simp] theorem State.enterPhase_divR (p : Phase) : (s.enterPhase p).divR = s.divR := rfl
@[simp] theorem State.enterPhase_sqrtR (p : Phase) : (s.enterPhase p).sqrtR = s.sqrtR := rfl
@[simp] theorem State.enterPhase_tweak12 (p : Phase) : (s.enterPhase p).tweak12 = s.tweak12 := rfl
@[simp] theorem State.enterPhase_r (p : Phase) : (s.enterPhase p).r = s.r := rfl
@[simp] theorem State.enterPhase_prog (p : Phase) : (s.enterPhase p).prog = s.prog := rfl
@[simp] theorem State.enterPhase_plen (p : Phase) : (s.enterPhase p).plen = s.plen := rfl
@[simp] theorem State.enterPhase_rpc (p : Phase) : (s.enterPhase p).rpc = s.rpc := rfl
@[simp] theorem State.enterPhase_gen (p : Phase) : (s.enterPhase p).gen = s.gen := rfl
@[simp] theorem State.enterPhase_blk (p : Phase) : (s.enterPhase p).blk = s.blk := rfl
@[simp] theorem State.enterPhase_g (p : Phase) : (s.enterPhase p).g = s.g := rfl
@[simp] theorem State.enterPhase_i (p : Phase) : (s.enterPhase p).i = s.i := rfl
@[simp] theorem State.enterPhase_jobOp (p : Phase) : (s.enterPhase p).jobOp = s.jobOp := rfl
@[simp] theorem State.enterPhase_jobVariant (p : Phase) : (s.enterPhase p).jobVariant = s.jobVariant := rfl
@[simp] theorem State.enterPhase_jobPrehashed (p : Phase) : (s.enterPhase p).jobPrehashed = s.jobPrehashed := rfl
@[simp] theorem State.enterPhase_jobLen (p : Phase) : (s.enterPhase p).jobLen = s.jobLen := rfl
@[simp] theorem State.enterPhase_jobHeight (p : Phase) : (s.enterPhase p).jobHeight = s.jobHeight := rfl
@[simp] theorem State.enterPhase_mixStep (p : Phase) : (s.enterPhase p).mixStep = s.mixStep := rfl
@[simp] theorem State.enterPhase_j1 (p : Phase) : (s.enterPhase p).j1 = s.j1 := rfl
@[simp] theorem State.enterPhase_j2 (p : Phase) : (s.enterPhase p).j2 = s.j2 := rfl
@[simp] theorem State.enterPhase_newa (p : Phase) : (s.enterPhase p).newa = s.newa := rfl
@[simp] theorem State.enterPhase_msgMaxExtra (p : Phase) : (s.enterPhase p).msgMaxExtra = s.msgMaxExtra := rfl
@[simp] theorem State.enterPhase_spGrant (p : Phase) : (s.enterPhase p).spGrant = s.spGrant := rfl
@[simp] theorem State.enterPhase_inputs (p : Phase) : (s.enterPhase p).inputs = s.inputs := rfl
@[simp] theorem State.enterPhase_hostData (p : Phase) : (s.enterPhase p).hostData = s.hostData := rfl

@[simp] theorem State.raiseJobError_ie (e : ErrCode) : (s.raiseJobError e).ie = s.ie := rfl
@[simp] theorem State.raiseJobError_cmd (e : ErrCode) : (s.raiseJobError e).cmd = s.cmd := rfl
@[simp] theorem State.raiseJobError_len (e : ErrCode) : (s.raiseJobError e).len = s.len := rfl
@[simp] theorem State.raiseJobError_heightLo (e : ErrCode) : (s.raiseJobError e).heightLo = s.heightLo := rfl
@[simp] theorem State.raiseJobError_heightHi (e : ErrCode) : (s.raiseJobError e).heightHi = s.heightHi := rfl
@[simp] theorem State.raiseJobError_busy (e : ErrCode) : (s.raiseJobError e).busy = false := rfl
@[simp] theorem State.raiseJobError_done (e : ErrCode) : (s.raiseJobError e).done = false := rfl
@[simp] theorem State.raiseJobError_err (e : ErrCode) : (s.raiseJobError e).err = true := rfl
@[simp] theorem State.raiseJobError_errcode (e : ErrCode) : (s.raiseJobError e).errcode = e := rfl
@[simp] theorem State.raiseJobError_phase (e : ErrCode) : (s.raiseJobError e).phase = .error := rfl
@[simp] theorem State.raiseJobError_progress (e : ErrCode) : (s.raiseJobError e).progress = 0 := rfl
@[simp] theorem State.raiseJobError_digest (e : ErrCode) : (s.raiseJobError e).digest = s.digest := rfl
@[simp] theorem State.raiseJobError_sw (e : ErrCode) : (s.raiseJobError e).sw = s.sw := rfl
@[simp] theorem State.raiseJobError_msg (e : ErrCode) : (s.raiseJobError e).msg = s.msg := rfl
@[simp] theorem State.raiseJobError_hashState (e : ErrCode) : (s.raiseJobError e).hashState = s.hashState := rfl
@[simp] theorem State.raiseJobError_rk1 (e : ErrCode) : (s.raiseJobError e).rk1 = s.rk1 := rfl
@[simp] theorem State.raiseJobError_rk2 (e : ErrCode) : (s.raiseJobError e).rk2 = s.rk2 := rfl
@[simp] theorem State.raiseJobError_text (e : ErrCode) : (s.raiseJobError e).text = s.text := rfl
@[simp] theorem State.raiseJobError_sp (e : ErrCode) : (s.raiseJobError e).sp = s.sp := rfl
@[simp] theorem State.raiseJobError_spOwned (e : ErrCode) : (s.raiseJobError e).spOwned = false := rfl
@[simp] theorem State.raiseJobError_a (e : ErrCode) : (s.raiseJobError e).a = s.a := rfl
@[simp] theorem State.raiseJobError_b0 (e : ErrCode) : (s.raiseJobError e).b0 = s.b0 := rfl
@[simp] theorem State.raiseJobError_b1 (e : ErrCode) : (s.raiseJobError e).b1 = s.b1 := rfl
@[simp] theorem State.raiseJobError_c (e : ErrCode) : (s.raiseJobError e).c = s.c := rfl
@[simp] theorem State.raiseJobError_t (e : ErrCode) : (s.raiseJobError e).t = s.t := rfl
@[simp] theorem State.raiseJobError_a1 (e : ErrCode) : (s.raiseJobError e).a1 = s.a1 := rfl
@[simp] theorem State.raiseJobError_hi (e : ErrCode) : (s.raiseJobError e).hi = s.hi := rfl
@[simp] theorem State.raiseJobError_lo (e : ErrCode) : (s.raiseJobError e).lo = s.lo := rfl
@[simp] theorem State.raiseJobError_divR (e : ErrCode) : (s.raiseJobError e).divR = s.divR := rfl
@[simp] theorem State.raiseJobError_sqrtR (e : ErrCode) : (s.raiseJobError e).sqrtR = s.sqrtR := rfl
@[simp] theorem State.raiseJobError_tweak12 (e : ErrCode) : (s.raiseJobError e).tweak12 = s.tweak12 := rfl
@[simp] theorem State.raiseJobError_r (e : ErrCode) : (s.raiseJobError e).r = s.r := rfl
@[simp] theorem State.raiseJobError_prog (e : ErrCode) : (s.raiseJobError e).prog = s.prog := rfl
@[simp] theorem State.raiseJobError_plen (e : ErrCode) : (s.raiseJobError e).plen = s.plen := rfl
@[simp] theorem State.raiseJobError_rpc (e : ErrCode) : (s.raiseJobError e).rpc = s.rpc := rfl
@[simp] theorem State.raiseJobError_gen (e : ErrCode) : (s.raiseJobError e).gen = s.gen := rfl
@[simp] theorem State.raiseJobError_blk (e : ErrCode) : (s.raiseJobError e).blk = s.blk := rfl
@[simp] theorem State.raiseJobError_g (e : ErrCode) : (s.raiseJobError e).g = s.g := rfl
@[simp] theorem State.raiseJobError_i (e : ErrCode) : (s.raiseJobError e).i = s.i := rfl
@[simp] theorem State.raiseJobError_jobOp (e : ErrCode) : (s.raiseJobError e).jobOp = s.jobOp := rfl
@[simp] theorem State.raiseJobError_jobVariant (e : ErrCode) : (s.raiseJobError e).jobVariant = s.jobVariant := rfl
@[simp] theorem State.raiseJobError_jobPrehashed (e : ErrCode) : (s.raiseJobError e).jobPrehashed = s.jobPrehashed := rfl
@[simp] theorem State.raiseJobError_jobLen (e : ErrCode) : (s.raiseJobError e).jobLen = s.jobLen := rfl
@[simp] theorem State.raiseJobError_jobHeight (e : ErrCode) : (s.raiseJobError e).jobHeight = s.jobHeight := rfl
@[simp] theorem State.raiseJobError_mixStep (e : ErrCode) : (s.raiseJobError e).mixStep = s.mixStep := rfl
@[simp] theorem State.raiseJobError_j1 (e : ErrCode) : (s.raiseJobError e).j1 = s.j1 := rfl
@[simp] theorem State.raiseJobError_j2 (e : ErrCode) : (s.raiseJobError e).j2 = s.j2 := rfl
@[simp] theorem State.raiseJobError_newa (e : ErrCode) : (s.raiseJobError e).newa = s.newa := rfl
@[simp] theorem State.raiseJobError_msgMaxExtra (e : ErrCode) : (s.raiseJobError e).msgMaxExtra = s.msgMaxExtra := rfl
@[simp] theorem State.raiseJobError_spGrant (e : ErrCode) : (s.raiseJobError e).spGrant = s.spGrant := rfl
@[simp] theorem State.raiseJobError_inputs (e : ErrCode) : (s.raiseJobError e).inputs = s.inputs := rfl
@[simp] theorem State.raiseJobError_hostData (e : ErrCode) : (s.raiseJobError e).hostData = s.hostData := rfl

@[simp] theorem State.finishOk_ie : (s.finishOk).ie = s.ie := rfl
@[simp] theorem State.finishOk_cmd : (s.finishOk).cmd = s.cmd := rfl
@[simp] theorem State.finishOk_len : (s.finishOk).len = s.len := rfl
@[simp] theorem State.finishOk_heightLo : (s.finishOk).heightLo = s.heightLo := rfl
@[simp] theorem State.finishOk_heightHi : (s.finishOk).heightHi = s.heightHi := rfl
@[simp] theorem State.finishOk_busy : (s.finishOk).busy = false := rfl
@[simp] theorem State.finishOk_done : (s.finishOk).done = true := rfl
@[simp] theorem State.finishOk_err : (s.finishOk).err = s.err := rfl
@[simp] theorem State.finishOk_errcode : (s.finishOk).errcode = s.errcode := rfl
@[simp] theorem State.finishOk_phase : (s.finishOk).phase = .done := rfl
@[simp] theorem State.finishOk_progress : (s.finishOk).progress = 0 := rfl
@[simp] theorem State.finishOk_digest : (s.finishOk).digest = s.digest := rfl
@[simp] theorem State.finishOk_sw : (s.finishOk).sw = s.sw := rfl
@[simp] theorem State.finishOk_msg : (s.finishOk).msg = s.msg := rfl
@[simp] theorem State.finishOk_hashState : (s.finishOk).hashState = s.hashState := rfl
@[simp] theorem State.finishOk_rk1 : (s.finishOk).rk1 = s.rk1 := rfl
@[simp] theorem State.finishOk_rk2 : (s.finishOk).rk2 = s.rk2 := rfl
@[simp] theorem State.finishOk_text : (s.finishOk).text = s.text := rfl
@[simp] theorem State.finishOk_sp : (s.finishOk).sp = s.sp := rfl
@[simp] theorem State.finishOk_spOwned : (s.finishOk).spOwned = false := rfl
@[simp] theorem State.finishOk_a : (s.finishOk).a = s.a := rfl
@[simp] theorem State.finishOk_b0 : (s.finishOk).b0 = s.b0 := rfl
@[simp] theorem State.finishOk_b1 : (s.finishOk).b1 = s.b1 := rfl
@[simp] theorem State.finishOk_c : (s.finishOk).c = s.c := rfl
@[simp] theorem State.finishOk_t : (s.finishOk).t = s.t := rfl
@[simp] theorem State.finishOk_a1 : (s.finishOk).a1 = s.a1 := rfl
@[simp] theorem State.finishOk_hi : (s.finishOk).hi = s.hi := rfl
@[simp] theorem State.finishOk_lo : (s.finishOk).lo = s.lo := rfl
@[simp] theorem State.finishOk_divR : (s.finishOk).divR = s.divR := rfl
@[simp] theorem State.finishOk_sqrtR : (s.finishOk).sqrtR = s.sqrtR := rfl
@[simp] theorem State.finishOk_tweak12 : (s.finishOk).tweak12 = s.tweak12 := rfl
@[simp] theorem State.finishOk_r : (s.finishOk).r = s.r := rfl
@[simp] theorem State.finishOk_prog : (s.finishOk).prog = s.prog := rfl
@[simp] theorem State.finishOk_plen : (s.finishOk).plen = s.plen := rfl
@[simp] theorem State.finishOk_rpc : (s.finishOk).rpc = s.rpc := rfl
@[simp] theorem State.finishOk_gen : (s.finishOk).gen = s.gen := rfl
@[simp] theorem State.finishOk_blk : (s.finishOk).blk = s.blk := rfl
@[simp] theorem State.finishOk_g : (s.finishOk).g = s.g := rfl
@[simp] theorem State.finishOk_i : (s.finishOk).i = s.i := rfl
@[simp] theorem State.finishOk_jobOp : (s.finishOk).jobOp = s.jobOp := rfl
@[simp] theorem State.finishOk_jobVariant : (s.finishOk).jobVariant = s.jobVariant := rfl
@[simp] theorem State.finishOk_jobPrehashed : (s.finishOk).jobPrehashed = s.jobPrehashed := rfl
@[simp] theorem State.finishOk_jobLen : (s.finishOk).jobLen = s.jobLen := rfl
@[simp] theorem State.finishOk_jobHeight : (s.finishOk).jobHeight = s.jobHeight := rfl
@[simp] theorem State.finishOk_mixStep : (s.finishOk).mixStep = s.mixStep := rfl
@[simp] theorem State.finishOk_j1 : (s.finishOk).j1 = s.j1 := rfl
@[simp] theorem State.finishOk_j2 : (s.finishOk).j2 = s.j2 := rfl
@[simp] theorem State.finishOk_newa : (s.finishOk).newa = s.newa := rfl
@[simp] theorem State.finishOk_msgMaxExtra : (s.finishOk).msgMaxExtra = s.msgMaxExtra := rfl
@[simp] theorem State.finishOk_spGrant : (s.finishOk).spGrant = s.spGrant := rfl
@[simp] theorem State.finishOk_inputs : (s.finishOk).inputs = s.inputs := rfl
@[simp] theorem State.finishOk_hostData : (s.finishOk).hostData = s.hostData := rfl

@[simp] theorem State.withProgress_ie (n : Nat) : (s.withProgress n).ie = s.ie := rfl
@[simp] theorem State.withProgress_cmd (n : Nat) : (s.withProgress n).cmd = s.cmd := rfl
@[simp] theorem State.withProgress_len (n : Nat) : (s.withProgress n).len = s.len := rfl
@[simp] theorem State.withProgress_heightLo (n : Nat) : (s.withProgress n).heightLo = s.heightLo := rfl
@[simp] theorem State.withProgress_heightHi (n : Nat) : (s.withProgress n).heightHi = s.heightHi := rfl
@[simp] theorem State.withProgress_busy (n : Nat) : (s.withProgress n).busy = s.busy := rfl
@[simp] theorem State.withProgress_done (n : Nat) : (s.withProgress n).done = s.done := rfl
@[simp] theorem State.withProgress_err (n : Nat) : (s.withProgress n).err = s.err := rfl
@[simp] theorem State.withProgress_errcode (n : Nat) : (s.withProgress n).errcode = s.errcode := rfl
@[simp] theorem State.withProgress_phase (n : Nat) : (s.withProgress n).phase = s.phase := rfl
@[simp] theorem State.withProgress_progress (n : Nat) : (s.withProgress n).progress = BitVec.ofNat 32 n := rfl
@[simp] theorem State.withProgress_digest (n : Nat) : (s.withProgress n).digest = s.digest := rfl
@[simp] theorem State.withProgress_sw (n : Nat) : (s.withProgress n).sw = s.sw := rfl
@[simp] theorem State.withProgress_msg (n : Nat) : (s.withProgress n).msg = s.msg := rfl
@[simp] theorem State.withProgress_hashState (n : Nat) : (s.withProgress n).hashState = s.hashState := rfl
@[simp] theorem State.withProgress_rk1 (n : Nat) : (s.withProgress n).rk1 = s.rk1 := rfl
@[simp] theorem State.withProgress_rk2 (n : Nat) : (s.withProgress n).rk2 = s.rk2 := rfl
@[simp] theorem State.withProgress_text (n : Nat) : (s.withProgress n).text = s.text := rfl
@[simp] theorem State.withProgress_sp (n : Nat) : (s.withProgress n).sp = s.sp := rfl
@[simp] theorem State.withProgress_spOwned (n : Nat) : (s.withProgress n).spOwned = s.spOwned := rfl
@[simp] theorem State.withProgress_a (n : Nat) : (s.withProgress n).a = s.a := rfl
@[simp] theorem State.withProgress_b0 (n : Nat) : (s.withProgress n).b0 = s.b0 := rfl
@[simp] theorem State.withProgress_b1 (n : Nat) : (s.withProgress n).b1 = s.b1 := rfl
@[simp] theorem State.withProgress_c (n : Nat) : (s.withProgress n).c = s.c := rfl
@[simp] theorem State.withProgress_t (n : Nat) : (s.withProgress n).t = s.t := rfl
@[simp] theorem State.withProgress_a1 (n : Nat) : (s.withProgress n).a1 = s.a1 := rfl
@[simp] theorem State.withProgress_hi (n : Nat) : (s.withProgress n).hi = s.hi := rfl
@[simp] theorem State.withProgress_lo (n : Nat) : (s.withProgress n).lo = s.lo := rfl
@[simp] theorem State.withProgress_divR (n : Nat) : (s.withProgress n).divR = s.divR := rfl
@[simp] theorem State.withProgress_sqrtR (n : Nat) : (s.withProgress n).sqrtR = s.sqrtR := rfl
@[simp] theorem State.withProgress_tweak12 (n : Nat) : (s.withProgress n).tweak12 = s.tweak12 := rfl
@[simp] theorem State.withProgress_r (n : Nat) : (s.withProgress n).r = s.r := rfl
@[simp] theorem State.withProgress_prog (n : Nat) : (s.withProgress n).prog = s.prog := rfl
@[simp] theorem State.withProgress_plen (n : Nat) : (s.withProgress n).plen = s.plen := rfl
@[simp] theorem State.withProgress_rpc (n : Nat) : (s.withProgress n).rpc = s.rpc := rfl
@[simp] theorem State.withProgress_gen (n : Nat) : (s.withProgress n).gen = s.gen := rfl
@[simp] theorem State.withProgress_blk (n : Nat) : (s.withProgress n).blk = s.blk := rfl
@[simp] theorem State.withProgress_g (n : Nat) : (s.withProgress n).g = s.g := rfl
@[simp] theorem State.withProgress_i (n : Nat) : (s.withProgress n).i = s.i := rfl
@[simp] theorem State.withProgress_jobOp (n : Nat) : (s.withProgress n).jobOp = s.jobOp := rfl
@[simp] theorem State.withProgress_jobVariant (n : Nat) : (s.withProgress n).jobVariant = s.jobVariant := rfl
@[simp] theorem State.withProgress_jobPrehashed (n : Nat) : (s.withProgress n).jobPrehashed = s.jobPrehashed := rfl
@[simp] theorem State.withProgress_jobLen (n : Nat) : (s.withProgress n).jobLen = s.jobLen := rfl
@[simp] theorem State.withProgress_jobHeight (n : Nat) : (s.withProgress n).jobHeight = s.jobHeight := rfl
@[simp] theorem State.withProgress_mixStep (n : Nat) : (s.withProgress n).mixStep = s.mixStep := rfl
@[simp] theorem State.withProgress_j1 (n : Nat) : (s.withProgress n).j1 = s.j1 := rfl
@[simp] theorem State.withProgress_j2 (n : Nat) : (s.withProgress n).j2 = s.j2 := rfl
@[simp] theorem State.withProgress_newa (n : Nat) : (s.withProgress n).newa = s.newa := rfl
@[simp] theorem State.withProgress_msgMaxExtra (n : Nat) : (s.withProgress n).msgMaxExtra = s.msgMaxExtra := rfl
@[simp] theorem State.withProgress_spGrant (n : Nat) : (s.withProgress n).spGrant = s.spGrant := rfl
@[simp] theorem State.withProgress_inputs (n : Nat) : (s.withProgress n).inputs = s.inputs := rfl
@[simp] theorem State.withProgress_hostData (n : Nat) : (s.withProgress n).hostData = s.hostData := rfl

@[simp] theorem State.nextRpc_ie : (s.nextRpc).ie = s.ie := rfl
@[simp] theorem State.nextRpc_cmd : (s.nextRpc).cmd = s.cmd := rfl
@[simp] theorem State.nextRpc_len : (s.nextRpc).len = s.len := rfl
@[simp] theorem State.nextRpc_heightLo : (s.nextRpc).heightLo = s.heightLo := rfl
@[simp] theorem State.nextRpc_heightHi : (s.nextRpc).heightHi = s.heightHi := rfl
@[simp] theorem State.nextRpc_busy : (s.nextRpc).busy = s.busy := rfl
@[simp] theorem State.nextRpc_done : (s.nextRpc).done = s.done := rfl
@[simp] theorem State.nextRpc_err : (s.nextRpc).err = s.err := rfl
@[simp] theorem State.nextRpc_errcode : (s.nextRpc).errcode = s.errcode := rfl
@[simp] theorem State.nextRpc_phase : (s.nextRpc).phase = s.phase := rfl
@[simp] theorem State.nextRpc_progress : (s.nextRpc).progress = s.progress := rfl
@[simp] theorem State.nextRpc_digest : (s.nextRpc).digest = s.digest := rfl
@[simp] theorem State.nextRpc_sw : (s.nextRpc).sw = s.sw := rfl
@[simp] theorem State.nextRpc_msg : (s.nextRpc).msg = s.msg := rfl
@[simp] theorem State.nextRpc_hashState : (s.nextRpc).hashState = s.hashState := rfl
@[simp] theorem State.nextRpc_rk1 : (s.nextRpc).rk1 = s.rk1 := rfl
@[simp] theorem State.nextRpc_rk2 : (s.nextRpc).rk2 = s.rk2 := rfl
@[simp] theorem State.nextRpc_text : (s.nextRpc).text = s.text := rfl
@[simp] theorem State.nextRpc_sp : (s.nextRpc).sp = s.sp := rfl
@[simp] theorem State.nextRpc_spOwned : (s.nextRpc).spOwned = s.spOwned := rfl
@[simp] theorem State.nextRpc_a : (s.nextRpc).a = s.a := rfl
@[simp] theorem State.nextRpc_b0 : (s.nextRpc).b0 = s.b0 := rfl
@[simp] theorem State.nextRpc_b1 : (s.nextRpc).b1 = s.b1 := rfl
@[simp] theorem State.nextRpc_c : (s.nextRpc).c = s.c := rfl
@[simp] theorem State.nextRpc_t : (s.nextRpc).t = s.t := rfl
@[simp] theorem State.nextRpc_a1 : (s.nextRpc).a1 = s.a1 := rfl
@[simp] theorem State.nextRpc_hi : (s.nextRpc).hi = s.hi := rfl
@[simp] theorem State.nextRpc_lo : (s.nextRpc).lo = s.lo := rfl
@[simp] theorem State.nextRpc_divR : (s.nextRpc).divR = s.divR := rfl
@[simp] theorem State.nextRpc_sqrtR : (s.nextRpc).sqrtR = s.sqrtR := rfl
@[simp] theorem State.nextRpc_tweak12 : (s.nextRpc).tweak12 = s.tweak12 := rfl
@[simp] theorem State.nextRpc_r : (s.nextRpc).r = s.r := rfl
@[simp] theorem State.nextRpc_prog : (s.nextRpc).prog = s.prog := rfl
@[simp] theorem State.nextRpc_plen : (s.nextRpc).plen = s.plen := rfl
@[simp] theorem State.nextRpc_rpc : (s.nextRpc).rpc = s.rpc + 1 := rfl
@[simp] theorem State.nextRpc_gen : (s.nextRpc).gen = s.gen := rfl
@[simp] theorem State.nextRpc_blk : (s.nextRpc).blk = s.blk := rfl
@[simp] theorem State.nextRpc_g : (s.nextRpc).g = s.g := rfl
@[simp] theorem State.nextRpc_i : (s.nextRpc).i = s.i := rfl
@[simp] theorem State.nextRpc_jobOp : (s.nextRpc).jobOp = s.jobOp := rfl
@[simp] theorem State.nextRpc_jobVariant : (s.nextRpc).jobVariant = s.jobVariant := rfl
@[simp] theorem State.nextRpc_jobPrehashed : (s.nextRpc).jobPrehashed = s.jobPrehashed := rfl
@[simp] theorem State.nextRpc_jobLen : (s.nextRpc).jobLen = s.jobLen := rfl
@[simp] theorem State.nextRpc_jobHeight : (s.nextRpc).jobHeight = s.jobHeight := rfl
@[simp] theorem State.nextRpc_mixStep : (s.nextRpc).mixStep = s.mixStep := rfl
@[simp] theorem State.nextRpc_j1 : (s.nextRpc).j1 = s.j1 := rfl
@[simp] theorem State.nextRpc_j2 : (s.nextRpc).j2 = s.j2 := rfl
@[simp] theorem State.nextRpc_newa : (s.nextRpc).newa = s.newa := rfl
@[simp] theorem State.nextRpc_msgMaxExtra : (s.nextRpc).msgMaxExtra = s.msgMaxExtra := rfl
@[simp] theorem State.nextRpc_spGrant : (s.nextRpc).spGrant = s.spGrant := rfl
@[simp] theorem State.nextRpc_inputs : (s.nextRpc).inputs = s.inputs := rfl
@[simp] theorem State.nextRpc_hostData : (s.nextRpc).hostData = s.hostData := rfl

@[simp] theorem State.memWrite_ie (j : BitVec 21) (v : Block) : (s.memWrite j v).ie = s.ie := by cases s; rfl
@[simp] theorem State.memWrite_cmd (j : BitVec 21) (v : Block) : (s.memWrite j v).cmd = s.cmd := by cases s; rfl
@[simp] theorem State.memWrite_len (j : BitVec 21) (v : Block) : (s.memWrite j v).len = s.len := by cases s; rfl
@[simp] theorem State.memWrite_heightLo (j : BitVec 21) (v : Block) : (s.memWrite j v).heightLo = s.heightLo := by cases s; rfl
@[simp] theorem State.memWrite_heightHi (j : BitVec 21) (v : Block) : (s.memWrite j v).heightHi = s.heightHi := by cases s; rfl
@[simp] theorem State.memWrite_busy (j : BitVec 21) (v : Block) : (s.memWrite j v).busy = s.busy := by cases s; rfl
@[simp] theorem State.memWrite_done (j : BitVec 21) (v : Block) : (s.memWrite j v).done = s.done := by cases s; rfl
@[simp] theorem State.memWrite_err (j : BitVec 21) (v : Block) : (s.memWrite j v).err = s.err := by cases s; rfl
@[simp] theorem State.memWrite_errcode (j : BitVec 21) (v : Block) : (s.memWrite j v).errcode = s.errcode := by cases s; rfl
@[simp] theorem State.memWrite_phase (j : BitVec 21) (v : Block) : (s.memWrite j v).phase = s.phase := by cases s; rfl
@[simp] theorem State.memWrite_progress (j : BitVec 21) (v : Block) : (s.memWrite j v).progress = s.progress := by cases s; rfl
@[simp] theorem State.memWrite_digest (j : BitVec 21) (v : Block) : (s.memWrite j v).digest = s.digest := by cases s; rfl
@[simp] theorem State.memWrite_sw (j : BitVec 21) (v : Block) : (s.memWrite j v).sw = s.sw := by cases s; rfl
@[simp] theorem State.memWrite_msg (j : BitVec 21) (v : Block) : (s.memWrite j v).msg = s.msg := by cases s; rfl
@[simp] theorem State.memWrite_hashState (j : BitVec 21) (v : Block) : (s.memWrite j v).hashState = s.hashState := by cases s; rfl
@[simp] theorem State.memWrite_rk1 (j : BitVec 21) (v : Block) : (s.memWrite j v).rk1 = s.rk1 := by cases s; rfl
@[simp] theorem State.memWrite_rk2 (j : BitVec 21) (v : Block) : (s.memWrite j v).rk2 = s.rk2 := by cases s; rfl
@[simp] theorem State.memWrite_text (j : BitVec 21) (v : Block) : (s.memWrite j v).text = s.text := by cases s; rfl
@[simp] theorem State.memWrite_sp (j : BitVec 21) (v : Block) : (s.memWrite j v).sp = s.sp.writeBlock j.toNat v := by cases s; rfl
@[simp] theorem State.memWrite_spOwned (j : BitVec 21) (v : Block) : (s.memWrite j v).spOwned = s.spOwned := by cases s; rfl
@[simp] theorem State.memWrite_a (j : BitVec 21) (v : Block) : (s.memWrite j v).a = s.a := by cases s; rfl
@[simp] theorem State.memWrite_b0 (j : BitVec 21) (v : Block) : (s.memWrite j v).b0 = s.b0 := by cases s; rfl
@[simp] theorem State.memWrite_b1 (j : BitVec 21) (v : Block) : (s.memWrite j v).b1 = s.b1 := by cases s; rfl
@[simp] theorem State.memWrite_c (j : BitVec 21) (v : Block) : (s.memWrite j v).c = s.c := by cases s; rfl
@[simp] theorem State.memWrite_t (j : BitVec 21) (v : Block) : (s.memWrite j v).t = s.t := by cases s; rfl
@[simp] theorem State.memWrite_a1 (j : BitVec 21) (v : Block) : (s.memWrite j v).a1 = s.a1 := by cases s; rfl
@[simp] theorem State.memWrite_hi (j : BitVec 21) (v : Block) : (s.memWrite j v).hi = s.hi := by cases s; rfl
@[simp] theorem State.memWrite_lo (j : BitVec 21) (v : Block) : (s.memWrite j v).lo = s.lo := by cases s; rfl
@[simp] theorem State.memWrite_divR (j : BitVec 21) (v : Block) : (s.memWrite j v).divR = s.divR := by cases s; rfl
@[simp] theorem State.memWrite_sqrtR (j : BitVec 21) (v : Block) : (s.memWrite j v).sqrtR = s.sqrtR := by cases s; rfl
@[simp] theorem State.memWrite_tweak12 (j : BitVec 21) (v : Block) : (s.memWrite j v).tweak12 = s.tweak12 := by cases s; rfl
@[simp] theorem State.memWrite_r (j : BitVec 21) (v : Block) : (s.memWrite j v).r = s.r := by cases s; rfl
@[simp] theorem State.memWrite_prog (j : BitVec 21) (v : Block) : (s.memWrite j v).prog = s.prog := by cases s; rfl
@[simp] theorem State.memWrite_plen (j : BitVec 21) (v : Block) : (s.memWrite j v).plen = s.plen := by cases s; rfl
@[simp] theorem State.memWrite_rpc (j : BitVec 21) (v : Block) : (s.memWrite j v).rpc = s.rpc := by cases s; rfl
@[simp] theorem State.memWrite_gen (j : BitVec 21) (v : Block) : (s.memWrite j v).gen = s.gen := by cases s; rfl
@[simp] theorem State.memWrite_blk (j : BitVec 21) (v : Block) : (s.memWrite j v).blk = s.blk := by cases s; rfl
@[simp] theorem State.memWrite_g (j : BitVec 21) (v : Block) : (s.memWrite j v).g = s.g := by cases s; rfl
@[simp] theorem State.memWrite_i (j : BitVec 21) (v : Block) : (s.memWrite j v).i = s.i := by cases s; rfl
@[simp] theorem State.memWrite_jobOp (j : BitVec 21) (v : Block) : (s.memWrite j v).jobOp = s.jobOp := by cases s; rfl
@[simp] theorem State.memWrite_jobVariant (j : BitVec 21) (v : Block) : (s.memWrite j v).jobVariant = s.jobVariant := by cases s; rfl
@[simp] theorem State.memWrite_jobPrehashed (j : BitVec 21) (v : Block) : (s.memWrite j v).jobPrehashed = s.jobPrehashed := by cases s; rfl
@[simp] theorem State.memWrite_jobLen (j : BitVec 21) (v : Block) : (s.memWrite j v).jobLen = s.jobLen := by cases s; rfl
@[simp] theorem State.memWrite_jobHeight (j : BitVec 21) (v : Block) : (s.memWrite j v).jobHeight = s.jobHeight := by cases s; rfl
@[simp] theorem State.memWrite_mixStep (j : BitVec 21) (v : Block) : (s.memWrite j v).mixStep = s.mixStep := by cases s; rfl
@[simp] theorem State.memWrite_j1 (j : BitVec 21) (v : Block) : (s.memWrite j v).j1 = s.j1 := by cases s; rfl
@[simp] theorem State.memWrite_j2 (j : BitVec 21) (v : Block) : (s.memWrite j v).j2 = s.j2 := by cases s; rfl
@[simp] theorem State.memWrite_newa (j : BitVec 21) (v : Block) : (s.memWrite j v).newa = s.newa := by cases s; rfl
@[simp] theorem State.memWrite_msgMaxExtra (j : BitVec 21) (v : Block) : (s.memWrite j v).msgMaxExtra = s.msgMaxExtra := by cases s; rfl
@[simp] theorem State.memWrite_spGrant (j : BitVec 21) (v : Block) : (s.memWrite j v).spGrant = s.spGrant := by cases s; rfl
@[simp] theorem State.memWrite_inputs (j : BitVec 21) (v : Block) : (s.memWrite j v).inputs = s.inputs := by cases s; rfl
@[simp] theorem State.memWrite_hostData (j : BitVec 21) (v : Block) : (s.memWrite j v).hostData = s.hostData := by cases s; rfl

@[simp] theorem State.writeDst_ie (d : BitVec 2) (v : W32) : (s.writeDst d v).ie = s.ie := rfl
@[simp] theorem State.writeDst_cmd (d : BitVec 2) (v : W32) : (s.writeDst d v).cmd = s.cmd := rfl
@[simp] theorem State.writeDst_len (d : BitVec 2) (v : W32) : (s.writeDst d v).len = s.len := rfl
@[simp] theorem State.writeDst_heightLo (d : BitVec 2) (v : W32) : (s.writeDst d v).heightLo = s.heightLo := rfl
@[simp] theorem State.writeDst_heightHi (d : BitVec 2) (v : W32) : (s.writeDst d v).heightHi = s.heightHi := rfl
@[simp] theorem State.writeDst_busy (d : BitVec 2) (v : W32) : (s.writeDst d v).busy = s.busy := rfl
@[simp] theorem State.writeDst_done (d : BitVec 2) (v : W32) : (s.writeDst d v).done = s.done := rfl
@[simp] theorem State.writeDst_err (d : BitVec 2) (v : W32) : (s.writeDst d v).err = s.err := rfl
@[simp] theorem State.writeDst_errcode (d : BitVec 2) (v : W32) : (s.writeDst d v).errcode = s.errcode := rfl
@[simp] theorem State.writeDst_phase (d : BitVec 2) (v : W32) : (s.writeDst d v).phase = s.phase := rfl
@[simp] theorem State.writeDst_progress (d : BitVec 2) (v : W32) : (s.writeDst d v).progress = s.progress := rfl
@[simp] theorem State.writeDst_digest (d : BitVec 2) (v : W32) : (s.writeDst d v).digest = s.digest := rfl
@[simp] theorem State.writeDst_sw (d : BitVec 2) (v : W32) : (s.writeDst d v).sw = s.sw := rfl
@[simp] theorem State.writeDst_msg (d : BitVec 2) (v : W32) : (s.writeDst d v).msg = s.msg := rfl
@[simp] theorem State.writeDst_hashState (d : BitVec 2) (v : W32) : (s.writeDst d v).hashState = s.hashState := rfl
@[simp] theorem State.writeDst_rk1 (d : BitVec 2) (v : W32) : (s.writeDst d v).rk1 = s.rk1 := rfl
@[simp] theorem State.writeDst_rk2 (d : BitVec 2) (v : W32) : (s.writeDst d v).rk2 = s.rk2 := rfl
@[simp] theorem State.writeDst_text (d : BitVec 2) (v : W32) : (s.writeDst d v).text = s.text := rfl
@[simp] theorem State.writeDst_sp (d : BitVec 2) (v : W32) : (s.writeDst d v).sp = s.sp := rfl
@[simp] theorem State.writeDst_spOwned (d : BitVec 2) (v : W32) : (s.writeDst d v).spOwned = s.spOwned := rfl
@[simp] theorem State.writeDst_a (d : BitVec 2) (v : W32) : (s.writeDst d v).a = s.a := rfl
@[simp] theorem State.writeDst_b0 (d : BitVec 2) (v : W32) : (s.writeDst d v).b0 = s.b0 := rfl
@[simp] theorem State.writeDst_b1 (d : BitVec 2) (v : W32) : (s.writeDst d v).b1 = s.b1 := rfl
@[simp] theorem State.writeDst_c (d : BitVec 2) (v : W32) : (s.writeDst d v).c = s.c := rfl
@[simp] theorem State.writeDst_t (d : BitVec 2) (v : W32) : (s.writeDst d v).t = s.t := rfl
@[simp] theorem State.writeDst_a1 (d : BitVec 2) (v : W32) : (s.writeDst d v).a1 = s.a1 := rfl
@[simp] theorem State.writeDst_hi (d : BitVec 2) (v : W32) : (s.writeDst d v).hi = s.hi := rfl
@[simp] theorem State.writeDst_lo (d : BitVec 2) (v : W32) : (s.writeDst d v).lo = s.lo := rfl
@[simp] theorem State.writeDst_divR (d : BitVec 2) (v : W32) : (s.writeDst d v).divR = s.divR := rfl
@[simp] theorem State.writeDst_sqrtR (d : BitVec 2) (v : W32) : (s.writeDst d v).sqrtR = s.sqrtR := rfl
@[simp] theorem State.writeDst_tweak12 (d : BitVec 2) (v : W32) : (s.writeDst d v).tweak12 = s.tweak12 := rfl
@[simp] theorem State.writeDst_r (d : BitVec 2) (v : W32) : (s.writeDst d v).r = s.r.set (dstIndex d) v := rfl
@[simp] theorem State.writeDst_prog (d : BitVec 2) (v : W32) : (s.writeDst d v).prog = s.prog := rfl
@[simp] theorem State.writeDst_plen (d : BitVec 2) (v : W32) : (s.writeDst d v).plen = s.plen := rfl
@[simp] theorem State.writeDst_rpc (d : BitVec 2) (v : W32) : (s.writeDst d v).rpc = s.rpc := rfl
@[simp] theorem State.writeDst_gen (d : BitVec 2) (v : W32) : (s.writeDst d v).gen = s.gen := rfl
@[simp] theorem State.writeDst_blk (d : BitVec 2) (v : W32) : (s.writeDst d v).blk = s.blk := rfl
@[simp] theorem State.writeDst_g (d : BitVec 2) (v : W32) : (s.writeDst d v).g = s.g := rfl
@[simp] theorem State.writeDst_i (d : BitVec 2) (v : W32) : (s.writeDst d v).i = s.i := rfl
@[simp] theorem State.writeDst_jobOp (d : BitVec 2) (v : W32) : (s.writeDst d v).jobOp = s.jobOp := rfl
@[simp] theorem State.writeDst_jobVariant (d : BitVec 2) (v : W32) : (s.writeDst d v).jobVariant = s.jobVariant := rfl
@[simp] theorem State.writeDst_jobPrehashed (d : BitVec 2) (v : W32) : (s.writeDst d v).jobPrehashed = s.jobPrehashed := rfl
@[simp] theorem State.writeDst_jobLen (d : BitVec 2) (v : W32) : (s.writeDst d v).jobLen = s.jobLen := rfl
@[simp] theorem State.writeDst_jobHeight (d : BitVec 2) (v : W32) : (s.writeDst d v).jobHeight = s.jobHeight := rfl
@[simp] theorem State.writeDst_mixStep (d : BitVec 2) (v : W32) : (s.writeDst d v).mixStep = s.mixStep := rfl
@[simp] theorem State.writeDst_j1 (d : BitVec 2) (v : W32) : (s.writeDst d v).j1 = s.j1 := rfl
@[simp] theorem State.writeDst_j2 (d : BitVec 2) (v : W32) : (s.writeDst d v).j2 = s.j2 := rfl
@[simp] theorem State.writeDst_newa (d : BitVec 2) (v : W32) : (s.writeDst d v).newa = s.newa := rfl
@[simp] theorem State.writeDst_msgMaxExtra (d : BitVec 2) (v : W32) : (s.writeDst d v).msgMaxExtra = s.msgMaxExtra := rfl
@[simp] theorem State.writeDst_spGrant (d : BitVec 2) (v : W32) : (s.writeDst d v).spGrant = s.spGrant := rfl
@[simp] theorem State.writeDst_inputs (d : BitVec 2) (v : W32) : (s.writeDst d v).inputs = s.inputs := rfl
@[simp] theorem State.writeDst_hostData (d : BitVec 2) (v : W32) : (s.writeDst d v).hostData = s.hostData := rfl

end Sys2Proof.Machine
end

