-- ==== Sys2Proof/Laws/Ops.lean ====
section
/-! SUPPORT. What each shared operation can do, said once: the lemmas to cite instead of unfolding it. -/

namespace Sys2Proof.Machine

/-- A source that names a register reads it. -/
theorem State.readSrc_of_lt {s : State} {src : BitVec 4} (h : src.toNat < 9) :
    s.readSrc src = some (s.r[src.toNat]'h) := by
  simp [State.readSrc, h]

/-- A reserved source reads nothing. -/
theorem State.readSrc_of_ge {s : State} {src : BitVec 4} (h : 9 ≤ src.toNat) : s.readSrc src = none := by
  simp [State.readSrc, show ¬ src.toNat < 9 by omega]

/-- An operation with a register source writes its destination and moves on (R271). -/
theorem State.execAlu_of_lt {f : W32 → W32 → W32} {d : BitVec 2} {src : BitVec 4} {s : State} (h : src.toNat < 9) :
    s.execAlu f d src = (s.writeDst d (f (s.readDst d) (s.r[src.toNat]'h))).nextRpc := by
  simp [State.execAlu, State.readSrc_of_lt h]

/-- An operation with a reserved source ends the job (R102). -/
theorem State.execAlu_of_ge {f : W32 → W32 → W32} {d : BitVec 2} {src : BitVec 4} {s : State} (h : 9 ≤ src.toNat) :
    s.execAlu f d src = s.raiseJobError .internalFault := by
  simp [State.execAlu, State.readSrc_of_ge h]

/-- The destination as written, read back. -/
theorem State.readDst_writeDst (s : State) (d : BitVec 2) (v : W32) : (s.writeDst d v).readDst d = v := by
  simp [State.readDst]

/-- Every other register of the file is left alone. -/
theorem State.writeDst_other (s : State) (d : BitVec 2) (v : W32) {k : Nat} (hk : k < 9) (h : k ≠ d.toNat) :
    (s.writeDst d v).r[k] = s.r[k] := by
  simp only [State.writeDst_r]
  exact Vector.getElem_set_ne _ _ (by simpa [dstIndex] using fun e => h e.symm)

theorem State.clrStatus_of_busy {s : State} (h : s.busy = true) : s.clrStatus = s := by simp [State.clrStatus, h]

theorem State.startJob_of_busy {s : State} (h : s.busy = true) : s.startJob = s := by simp [State.startJob, h]

/-- While a job runs a write to CTRL changes IE and nothing else (R350, R352, R431). -/
theorem State.ctrlWrite_of_busy {s : State} (h : s.busy = true) (ie clr start : Bool) :
    s.ctrlWrite ie clr start = { s with ie := ie } := by
  have hb : ({ s with ie := ie } : State).busy = true := h
  cases clr <;> cases start <;> simp [State.ctrlWrite, State.clrStatus_of_busy hb, State.startJob_of_busy hb]

/-- The checks of a SLOW_HASH job pass exactly under these conditions (R381). -/
theorem checkJob_slow_none {v : BitVec 3} {p : Bool} {len msgMax : Nat} {grant : Bool} :
    checkJob 0 v p len msgMax grant = none ↔
      v.toNat ≤ 4 ∧ len ≤ msgMax ∧ (v = 1 → 43 ≤ len) ∧ (p = true → len = 200) ∧ grant = true := by
  have hz : checkJob 0 v p len msgMax grant =
      if v.toNat > 4 then some .badVariant
      else if len > msgMax then some .badLength
      else if v = 1 ∧ len < 43 then some .invalidInputLength
      else if p ∧ len ≠ 200 then some .badLength
      else if !grant then some .allocationFailure
      else none := by simp [checkJob]
  rw [hz]
  constructor
  · intro h
    repeat' split at h
    all_goals first | contradiction | skip
    rename_i h1 h2 h3 h4 h5
    refine ⟨by omega, by omega, fun hv => ?_, fun hp => ?_, by simpa using h5⟩
    · by_contra hl; exact h3 ⟨hv, by omega⟩
    · by_contra hl; exact h4 ⟨hp, hl⟩
  · rintro ⟨h1, h2, h3, h4, h5⟩
    rw [if_neg (by omega), if_neg (by omega), if_neg (fun h => by have := h3 h.1; omega),
      if_neg (fun h => h.2 (h4 h.1)), if_neg (by simp [h5])]

/-- The checks of a FAST_HASH job: only the length (R381). -/
theorem checkJob_fast {v : BitVec 3} {p : Bool} {len msgMax : Nat} {grant : Bool} :
    checkJob 1 v p len msgMax grant = if len > msgMax then some .badLength else none := by
  simp [checkJob]

/-- The checks never answer the code NONE. -/
theorem checkJob_ne_none_code {op : BitVec 2} {v : BitVec 3} {p : Bool} {len msgMax : Nat} {grant : Bool} {e : ErrCode}
    (h : checkJob op v p len msgMax grant = some e) : e ≠ .none ∧ e ≠ .internalFault := by
  unfold checkJob at h
  repeat' split at h
  all_goals simp_all
  all_goals (subst h; decide)

/-- What a step can do: run an instruction, go on, or stop where the program store ends. -/
theorem step_cases (s : State) :
    (∃ i t, s.nextAction = .run i t ∧ step s = exec i t) ∨ (∃ t, s.nextAction = .go t ∧ step s = .next t) ∨
      (∃ r, s.nextAction = .stop r ∧ step s = .fault r) := by
  unfold step
  cases h : s.nextAction with
  | run i t => exact .inl ⟨i, t, rfl, rfl⟩
  | go t => exact .inr (.inl ⟨t, rfl, rfl⟩)
  | stop r => exact .inr (.inr ⟨r, rfl, rfl⟩)

/-- With no outside event pending the core moves. -/
theorem State.nextAction_of_no_input {s : State} (h : s.inputs = []) : s.nextAction = s.coreAction := by
  simp [State.nextAction, h]

/-- The word the job's fetch decodes has the latched fields. -/
theorem State.fetchJob_eq (s : State) :
    s.fetchJob =
      if s.jobOp = 0 then .run (.slowHash s.jobVariant s.jobPrehashed) s
      else if s.jobOp = 1 then .run .fastHash s
      else if s.jobOp = 2 then .run .keccakPermute s
      else .go (s.raiseJobError .badCommand) := by
  have h : s.jobOp = 0 ∨ s.jobOp = 1 ∨ s.jobOp = 2 ∨ s.jobOp = 3 := by
    generalize s.jobOp = o
    revert o; decide
  rcases h with h | h | h | h <;>
    simp [State.fetchJob, decode, decodeCmd, State.latchedCmd, cmdOp_cmdOf, cmdVariant_cmdOf, cmdPrehashed_cmdOf, h]

/-- A unit of ABSORB is one of three things. -/
theorem State.absorbStep_cases (s after : State) :
    (s.jobLen.toNat > s.msgMax ∧ s.absorbStep after = .fault .messageOutOfRange) ∨
      (s.jobLen.toNat ≤ s.msgMax ∧ s.absorbDone = true ∧ s.absorbStep after = .next after) ∨
      (s.jobLen.toNat ≤ s.msgMax ∧ s.absorbDone = false ∧ s.absorbStep after = .next s.absorbUnit) := by
  unfold State.absorbStep
  by_cases h : s.jobLen.toNat > s.msgMax
  · exact .inl ⟨h, by rw [if_pos h]⟩
  · cases hd : s.absorbDone
    · exact .inr (.inr ⟨by omega, rfl, by rw [if_neg h]; simp⟩)
    · exact .inr (.inl ⟨by omega, rfl, by rw [if_neg h]; simp⟩)

/-- integer_math XORs the old div_r and sqrt_r into t (spec/44_variant_tweaks.md R250). -/
theorem State.integerMath_t (s : State) : s.integerMath.t = intT s.t s.divR s.sqrtR := rfl

/-- The new div_r is made from the old sqrt_r, the new sqrt_r from the new div_r (R250). -/
theorem State.integerMath_results (s : State) :
    s.integerMath.divR = intDiv s.c s.sqrtR ∧ s.integerMath.sqrtR = intSqrt s.c s.integerMath.divR := ⟨rfl, rfl⟩

end Sys2Proof.Machine
end

