-- ==== Sys2Proof/Laws/Scratchpad.lean ====
section
/-! SUPPORT. Block addresses and what the operations over the scratchpad write: the chunks of the shuffle-add and the
second fold, the groups of the fill (spec/42_scratchpad.md, spec/44_variant_tweaks.md). -/

namespace Sys2Proof.Machine

/-- An address of the datapath is a multiple of 16 (spec/43_mixing_loop.md R203). -/
theorem addrOf_mod (x : Block) : (addrOf x).toNat % 16 = 0 := by
  have : (addrOf x).toNat % 2^4 = 0 := by
    unfold addrOf; rw [BitVec.toNat_and, Nat.and_mod_two_pow]; simp
  simpa using this

/-- A block address is a whole block inside the scratchpad. -/
theorem block_in_bounds (j : BitVec 21) (h : j.toNat % 16 = 0) : j.toNat + 16 ≤ 2^21 := by have := j.isLt; omega

/-- A chunk address is a multiple of 16 (spec/44_variant_tweaks.md R247). -/
theorem xor_block_aligned (j k : BitVec 21) (h : j.toNat % 16 = 0) (hk : k.toNat % 16 = 0) : (j ^^^ k).toNat % 16 = 0 := by
  have : (j ^^^ k).toNat % 2^4 = 0 := by rw [BitVec.toNat_xor, Nat.xor_mod_two_pow]; simp at *; simp [h, hk]
  simpa using this

/-- A group of the fill keeps the canonical form. -/
theorem wf_writeGroup {m : Memory} {g : Nat} {t : Vector Block 8} (h : m.wf = true) : (writeGroup m g t).wf = true := by
  unfold writeGroup
  generalize List.finRange 8 = l
  induction l generalizing m with
  | nil => exact h
  | cons k l ih => exact ih (Memory.wf_writeBlock h)

/-- A group of the fill stays inside the scratchpad. -/
theorem within_writeGroup {m : Memory} {g b : Nat} {t : Vector Block 8} (hg : 128 * g + 128 ≤ b) (h : m.within b = true) : (writeGroup m g t).within b = true := by
  unfold writeGroup
  generalize List.finRange 8 = l
  induction l generalizing m with
  | nil => exact h
  | cons k l ih => exact ih (Memory.within_writeBlock (by omega) h)

/-- The three writes of the shuffle-add, from the chunks as they stood (R245). -/
theorem shuffle_sp (f : Bool) (m : Memory) (j : BitVec 21) (o x y0 y1 : Block) : (shuffle f m j o x y0 y1).sp =
  ((m.writeBlock (j ^^^ 0x10#21).toNat (add2 (m.readBlock (j ^^^ 0x30#21).toNat) y1)).writeBlock (j ^^^ 0x20#21).toNat (add2 (m.readBlock (j ^^^ 0x10#21).toNat) y0)).writeBlock (j ^^^ 0x30#21).toNat (add2 (m.readBlock (j ^^^ 0x20#21).toNat) x) := by
  simp only [shuffle]

/-- The shuffle-add keeps the canonical form. -/
theorem wf_shuffle {f : Bool} {m : Memory} {j : BitVec 21} {o x y0 y1 : Block} (h : m.wf = true) : (shuffle f m j o x y0 y1).sp.wf = true := by
  rw [shuffle_sp]
  exact Memory.wf_writeBlock (Memory.wf_writeBlock (Memory.wf_writeBlock h))

/-- The shuffle-add stays inside the scratchpad. -/
theorem within_shuffle {f : Bool} {m : Memory} {j : BitVec 21} {o x y0 y1 : Block} (hj : j.toNat % 16 = 0) (h : m.within (2^21) = true) : (shuffle f m j o x y0 y1).sp.within (2^21) = true := by
  rw [shuffle_sp]
  exact Memory.within_writeBlock (block_in_bounds _ (xor_block_aligned _ _ hj (by decide))) (Memory.within_writeBlock (block_in_bounds _ (xor_block_aligned _ _ hj (by decide))) (Memory.within_writeBlock (block_in_bounds _ (xor_block_aligned _ _ hj (by decide))) h))

/-- The one write of the second fold (R252). -/
theorem secondFold_sp (m : Memory) (j : BitVec 21) (hi lo : W64) : (secondFold m j hi lo).sp =
   m.writeBlock (j ^^^ 0x10#21).toNat (mkBlock (lo64 (m.readBlock (j ^^^ 0x10#21).toNat) ^^^ hi) (hi64 (m.readBlock (j ^^^ 0x10#21).toNat) ^^^ lo)) := by
  simp only [secondFold]

end Sys2Proof.Machine
end

