-- ==== Sys2Proof/Laws/Invariant.lean ====
section
/-! SUPPORT. Which fields each part of the invariant reads, and that each operation of a job keeps the invariant. -/

namespace Sys2Proof.Machine

/-- The four values of OP. -/
theorem jobOp_cases (o : BitVec 2) : o = 0 ∨ o = 1 ∨ o = 2 ∨ o = 3 := by revert o; decide

/-- A running phase is neither DONE nor ERROR. -/
theorem running_ne_done (p : Phase) : p.running = true → p ≠ .done ∧ p ≠ .error := by cases p <;> simp [Phase.running]

/-- While a job runs no end of a job shows. -/
theorem status_of_busy {s : State} (h : StatusInv s) (hb : s.busy = true) : s.errcode = .none ∧ s.done = false ∧ s.err = false ∧ s.phase.running = true := by
  obtain ⟨h1, h2, h3, h4⟩ := h
  have h5 : s.phase.running = true := by rw [← h1, hb]
  obtain ⟨a, b⟩ := running_ne_done _ h5
  exact ⟨h4.2 b, by rw [h2]; exact decide_eq_false a, by rw [h3]; exact decide_eq_false b, h5⟩

/-- A step that keeps the status bits and stays in a running phase keeps StatusInv. -/
theorem statusInv_of_run {s t : State} (h : StatusInv s) (hb : s.busy = true) (h1 : t.busy = s.busy) (h2 : t.done = s.done) (h3 : t.err = s.err) (h4 : t.errcode = s.errcode)
    (hr : t.phase.running = true) : StatusInv t := by
  obtain ⟨e1, e2, e3, e4⟩ := status_of_busy h hb
  obtain ⟨a, b⟩ := running_ne_done _ hr
  refine ⟨by rw [h1, hb, hr], ?_, ?_, ?_⟩
  · rw [h2, e2]; exact (decide_eq_false a).symm
  · rw [h3, e3]; exact (decide_eq_false b).symm
  · rw [h4, e1]; exact ⟨fun _ => b, fun _ => rfl⟩

/-- SlowInv reads the job parameters and the ownership flag only. -/
theorem slowInv_congr {s t : State} (h : SlowInv s) (h1 : t.jobOp = s.jobOp) (h2 : t.jobVariant = s.jobVariant) (h3 : t.jobPrehashed = s.jobPrehashed)
   (h4 : t.jobLen = s.jobLen) (h5 : t.msgMaxExtra = s.msgMaxExtra) (h6 : t.spOwned = s.spOwned) : SlowInv t := by
  unfold SlowInv State.msgMax at *; rw [h1,h2,h3,h4,h5,h6]; exact h

/-- MemoryInv reads the memories, the two addresses and MSG_MAX only. -/
theorem memoryInv_congr {s t : State} (h : MemoryInv s) (h1 : t.msg = s.msg) (h2 : t.sp = s.sp) (h3 : t.j1 = s.j1) (h4 : t.j2 = s.j2) (h5 : t.msgMaxExtra = s.msgMaxExtra) : MemoryInv t := by
  unfold MemoryInv State.msgMax at *; rw [h1,h2,h3,h4,h5]; exact h

/-- CommandInv reads CMD only. -/
theorem commandInv_congr {s t : State} (h : CommandInv s) (h1 : t.cmd = s.cmd) : CommandInv t := by
  unfold CommandInv at *; rw [h1]; exact h

/-- ProgramInv reads PROG and PLEN only. -/
theorem programInv_congr {s t : State} (h : ProgramInv s) (h1 : t.prog = s.prog) (h2 : t.plen = s.plen) : ProgramInv t := by
  unfold ProgramInv at *; rw [h1, h2]; exact h

/-- The common shape of a step inside a job: the status kept, what is left to show is memory and phase. -/
theorem inv_of_run {s t : State} (h : Inv s) (hb : s.busy = true) (h1 : t.busy = s.busy) (h2 : t.done = s.done) (h3 : t.err = s.err) (h4 : t.errcode = s.errcode)
    (hr : t.phase.running = true) (h5 : t.cmd = s.cmd) (hm : MemoryInv t) (hp : PhaseInv t) : Inv t :=
  ⟨statusInv_of_run h.1 hb h1 h2 h3 h4 hr, hm, commandInv_congr h.2.2.1 h5, hp⟩

/-- Error entry keeps the invariant. -/
theorem inv_raiseJobError {s : State} {code : ErrCode} (hc : code ≠ .none) (h : Inv s) : Inv (s.raiseJobError code) := by
  obtain ⟨h1, h2, h3, h4⟩ := h
  refine ⟨?_, h2, h3, ?_⟩
  · simp [StatusInv, Phase.running, hc]
  · simp [PhaseInv]

/-- The end of a job without error keeps the invariant. -/
theorem inv_finishOk {s : State} (h : Inv s) (hb : s.busy = true) : Inv s.finishOk := by
  obtain ⟨h1, h2, h3, h4⟩ := h
  refine ⟨?_, memoryInv_congr h2 rfl rfl rfl rfl rfl, h3, ?_⟩
  · simp [StatusInv, Phase.running, (status_of_busy h1 hb).1, (status_of_busy h1 hb).2.2.1]
  · simp [PhaseInv]

/-- Phase CHECK of SLOW_HASH keeps the invariant. -/
theorem inv_slowCheck {s : State} (h : Inv s) (hb : s.busy = true) (ho : s.jobOp = 0) :
    Inv (s.slowCheck s.jobVariant s.jobPrehashed) := by
  unfold State.slowCheck
  cases hc : checkJob 0 s.jobVariant s.jobPrehashed s.jobLen.toNat s.msgMax s.spGrant with
  | some code => exact inv_raiseJobError (checkJob_ne_none_code hc).1 h
  | none =>
    obtain ⟨g1, g2, g3, g4, g5⟩ := checkJob_slow_none.1 hc
    dsimp only
    by_cases hpre : s.jobPrehashed = true
    · rw [if_pos hpre]
      refine inv_of_run h hb (by simp [State.loadPrehashed]) (by simp [State.loadPrehashed]) (by simp [State.loadPrehashed]) (by simp [State.loadPrehashed]) (by simp [Phase.running]) (by simp [State.loadPrehashed]) (memoryInv_congr h.2.1 (by simp [State.loadPrehashed]) (by simp [State.loadPrehashed]) (by simp [State.loadPrehashed]) (by simp [State.loadPrehashed]) (by simp [State.loadPrehashed])) ?_
      simp only [PhaseInv, SlowInv, State.enterPhase, State.msgMax, State.loadPrehashed]
      exact ⟨trivial, ho, g1, g2, g3, g4, trivial⟩
    · rw [if_neg hpre]
      refine inv_of_run h hb rfl rfl rfl rfl rfl rfl (memoryInv_congr h.2.1 rfl rfl rfl rfl rfl) ?_
      simp only [PhaseInv, State.enterAbsorb, SlowInv, State.enterPhase, State.msgMax]
      refine ⟨Nat.zero_le _, rfl, g2, .inr ⟨⟨ho, g1, g2, g3, ?_, trivial⟩, by simpa using hpre⟩⟩
      exact fun x => absurd x hpre

/-- A step of phase ABSORB keeps the invariant if what follows the phase does. -/
theorem inv_absorbStep {s after t : State} (h : Inv s) (hb : s.busy = true) (hp : s.phase = .absorb)
    (ha : absorbBlocks s.jobLen.toNat ≤ s.blk → Inv after) (ht : s.absorbStep after = .next t) : Inv t := by
  rcases s.absorbStep_cases after with ⟨_, e⟩ | ⟨hl, hd, e⟩ | ⟨hl, hd, e⟩
  · rw [e] at ht; contradiction
  · rw [e] at ht; injection ht with ht; subst ht; exact ha (by simpa [State.absorbDone] using hd)
  · rw [e] at ht; injection ht with ht; subst ht
    have hd' : s.blk < absorbBlocks s.jobLen.toNat := by simpa [State.absorbDone] using hd
    refine inv_of_run h hb rfl rfl rfl rfl (by simp [State.absorbUnit, hp, Phase.running]) rfl (memoryInv_congr h.2.1 rfl rfl rfl rfl rfl) ?_
    obtain ⟨h1, h2, h3, h4⟩ := h
    simp only [PhaseInv, hp] at h4
    simp only [PhaseInv, State.absorbUnit, State.withProgress, hp]
    exact ⟨hd', trivial, h4.2.2⟩

/-- Phase SETUP keeps the invariant. -/
theorem inv_slowSetup {s : State} (h : Inv s) (hb : s.busy = true) (hp : s.phase = .setup) :
    Inv (s.slowSetup s.jobVariant) := by
  have h4 := h.2.2.2
  simp only [PhaseInv, hp] at h4
  unfold State.slowSetup
  split
  · rename_i hr
    refine inv_of_run h hb rfl rfl rfl rfl rfl rfl (memoryInv_congr h.2.1 rfl rfl rfl rfl rfl) ?_
    simp only [PhaseInv, State.enterRmGen, State.enterPhase, State.setup, GenInv]
    refine ⟨trivial, h4.2, by simpa [randomGate] using hr, ?_⟩
    simp
  · rename_i hr
    refine inv_of_run h hb rfl rfl rfl rfl rfl rfl (memoryInv_congr h.2.1 rfl rfl rfl rfl rfl) ?_
    simp only [PhaseInv, State.enterFill, State.setup, State.enterPhase]
    exact ⟨Nat.zero_le _, rfl, h4.2, fun e => absurd e (by simpa [randomGate] using hr)⟩

/-- A kept attempt leaves a generated program in PROG (R310, R311). -/
theorem programInv_of_output {code : List Instr} (p : Vector ProgWord 71) (h1 : 60 ≤ code.length) (h2 : code.length ≤ 70)
   (ha : ∀ i ∈ code, isAlu i = true) (s : State) (hp : s.prog = progStore code p) (hl : s.plen = BitVec.ofNat 7 code.length) : ProgramInv s := by
  have hn : s.plen.toNat = code.length := by rw [hl]; simp; omega
  refine ⟨by omega, by omega, fun k => ⟨fun hk => ?_, fun hk => ?_⟩⟩
  · have hk' : k.val < code.length := by omega
    refine ⟨code[k.val], ?_, ha _ (List.getElem_mem _)⟩
    have : s.prog[k] = progWordOf code[k.val] := by rw [hp]; simp [progStore, hk']
    rw [this]; exact decodeProg_progWordOf (ha _ (List.getElem_mem _))
  · have hk' : k.val = code.length := by omega
    have : s.prog[k] = progWordOf .ret := by rw [hp]; simp [progStore, hk']
    rw [this]; decide

/-- A step of phase RM_GEN keeps the invariant. -/
theorem inv_rmGenUnit {s : State} (h : Inv s) (hb : s.busy = true) (hp : s.phase = .rmGen) : Inv s.rmGenUnit := by
  have h4 := h.2.2.2
  simp only [PhaseInv, hp] at h4
  obtain ⟨q1, q2, q3, q4⟩ := h4
  unfold State.rmGenUnit
  split
  · rename_i hc
    obtain ⟨g1, g2, g3⟩ := q4
    have hc2 := g2 (.inr (.inr hc.1))
    have hacc : s.gen.r8Used = true ∧ 60 ≤ s.gen.code.length ∧ s.gen.code.length ≤ 70 := by
      simpa [genAccepted, and_assoc] using hc.2
    refine inv_of_run h hb (by simp [State.enterFill]) (by simp [State.enterFill]) (by simp [State.enterFill]) (by simp [State.enterFill]) rfl (by simp [State.enterFill])
      (memoryInv_congr h.2.1 (by simp [State.enterFill]) (by simp [State.enterFill]) (by simp [State.enterFill]) (by simp [State.enterFill]) (by simp [State.enterFill])) ?_
    simp only [PhaseInv, State.enterFill, State.enterPhase]
    refine ⟨Nat.zero_le _, rfl, q2, fun _ => ?_⟩
    exact programInv_of_output _ hacc.2.1 hacc.2.2 hc2.2 _ rfl rfl
  · refine inv_of_run h hb rfl rfl rfl rfl (by rw [show ({ s with gen := genPass s.jobHeight s.gen } : State).phase = s.phase from rfl, hp]; rfl) rfl (memoryInv_congr h.2.1 rfl rfl rfl rfl rfl) ?_
    simp only [PhaseInv, hp]
    exact ⟨q1, q2, q3, genInv_genPass _ _ q4⟩

/-- A step of phase FILL keeps the invariant. -/
theorem inv_fill {s : State} (h : Inv s) (hb : s.busy = true) (hp : s.phase = .fill) :
    Inv (if s.g < groups then s.fillUnit else s.enterMix) := by
  have h4 := h.2.2.2
  simp only [PhaseInv, hp] at h4
  obtain ⟨q1, q2, q3, q4⟩ := h4
  split
  · rename_i hg
    refine inv_of_run h hb (by simp [State.fillUnit]) (by simp [State.fillUnit]) (by simp [State.fillUnit]) (by simp [State.fillUnit])
      (by simp [State.fillUnit, hp, Phase.running]) (by simp [State.fillUnit]) ?_ ?_
    · obtain ⟨m1, m2, m3, m4, m5, m6⟩ := h.2.1
      simp only [MemoryInv, State.fillUnit, State.withProgress]
      refine ⟨m1, m2, ?_, ?_, m5, m6⟩
      · exact wf_writeGroup m3
      · exact within_writeGroup (by simp only [groups] at hg; omega) m4
    · simp only [PhaseInv, State.fillUnit, State.withProgress, hp]
      exact ⟨hg, trivial, q3, q4⟩
  · refine inv_of_run h hb rfl rfl rfl rfl rfl rfl (memoryInv_congr h.2.1 rfl rfl rfl rfl rfl) ?_
    simp only [PhaseInv, State.enterMix, State.enterPhase]
    refine ⟨Nat.zero_le _, by simp, q3, q4, fun x => absurd rfl x, fun x => ?_, fun x => ?_⟩ <;> contradiction

/-- A step of phase FINAL_FILL keeps the invariant. -/
theorem inv_finalFill {s : State} (h : Inv s) (hb : s.busy = true) (hp : s.phase = .finalFill) :
    Inv (if s.g < groups then s.finalFillUnit else s.enterPhase .permute) := by
  have h4 := h.2.2.2
  simp only [PhaseInv, hp] at h4
  obtain ⟨q1, q2, q3⟩ := h4
  split
  · rename_i hg
    refine inv_of_run h hb (by simp [State.finalFillUnit]) (by simp [State.finalFillUnit]) (by simp [State.finalFillUnit]) (by simp [State.finalFillUnit])
      (by simp [State.finalFillUnit, hp, Phase.running]) (by simp [State.finalFillUnit]) (memoryInv_congr h.2.1 (by simp [State.finalFillUnit]) (by simp [State.finalFillUnit]) (by simp [State.finalFillUnit]) (by simp [State.finalFillUnit]) (by simp [State.finalFillUnit])) ?_
    simp only [PhaseInv, State.finalFillUnit, State.withProgress, hp]
    exact ⟨hg, trivial, q3⟩
  · refine inv_of_run h hb rfl rfl rfl rfl rfl rfl (memoryInv_congr h.2.1 rfl rfl rfl rfl rfl) ?_
    simp only [PhaseInv, State.enterPhase]
    exact ⟨trivial, .inl q3⟩

/-- The common shape of a step inside an outer iteration. -/
theorem inv_of_mix {s t : State} (h : Inv s) (hb : s.busy = true) (hp : s.phase = .mix) 
  (c1 : t.busy = s.busy) (c2 : t.done = s.done) (c3 : t.err = s.err) (c4 : t.errcode = s.errcode) (c5 : t.phase = s.phase) (c6 : t.cmd = s.cmd)
  (c7 : t.jobOp = s.jobOp) (c8 : t.jobVariant = s.jobVariant) (c9 : t.jobPrehashed = s.jobPrehashed)
   (d4 : t.jobLen = s.jobLen) (d5 : t.msgMaxExtra = s.msgMaxExtra) (d6 : t.spOwned = s.spOwned) (d7 : t.prog = s.prog) (d8 : t.plen = s.plen)
   (d9 : t.i = s.i) (e1 : t.progress = s.progress) (hm : MemoryInv t) (hi : s.i < iterations)
   (e2 : t.mixStep = .rmRun → s.jobVariant = 4 ∧ t.rpc.toNat ≤ s.plen.toNat) (e3 : t.mixStep = .rmFold → s.jobVariant = 4) : Inv t := by
  have h4 := h.2.2.2
  simp only [PhaseInv, hp] at h4
  obtain ⟨q1, q2, q3, q4, q5, q6, q7⟩ := h4
  refine inv_of_run h hb c1 c2 c3 c4 (by rw [c5, hp]; rfl) c6 hm ?_
  simp only [PhaseInv, c5, hp]
  refine ⟨by rw [d9]; exact q1, by rw [e1, d9]; exact q2, slowInv_congr q3 c7 c8 c9 d4 d5 d6, fun x => programInv_congr (q4 (c8 ▸ x)) d7 d8, fun _ => by rw [d9]; exact hi, ?_, ?_⟩
  · rw [c8, d8]; exact e2
  · rw [c8]; exact e3

/-- The shuffle-add changes the scratchpad and c only. -/
theorem shuffleAt_frame (v : BitVec 3) (j : BitVec 21) (s : State) : s.shuffleAt v j = { s with sp := (s.shuffleAt v j).sp, c := (s.shuffleAt v j).c } := by
  unfold State.shuffleAt
  split <;> rfl

/-- The shuffle-add keeps the scratchpad canonical and in bounds. -/
theorem shuffleAt_memory {v : BitVec 3} {j : BitVec 21} {s : State} (h : s.sp.wf = true ∧ s.sp.within (2^21) = true) (hj : j.toNat % 16 = 0) :
   (s.shuffleAt v j).sp.wf = true ∧ (s.shuffleAt v j).sp.within (2^21) = true := by
  unfold State.shuffleAt
  split
  · exact ⟨wf_shuffle h.1, within_shuffle hj h.2⟩
  · exact h

/-- A step of phase MIX outside the random-math run keeps the invariant. -/
theorem inv_mixUnit {s : State} (h : Inv s) (hb : s.busy = true) (hp : s.phase = .mix) (hr : s.mixStep ≠ .rmRun) : Inv (s.mixUnit s.jobVariant) := by
  have h4 := h.2.2.2
  simp only [PhaseInv, hp] at h4
  obtain ⟨q1, q2, q3, q4, q5, q6, q7⟩ := h4
  obtain ⟨m1, m2, m3, m4, m5, m6⟩ := h.2.1
  unfold State.mixUnit
  cases hs : s.mixStep with
  | half1Aes =>
    dsimp only
    split
    · rename_i hi
      exact inv_of_mix h hb hp rfl rfl rfl rfl rfl rfl rfl rfl rfl rfl rfl rfl rfl rfl rfl rfl ⟨m1, m2, m3, m4, addrOf_mod _, m6⟩ hi
        (fun x => by simp [State.half1Aes] at x) (fun x => by simp [State.half1Aes] at x)
    · refine inv_of_run h hb (by simp [State.enterFinalFill]) (by simp [State.enterFinalFill]) (by simp [State.enterFinalFill]) (by simp [State.enterFinalFill]) (by simp [State.enterFinalFill, Phase.running]) (by simp [State.enterFinalFill])
        (memoryInv_congr h.2.1 (by simp [State.enterFinalFill]) (by simp [State.enterFinalFill]) (by simp [State.enterFinalFill]) (by simp [State.enterFinalFill]) (by simp [State.enterFinalFill])) ?_
      simp only [PhaseInv, State.enterFinalFill, State.enterPhase]
      exact ⟨Nat.zero_le _, by simp, slowInv_congr q3 rfl rfl rfl rfl rfl rfl⟩
  | half1Shuffle =>
    have hi := q5 (by simp [hs])
    have hm := shuffleAt_memory (v := s.jobVariant) (j := s.j1) ⟨m3, m4⟩ m5
    dsimp only
    unfold State.half1Shuffle
    rw [shuffleAt_frame]
    exact inv_of_mix h hb hp rfl rfl rfl rfl rfl rfl rfl rfl rfl rfl rfl rfl rfl rfl rfl rfl ⟨m1, m2, hm.1, hm.2, m5, m6⟩ hi (fun x => by simp at x) (fun x => by simp at x)
  | half1Store =>
    have hi := q5 (by simp [hs])
    dsimp only
    unfold State.half1Store State.memWrite
    exact inv_of_mix h hb hp rfl rfl rfl rfl rfl rfl rfl rfl rfl rfl rfl rfl rfl rfl rfl rfl ⟨m1, m2, Memory.wf_writeBlock m3, Memory.within_writeBlock (block_in_bounds _ m5) m4, m5, m6⟩ hi (fun x => by simp at x) (fun x => by simp at x)
  | half2Load =>
    have hi := q5 (by simp [hs])
    exact inv_of_mix h hb hp rfl rfl rfl rfl rfl rfl rfl rfl rfl rfl rfl rfl rfl rfl rfl rfl ⟨m1, m2, m3, m4, m5, addrOf_mod _⟩ hi
        (fun x => by simp [State.half2Load] at x) (fun x => by simp [State.half2Load] at x)
  | half2Math =>
    have hi := q5 (by simp [hs])
    dsimp only
    unfold State.half2Math
    split
    · rename_i hg
      exact inv_of_mix h hb hp rfl rfl rfl rfl rfl rfl rfl rfl rfl rfl rfl rfl rfl rfl rfl rfl ⟨m1, m2, m3, m4, m5, m6⟩ hi
        (fun _ => ⟨by simpa [randomGate] using hg, by simp [State.rmEnter]⟩) (fun x => by simp at x)
    · split
      · unfold State.integerMath
        exact inv_of_mix h hb hp rfl rfl rfl rfl rfl rfl rfl rfl rfl rfl rfl rfl rfl rfl rfl rfl ⟨m1, m2, m3, m4, m5, m6⟩ hi
          (fun x => by simp at x) (fun x => by simp at x)
      · exact inv_of_mix h hb hp rfl rfl rfl rfl rfl rfl rfl rfl rfl rfl rfl rfl rfl rfl rfl rfl ⟨m1, m2, m3, m4, m5, m6⟩ hi
          (fun x => by simp at x) (fun x => by simp at x)
  | rmRun => exact absurd hs hr
  | rmFold =>
    have hi := q5 (by simp [hs])
    exact inv_of_mix h hb hp rfl rfl rfl rfl rfl rfl rfl rfl rfl rfl rfl rfl rfl rfl rfl rfl ⟨m1, m2, m3, m4, m5, m6⟩ hi
        (fun x => by simp [State.rmFold] at x) (fun x => by simp [State.rmFold] at x)
  | half2Mul =>
    have hi := q5 (by simp [hs])
    exact inv_of_mix h hb hp rfl rfl rfl rfl rfl rfl rfl rfl rfl rfl rfl rfl rfl rfl rfl rfl ⟨m1, m2, m3, m4, m5, m6⟩ hi
        (fun x => by simp [State.half2Mul] at x) (fun x => by simp [State.half2Mul] at x)
  | half2Fold =>
    have hi := q5 (by simp [hs])
    dsimp only
    unfold State.half2Fold
    split
    · dsimp only
      rw [secondFold_sp]
      exact inv_of_mix h hb hp rfl rfl rfl rfl rfl rfl rfl rfl rfl rfl rfl rfl rfl rfl rfl rfl ⟨m1, m2, Memory.wf_writeBlock m3, Memory.within_writeBlock (block_in_bounds _ (xor_block_aligned _ _ m6 (by decide))) m4, m5, m6⟩ hi
        (fun x => by simp at x) (fun x => by simp at x)
    · exact inv_of_mix h hb hp rfl rfl rfl rfl rfl rfl rfl rfl rfl rfl rfl rfl rfl rfl rfl rfl ⟨m1, m2, m3, m4, m5, m6⟩ hi
        (fun x => by simp at x) (fun x => by simp at x)
  | half2Shuffle =>
    have hi := q5 (by simp [hs])
    have hm := shuffleAt_memory (v := s.jobVariant) (j := s.j2) ⟨m3, m4⟩ m6
    dsimp only
    unfold State.half2Shuffle
    rw [shuffleAt_frame]
    exact inv_of_mix h hb hp rfl rfl rfl rfl rfl rfl rfl rfl rfl rfl rfl rfl rfl rfl rfl rfl ⟨m1, m2, hm.1, hm.2, m5, m6⟩ hi (fun x => by simp at x) (fun x => by simp at x)
  | half2Store =>
    have hi := q5 (by simp [hs])
    dsimp only
    unfold State.half2Store State.memWrite
    exact inv_of_mix h hb hp rfl rfl rfl rfl rfl rfl rfl rfl rfl rfl rfl rfl rfl rfl rfl rfl ⟨m1, m2, Memory.wf_writeBlock m3, Memory.within_writeBlock (block_in_bounds _ m6) m4, m5, m6⟩ hi (fun x => by simp at x) (fun x => by simp at x)
  | iterEnd =>
    have hi := q5 (by simp [hs])
    dsimp only
    refine inv_of_run h hb rfl rfl rfl rfl (by simp [State.iterEnd, hp, Phase.running]) rfl (memoryInv_congr h.2.1 rfl rfl rfl rfl rfl) ?_
    simp only [PhaseInv, State.iterEnd, State.withProgress, hp]
    refine ⟨hi, trivial, slowInv_congr q3 rfl rfl rfl rfl rfl rfl, fun x => programInv_congr (q4 x) rfl rfl, fun x => absurd rfl x, fun x => ?_, fun x => ?_⟩ <;> contradiction

/-- An operation of a generated program keeps the invariant. -/
theorem inv_execAlu {s : State} (h : Inv s) (hb : s.busy = true) (hp : s.phase = .mix) (hs : s.mixStep = .rmRun) (hlt : s.rpc.toNat < s.plen.toNat)
   (f : W32 → W32 → W32) (d : BitVec 2) (src : BitVec 4) (hsrc : src.toNat < 9) : Inv (s.execAlu f d src) := by
  have h4 := h.2.2.2
  simp only [PhaseInv, hp] at h4
  obtain ⟨q1, q2, q3, q4, q5, q6, q7⟩ := h4
  rw [State.execAlu_of_lt hsrc]
  have hl := (q4 (q6 hs).1).2.1
  refine inv_of_mix h hb hp rfl rfl rfl rfl rfl rfl rfl rfl rfl rfl rfl rfl rfl rfl rfl rfl (memoryInv_congr h.2.1 rfl rfl rfl rfl rfl) (q5 (by simp [hs])) (fun x => ⟨(q6 hs).1, ?_⟩)
    (fun x => by simp [hs] at x)
  simp [BitVec.toNat_add]; omega

/-- A step of a SLOW_HASH job keeps the invariant. -/
theorem inv_slowHash {s t : State} (h : Inv s) (hb : s.busy = true) (ho : s.jobOp = 0) (hr : s.running = false) (ht : exec (.slowHash s.jobVariant s.jobPrehashed) s = .next t) : Inv t := by
  have h4 := h.2.2.2
  simp only [exec, execSlowHash] at ht
  cases hp : s.phase <;> simp only [hp] at ht
  case idle => injection ht with ht; subst ht; exact h
  case done => injection ht with ht; subst ht; exact h
  case error => injection ht with ht; subst ht; exact h
  case check => injection ht with ht; subst ht; exact inv_slowCheck h hb ho
  case absorb =>
    refine inv_absorbStep h hb hp (fun hd => ?_) ht
    simp only [PhaseInv, hp] at h4
    refine inv_of_run h hb rfl rfl rfl rfl rfl rfl (memoryInv_congr h.2.1 rfl rfl rfl rfl rfl) ?_
    simp only [PhaseInv, State.enterPhase]
    rcases h4.2.2.2 with ⟨h1, _⟩ | ⟨h1, _⟩
    · rw [ho] at h1; contradiction
    · exact ⟨trivial, slowInv_congr h1 rfl rfl rfl rfl rfl rfl⟩
  case setup => injection ht with ht; subst ht; exact inv_slowSetup h hb hp
  case rmGen => injection ht with ht; subst ht; exact inv_rmGenUnit h hb hp
  case fill => injection ht with ht; subst ht; exact inv_fill h hb hp
  case mix => 
    injection ht with ht; subst ht; exact inv_mixUnit h hb hp (by intro e; simp [State.running, hp, e] at hr)
  case finalFill => injection ht with ht; subst ht; exact inv_finalFill h hb hp
  case permute =>
    injection ht with ht; subst ht
    simp only [PhaseInv, hp] at h4
    refine inv_of_run h hb rfl rfl rfl rfl rfl rfl (memoryInv_congr h.2.1 rfl rfl rfl rfl rfl) ?_
    simp only [PhaseInv, State.slowPermute, State.enterPhase]
    rcases h4.2 with h1 | ⟨h1, _⟩
    · exact ⟨trivial, slowInv_congr h1 rfl rfl rfl rfl rfl rfl⟩
    · rw [ho] at h1; contradiction
  case extra => injection ht with ht; subst ht; exact inv_finishOk (s := { s with digest := extraHash s.hashState }) h hb

/-- A step of a FAST_HASH job keeps the invariant. -/
theorem inv_fastHash {s t : State} (h : Inv s) (hb : s.busy = true) (ho : s.jobOp = 1) (ht : exec .fastHash s = .next t) : Inv t := by
  simp only [exec, execFastHash] at ht
  cases hp : s.phase <;> simp only [hp] at ht
  case idle => injection ht with ht; subst ht; exact h
  case done => injection ht with ht; subst ht; exact h
  case error => injection ht with ht; subst ht; exact h
  case check =>
    injection ht with ht; subst ht
    unfold State.fastCheck
    cases hc : checkJob 1 0 false s.jobLen.toNat s.msgMax s.spGrant with
    | some code => exact inv_raiseJobError (checkJob_ne_none_code hc).1 h
    | none =>
      rw [checkJob_fast] at hc
      have hl : s.jobLen.toNat ≤ s.msgMax := by
        by_contra hl; rw [if_pos (by omega)] at hc; contradiction
      dsimp only
      have h4 := h.2.2.2
      simp only [PhaseInv, hp] at h4
      refine inv_of_run h hb rfl rfl rfl rfl rfl rfl (memoryInv_congr h.2.1 rfl rfl rfl rfl rfl) ?_
      simp only [PhaseInv, State.enterAbsorb, State.enterPhase, State.msgMax]
      exact ⟨Nat.zero_le _, by simp, hl, .inl ⟨ho, h4.2⟩⟩
  case absorb => exact inv_absorbStep (after := s.finishOkDigest (first32 s.hashState)) h hb hp (fun hd => inv_finishOk (s := { s with digest := first32 s.hashState }) h hb) ht
  all_goals contradiction

/-- A step of a KECCAK_PERMUTE job keeps the invariant. -/
theorem inv_keccakPermute {s t : State} (h : Inv s) (hb : s.busy = true) (ho : s.jobOp = 2) (ht : exec .keccakPermute s = .next t) : Inv t := by
  simp only [exec, execKeccakPermute] at ht
  cases hp : s.phase <;> simp only [hp] at ht
  case idle => injection ht with ht; subst ht; exact h
  case done => injection ht with ht; subst ht; exact h
  case error => injection ht with ht; subst ht; exact h
  case check =>
    injection ht with ht; subst ht
    have h4 := h.2.2.2
    simp only [PhaseInv, hp] at h4
    refine inv_of_run h hb rfl rfl rfl rfl rfl rfl (memoryInv_congr h.2.1 rfl rfl rfl rfl rfl) ?_
    simp only [PhaseInv, State.enterPhase]
    exact ⟨trivial, .inr ⟨ho, h4.2⟩⟩
  case permute => injection ht with ht; subst ht; exact inv_finishOk (s := { s with sw := _ }) h hb
  all_goals contradiction

end Sys2Proof.Machine
end

