-- ==== Sys2Proof/Laws/PerInstr.lean ====
section
/-! SUPPORT. A fact about every instruction as syntax, one lemma per constructor: the word that stands for it has the
fixed bits of its row of spec/opcode_table.json. -/

namespace Sys2Proof.Laws.TableRow

/-- A word agrees with a row's match under its mask. -/
def FixedBits {n : Nat} (w mask value : BitVec n) : Prop := w &&& mask = value

/-- The fixed bits of the row of an instruction, in the word that stands for it. -/
def Statement (i : Instr) : Prop :=
  match i, encode i with
  | .mul _ _, .prog w => FixedBits w 0xfe07 0
  | .add _ _ _, .prog w => FixedBits w 0xfe07 1
  | .sub _ _, .prog w => FixedBits w 0xfe07 2
  | .ror _ _, .prog w => FixedBits w 0xfe07 3
  | .rol _ _, .prog w => FixedBits w 0xfe07 4
  | .xor _ _, .prog w => FixedBits w 0xfe07 5
  | .ret, .prog w => FixedBits w 0xfe07 6
  | .slowHash _ _, .cmd w => FixedBits w 3 0
  | .fastHash, .cmd w => FixedBits w 3 1
  | .keccakPermute, .cmd w => FixedBits w 3 2
  | .start _ _, .ctrl w => FixedBits w 1 1
  | .clr _ _, .ctrl w => FixedBits w 4 4
  | _, _ => False

/-- The bits of the mask of the program rows: 2:0 and 15:9. -/
theorem mask_bits : ∀ i : Fin 48, (0xfe07#48)[i.val] = decide (i.val < 3 ∨ 9 ≤ i.val ∧ i.val < 16) := by decide

/-- A program word has its OPC in bits 2:0 and zeros in bits 15:9, whatever its constant. -/
theorem fixedBits_progOf (o : BitVec 3) (d : BitVec 2) (s : BitVec 4) (c : W32) :
    FixedBits (progOf o d s c) 0xfe07 (o.setWidth 48) := by
  show progOf o d s c &&& 0xfe07#48 = _
  ext i hi
  rw [BitVec.getElem_and, mask_bits ⟨i, hi⟩]
  simp [progOf]
  grind

theorem mul (d : BitVec 2) (s : BitVec 4) : Statement (.mul d s) := fixedBits_progOf 0 d s 0
theorem add (d : BitVec 2) (s : BitVec 4) (c : W32) : Statement (.add d s c) := fixedBits_progOf 1 d s c
theorem sub (d : BitVec 2) (s : BitVec 4) : Statement (.sub d s) := fixedBits_progOf 2 d s 0
theorem ror (d : BitVec 2) (s : BitVec 4) : Statement (.ror d s) := fixedBits_progOf 3 d s 0
theorem rol (d : BitVec 2) (s : BitVec 4) : Statement (.rol d s) := fixedBits_progOf 4 d s 0
theorem xor (d : BitVec 2) (s : BitVec 4) : Statement (.xor d s) := fixedBits_progOf 5 d s 0
theorem ret : Statement .ret := fixedBits_progOf 6 0 0 0
theorem slowHash (v : BitVec 3) (p : Bool) : Statement (.slowHash v p) := by
  show cmdOf 0 v p &&& 3 = 0
  revert v p; decide
theorem fastHash : Statement .fastHash := by
  show cmdOf 1 0 false &&& 3 = 1
  decide
theorem keccakPermute : Statement .keccakPermute := by
  show cmdOf 2 0 false &&& 3 = 2
  decide
theorem start (ie cl : Bool) : Statement (.start ie cl) := by
  show ctrlOf true ie cl &&& 1 = 1
  revert ie cl; decide
theorem clr (st ie : Bool) : Statement (.clr st ie) := by
  show ctrlOf st ie true &&& 4 = 4
  revert st ie; decide

end Sys2Proof.Laws.TableRow
end

