-- ==== Sys2Proof/Tests/Slice0.lean ====
section
/-! SUPPORT. Tests of the model, each expected value taken from the spec (mostly spec/95_test_vectors.md), and for every
obligation with hypotheses a witness: a state and operands that meet them together. -/

namespace Sys2Proof.Tests

-- one theorem at a time: each elaboration thread reserves its own stack
set_option Elab.async false

open Sys2Proof Sys2Proof.Machine

/-! ## WellFormed refuses what is ill formed -/

theorem test_wf_mul_source : (Instr.mul 0 9).wellFormed = false ∧ (Instr.mul 0 8).wellFormed = true := by decide
theorem test_wf_add_source : (Instr.add 0 9 0).wellFormed = false ∧ (Instr.add 0 8 0).wellFormed = true := by decide
theorem test_wf_sub_source : (Instr.sub 0 15).wellFormed = false ∧ (Instr.sub 0 8).wellFormed = true := by decide
theorem test_wf_ror_source : (Instr.ror 0 10).wellFormed = false ∧ (Instr.ror 0 8).wellFormed = true := by decide
theorem test_wf_rol_source : (Instr.rol 0 12).wellFormed = false ∧ (Instr.rol 0 8).wellFormed = true := by decide
theorem test_wf_xor_source : (Instr.xor 0 9).wellFormed = false ∧ (Instr.xor 0 8).wellFormed = true := by decide
theorem test_wf_clr_start : (Instr.clr true false).wellFormed = false ∧ (Instr.clr false true).wellFormed = true := by
  decide

/-! ## Decoding: words written out from R100 and R101 (bits 47:16 C, 15:9 zero, 8:5 SRC, 4:3 DST, 2:0 OPC), R91 and R92;
the listed words are those of spec/95_test_vectors.md sections 7.2, 8, 9 and 10 -/

theorem test_decode_mul :
    decode (.prog 0b00000000000000000000000000000000_0000000_0111_00_000#48) = .ok (.mul 0 7) ∧
      decode (.prog 0x000000000038) = .ok (.mul 3 1) := by decide
theorem test_decode_add :
    decode (.prog 0b11010011110011101111110011011101_0000000_0111_10_001#48) = .ok (.add 2 7 0xd3cefcdd) ∧
      decode (.prog 0xffffffff0109) = .ok (.add 1 8 0xffffffff) := by decide
theorem test_decode_sub :
    decode (.prog 0b00000000000000000000000000000000_0000000_1000_01_010#48) = .ok (.sub 1 8) ∧
      decode (.prog 0x00000000005a) = .ok (.sub 3 2) := by decide
theorem test_decode_ror :
    decode (.prog 0b00000000000000000000000000000000_0000000_0101_11_011#48) = .ok (.ror 3 5) ∧
      decode (.prog 0x000000000103) = .ok (.ror 0 8) := by decide
theorem test_decode_rol :
    decode (.prog 0b00000000000000000000000000000000_0000000_0111_00_100#48) = .ok (.rol 0 7) ∧
      decode (.prog 0x000000000054) = .ok (.rol 2 2) := by decide
theorem test_decode_xor :
    decode (.prog 0b00000000000000000000000000000000_0000000_1000_11_101#48) = .ok (.xor 3 8) ∧
      decode (.prog 0x00000000000d) = .ok (.xor 1 0) := by decide
/-- RET with its ignored fields all ones (R101). -/
theorem test_decode_ret :
    decode (.prog 0b00000000000000000000000000000000_0000000_0000_00_110#48) = .ok .ret ∧
      decode (.prog 0xffffffff01fe) = .ok .ret := by decide
theorem test_decode_reserved :
    decode (.prog 0x000000000007) = .error .reservedOpcode ∧ decode (.prog 0x000000000120) = .error .reservedSource ∧
      decode (.prog 0x000000000200) = .error .reservedBits := by decide
theorem test_decode_slowHash :
    decode (.cmd 0b00000000000000000000000_1_0_100_00_00#32) = .ok (.slowHash 4 true) ∧
      decode (.cmd 0x00000010) = .ok (.slowHash 1 false) := by decide
theorem test_decode_fastHash :
    decode (.cmd 0b00000000000000000000000_0_0_000_00_01#32) = .ok .fastHash ∧
      decode (.cmd 0x00000051) = .ok .fastHash := by decide
theorem test_decode_keccakPermute :
    decode (.cmd 0b00000000000000000000000_0_0_000_00_10#32) = .ok .keccakPermute ∧
      decode (.cmd 0x00000042) = .ok .keccakPermute := by decide
theorem test_decode_start :
    decode (.ctrl 0b00000000000000000000000000000_0_1_1#32) = .ok (.start true false) ∧
      decode (.ctrl 0x00000001) = .ok (.start false false) := by decide
theorem test_decode_clr :
    decode (.ctrl 0b00000000000000000000000000000_1_1_0#32) = .ok (.clr false true) ∧
      decode (.ctrl 0x00000004) = .ok (.clr false false) := by decide
/-- The table's rows whose word names its register, and the one word two rows share (notes/assumptions/6.md). -/
theorem test_table_words :
    decodeTableWord 48 0x000000000006 = some .ret ∧ decodeTableWord 32 0 = some (.slowHash 0 false) ∧
      decodeTableWord 32 1 = some .fastHash ∧ decodeTableWord 32 2 = some .keccakPermute ∧
      decodeTableWord 32 3 = some (.start true false) ∧ decodeTableWord 32 4 = some (.clr false false) := by decide

/-! ## The random-math machine, from the start registers of spec/95_test_vectors.md section 8 -/

/-- A job of VARIANT = 4 whose random-math machine runs, at PROG[0], with those registers. -/
def vmStart : State :=
  { State.reset with
    busy := true, phase := .mix, mixStep := .rmRun, jobVariant := 4, spOwned := true
    r := #v[0x00000001, 0xffffffff, 0x80000000, 0x12345678, 0x00000020, 0x00000021, 0xdeadbeef, 0x0000001f, 0] }

/-- Register k after one instruction. -/
def regAfter (i : Instr) (k : Nat) : Option Nat :=
  match exec i vmStart with
  | .next t => some (regNat t k)
  | .fault _ => none
  | .refused _ => none

theorem test_mul_results :
    regAfter (.mul 1 1) 1 = some 0x00000001 ∧
      regAfter (.mul 2 6) 2 = some 0x80000000 ∧
      regAfter (.mul 2 2) 2 = some 0x00000000 := by decide
theorem test_add_results :
    regAfter (.add 1 0 0x00000000) 1 = some 0x00000000 ∧
      regAfter (.add 1 8 0xffffffff) 1 = some 0xfffffffe ∧
      regAfter (.add 3 6 0x11111111) 3 = some 0x01f32678 := by decide
theorem test_sub_results :
    regAfter (.sub 0 1) 0 = some 0x00000002 ∧
      regAfter (.sub 0 8) 0 = some 0x00000001 ∧
      regAfter (.sub 3 8) 3 = some 0x12345678 := by decide
theorem test_ror_results :
    regAfter (.ror 3 4) 3 = some 0x12345678 ∧
      regAfter (.ror 3 5) 3 = some 0x091a2b3c ∧
      regAfter (.ror 3 7) 3 = some 0x2468acf0 ∧
      regAfter (.ror 0 0) 0 = some 0x80000000 := by decide
theorem test_rol_results :
    regAfter (.rol 3 5) 3 = some 0x2468acf0 ∧
      regAfter (.rol 3 0) 3 = some 0x2468acf0 ∧
      regAfter (.rol 2 2) 2 = some 0x80000000 := by decide
theorem test_xor_results :
    regAfter (.xor 3 6) 3 = some 0xcc99e897 ∧
      regAfter (.xor 2 8) 2 = some 0x80000000 := by decide
/-- RET changes no register and ends the run (R287). -/
theorem test_ret : ∃ t, exec .ret vmStart = .next t ∧ t.r = vmStart.r ∧ t.mixStep = .rmFold := ⟨_, rfl, rfl, rfl⟩
/-- A word with SRC = 9 ends the job with INTERNAL_FAULT (section 8, R102): STATUS 0xB64. -/
theorem test_reserved_source :
    ∃ t, exec (.mul 0 9) vmStart = .next t ∧ t.hostRead 0x20 4 = 0x00000B64 ∧ t.r = vmStart.r :=
  ⟨_, rfl, by decide, rfl⟩
/-- A program store that begins with the given words. -/
def wordsThen (ws : List ProgWord) : Vector ProgWord 71 := Vector.ofFn fun k : Fin 71 => ws.getD k.val 0
/-- Program P1 of section 10.5, by the sequential execution (R271). -/
theorem test_program_p1 :
    (runProg (wordsThen [0x000000100081, 0, 0x0c, 0x35, 0x5a, 6]) 71 0 vmStart.r).map
      (fun r => r.toList.map BitVec.toNat) =
      some [0x961, 0xffffffff, 0x7fffffff, 0x92345679, 0x20, 0x21, 0xdeadbeef, 0x1f, 0] := by decide +kernel
/-- Program P2 of section 10.6. -/
theorem test_program_p2 :
    (runProg (wordsThen [0x103, 0xffffffff0101, 0x0a, 0x28, 6]) 71 0 vmStart.r).map
      (fun r => r.toList.map BitVec.toNat) =
      some [0, 1, 0x80000000, 0x12345678, 0x20, 0x21, 0xdeadbeef, 0x1f, 0] := by decide +kernel

/-! ## START, CLR and the errors of spec/95_test_vectors.md section 9 -/

/-- STATUS after the host wrote 1 to CTRL and the core took one step. -/
def statusAfterStart (cmd len : W32) (grant : Bool) : Option W32 :=
  match runs 2 { State.reset with cmd := cmd, len := len, spGrant := grant, inputs := [.write 0 4 1, .core] } with
  | .next t => some (t.hostRead 0x20 4)
  | .fault _ => none
  | .refused _ => none

theorem test_check_codes :
    statusAfterStart 0x10 42 true = some 0x00000B14 ∧ statusAfterStart 0 14 false = some 0x00000B24 ∧
      statusAfterStart 0x50 14 true = some 0x00000B34 ∧ statusAfterStart 0x70 40000 true = some 0x00000B34 ∧
      statusAfterStart 1 40000 true = some 0x00000B44 ∧ statusAfterStart 0x100 199 true = some 0x00000B44 ∧
      statusAfterStart 0x110 10 true = some 0x00000B14 ∧ statusAfterStart 3 0 true = some 0x00000B54 ∧
      statusAfterStart 0x53 0 true = some 0x00000B54 := by decide +kernel
/-- Jobs that pass their checks: the phase that follows (R201, section 10). -/
theorem test_check_passes :
    statusAfterStart 0 14 true = some 0x00000201 ∧ statusAfterStart 0x10 43 true = some 0x00000201 ∧
      statusAfterStart 0x100 200 true = some 0x00000301 ∧ statusAfterStart 0x51 3 true = some 0x00000201 ∧
      statusAfterStart 0x42 99999 true = some 0x00000801 := by decide +kernel
/-- IE = 1 with START, and the interrupt low while the job runs (section 10.2). -/
theorem test_start :
    ∃ t, step { State.reset with cmd := 1, inputs := [.write 0 4 3] } = .next t ∧ t.hostRead 0x20 4 = 0x00000101 ∧
      t.hostRead 0 4 = 2 ∧ t.irq = false := ⟨_, rfl, by decide, by decide, by decide⟩
/-- CLR with IE = 1 after a finished job (section 10.2). -/
theorem test_clr :
    ∃ t, step { State.reset with done := true, phase := .done, ie := true, inputs := [.write 0 4 6] } = .next t ∧
      t.hostRead 0x20 4 = 0 ∧ t.hostRead 0 4 = 2 ∧ t.irq = false := ⟨_, rfl, by decide, by decide, by decide⟩

/-! ## The host window -/

/-- DIGEST is little-endian in a 32-bit read (section 10.2, R62). -/
theorem test_read_digest :
    State.hostRead
      { State.reset with digest := Vector.ofFn fun k => [0x4e, 0x03, 0x65, 0x7a].getD k.val 0 } 0x100 4 = 0x7A65034E := by
  decide +kernel
/-- Byte writes to MSG, read back as a word (R62); an access that is not aligned reads 0 (R64). -/
theorem test_message_bytes :
    ∃ t, runs 3 { State.reset with inputs := [.write 0x8000 1 0x61, .write 0x8001 1 0x62, .write 0x8002 1 0x63] } =
        .next t ∧
      t.hostRead 0x8000 4 = 0x00636261 ∧ t.hostRead 0x8001 2 = 0 := ⟨_, rfl, by decide, by decide⟩
/-- CMD's reserved bits read 0 (R21). -/
theorem test_cmd_reserved :
    ∃ t, step { State.reset with inputs := [.write 4 4 0xffffffff] } = .next t ∧ t.hostRead 4 4 = 0x173 :=
  ⟨_, rfl, by decide⟩

/-! ## Tables against the rules that generate them -/

/-- R133: the offsets of rho by their recurrence, (x, y) to (y, 2x + 3y). -/
theorem test_rho_recurrence :
    rho 0 0 = 0 ∧
      ((List.range 24).foldl
        (fun (p : (Fin 5 × Fin 5) × Bool) t =>
          ((p.1.2, 2 * p.1.1 + 3 * p.1.2), p.2 && decide (rho p.1.1 p.1.2 = (t + 1) * (t + 2) / 2 % 64)))
        ((1, 0), true)).2 = true := by decide
/-- S-box samples of section 2.1. -/
theorem test_sbox :
    [0x00, 0x01, 0x10, 0x53, 0x80, 0xff].map sbox = [0x63, 0x7c, 0xca, 0xed, 0xcd, 0x16] := by decide
/-- BLAKE's permutations are permutations (R331). -/
theorem test_sigma : ∀ r : Fin 10, ∀ v : Fin 16, ∃ k : Fin 16, blakeSigma[r][k] = v := by decide

/-- x^t modulo x^8 + x^6 + x^5 + x^4 + 1 over GF(2) (R137). -/
def lfsr : Nat → Byte
  | 0 => 1
  | t + 1 => (lfsr t <<< 1) ^^^ (if (lfsr t).getLsbD 7 then 0x71#8 else 0)
/-- R137: bit 2^j - 1 of RC[ir] is rc(j + 7 ir), and every other bit is 0. -/
theorem test_round_constants :
    roundConstants.length = 24 ∧ ∀ ir : Fin 24, roundConstants[ir.val]? =
      some ((List.range 7).foldl (fun w j => w ||| ((lfsr (j + 7 * ir.val) &&& 1).setWidth 64 <<< (2 ^ j - 1))) 0) := by
  decide +kernel
/-- The product in GF(2^8) modulo x^8 + x^4 + x^3 + x + 1, by the bits of the second factor from the top. -/
def gfMul (x y : Byte) : Byte :=
  (List.range 8).foldl (fun acc k => gf2 acc ^^^ (if y.getLsbD (7 - k) then x else 0)) 0
/-- x^254, the inverse of x, 0 for 0. -/
def gfInv (x : Byte) : Byte :=
  let y := (List.range 6).foldl (fun acc _ => gfMul (gfMul acc acc) x) x
  gfMul y y
/-- The S-box of R161 is the inverse in GF(2^8) followed by the affine map with constant 0x63. -/
theorem test_sbox_algebra : ∀ x : Byte,
    let y := gfInv x
    sbox x = y ^^^ y.rotateLeft 1 ^^^ y.rotateLeft 2 ^^^ y.rotateLeft 3 ^^^ y.rotateLeft 4 ^^^ 0x63 := by
  decide +kernel

/-! ## Published and derived values -/


/-- Lane 0 of KeccakF of 200 zero bytes (section 1.1). -/
theorem test_keccak_zero : (keccakF zeroLanes)[0] = 0xF1258F7940E1DDE7 := by decide +kernel
/-- One AES round (section 2.3). -/
theorem test_aes_round :
    aesRound 0xffeeddccbbaa99887766554433221100#128
        0xf0e0d0c0b0a09080706050403020100#128 =
      0xac84e6deff360fa571fd62f0dae47863#128 := by decide +kernel
/-- The key schedule of FIPS-197 A.3 (section 2.2), RK[9]. -/
theorem test_expand_key :
    (expandKey 0x81777d85f0ae732bbe71ca1510eb3d60#128
        0xf4df1409a310982dd708613b072c351f#128)[9] =
      0x3982c5592dc025508afba97604e214c8#128 := by decide +kernel
/-- The pseudo-round (section 2.4). -/
theorem test_pseudo_round :
    pseudoRound 0xffeeddccbbaa99887766554433221100#128
        (expandKey 0xf0e0d0c0b0a09080706050403020100#128
          0x1f1e1d1c1b1a19181716151413121110#128) =
      0xbaa79ae02bcbe3eb059fe812be2043de#128 := by decide +kernel
/-- BLAKE-256 of the empty string (section 6.4), its first four bytes. -/
theorem test_blake_empty : ((blake256 []).toList.take 4) = [0x71, 0x6f, 0x6e, 0x86] := by decide +kernel
/-- isqrt_v2 (section 4.1). -/
theorem test_isqrt :
    [0x100000000, 0x100000001, 0x300000000, 0x123456789ABCDEF, 0xFEDCBA9876543210, 0xFFFFFFFFFFFFFFFF].map isqrtV2 =
      [0, 1, 2, 0x122F2BC, 0xD345B9C8, 0xD413CCCF] := by decide +kernel
/-- integer_math (section 4.2, rows 1 and 4). -/
theorem test_integer_math :
    intDiv 0xffffffffffffffff0000000000000000#128 0 = 0x3FFFFFFFC ∧
      intDiv 0xffffffffffffffffffffffffffffffff#128 0xFFFFFFFF = 0x800000003 ∧
      intSqrt 0xffffffffffffffffffffffffffffffff#128 0x800000003 = 7 := by decide +kernel
/-- integer_math as a step, on the values of section 3.3: t is XORed with the old div_r and sqrt_r (R250). -/
theorem test_integer_math_step :
    ∃ t, exec (.slowHash 2 false)
        { State.reset with
          phase := .mix, mixStep := .half2Math, divR := 0x1BA826804FA3687A, sqrtR := 0xD256B3605C83DC35
          c := 0xa433f380ce0b31f644f073ad25599def, t := 0xd51219a1f14c1c744920fe0108614d8b } = .next t ∧
      t.t = 0xd51219a1f14c1c740e0b04b447c225f1 ∧ t.divR = 0xA2646BCEBD070268 ∧ t.sqrtR = 0xC26B3521 :=
  ⟨_, rfl, by decide +kernel⟩
/-- tweak_byte11 on the block of section 3.2. -/
theorem test_tweak_byte11 :
    tweakByte11 0x4d7c72e42be52faa08da29883643d836#128 =
      0x4d7c72e43be52faa08da29883643d836#128 := by decide +kernel
/-- j1 and c of section 3.1. -/
theorem test_first_round :
    addrOf 0xb42a21d075e3b39d1f3fa43812b864f4#128 = 0x1864F0 ∧
      aesRound 0x5a2ffdbb6d9e6d490a0de79844805c1a#128
          0xb42a21d075e3b39d1f3fa43812b864f4#128 =
        0x747b012a6fa40bbdca42befe174156b9#128 := by decide +kernel
/-- The product of section 3.1. -/
theorem test_product :
    let p := product 0x747b012a6fa40bbdca42befe174156b9#128 0x9b38298aa7e3f04b32d385be0635ecd8#128
    hi64 p = 0x282827FBDBA3DBE0 ∧ lo64 p = 0x809136B12560B818 := by decide +kernel
/-- The shuffle-add of sections 3.3 and 3.4 at j1 = 0x0D9E90: the first new chunk, and c with and without the fold. -/
theorem test_shuffle :
    let sp := ((Memory.writeBlock [] 0x0D9E80 0x349fd9c31daa9a23281dba27ccfa0427#128).writeBlock 0x0D9EB0
        0x3c7b5f3bd43648efd70065722b1fa004#128).writeBlock 0x0D9EA0 0xf8fb1ebb9e16a0e387a13365adb80172#128
    let c := 0xa433f380ce0b31f644f073ad25599def#128
    let a := 0x7b45b77d636ce73bbba6743422cd9e96#128
    let b0 := 0xce39045fc144b8676380e1822c6dfa8d#128
    let b1 := 0x7d3b814b50f88c8afbad0bae4b9a9cd9#128
    let v2 := shuffle false sp 0x0D9E90 c a b0 b1
    let v4 := shuffle true sp 0x0D9E90 c a b0 b1
    v2.sp.readBlock 0x0D9E80 = 0x7636a006ef0f2d6d834e3f13f9529e4b#128 ∧ v2.out = c ∧
      v2.sp.readBlock 0x0D9EA0 = 0xb7c116b937a3302a92a6d9a64ded3e9a#128 ∧
      v4.sp = v2.sp ∧ v4.out = 0x542c6bc3998143d93c4c9f9d6f0438be#128 := by decide +kernel
/-- The registers r[4] .. r[8] and t of section 3.4. -/
theorem test_random_math_seed :
    let r : Vector W32 9 := #v[0x4fa3687a, 0x1ba82680, 0x5c83dc35, 0xd256b360, 0, 0, 0, 0, 0]
    (rmSeed r 0x7b45b77d636ce73bbba6743422cd9e96#128 0xce39045fc144b8676380e1822c6dfa8d#128
        0x7d3b814b50f88c8afbad0bae4b9a9cd9#128).toList.drop 4 =
        [0x22cd9e96, 0x636ce73b, 0x2c6dfa8d, 0x4b9a9cd9, 0x50f88c8a] ∧
      rmT 0xa76e4e335199202fc526484d40f6d1db#128 r =
        0xa76e4e335199202febfcc7d82bbd5f21#128 := by decide +kernel
/-- The second fold of section 3.3: SP[j2 ^ 0x10] is not given before it, so only its XOR is checked, on zeros. -/
theorem test_second_fold :
    let out := secondFold [] 0x199DE0 0x03C81DECBEAE8454 0xDA66DD29154F38FF
    lo64 (out.sp.readBlock 0x199DF0) = 0x03C81DECBEAE8454 ∧ hi64 (out.sp.readBlock 0x199DF0) = 0xDA66DD29154F38FF := by
  decide +kernel
/-- The seed record of R301 and the first record byte it leads to: GI = 32 forces a fresh BLAKE block. -/
theorem test_gen_seed :
    let g := genSeed 1806260 GenState.reset
    g.gd.toList.take 4 = [0xB4, 0x8F, 0x1B, 0x00] ∧ g.gd[20] = 0xDA ∧ g.gi = 32 := by decide +kernel
/-- The first record of the program of section 7.2: ROL r0, r7. -/
theorem test_gen_first_record :
    (genDecode (genAttempt (genSeed 1806260 GenState.reset))).code = [.rol 0 7] := by decide +kernel

/-- A generator at the start of an attempt whose next seed bytes are given. -/
def drawing (bytes : List Byte) : GenState :=
  { genAttempt GenState.reset with gd := Vector.ofFn fun k => bytes.getD k.val 0, gi := 0 }

/-- R306, R307 by hand: MUL r3, r1 at cycle 0; XOR r1, r1 read as XOR r1, r8; ADD r2, r7 with its constant. -/
theorem test_gen_accept :
    (let g := genDecode (drawing [0x38])
     g.code = [.mul 3 1] ∧ g.lat[3] = 3 ∧ g.alat[3] = 3 ∧ g.inst[3] = 0x010000 ∧ g.busy[0][0] = true ∧ g.gi = 1) ∧
      (let g := genDecode (drawing [0x2E])
       g.code = [.xor 1 8] ∧ g.r8Used = true ∧ g.lat[1] = 1 ∧ g.inst[1] = 0xFF0500) ∧
      (let g := genDecode (drawing [0xF3, 0xdd, 0xfc, 0xce, 0xd3])
       g.code = [.add 2 7 0xd3cefcdd] ∧ g.busy[0][2] = true ∧ g.busy[1][2] = true ∧ g.gi = 5) := by decide +kernel
/-- Rejects 1 (the direction byte is read all the same), 2 and 3, and the two ways a retry is counted (R305, R306). -/
theorem test_gen_rejects :
    (let g := genDecode { drawing [0x05, 0x7f] with rotated := #v[true, false, false, false] }
     g.code = [] ∧ g.gi = 2 ∧ g.retries = 0) ∧
      (let g := genDecode { drawing [0x26] with inst := #v[0x010500, 1, 2, 3, 0, 0, 0, 0, 0] }
       g.code = [] ∧ g.gi = 1 ∧ g.retries = 0) ∧
      (let g := genDecode { drawing [0x24] with lat := #v[0, 8, 0, 0, 0, 0, 0, 0, 0] }
       g.code = [] ∧ g.retries = 0) ∧
      (let g := genDecode { drawing [0x00] with lat := #v[44, 0, 0, 0, 0, 0, 0, 0, 0] }
       g.code = [] ∧ g.retries = 1) ∧
      (let g := genDecode { drawing [0x00] with lat := #v[45, 0, 0, 0, 0, 0, 0, 0, 0] }
       g.code = [] ∧ g.retries = 1) := by decide +kernel
/-- R305 and R309: the four ends of the decode loop, the first padding instruction, the end of the padding. -/
theorem test_gen_loops :
    (genDecode { drawing [] with lat := Vector.replicate 9 45 }).stage = .pad ∧
      (genDecode { drawing [] with retries := 64 }).stage = .pad ∧
      (genDecode { drawing [] with steps := 256 }).stage = .pad ∧
      (genDecode { drawing [0x38] with code := List.replicate 59 (.xor 3 8) }).stage = .pad ∧
      (let g := genPad { drawing [] with alat := #v[5, 2, 9, 2, 0, 0, 0, 0, 0], stage := .pad }
       g.code = [.ror 1 2] ∧ g.alat[1] = 10 ∧ g.lat[1] = 2 ∧ g.stage = .pad) ∧
      (genPad { drawing [] with alat := #v[5, 45, 9, 2, 0, 0, 0, 0, 0], stage := .pad }).stage = .output := by
  decide +kernel

/-! ## Witnesses: for each obligation with hypotheses, inputs that meet them together, at boundary values -/

/-- The core's next move is a job's: command `op`, latched parameters, phase CHECK. -/
def checking (op : BitVec 2) (v : BitVec 3) (p : Bool) (len : W32) : State :=
  { State.reset with busy := true, phase := .check, jobOp := op, jobVariant := v, jobPrehashed := p, jobLen := len }

/-- A SLOW_HASH job of variant v in the given phase, with LEN = 200. -/
def inPhase (v : BitVec 3) (ph : Phase) : State :=
  { State.reset with busy := true, phase := ph, jobVariant := v, jobLen := 200, spOwned := true }

/-- The same in phase MIX, at the given rule of an iteration. -/
def inMix (v : BitVec 3) (m : MixStep) : State := { inPhase v .mix with mixStep := m }

/-- A program of 60 words MUL r0, r8 and a RET, the shortest the generator can write. -/
def shortProgram : Vector ProgWord 71 := Vector.ofFn fun k => if k.val < 60 then 0x100 else 6

/-- A VARIANT = 4 job about to run that program. -/
def running : State := { inMix 4 .rmRun with prog := shortProgram, plen := 60 }

theorem running_program : ProgramInv running := by
  refine ⟨by decide, by decide, fun k => ⟨fun h => ⟨.mul 0 8, ?_, rfl⟩, fun h => ?_⟩⟩
  · revert k; decide
  · revert k; decide

/-- A generator with an acceptable program of 60 instructions. -/
def generated : State :=
  { inPhase 4 .rmGen with
    gen := { GenState.reset with stage := .output, r8Used := true, code := List.replicate 60 (.xor 3 8) } }

theorem witness_ProgramWordsDecodeByFields :
    (8 : BitVec 4).toNat < 9 ∧ (0 : BitVec 4).toNat < 9 ∧ ¬ (9 : BitVec 4).toNat < 9 ∧
      decode (.prog (BitVec.ofNat 48 ((0xffffffff#32).toNat <<< 16 ||| (8#4).toNat <<< 5 ||| (3#2).toNat <<< 3 ||| 1))) =
        .ok (.add 3 8 0xffffffff) := by decide

theorem witness_ReservedProgramWordsRejected :
    (∃ e, decode (.prog 7) = .error e) ∧ (∃ e, decode (.prog 0x120) = .error e) ∧
      (∃ e, decode (.prog 0x8000) = .error e) ∧ decode (.prog 0x126) = .ok .ret :=
  ⟨⟨_, rfl⟩, ⟨_, rfl⟩, ⟨_, rfl⟩, by decide⟩

theorem witness_HostWordsDecodeByFields :
    (0xfffffffc#32).toNat % 4 = 0 ∧ (0x51#32).toNat % 4 = 1 ∧ (0xfffffffe#32).toNat % 4 = 2 ∧ (0x53#32).toNat % 4 = 3 ∧
      (0xffffffff#32).toNat % 2 = 1 ∧ ((0xfffffffe#32).toNat % 2 = 0 ∧ (0xfffffffe#32).toNat.testBit 2 = true) ∧
      ((0xfffffffa#32).toNat % 2 = 0 ∧ (0xfffffffa#32).toNat.testBit 2 = false) := by decide

theorem witness_DecodeInvertsEncode :
    (Instr.add 3 8 0xffffffff).wellFormed = true ∧ (Instr.slowHash 7 true).wellFormed = true ∧
      (Instr.start true true).wellFormed = true ∧ (Instr.clr false true).wellFormed = true := by decide

theorem witness_DecodedInstructionsAreWellFormed :
    decode (.prog 0xffffffff0100) = .ok (.mul 0 8) ∧ (0xffffffff0100#48).toNat % 8 = 0 ∧
      decode (.prog 0xffffffff0109) = .ok (.add 1 8 0xffffffff) ∧ decode (.prog 0xffffffff01fe) = .ok .ret ∧
      decode (.cmd 0xfffffffc) = .ok (.slowHash 7 true) ∧ decode (.cmd 0xfffffffd) = .ok .fastHash ∧
      decode (.cmd 0xfffffffe) = .ok .keccakPermute ∧ decode (.ctrl 0xffffffff) = .ok (.start true true) := by decide

/-- Each clause, with rpc at the first and the last entry of the store. -/
theorem witness_StepRunsDecodedInstruction :
    (CoreMoves running ∧ RunsProgram running ∧ decode (.prog running.prog[0]) = .ok (.mul 0 8)) ∧
      (let s := { running with rpc := 70, prog := Vector.replicate 71 7 }
       CoreMoves s ∧ RunsProgram s ∧ (70 : BitVec 7).toNat < 71 ∧ decode (.prog s.prog[70]) = .error .reservedOpcode) ∧
      (∀ op : BitVec 2, CoreMoves (checking op 0 false 0) ∧ ¬ RunsProgram (checking op 0 false 0)) ∧
      decode (.ctrl 7) = .ok (.start true true) ∧ decode (.ctrl 2) = .error .noCommandBit := by
  refine ⟨⟨⟨rfl, rfl⟩, ⟨rfl, rfl⟩, by decide⟩, ⟨⟨rfl, rfl⟩, ⟨rfl, rfl⟩, by decide, ?_⟩,
    fun op => ⟨⟨rfl, rfl⟩, fun h => nomatch h.1⟩, by decide, by decide⟩
  simp only [Vector.getElem_replicate]
  decide

theorem witness_StepTakesOutsideEvents :
    (∃ t, step { checking 3 0 false 0 with inputs := [] } = .next t) ∧ State.reset.inputs = [] ∧
      State.reset.busy = false := ⟨⟨_, rfl⟩, rfl, rfl⟩

theorem witness_TableWordRunsNext :
    decodeTableWord 48 0xd3cefcdd00f1 = some (.add 2 7 0xd3cefcdd) ∧ decodeTableWord 32 0x42 = some .keccakPermute ∧
      decodeTableWord 32 7 = some (.start true true) := by decide

/-- The highest source register, and the destination as the source (for MulAndXorResults, AddAndSubResults and
RotateResults). -/
theorem witness_AluResults : (8 : BitVec 4).toNat < 9 ∧ (0 : BitVec 4).toNat < 9 ∧ (3 : BitVec 4).toNat < 9 := by decide

theorem witness_RetAndReservedSourceEndRun :
    9 ≤ (9 : BitVec 4).toNat ∧ 9 ≤ (15 : BitVec 4).toNat ∧
      Instr.add 2 15 1 ∈ [Instr.mul 2 15, .add 2 15 1, .sub 2 15, .ror 2 15, .rol 2 15, .xor 2 15] := by decide

theorem witness_ProgramRunIsSequential :
    CoreMoves running ∧ RunsProgram running ∧ running.rpc = 0 ∧ ProgramInv running :=
  ⟨⟨rfl, rfl⟩, ⟨rfl, rfl⟩, rfl, running_program⟩

theorem witness_RandomMathSeedsAndFolds :
    ((inMix 4 .half2Math).phase = .mix ∧ (inMix 4 .half2Math).mixStep = .half2Math) ∧
      ((inMix 4 .rmFold).phase = .mix ∧ (inMix 4 .rmFold).mixStep = .rmFold) := ⟨⟨rfl, rfl⟩, rfl, rfl⟩

/-- The passes: each stage of the generator, and an attempt that is dropped because it never read r[8]. The tests of
the generator above meet the premises of the rules of a pass, one by one. -/
theorem witness_GeneratorPasses :
    ∀ stage : GenStage,
      let s := { inPhase 4 .rmGen with gen := { GenState.reset with stage := stage } }
      s.phase = .rmGen ∧ s.gen.stage = stage ∧
        ¬ (s.gen.stage = .output ∧ s.gen.r8Used = true ∧ 60 ≤ s.gen.code.length ∧ s.gen.code.length ≤ 70) :=
  fun _ => ⟨rfl, rfl, fun h => nomatch h.2.1⟩

theorem witness_GeneratorWritesProgram :
    generated.phase = .rmGen ∧ generated.gen.stage = .output ∧ GenInv generated.gen ∧ generated.gen.r8Used = true ∧
      60 ≤ generated.gen.code.length := by
  refine ⟨rfl, rfl, ⟨fun _ => by decide, fun _ => ⟨by decide, ?_⟩, fun h => nomatch h⟩, rfl, by decide⟩
  intro i hi
  rw [List.eq_of_mem_replicate hi]
  rfl

/-- Every clause of the order of checks, each at the last value that fails and the first that passes. -/
theorem witness_CheckOrder :
    (∀ op v p len, CoreMoves (checking op v p len) ∧ (checking op v p len).phase = .check) ∧
      4 < (5 : BitVec 3).toNat ∧ (4 : BitVec 3).toNat ≤ 4 ∧ State.reset.msgMax < (32769 : W32).toNat ∧
      (32768 : W32).toNat ≤ State.reset.msgMax ∧ ((1 : BitVec 3) = 1 ∧ (42 : W32).toNat < 43) ∧
      ¬ ((1 : BitVec 3) = 1 ∧ (43 : W32).toNat < 43) ∧ (199 : W32).toNat ≠ 200 ∧ (200 : W32).toNat = 200 ∧
      State.reset.spGrant = true :=
  ⟨fun _ _ _ _ => ⟨⟨rfl, rfl⟩, rfl⟩, by decide⟩

theorem witness_ErrorEntryEffect :
    (checking 0 1 false 42).phase = .check ∧
      checkJob 0 1 false (checking 0 1 false 42).jobLen.toNat (checking 0 1 false 42).msgMax (checking 0 1 false 42).spGrant =
        some .invalidInputLength ∧
      (checking 1 0 false 32769).phase = .check ∧
      (checking 1 0 false 32769).msgMax < (checking 1 0 false 32769).jobLen.toNat := ⟨rfl, by decide⟩

/-- A job that fails its check, and a reserved word in phase MIX. -/
theorem witness_ErrorsLeaveOutputsAlone :
    (CoreMoves (checking 0 5 false 0) ∧ StatusInv (checking 0 5 false 0) ∧ Inv (checking 0 5 false 0) ∧
        ∃ t, step (checking 0 5 false 0) = .next t ∧ t.err = true ∧ t.errcode = .badVariant) ∧
      (let s := { running with prog := Vector.replicate 71 7 }
       CoreMoves s ∧ StatusInv s ∧ ∃ t, step s = .next t ∧ t.err = true ∧ t.errcode = .internalFault) := by
  have h : StatusInv (checking 0 5 false 0) := by refine ⟨rfl, rfl, rfl, ?_⟩; decide
  refine ⟨⟨⟨rfl, rfl⟩, h, ⟨h, ?_, rfl, rfl, rfl⟩, _, rfl, rfl, rfl⟩, ⟨rfl, rfl⟩, ?_, _, rfl, rfl, rfl⟩
  · refine ⟨rfl, rfl, rfl, rfl, rfl, rfl⟩
  · refine ⟨rfl, rfl, rfl, ?_⟩; decide

/-- A running and an idle core, and a CTRL write with every bit set (for StartLatchesParameters, ClrReturnsToIdle,
ControlWriteOrder, InterruptFollowsStatus, RegisterBlockReadsAndWrites and BusyLockHoldsInputs). -/
theorem witness_HostCommands :
    (inPhase 0 .mix).busy = true ∧ State.reset.busy = false ∧ { State.reset with done := true }.done = true ∧
      (∃ t, step { State.reset with done := true, inputs := [.write 0 4 2] } = .next t) ∧
      (∃ t, step { State.reset with done := true, inputs := [.write 0 4 0] } = .next t) ∧
      (∃ t, exec (.start true true) State.reset = .next t) ∧ (∃ t, exec (.clr false true) State.reset = .next t) ∧
      (∃ t, step { State.reset with inputs := [.write 0 4 7] } = .next t) ∧
      ∃ t, CoreMoves (inMix 0 .iterEnd) ∧ step (inMix 0 .iterEnd) = .next t ∧ t.busy = true :=
  ⟨rfl, rfl, rfl, ⟨_, rfl⟩, ⟨_, rfl⟩, ⟨_, rfl⟩, ⟨_, rfl⟩, ⟨_, rfl⟩, _, ⟨rfl, rfl⟩, rfl, rfl⟩

/-- A width of 3, a misaligned word, a byte of the register block; the first and last reserved offsets of the window;
the first and last word of DIGEST. -/
theorem witness_RefusedAndReservedAccesses :
    RefusedAccess 0x8000 3 ∧ RefusedAccess 0x8002 4 ∧ RefusedAccess 0x20 1 ∧
      (∀ k, k < 4 → ReservedOffset State.reset (0x0C + k)) ∧ (∀ k, k < 4 → ReservedOffset State.reset (0x7FFC + k)) ∧
      (∀ k, k < 2 → ReservedOffset { State.reset with msgMaxExtra := 0 } (0x8000 + 200 + k)) ∧
      (0x100 ≤ (0x100 : BitVec 16).toNat ∧ (0x100 : BitVec 16).toNat + 4 ≤ 0x120) ∧
      (0x100 ≤ (0x11C : BitVec 16).toNat ∧ (0x11C : BitVec 16).toNat + 4 ≤ 0x120) := by
  refine ⟨?_, ?_, ?_, ?_, ?_, ?_, by decide, by decide⟩
  · exact .inl (by decide)
  · exact .inr (.inl (by decide))
  · exact .inr (.inr (by decide))
  · intro k hk; exact .inl ⟨by omega, by omega⟩
  · intro k hk; right; right; right; right; left; omega
  · intro k hk
    right; right; right; right; right
    show 0x8000 + (200 + 0) ≤ 0x8000 + 200 + k
    omega

/-- The last word of SW, and the last word of MSG; the last word of DIGEST; and with MSG_MAX = 201 a word that begins
with the last byte of MSG. -/
theorem witness_BufferWritesReadBack :
    State.reset.busy = false ∧ State.reset.msg.wf = true ∧ ¬ RefusedAccess 0x2C4 4 ∧ WritableBytes State.reset 0x2C4 4 ∧
      ¬ RefusedAccess 0xFFFC 4 ∧ WritableBytes State.reset 0xFFFC 4 ∧
      ({ State.reset with inputs := [.write 0xFFFC 4 0x01020304] } : State).inputs = .write 0xFFFC 4 0x01020304 :: [] ∧
      ¬ RefusedAccess 0x11C 4 ∧ 0x100 ≤ (0x11C : BitVec 16).toNat ∧
      (let s := { State.reset with msgMaxExtra := 1 }
       ¬ RefusedAccess 0x80C8 4 ∧ (0x80C8 : BitVec 16).toNat = 0x8000 + 200 ∧ 200 < s.msgMax ∧
         ReservedOffset s (0x80C8 + 1)) := by
  refine ⟨rfl, rfl, ?_, .inl (by decide), ?_, .inr (by decide), rfl, ?_, by decide, ?_, by decide, by decide, ?_⟩
  on_goal 5 => exact .inr (.inr (.inr (.inr (.inr (by decide)))))
  all_goals simp [RefusedAccess]

theorem witness_ResetClearsRegisters :
    ∃ t, step { inPhase 0 .mix with inputs := [.reset] } = .next t ∧ t.busy = false := ⟨_, rfl, rfl⟩

/-- One byte short of a block, and a whole block. -/
theorem witness_AbsorbPlacesEveryByte : 134 < 135 ∧ 135 % 136 = 135 ∧ 136 % 136 ≠ 135 ∧ 136 % 136 < 1 ∧ 1 < 135 := by
  decide

/-- A FAST_HASH job in each of its phases, with the longest message. -/
theorem witness_FastHashPhases :
    (checking 1 0 false 32768).jobLen.toNat ≤ (checking 1 0 false 32768).msgMax ∧
      (let s := { checking 1 0 false 32768 with phase := .absorb, blk := 240 }
       s.phase = .absorb ∧ s.blk < s.jobLen.toNat / 136 + 1) ∧
      (let s := { checking 1 0 false 32768 with phase := .absorb, blk := 241 }
       s.phase = .absorb ∧ s.jobLen.toNat / 136 + 1 ≤ s.blk) := by decide

/-- A SLOW_HASH job of variant 4 that passes its checks (for FastHashPhases' clauses about phase ABSORB). -/
theorem witness_SlowHashAbsorb :
    let s := checking 0 4 false 32768
    CoreMoves s ∧ s.phase = .check ∧ s.jobOp = 0 ∧ s.jobPrehashed = false ∧
      checkJob 0 s.jobVariant false s.jobLen.toNat s.msgMax s.spGrant = none ∧
      (let t := { s with phase := .absorb, blk := 240 }
       t.jobLen.toNat ≤ t.msgMax ∧ t.phase = .absorb ∧ t.blk < t.jobLen.toNat / 136 + 1) ∧
      (let t := { s with phase := .absorb, blk := 241 }
       t.phase = .absorb ∧ t.jobLen.toNat / 136 + 1 ≤ t.blk) := ⟨⟨rfl, rfl⟩, by decide⟩

theorem witness_FastHashDigest :
    CoreMoves (checking 1 0 false 32768) ∧ (checking 1 0 false 32768).phase = .check ∧
      (checking 1 0 false 32768).jobOp = 1 ∧
      (checking 1 0 false 32768).jobLen.toNat ≤ (checking 1 0 false 32768).msgMax := ⟨⟨rfl, rfl⟩, rfl, rfl, by decide⟩

theorem witness_KeccakPermuteJob :
    CoreMoves (checking 2 0 false 0) ∧ (checking 2 0 false 0).phase = .check ∧ (checking 2 0 false 0).jobOp = 2 ∧
      (inPhase 0 .permute).phase = .permute := ⟨⟨rfl, rfl⟩, rfl, rfl, rfl⟩

/-- The first, the RotWord, the SubWord and the last word of the schedule. -/
theorem witness_KeyExpansionRecurrence : 8 ≤ 8 ∧ 8 % 8 = 0 ∧ 12 % 8 = 4 ∧ 8 ≤ 39 ∧ 39 < 40 := by decide

/-- The phases of SLOW_HASH whose statements ask for the phase alone, with every variant. -/
theorem witness_SlowHashPhases :
    ∀ v : BitVec 3, (inPhase v .setup).phase = .setup ∧ (inPhase v .permute).phase = .permute ∧
      (inPhase v .extra).phase = .extra := fun _ => ⟨rfl, rfl, rfl⟩

/-- FILL and FINAL_FILL at their last group (for FillGroup and FinalizationSteps). -/
theorem witness_FillGroup :
    let s := { inPhase 0 .fill with g := 2 ^ 14 - 1 }
    s.phase = .fill ∧ s.g < 2 ^ 14 ∧ s.sp.wf = true ∧ { s with phase := .finalFill }.phase = .finalFill :=
  ⟨rfl, by decide, rfl, rfl⟩

/-- For FillContents and FillForgetsOldScratchpad: an old scratchpad with a byte in its last place. -/
theorem witness_FillContents :
    CoreMoves (inPhase 0 .fill) ∧ (inPhase 0 .fill).phase = .fill ∧ (inPhase 0 .fill).jobOp = 0 ∧
      (inPhase 0 .fill).g = 0 ∧ (inPhase 0 .fill).sp.wf = true ∧ (inPhase 0 .fill).sp.within (2 ^ 21) = true ∧
      Memory.wf [(2 ^ 21 - 1, 1)] = true ∧ Memory.within (2 ^ 21) [(2 ^ 21 - 1, 1)] = true :=
  ⟨⟨rfl, rfl⟩, rfl, rfl, rfl, rfl, rfl, by decide, by decide⟩

theorem witness_BlakePaddingFillsBlocks :
    55 % 64 = 55 ∧ 56 % 64 ≠ 55 ∧ 0 < 1 ∧ 1 + 9 < (blakePad 56).length ∧ 7 < 8 := by decide

/-- Every rule of an iteration that a statement starts from, and the last iteration (for MixLoadsAndProduct, MixStores,
ShuffleAddRotatesChunks, SecondFoldEffect and IntegerMathResult). -/
theorem witness_MixSteps :
    (∀ v m, (inMix v m).phase = .mix ∧ (inMix v m).mixStep = m ∧ (inMix v m).sp.wf = true) ∧
      { inMix 2 .half1Aes with i := 2 ^ 19 - 1 }.i < 2 ^ 19 ∧ (2 ≤ (2 : BitVec 3).toNat) ∧ (1 : BitVec 3).toNat < 2 ∧
      ((3 : BitVec 3) = 2 ∨ (3 : BitVec 3) = 3) ∧ ¬ ((4 : BitVec 3) = 2 ∨ (4 : BitVec 3) = 3) :=
  ⟨fun _ _ => ⟨rfl, rfl, rfl⟩, by decide⟩

theorem witness_IsqrtIsExact :
    (0 : W64).toNat ≤ (BitVec.ofNat 64 (2 ^ 64 - 1)).toNat ∧ (BitVec.ofNat 64 (2 ^ 32)).toNat ≤ 2 ^ 32 := by decide

theorem witness_IterationMatchesReference :
    let s := { inMix 0 .half1Aes with i := 2 ^ 19 - 1 }
    CoreMoves s ∧ s.phase = .mix ∧ s.mixStep = .half1Aes ∧ s.i < 2 ^ 19 ∧ s.jobOp = 0 ∧
      ∃ m, mixIteration s.jobVariant s.tweak12 s.prog s.mixRegs = some m :=
  ⟨⟨rfl, rfl⟩, rfl, rfl, by decide, rfl, _, rfl⟩

/-- The shortest message variant 1 takes, and a prehashed input. -/
theorem witness_SlowHashDigest :
    (∀ v p len, CoreMoves (checking 0 v p len) ∧ (checking 0 v p len).phase = .check ∧ (checking 0 v p len).jobOp = 0) ∧
      (1 : BitVec 3).toNat ≤ 3 ∧ (3 : BitVec 3).toNat ≤ 3 ∧
      checkJob 0 1 false (43 : W32).toNat State.reset.msgMax State.reset.spGrant = none ∧
      checkJob 0 3 true (200 : W32).toNat State.reset.msgMax State.reset.spGrant = none :=
  ⟨fun _ _ _ => ⟨⟨rfl, rfl⟩, rfl, rfl⟩, by decide⟩

theorem witness_SlowHashVariantFourDigest :
    let s := { running with phase := .fill }
    CoreMoves s ∧ s.phase = .fill ∧ s.g = 0 ∧ s.jobOp = 0 ∧ s.jobVariant = 4 ∧ ProgramInv s :=
  ⟨⟨rfl, rfl⟩, rfl, rfl, rfl, rfl, running_program⟩

/-- Two FAST_HASH jobs of the empty message that differ in the rest of the message, the scratchpad and SW: both run to
their end. Two SLOW_HASH jobs of the same kind. -/
theorem witness_JobsAreDeterministic :
    let s := checking 1 0 false 0
    let s' := { s with msg := [(0, 1)], sp := [(7, 1)], sw := Vector.replicate 200 9 }
    CoreMoves s ∧ CoreMoves s' ∧ s.phase = .check ∧ s'.phase = .check ∧ (s.jobOp = 0 ∨ s.jobOp = 1) ∧ SameJob s s' ∧
      s.sp.wf = true ∧ s'.sp.wf = true ∧ s.sp.within (2 ^ 21) = true ∧ s'.sp.within (2 ^ 21) = true ∧
      ∃ t, runs 3 s = .next t ∧ t.phase = .done := by
  refine ⟨⟨rfl, rfl⟩, ⟨rfl, rfl⟩, rfl, rfl, .inr rfl, ⟨rfl, rfl, rfl, rfl, rfl, rfl, rfl, ?_⟩, rfl, by decide, rfl,
    by decide, _, rfl, rfl⟩
  intro i hi
  exact absurd hi (by decide +revert)

/-- For HeightReachesOnlyVariantFour and VariantThreeIsVariantTwo. -/
theorem witness_WholeRuns :
    CoreMoves (checking 0 2 false 0) ∧ (checking 0 2 false 0).phase = .check ∧ (checking 0 2 false 0).jobOp = 0 ∧
      (checking 0 2 false 0).jobVariant = 2 ∧ (checking 0 2 false 0).jobVariant ≠ 4 ∧
      ∃ t, runs 2 (checking 0 2 false 0) = .next t ∧ t.phase = .absorb :=
  ⟨⟨rfl, rfl⟩, rfl, rfl, rfl, by decide, _, rfl, rfl⟩

/-- The invariant holds of a running job, and its next step moves to the next phase (for PhaseSequence,
StepKeepsInvariant and InvariantStepsNeverStop): FILL after its last group. -/
theorem witness_PhaseSequence :
    let s := { inPhase 2 .fill with g := 2 ^ 14, progress := 2 ^ 14 }
    Inv s ∧ CoreMoves s ∧ ∃ t, step s = .next t ∧ t.phase = .mix := by
  refine ⟨⟨⟨rfl, rfl, rfl, ?_⟩, ⟨rfl, rfl, rfl, rfl, rfl, rfl⟩, rfl, ?_⟩, ⟨rfl, rfl⟩, _, rfl, rfl⟩
  · decide
  · refine ⟨by decide, by decide, ⟨rfl, by decide, by decide, by decide, by decide, rfl⟩, fun h => ?_⟩
    exact absurd h (by decide)

end Sys2Proof.Tests
end

section
/-! PROOFS. Accesses of the host window that have no effect: the ones R64 refuses, the ones to reserved offsets
(R63, R90), and writes to DIGEST (R26). -/

namespace Sys2Proof.Machine

/-- A byte of the window that takes no write: a reserved one (R63) or one of DIGEST (R26). -/
def IgnoresWrites (s : State) (off : Nat) : Prop := ReservedOffset s off ∨ (0x100 ≤ off ∧ off < 0x120)

/-- An access that R64 refuses is not legal. -/
theorem accessLegal_of_refused {off : BitVec 16} {w : Nat} (h : RefusedAccess off w) : accessLegal off w = false := by
  rw [Bool.eq_false_iff]
  intro hl
  simp only [accessLegal, Bool.and_eq_true, Bool.or_eq_true, decide_eq_true_eq] at hl
  obtain ⟨⟨hw, ha⟩, hr⟩ := hl
  rcases h with hw' | ha' | ⟨hblock, hw4⟩
  · exact hw' hw
  · exact ha' ha
  · rcases hr with hr | hr
    · omega
    · exact hw4 hr

/-! ## Reads -/

/-- No register stands at a reserved offset of the register block. -/
theorem State.hostRegister_of_reserved {s : State} {off : Nat} (h : ReservedOffset s off) : s.hostRegister off = 0 := by
  unfold State.hostRegister
  split
  case h_8 => rfl
  all_goals exact absurd h (by unfold ReservedOffset; omega)

/-- No buffer byte stands at a reserved offset. -/
theorem State.hostByte_of_reserved {s : State} {off : Nat} (h : ReservedOffset s off) : s.hostByte off = 0 := by
  unfold ReservedOffset at h
  unfold State.hostByte
  rw [if_neg (by omega), if_neg (by omega), if_neg (by omega)]

/-- Bytes that are all 0 stand for the number 0. -/
theorem leNat_eq_zero : ∀ {bs : List Byte}, (∀ b ∈ bs, b = 0) → leNat bs = 0
  | [], _ => rfl
  | b :: bs, h => by
    rw [leNat, h b List.mem_cons_self, leNat_eq_zero fun c hc => h c (List.mem_cons_of_mem b hc)]
    rfl

theorem State.hostRead_of_refused {s : State} {off : BitVec 16} {w : Nat} (h : RefusedAccess off w) :
    s.hostRead off w = 0 := by
  simp [State.hostRead, accessLegal_of_refused h]

theorem State.hostRead_of_reserved {s : State} {off : BitVec 16} {w : Nat}
    (h : ∀ k, k < w → ReservedOffset s (off.toNat + k)) : s.hostRead off w = 0 := by
  by_cases href : RefusedAccess off w
  · exact State.hostRead_of_refused href
  · obtain ⟨hl, hw, -⟩ := accessLegal_of_not_refused href
    rw [State.hostRead, if_pos hl]
    split
    · exact State.hostRegister_of_reserved (h 0 (by omega))
    · have hz : leNat ((List.range w).map fun k => s.hostByte (off.toNat + k)) = 0 := by
        refine leNat_eq_zero fun b hb => ?_
        obtain ⟨k, hk, rfl⟩ := List.mem_map.1 hb
        exact State.hostByte_of_reserved (h k (List.mem_range.1 hk))
      rw [hz]
      rfl

/-! ## Writes -/

/-- No register stands at a reserved offset of the register block. -/
theorem State.writeRegister_of_reserved {s : State} {off : Nat} {v : W32} (h : ReservedOffset s off) :
    s.writeRegister off v = s := by
  unfold State.writeRegister
  split
  case h_6 => rfl
  all_goals exact absurd h (by unfold ReservedOffset; omega)

/-- Only SW and MSG take a byte. -/
theorem State.writeByte_of_ignored {s : State} {off : Nat} {b : Byte} (h : IgnoresWrites s off) :
    s.writeByte off b = s := by
  unfold IgnoresWrites ReservedOffset at h
  unfold State.writeByte
  split
  · rfl
  · rw [if_neg (by omega), if_neg (by omega)]

/-- Bytes that take no write leave the state as it is, whatever their number. -/
theorem State.writeBytes_of_ignored {s : State} {off : Nat} {f : Nat → Byte} :
    ∀ {n : Nat}, (∀ k, k < n → IgnoresWrites s (off + k)) →
      (List.range n).foldl (fun t k => t.writeByte (off + k) (f k)) s = s
  | 0, _ => rfl
  | n + 1, h => by
    rw [List.range_succ, List.foldl_append, State.writeBytes_of_ignored fun k hk => h k (by omega)]
    exact State.writeByte_of_ignored (h n (by omega))

theorem State.hostWrite_of_refused {s : State} {off : BitVec 16} {w : Nat} {v : W32} (h : RefusedAccess off w) :
    s.hostWrite off w v = s := by
  simp [State.hostWrite, accessLegal_of_refused h]

theorem State.hostWrite_of_ignored {s : State} {off : BitVec 16} {w : Nat} {v : W32}
    (h : ∀ k, k < w → IgnoresWrites s (off.toNat + k)) : s.hostWrite off w v = s := by
  by_cases href : RefusedAccess off w
  · exact State.hostWrite_of_refused href
  · obtain ⟨hl, hw, -⟩ := accessLegal_of_not_refused href
    rw [State.hostWrite, if_pos hl]
    split
    · rcases h 0 (by omega) with hres | hdigest
      · exact State.writeRegister_of_reserved hres
      · omega
    · exact State.writeBytes_of_ignored h

/-- Only a write of CTRL can carry a command (R91). -/
theorem hostCommand_of_not_ctrl {off : BitVec 16} {w : Nat} {v : W32} (h : ¬ (off = 0 ∧ w = 4)) :
    hostCommand off w v = none := if_neg h

/-- A pending host write that is not to CTRL is the plain write of the window. -/
theorem step_of_plain_write {s : State} {off : BitVec 16} {w : Nat} {v : W32} {rest : List Input}
    (hc : ¬ (off = 0 ∧ w = 4)) (hin : s.inputs = .write off w v :: rest) :
    step s = .next (State.hostWrite off w v { s with inputs := rest }) := by
  simp only [step, State.nextAction, hin, State.inputAction, hostCommand_of_not_ctrl hc]

/-- A write of CTRL is a legal access. -/
theorem not_ctrl_of_refused {off : BitVec 16} {w : Nat} (h : RefusedAccess off w) : ¬ (off = 0 ∧ w = 4) := by
  rintro ⟨rfl, rfl⟩
  simp [RefusedAccess] at h

/-- CTRL takes writes. -/
theorem not_ctrl_of_ignored {s : State} {off : BitVec 16} {w : Nat}
    (h : ∀ k, k < w → IgnoresWrites s (off.toNat + k)) : ¬ (off = 0 ∧ w = 4) := by
  rintro ⟨rfl, rfl⟩
  have h0 : IgnoresWrites s 0 := h 0 (by omega)
  unfold IgnoresWrites ReservedOffset at h0
  omega

theorem step_of_refused_write {s : State} {off : BitVec 16} {w : Nat} {v : W32} {rest : List Input}
    (h : RefusedAccess off w) (hin : s.inputs = .write off w v :: rest) : step s = .next { s with inputs := rest } := by
  rw [step_of_plain_write (not_ctrl_of_refused h) hin, State.hostWrite_of_refused h]

theorem step_of_ignored_write {s : State} {off : BitVec 16} {w : Nat} {v : W32} {rest : List Input}
    (h : ∀ k, k < w → IgnoresWrites s (off.toNat + k)) (hin : s.inputs = .write off w v :: rest) :
    step s = .next { s with inputs := rest } := by
  rw [step_of_plain_write (not_ctrl_of_ignored h) hin]
  exact congrArg _ (State.hostWrite_of_ignored h)

/-- Settles O26: a refused access is not legal, and at a reserved offset, or for a write in DIGEST, no register and no
byte of a buffer answers. -/
theorem refusedAndReservedAccesses : Obligations.RefusedAndReservedAccesses := by
  unfold Obligations.RefusedAndReservedAccesses
  intro s off width v rest
  constructor
  · rintro (href | hres)
    · exact State.hostRead_of_refused href
    · exact State.hostRead_of_reserved hres
  · rintro (href | hres | ⟨hlo, hhi⟩) hin
    · exact step_of_refused_write href hin
    · exact step_of_ignored_write (fun k hk => .inl (hres k hk)) hin
    · exact step_of_ignored_write (fun k hk => .inr ⟨by omega, by omega⟩) hin

end Sys2Proof.Machine
end

section
/-! PROOFS. The Keccak unit (spec/40_keccak.md): the steps of a round lane by lane (R132 to R136), that each step is
injective and with it the bijection of R138, and the bytes of an absorbed block (R140, R141). -/

namespace Sys2Proof.Machine

/-! ## Lanes -/

@[simp] theorem lane_lanesOf (f : Fin 5 → Fin 5 → W64) (x y : Fin 5) : lane (lanesOf f) x y = f x y := by
  have hx : (x.val + 5 * y.val) % 5 = x.val := by omega
  have hy : (x.val + 5 * y.val) / 5 = y.val := by omega
  simp only [lane, lanesOf, Vector.getElem_ofFn, hx, hy]

/-- Two lane views with the same A[x, y] everywhere are equal (R130). -/
theorem lanes_ext {A B : Lanes} (h : ∀ x y, lane A x y = lane B x y) : A = B := by
  apply Vector.ext
  intro i hi
  have hxy := h ⟨i % 5, by omega⟩ ⟨i / 5, by omega⟩
  simpa only [lane, Nat.mod_add_div] using hxy

/-- C[x] of theta (R132). -/
def columnParity (A : Lanes) (x : Fin 5) : W64 :=
  lane A x 0 ^^^ lane A x 1 ^^^ lane A x 2 ^^^ lane A x 3 ^^^ lane A x 4

theorem lane_theta (A : Lanes) (x y : Fin 5) :
    lane (theta A) x y = lane A x y ^^^ (columnParity A (x - 1) ^^^ (columnParity A (x + 1)).rotateLeft 1) := by
  simp [theta, thetaD, thetaC, columnParity]

/-- R134 in the direction of the rule: A[x, y] goes to B[y, 2x + 3y]. -/
theorem lane_rhoPi (A : Lanes) (x y : Fin 5) :
    lane (rhoPi A) y (2 * x + 3 * y) = (lane A x y).rotateLeft (rho x y) := by
  have hx : y + 3 * (2 * x + 3 * y) = x := by revert x y; decide
  rw [rhoPi, lane_lanesOf, hx]

/-- Chi of three neighbours in a row (R135). -/
def chiLane (a b c : W64) : W64 := a ^^^ (~~~ b &&& c)

theorem lane_chi (A : Lanes) (x y : Fin 5) :
    lane (chi A) x y = chiLane (lane A x y) (lane A (x + 1) y) (lane A (x + 2) y) := by
  rw [chi, lane_lanesOf, chiLane]

theorem lane_iota (rc : W64) (A : Lanes) (x y : Fin 5) :
    lane (iota rc A) x y = if x = 0 ∧ y = 0 then lane A x y ^^^ rc else lane A x y := by
  by_cases h : x = 0 ∧ y = 0
  · obtain ⟨rfl, rfl⟩ := h
    simp [lane, iota]
  · have hi : ¬ 0 = x.val + 5 * y.val := by omega
    rw [if_neg h, lane, iota, Vector.getElem_set, if_neg hi, lane]

/-- Settles O29, one lemma for each step of the round. -/
theorem keccakStepsByLane : Obligations.KeccakStepsByLane := by
  unfold Obligations.KeccakStepsByLane
  intro A x y rc
  exact ⟨lane_theta A x y, lane_rhoPi A x y, lane_chi A x y, lane_iota rc A x y⟩

/-! ## Rotations -/

/-- Bit i of a rotated word is the bit `r` places below it, around the word. -/
theorem getLsbD_rotateLeft (v : W64) (r : Nat) {i : Nat} (hi : i < 64) :
    (v.rotateLeft r).getLsbD i = v.getLsbD ((i + (64 - r % 64)) % 64) := by
  rw [BitVec.getLsbD_rotateLeft]
  by_cases h : i < r % 64
  · have hidx : (i + (64 - r % 64)) % 64 = 64 - r % 64 + i := by omega
    simp [h, hidx]
  · have hidx : (i + (64 - r % 64)) % 64 = i - r % 64 := by omega
    simp [h, hi, hidx]

theorem rotateLeft_xor (v w : W64) (r : Nat) : (v ^^^ w).rotateLeft r = v.rotateLeft r ^^^ w.rotateLeft r := by
  refine BitVec.eq_of_getLsbD_eq fun i hi => ?_
  simp only [BitVec.getLsbD_xor, getLsbD_rotateLeft _ r hi]

theorem rotateLeft_rotateLeft (v : W64) (r t : Nat) : (v.rotateLeft r).rotateLeft t = v.rotateLeft (r + t) := by
  refine BitVec.eq_of_getLsbD_eq fun i hi => ?_
  rw [getLsbD_rotateLeft _ t hi, getLsbD_rotateLeft _ r (by omega), getLsbD_rotateLeft _ (r + t) hi]
  congr 1
  omega

/-- A rotation by a whole number of turns changes nothing. -/
theorem rotateLeft_of_mod_eq_zero (v : W64) {r : Nat} (h : r % 64 = 0) : v.rotateLeft r = v := by
  refine BitVec.eq_of_getLsbD_eq fun i hi => ?_
  have hidx : (i + (64 - r % 64)) % 64 = i := by omega
  rw [getLsbD_rotateLeft _ r hi, hidx]

theorem rotateLeft_injective (r : Nat) : Function.Injective fun v : W64 => v.rotateLeft r := by
  intro v w h
  have hturn : (r + (64 - r % 64)) % 64 = 0 := by omega
  have hback : ∀ u : W64, (u.rotateLeft r).rotateLeft (64 - r % 64) = u := fun u => by
    rw [rotateLeft_rotateLeft, rotateLeft_of_mod_eq_zero u hturn]
  rw [← hback v, ← hback w]
  exact congrArg (fun u : W64 => u.rotateLeft (64 - r % 64)) h

/-! ## Theta is injective

Theta maps the five column parities by `spread 1 1` (`columnParity_theta`). Over the two-element field the square of a
sum is the sum of the squares, so `spread a r` twice is `spread (2 * a) (2 * r)`: six squarings of `spread 1 1` give
`spread 4 64`, which rotates by a whole turn and has its own square as its inverse. -/

/-- Each word with its neighbour `a` places below and the rotated one `a` places above. -/
def spread (a : Fin 5) (r : Nat) (C : Fin 5 → W64) (x : Fin 5) : W64 :=
  C x ^^^ C (x - a) ^^^ (C (x + a)).rotateLeft r

theorem xor_left_comm (u v w : W64) : u ^^^ (v ^^^ w) = v ^^^ (u ^^^ w) := by
  rw [← BitVec.xor_assoc, BitVec.xor_comm u v, BitVec.xor_assoc]

/-- With the words of a sum in order, it removes each that stands there twice. -/
theorem xor_xor_cancel_left (v w : W64) : v ^^^ (v ^^^ w) = w := by
  rw [← BitVec.xor_assoc, BitVec.xor_self, BitVec.zero_xor]

/-- The five lanes of a column take the same word, which stays once. -/
theorem columnParity_theta (A : Lanes) : columnParity (theta A) = spread 1 1 (columnParity A) := by
  funext x
  rw [columnParity]
  simp only [lane_theta, spread]
  generalize columnParity A (x - 1) = p, (columnParity A (x + 1)).rotateLeft 1 = q
  simp only [columnParity, BitVec.xor_assoc, BitVec.xor_comm, xor_left_comm, xor_xor_cancel_left]

/-- Whatever comes from below and from above in one step comes back to its place twice and cancels. -/
theorem spread_spread (a : Fin 5) (r : Nat) (C : Fin 5 → W64) :
    spread a r (spread a r C) = spread (2 * a) (2 * r) C := by
  funext x
  have hdown : x - a - a = x - 2 * a := by revert x a; decide
  have hup : x + a + a = x + 2 * a := by revert x a; decide
  simp only [spread, rotateLeft_xor, rotateLeft_rotateLeft, hdown, hup, sub_add_cancel, add_sub_cancel_right,
    ← two_mul]
  simp only [BitVec.xor_assoc, BitVec.xor_comm, xor_left_comm, xor_xor_cancel_left]

theorem spread_injective_of_double {a : Fin 5} {r : Nat} (h : Function.Injective (spread (2 * a) (2 * r))) :
    Function.Injective (spread a r) := by
  have hsq : spread a r ∘ spread a r = spread (2 * a) (2 * r) := funext (spread_spread a r)
  exact Function.Injective.of_comp (hsq ▸ h)

/-- The cube of `spread 4 64` is the identity; `spread 3 128` is its square, the indices being mod 5. -/
theorem spread_four_leftInverse : Function.LeftInverse (spread 3 128) (spread 4 64) := by
  intro C
  funext x
  have hturn : ∀ v : W64, v.rotateLeft 64 = v ∧ v.rotateLeft 128 = v := fun v =>
    ⟨rotateLeft_of_mod_eq_zero v rfl, rotateLeft_of_mod_eq_zero v rfl⟩
  have hneg : ∀ z : Fin 5, z - 3 = z + 2 ∧ z - 4 = z + 1 := by decide
  simp [spread, hturn, hneg, add_assoc, BitVec.xor_assoc, BitVec.xor_comm, xor_left_comm]

theorem spread_one_injective : Function.Injective (spread 1 1) := by
  have h64 : Function.Injective (spread 4 64) := spread_four_leftInverse.injective
  have h32 : Function.Injective (spread 2 32) := spread_injective_of_double h64
  have h16 : Function.Injective (spread 1 16) := spread_injective_of_double h32
  have h8 : Function.Injective (spread 3 8) := spread_injective_of_double h16
  have h4 : Function.Injective (spread 4 4) := spread_injective_of_double h8
  have h2 : Function.Injective (spread 2 2) := spread_injective_of_double h4
  exact spread_injective_of_double h2

theorem theta_injective : Function.Injective theta := by
  intro A B h
  have hC : columnParity A = columnParity B :=
    spread_one_injective (by rw [← columnParity_theta, ← columnParity_theta, h])
  refine lanes_ext fun x y => ?_
  have hxy : lane (theta A) x y = lane (theta B) x y := by rw [h]
  rwa [lane_theta, lane_theta, hC, BitVec.xor_left_inj] at hxy

/-! ## The other steps are injective -/

theorem rhoPi_injective : Function.Injective rhoPi := by
  intro A B h
  refine lanes_ext fun x y => rotateLeft_injective (rho x y) ?_
  simp only [← lane_rhoPi, h]

/-- A lane before chi, from the five lanes of its row after chi: chi's own formula, nested once. -/
theorem chiLane_inverse (a b c d e : W64) :
    chiLane (chiLane a b c) (chiLane b c d) (chiLane (chiLane c d e) (chiLane d e a) (chiLane e a b)) = a := by
  have hbit : ∀ a b c d e : Bool, ((a ^^ (!b && c)) ^^ (!(b ^^ (!c && d)) &&
      ((c ^^ (!d && e)) ^^ (!(d ^^ (!e && a)) && (e ^^ (!a && b)))))) = a := by decide
  ext i hi
  simp only [chiLane, BitVec.getElem_xor, BitVec.getElem_and, BitVec.getElem_not, hbit]

theorem lane_eq_of_chi (A : Lanes) (x y : Fin 5) :
    lane A x y = chiLane (lane (chi A) x y) (lane (chi A) (x + 1) y)
      (chiLane (lane (chi A) (x + 2) y) (lane (chi A) (x + 3) y) (lane (chi A) (x + 4) y)) := by
  have h := chiLane_inverse (lane A x y) (lane A (x + 1) y) (lane A (x + 2) y) (lane A (x + 3) y) (lane A (x + 4) y)
  simpa [lane_chi, add_assoc] using h.symm

theorem chi_injective : Function.Injective chi := by
  intro A B h
  refine lanes_ext fun x y => ?_
  rw [lane_eq_of_chi A, lane_eq_of_chi B, h]

theorem iota_injective (rc : W64) : Function.Injective (iota rc) := by
  intro A B h
  refine lanes_ext fun x y => ?_
  have hxy : lane (iota rc A) x y = lane (iota rc B) x y := by rw [h]
  rw [lane_iota, lane_iota] at hxy
  split at hxy
  · exact (BitVec.xor_left_inj rc).1 hxy
  · exact hxy

theorem keccakRound_injective (rc : W64) : Function.Injective fun A => keccakRound A rc :=
  (iota_injective rc).comp (chi_injective.comp (rhoPi_injective.comp theta_injective))

/-! ## The permutation -/

theorem foldl_injective {α β : Type} {f : α → β → α} (hf : ∀ b, Function.Injective fun a => f a b) :
    ∀ bs : List β, Function.Injective fun a => bs.foldl f a
  | [] => Function.injective_id
  | b :: bs => (foldl_injective hf bs).comp (hf b)

theorem keccakF_injective : Function.Injective keccakF := by
  have h := foldl_injective keccakRound_injective roundConstants
  intro A B hAB
  unfold keccakF at hAB
  exact h hAB

theorem finite_byteVector (n : Nat) : Finite (Vector Byte n) :=
  Finite.of_injective (fun (B : Vector Byte n) (i : Fin n) => B[i]) fun _ _ h =>
    Vector.ext fun i hi => congrFun h ⟨i, hi⟩

/-- KeccakF on the byte view is injective, so it is a bijection of the finitely many 200-byte strings. -/
theorem keccakF_bytes_bijective :
    Function.Bijective fun B : Vector Byte 200 => bytesOfLanes (keccakF (lanesOfBytes B)) := by
  have := finite_byteVector 200
  have hbytes : Function.Injective bytesOfLanes := Function.LeftInverse.injective lanes_bytes
  have hlanes : Function.Injective lanesOfBytes := Function.LeftInverse.injective bytes_lanes
  exact Finite.injective_iff_bijective.1 (hbytes.comp (keccakF_injective.comp hlanes))

/-- Settles O30: every step of a round is injective, so KeccakF is, and the 200-byte strings are finitely many. -/
theorem keccakPermutes : Obligations.KeccakPermutes := by
  unfold Obligations.KeccakPermutes
  refine ⟨fun A => ?_, rfl, keccakF_bytes_bijective⟩
  unfold keccakF
  rfl

/-! ## The absorb -/

theorem byteOf_xor {n : Nat} (v w : BitVec n) (k : Nat) : byteOf (v ^^^ w) k = byteOf v k ^^^ byteOf w k :=
  BitVec.extractLsb'_xor

/-- XOR into the rate, byte by byte (R140). -/
theorem bytesOfLanes_xorRate (S : Lanes) (p : Nat → Byte) (i : Fin 200) :
    (bytesOfLanes (xorRate S p))[i] =
      if i.val < 136 then (bytesOfLanes S)[i] ^^^ p i.val else (bytesOfLanes S)[i] := by
  simp only [Fin.getElem_fin, bytesOfLanes_get, xorRate, Vector.getElem_ofFn]
  by_cases h : i.val < 136
  · have hlane : i.val / 8 < 17 := by omega
    have hbyte : 8 * (i.val / 8) + i.val % 8 = i.val := by omega
    rw [if_pos h, if_pos hlane, byteOf_xor, byte_word64 _ _ (by omega), hbyte]
  · have hlane : ¬ i.val / 8 < 17 := by omega
    rw [if_neg h, if_neg hlane]

theorem absorbByte_of_message {msg : Nat → Byte} {L k j : Nat} (hj : rate * k + j < L)
    (hlast : ¬ (k = L / rate ∧ j = rate - 1)) : absorbByte msg L k j = msg (rate * k + j) := by
  simp only [absorbByte, if_pos hj, if_neg hj.ne, if_neg hlast]

theorem absorbByte_of_end {msg : Nat → Byte} {L j : Nat} (hj : rate * (L / rate) + j = L) :
    absorbByte msg L (L / rate) j = if j = rate - 1 then 0x81 else 0x01 := by
  simp only [absorbByte, if_pos hj, if_neg hj.not_lt, true_and]
  rfl

theorem absorbByte_of_past_end {msg : Nat → Byte} {L j : Nat} (hj : L < rate * (L / rate) + j) :
    absorbByte msg L (L / rate) j = if j = rate - 1 then 0x80 else 0 := by
  simp only [absorbByte, if_neg hj.ne', if_neg hj.not_gt, true_and]
  rfl

/-- Settles O31: a byte of a block lies before, at or after the end of the message, and is byte 135 or not. -/
theorem absorbPlacesEveryByte : Obligations.AbsorbPlacesEveryByte := by
  unfold Obligations.AbsorbPlacesEveryByte
  intro msg L
  have hend : rate * (L / rate) + L % rate = L := Nat.div_add_mod L rate
  have hpast : ∀ j, L % 136 < j → L < rate * (L / rate) + j := fun j hj => by
    rw [rate]
    omega
  refine ⟨rfl, fun i hi => ?_, fun hL => ?_, fun hL => ⟨?_, ?_, fun j hj hj' => ?_⟩, bytesOfLanes_xorRate⟩
  · have hi' : 136 * (i / 136) + i % 136 = i := Nat.div_add_mod i 136
    refine (absorbByte_of_message ?_ ?_).trans (congrArg msg hi') <;> rw [rate] <;> omega
  · exact (absorbByte_of_end (hL ▸ hend)).trans (if_pos rfl)
  · exact (absorbByte_of_end hend).trans (if_neg hL)
  · exact (absorbByte_of_past_end (hpast 135 (by omega))).trans (if_pos rfl)
  · exact (absorbByte_of_past_end (hpast j hj)).trans (if_neg hj'.ne)

end Sys2Proof.Machine
end

section
/-! PROOFS. The AES unit (spec/41_aes.md): the round byte by byte (R163 to R166) and the key schedule word by word
(R162). -/

namespace Sys2Proof.Machine

/-! ## The bytes of a block -/

/-- Byte k of the number a byte string stands for is byte k of the string. -/
theorem leNat_div_mod (k : Nat) : ∀ bs : List Byte, leNat bs / 256 ^ k % 256 = (bs.getD k 0).toNat := by
  induction k with
  | zero =>
    rintro (_ | ⟨b, bs⟩)
    · rfl
    · have := b.isLt
      simp only [leNat, List.getD_cons_zero]
      omega
  | succ k ih =>
    rintro (_ | ⟨b, bs⟩)
    · simp [leNat]
    · have := b.isLt
      have htail : (b.toNat + 256 * leNat bs) / 256 = leNat bs := by omega
      rw [leNat, Nat.pow_succ', ← Nat.div_div_eq_div_mul, htail, ih, List.getD_cons_succ]

theorem byteOf_blockOf (f : Nat → Byte) {k : Nat} (hk : k < 16) : byteOf (blockOf f) k = f k := by
  apply BitVec.eq_of_toNat_eq
  have hsplit : 2 ^ 128 = 256 ^ k * 256 ^ (16 - k) := by
    rw [← Nat.pow_add, Nat.add_sub_cancel' hk.le]
    rfl
  have hdvd : 256 ∣ 256 ^ (16 - k) := dvd_pow_self 256 (by omega)
  rw [toNat_byteOf, blockOf, BitVec.toNat_ofNat, Nat.pow_mul, hsplit, Nat.mod_mul_right_div_self,
    Nat.mod_mod_of_dvd _ hdvd, leNat_div_mod]
  simp [hk]

/-! ## The round -/

theorem byteOf_subBytes (X : Block) {k : Nat} (hk : k < 16) : byteOf (subBytes X) k = sbox (byteOf X k) :=
  byteOf_blockOf _ hk

theorem byteOf_shiftRows (X : Block) {r c : Nat} (hr : r < 4) (hc : c < 4) :
    byteOf (shiftRows X) (r + 4 * c) = byteOf X (r + 4 * ((c + r) % 4)) := by
  have hrow : (r + 4 * c) % 4 = r := by omega
  have hcol : (r + 4 * c) / 4 = c := by omega
  rw [shiftRows, byteOf_blockOf _ (by omega), hrow, hcol]

/-- Row r of MixColumns for a column with the bytes `a` (R165). -/
def mixRow (a : Nat → Byte) (r : Nat) : Byte :=
  gf2 (a (r % 4)) ^^^ gf3 (a ((r + 1) % 4)) ^^^ a ((r + 2) % 4) ^^^ a ((r + 3) % 4)

theorem byteOf_mixColumns (X : Block) {r c : Nat} (hr : r < 4) (hc : c < 4) :
    byteOf (mixColumns X) (r + 4 * c) = mixRow (fun n => byteOf X (n + 4 * c)) r := by
  have hrow : (r + 4 * c) % 4 = r := by omega
  have hcol : (r + 4 * c) / 4 = c := by omega
  rw [mixColumns, byteOf_blockOf _ (by omega), hrow, hcol]
  rfl

theorem mixRow_zero (a : Nat → Byte) : mixRow a 0 = gf2 (a 0) ^^^ gf3 (a 1) ^^^ a 2 ^^^ a 3 := rfl

theorem mixRow_one (a : Nat → Byte) : mixRow a 1 = a 0 ^^^ gf2 (a 1) ^^^ gf3 (a 2) ^^^ a 3 := by
  change gf2 (a 1) ^^^ gf3 (a 2) ^^^ a 3 ^^^ a 0 = _
  ac_rfl

theorem mixRow_two (a : Nat → Byte) : mixRow a 2 = a 0 ^^^ a 1 ^^^ gf2 (a 2) ^^^ gf3 (a 3) := by
  change gf2 (a 2) ^^^ gf3 (a 3) ^^^ a 0 ^^^ a 1 = _
  ac_rfl

theorem mixRow_three (a : Nat → Byte) : mixRow a 3 = gf3 (a 0) ^^^ a 1 ^^^ a 2 ^^^ gf2 (a 3) := by
  change gf2 (a 3) ^^^ gf3 (a 0) ^^^ a 1 ^^^ a 2 = _
  ac_rfl

/-- Byte r of the column c that MixColumns reads: the S-box value of the byte ShiftRows brings there (R163, R164). -/
def shiftedByte (X : Block) (c r : Nat) : Byte := sbox (byteOf X (r + 4 * ((c + r) % 4)))

theorem byteOf_shiftRows_subBytes (X : Block) {r c : Nat} (hr : r < 4) (hc : c < 4) :
    byteOf (shiftRows (subBytes X)) (r + 4 * c) = shiftedByte X c r := by
  rw [byteOf_shiftRows _ hr hc, byteOf_subBytes _ (by omega), shiftedByte]

/-- MixColumns reads four bytes of the column. -/
theorem mixRow_congr {a b : Nat → Byte} (h : ∀ n, n < 4 → a n = b n) (r : Nat) : mixRow a r = mixRow b r := by
  have hmod : ∀ n, a (n % 4) = b (n % 4) := fun n => h _ (Nat.mod_lt n (by decide))
  simp only [mixRow, hmod]

theorem byteOf_aesRound (X K : Block) {r c : Nat} (hr : r < 4) (hc : c < 4) :
    byteOf (aesRound X K) (r + 4 * c) = mixRow (shiftedByte X c) r ^^^ byteOf K (r + 4 * c) := by
  unfold aesRound
  rw [byteOf_xor, byteOf_mixColumns _ hr hc, mixRow_congr fun n hn => byteOf_shiftRows_subBytes X hn hc]

theorem byteOf_aesRound_xor_key (X K : Block) {r c : Nat} (hr : r < 4) (hc : c < 4) :
    byteOf (aesRound X K) (r + 4 * c) ^^^ byteOf K (r + 4 * c) = mixRow (shiftedByte X c) r := by
  rw [byteOf_aesRound X K hr hc, BitVec.xor_assoc, BitVec.xor_self, BitVec.xor_zero]

/-- Doubling tests the top bit by its index; the rule tests it by a mask (R165). -/
theorem gf2_eq_mask : ∀ v : Byte, gf2 v = (v <<< 1) ^^^ (if v &&& 0x80#8 = 0 then 0#8 else 0x1B#8) := by decide

/-- Settles O35: byte r of the column is row r of MixColumns' matrix, applied to the shifted bytes. -/
theorem aesRoundByBytes : Obligations.AesRoundByBytes := by
  unfold Obligations.AesRoundByBytes
  intro X K c two three a out
  have hgf2 : gf2 = two := funext gf2_eq_mask
  have hgf3 : gf3 = three := funext fun v => by rw [gf3, hgf2]
  have hout : ∀ r, r < 4 → out r = mixRow a r := fun r hr => byteOf_aesRound_xor_key X K hr c.isLt
  rw [hout 0 (by decide), hout 1 (by decide), hout 2 (by decide), hout 3 (by decide), ← hgf2, ← hgf3]
  exact ⟨mixRow_zero a, mixRow_one a, mixRow_two a, mixRow_three a⟩

/-! ## The words of the key schedule -/

/-- The recurrence of R162 at every word from w[8] on. -/
def Expanded (w : List W32) : Prop :=
  ∀ i, 8 ≤ i → i < w.length → w.getD i 0 = w.getD (i - 8) 0 ^^^ expandT i (w.getD (i - 1) 0)

theorem expanded_of_length_le {w : List W32} (h : w.length ≤ 8) : Expanded w := fun _ hi hlt => by omega

theorem Expanded.append {w : List W32} (h : Expanded w) :
    Expanded (w ++ [w.getD (w.length - 8) 0 ^^^ expandT w.length (w.getD (w.length - 1) 0)]) := by
  intro i hi hlt
  rw [List.length_append, List.length_singleton] at hlt
  rw [List.getD_append _ _ _ (i - 8) (by omega), List.getD_append _ _ _ (i - 1) (by omega)]
  rcases Nat.lt_succ_iff_lt_or_eq.1 hlt with hold | rfl
  · rw [List.getD_append _ _ _ i hold, h i hi hold]
  · rw [List.getD_append_right _ _ _ _ le_rfl, Nat.sub_self, List.getD_cons_zero]

theorem Expanded.expandWords : ∀ (n : Nat) {w : List W32}, Expanded w → Expanded (expandWords n w)
  | 0, _, h => h
  | n + 1, _, h => h.append.expandWords n

theorem length_expandWords : ∀ (n : Nat) (w : List W32), (expandWords n w).length = w.length + n
  | 0, _ => rfl
  | n + 1, w => by
    rw [expandWords, length_expandWords n, List.length_append, List.length_singleton]
    omega

/-- The expansion appends: the words it starts from stay. -/
theorem expandWords_getD : ∀ (n : Nat) (w : List W32) {i : Nat}, i < w.length →
    (expandWords n w).getD i 0 = w.getD i 0
  | 0, _, _, _ => rfl
  | n + 1, w, i, hi => by
    rw [expandWords, expandWords_getD n _ (by rw [List.length_append]; omega), List.getD_append _ _ _ _ hi]

/-! ## The words of a block -/

theorem lo64_mkBlock (lo hi : W64) : lo64 (mkBlock lo hi) = lo := BitVec.extractLsb'_append_eq_right

theorem hi64_mkBlock (lo hi : W64) : hi64 (mkBlock lo hi) = hi := BitVec.extractLsb'_append_eq_left

theorem mkBlock_lo64_hi64 (X : Block) : mkBlock (lo64 X) (hi64 X) = X := BitVec.extractLsb'_append_extractLsb'

theorem lo32_mk64 (low high : W32) : lo32 (mk64 low high) = low := BitVec.extractLsb'_append_eq_right

theorem hi32_mk64 (low high : W32) : hi32 (mk64 low high) = high := BitVec.extractLsb'_append_eq_left

theorem mk64_lo32_hi32 (v : W64) : mk64 (lo32 v) (hi32 v) = v := BitVec.extractLsb'_append_extractLsb'

/-- Word k of a block (R60). -/
def wordOf (X : Block) (k : Nat) : W32 := X.extractLsb' (32 * k) 32

/-- A word of a 64-bit half is a word of the block. -/
theorem extractLsb'_half (X : Block) (a : Nat) {b : Nat} (hb : b + 32 ≤ 64) :
    (X.extractLsb' a 64).extractLsb' b 32 = X.extractLsb' (a + b) 32 := by
  ext i hi
  have hbit : b + i < 64 := by omega
  simp only [BitVec.getElem_extractLsb', BitVec.getLsbD_extractLsb', hbit, decide_true, Bool.true_and, Nat.add_assoc]

theorem blockWords_eq (X : Block) : blockWords X = [wordOf X 0, wordOf X 1, wordOf X 2, wordOf X 3] := by
  have hlow : 0 + 32 ≤ 64 := by decide
  have hhigh : 32 + 32 ≤ 64 := by decide
  simp only [blockWords, wordOf, lo32, hi32, lo64, hi64, extractLsb'_half _ _ hlow, extractLsb'_half _ _ hhigh,
    Nat.reduceAdd, Nat.reduceMul]

/-- The block whose four words are `f 0` to `f 3`. -/
def wordsBlock (f : Nat → W32) : Block := mkBlock (mk64 (f 0) (f 1)) (mk64 (f 2) (f 3))

theorem blockWords_wordsBlock (f : Nat → W32) : blockWords (wordsBlock f) = [f 0, f 1, f 2, f 3] := by
  simp only [blockWords, wordsBlock, lo64_mkBlock, hi64_mkBlock, lo32_mk64, hi32_mk64]

theorem blockWords_getD (X : Block) {k : Nat} (hk : k < 4) : (blockWords X).getD k 0 = wordOf X k := by
  have hcase : k = 0 ∨ k = 1 ∨ k = 2 ∨ k = 3 := by omega
  rw [blockWords_eq]
  rcases hcase with rfl | rfl | rfl | rfl <;> rfl

theorem wordOf_wordsBlock (f : Nat → W32) {k : Nat} (hk : k < 4) : wordOf (wordsBlock f) k = f k := by
  have hcase : k = 0 ∨ k = 1 ∨ k = 2 ∨ k = 3 := by omega
  rw [← blockWords_getD _ hk, blockWords_wordsBlock]
  rcases hcase with rfl | rfl | rfl | rfl <;> rfl

theorem wordsBlock_wordOf (X : Block) : wordsBlock (wordOf X) = X := by
  have h := blockWords_eq X
  simp only [blockWords, List.cons.injEq, and_true] at h
  obtain ⟨h0, h1, h2, h3⟩ := h
  rw [wordsBlock, ← h0, ← h1, ← h2, ← h3, mk64_lo32_hi32, mk64_lo32_hi32, mkBlock_lo64_hi64]

theorem wordsBlock_eq {f : Nat → W32} {X : Block} (h : ∀ k, k < 4 → f k = wordOf X k) : wordsBlock f = X := by
  rw [← wordsBlock_wordOf X, wordsBlock, wordsBlock, h 0 (by decide), h 1 (by decide), h 2 (by decide),
    h 3 (by decide)]

/-! ## The round keys -/

/-- w[i] of R162. -/
def scheduleWord (k0 k1 : Block) (i : Nat) : W32 := (expandWords 32 (blockWords k0 ++ blockWords k1)).getD i 0

theorem scheduleWord_of_lt_four (k0 k1 : Block) {i : Nat} (hi : i < 4) : scheduleWord k0 k1 i = wordOf k0 i := by
  rw [scheduleWord, expandWords_getD _ _ (Nat.lt_add_right 4 hi), List.getD_append _ _ _ _ hi, blockWords_getD _ hi]

theorem scheduleWord_four_add (k0 k1 : Block) {i : Nat} (hi : i < 4) :
    scheduleWord k0 k1 (4 + i) = wordOf k1 i := by
  have hlen : (blockWords k0).length = 4 := rfl
  rw [scheduleWord, expandWords_getD _ _ (Nat.add_lt_add_left hi 4),
    List.getD_append_right _ _ _ _ (hlen ▸ Nat.le_add_right 4 i), hlen, Nat.add_sub_cancel_left, blockWords_getD _ hi]

theorem scheduleWord_eq (k0 k1 : Block) {i : Nat} (hi : 8 ≤ i) (hi' : i < 40) :
    scheduleWord k0 k1 i = scheduleWord k0 k1 (i - 8) ^^^ expandT i (scheduleWord k0 k1 (i - 1)) := by
  have hkey : Expanded (blockWords k0 ++ blockWords k1) := expanded_of_length_le le_rfl
  refine hkey.expandWords 32 i hi ?_
  rw [length_expandWords]
  exact hi'

theorem expandKey_getElem (k0 k1 : Block) {k : Nat} (hk : k < 10) :
    (expandKey k0 k1)[k] = wordsBlock fun n => scheduleWord k0 k1 (4 * k + n) := by
  unfold expandKey
  rw [Vector.getElem_ofFn]
  rfl

theorem expandKey_zero (k0 k1 : Block) : (expandKey k0 k1)[0] = k0 := by
  rw [expandKey_getElem]
  refine wordsBlock_eq fun k hk => ?_
  rw [Nat.mul_zero, Nat.zero_add, scheduleWord_of_lt_four k0 k1 hk]

theorem expandKey_one (k0 k1 : Block) : (expandKey k0 k1)[1] = k1 := by
  rw [expandKey_getElem]
  exact wordsBlock_eq fun k hk => scheduleWord_four_add k0 k1 hk

/-- Word i of the schedule is word i mod 4 of round key i / 4. -/
theorem wordOf_expandKey (k0 k1 : Block) {i : Nat} (hi : i < 40) :
    wordOf ((expandKey k0 k1).toArray.getD (i / 4) 0) (i % 4) = scheduleWord k0 k1 i := by
  have hk : i / 4 < 10 := by omega
  have hget : (expandKey k0 k1).toArray.getD (i / 4) 0 = (expandKey k0 k1)[i / 4] := by
    simp [Array.getD, hk]
  rw [hget, expandKey_getElem k0 k1 hk, wordOf_wordsBlock _ (Nat.mod_lt i (by decide)), Nat.div_add_mod]

/-! ## The value t -/

/-- The word with the bytes b0 to b3, b0 in the low bits (R60). -/
def wordBytes (b0 b1 b2 b3 : Byte) : W32 := b3 ++ b2 ++ b1 ++ b0

theorem wordBytes_xor (a0 a1 a2 a3 b0 b1 b2 b3 : Byte) :
    wordBytes a0 a1 a2 a3 ^^^ wordBytes b0 b1 b2 b3 = wordBytes (a0 ^^^ b0) (a1 ^^^ b1) (a2 ^^^ b2) (a3 ^^^ b3) := by
  refine (BitVec.xor_append (x₁ := a3 ++ a2 ++ a1) (y₁ := a0)).trans ?_
  rw [BitVec.xor_append, BitVec.xor_append, wordBytes]

theorem ofNat_eq_wordBytes {n : Nat} (hn : n < 256) : BitVec.ofNat 32 n = wordBytes (BitVec.ofNat 8 n) 0#8 0#8 0#8 := by
  apply BitVec.eq_of_toNat_eq
  refine Eq.trans ?_ (BitVec.toNat_append (0#8 ++ 0#8 ++ 0#8) (BitVec.ofNat 8 n)).symm
  simp
  omega

/-- A constant of one byte goes into byte 0. -/
theorem wordBytes_xor_ofNat (b0 b1 b2 b3 : Byte) {n : Nat} (hn : n < 256) :
    wordBytes b0 b1 b2 b3 ^^^ BitVec.ofNat 32 n = wordBytes (b0 ^^^ BitVec.ofNat 8 n) b1 b2 b3 := by
  rw [ofNat_eq_wordBytes hn, wordBytes_xor, BitVec.xor_zero, BitVec.xor_zero, BitVec.xor_zero]

theorem subWord_eq (t : W32) :
    subWord t = wordBytes (sbox (byteOf t 0)) (sbox (byteOf t 1)) (sbox (byteOf t 2)) (sbox (byteOf t 3)) := rfl

/-- RotWord: byte k of the word rotated right by 8 is the byte above it, around the word. -/
theorem byteOf_rotateRight (t : W32) {k : Nat} (hk : k < 4) : byteOf (t.rotateRight 8) k = byteOf t ((k + 1) % 4) := by
  ext i hi
  have hr : 8 < 32 := by decide
  have hbit : 8 * k + i < 32 := by omega
  simp only [byteOf, BitVec.getElem_extractLsb', BitVec.getLsbD_rotateRight_of_lt hr]
  by_cases h : 8 * k + i < 24
  · have hidx : 8 * ((k + 1) % 4) + i = 8 + (8 * k + i) := by omega
    simp [h, hidx]
  · have hidx : 8 * ((k + 1) % 4) + i = 8 * k + i - 24 := by omega
    simp [h, hidx, hbit]

/-- t of R162, from the bytes of the word before. -/
def scheduleT (i : Nat) (t : W32) : W32 :=
  if i % 8 = 0 then
    wordBytes (sbox (byteOf t 1) ^^^ BitVec.ofNat 8 (2 ^ (i / 8 - 1))) (sbox (byteOf t 2)) (sbox (byteOf t 3))
      (sbox (byteOf t 0))
  else if i % 8 = 4 then
    wordBytes (sbox (byteOf t 0)) (sbox (byteOf t 1)) (sbox (byteOf t 2)) (sbox (byteOf t 3))
  else t

/-- The constant of a word of the schedule fits in a byte: `Rcon` is at most 8. -/
theorem expandT_eq_scheduleT {i : Nat} (hi : i < 40) (t : W32) : expandT i t = scheduleT i t := by
  have hrcon : 2 ^ (i / 8 - 1) < 256 := Nat.pow_lt_pow_right (n := 8) (by decide) (by omega)
  rw [expandT, scheduleT, subWord_eq, subWord_eq, wordBytes_xor_ofNat _ _ _ _ hrcon]
  rw [byteOf_rotateRight t (k := 0) (by decide), byteOf_rotateRight t (k := 1) (by decide),
    byteOf_rotateRight t (k := 2) (by decide), byteOf_rotateRight t (k := 3) (by decide)]

/-- Settles O36: the round keys hold the words of the expansion, and an induction over its steps shows that every word
it appends follows the rule. -/
theorem keyExpansionRecurrence : Obligations.KeyExpansionRecurrence := by
  unfold Obligations.KeyExpansionRecurrence
  intro k0 k1 rk w bytes
  have hw : ∀ i, i < 40 → w i = scheduleWord k0 k1 i := fun i hi => wordOf_expandKey k0 k1 hi
  refine ⟨expandKey_zero k0 k1, expandKey_one k0 k1, fun i hi hi' => ?_⟩
  intro t
  have ht : t = scheduleWord k0 k1 (i - 1) := hw (i - 1) (by omega)
  rw [hw i hi', hw (i - 8) (by omega), ht, scheduleWord_eq k0 k1 hi hi', expandT_eq_scheduleT hi']
  rfl

end Sys2Proof.Machine
end

section
/-! PROOFS. Moves of the core with no outside event pending: the step of a SLOW_HASH job (spec/47_commands.md R350,
R355), and runs. -/

namespace Sys2Proof.Machine

/-- Outside a run of the random-math machine a SLOW_HASH job steps by its command. -/
theorem step_of_slowHash {s : State} (hc : CoreMoves s) (hr : ¬ RunsProgram s) (ho : s.jobOp = 0) :
    step s = execSlowHash s.jobVariant s.jobPrehashed s := by
  obtain ⟨hin, hb⟩ := hc
  have hrun : s.running = false := decide_eq_false hr
  have haction : s.nextAction = .run (.slowHash s.jobVariant s.jobPrehashed) s := by
    simp [State.nextAction_of_no_input hin, State.coreAction, hb, hrun, State.fetchJob_eq, ho]
  simp only [step, haction, exec]

theorem run_succ_of_step {M : Host.Core} {s t : M.State} (h : M.step s = .next t) (n : Nat) :
    M.run (n + 1) s = M.run n t := by
  simp only [Host.Core.run, h]

/-- A run goes through a sequence of states each of which steps to the one after it. -/
theorem runs_of_steps {f : Nat → State} :
    ∀ {n : Nat}, (∀ m, m < n → step (f m) = .next (f (m + 1))) → runs n (f 0) = .next (f n)
  | 0, _ => rfl
  | n + 1, h =>
    calc runs (n + 1) (f 0)
      _ = runs n (f 1) := run_succ_of_step (M := core) (h 0 n.succ_pos) n
      _ = .next (f (n + 1)) := runs_of_steps (f := fun m => f (m + 1)) fun m hm => h (m + 1) (Nat.succ_lt_succ hm)

end Sys2Proof.Machine
end

section
/-! PROOFS. Phase FILL (spec/42_scratchpad.md): what the writes of a group leave in the scratchpad (R183), what the
first n groups leave in TEXT and the scratchpad, and that the machine runs through them (R184). -/

namespace Sys2Proof.Machine

/-! ## The writes of one group -/

/-- A block is read from its 16 bytes. -/
theorem Memory.readBlock_congr {m m' : Memory} {a : Nat} (h : ∀ x, a ≤ x → x < a + 16 → m.read x = m'.read x) :
    m.readBlock a = m'.readBlock a := by
  unfold Memory.readBlock
  rw [Memory.readLE_congr h]

/-- Blocks `ks` of group g written to the scratchpad in that order. -/
def writeBlocks (g : Nat) (text : Vector Block 8) (m : Memory) (ks : List (Fin 8)) : Memory :=
  ks.foldl (fun m k => m.writeBlock (128 * g + 16 * k.val) text[k]) m

theorem writeGroup_eq_writeBlocks (m : Memory) (g : Nat) (text : Vector Block 8) :
    writeGroup m g text = writeBlocks g text m (List.finRange 8) := by
  rw [writeGroup, writeBlocks]

theorem writeBlocks_cons (g : Nat) (text : Vector Block 8) (m : Memory) (k : Fin 8) (ks : List (Fin 8)) :
    writeBlocks g text m (k :: ks) = writeBlocks g text (m.writeBlock (128 * g + 16 * k.val) text[k]) ks := rfl

/-- A byte outside the blocks written is left alone. -/
theorem read_writeBlocks_other {g x : Nat} {text : Vector Block 8} : ∀ {ks : List (Fin 8)} {m : Memory}, m.wf = true →
    (∀ k ∈ ks, x < 128 * g + 16 * k.val ∨ 128 * g + 16 * k.val + 16 ≤ x) → (writeBlocks g text m ks).read x = m.read x
  | [], _, _, _ => rfl
  | k :: ks, m, hm, hx => by
    have htail : ∀ k' ∈ ks, _ := fun k' hk' => hx k' (List.mem_cons_of_mem k hk')
    rw [writeBlocks_cons, read_writeBlocks_other (Memory.wf_writeBlock hm) htail]
    exact Memory.read_writeBlock_other hm (hx k List.mem_cons_self)

/-- Each block written is read back: the writes after it go to other blocks. -/
theorem readBlock_writeBlocks {g : Nat} {text : Vector Block 8} {k : Fin 8} : ∀ {ks : List (Fin 8)} {m : Memory},
    m.wf = true → ks.Nodup → k ∈ ks → (writeBlocks g text m ks).readBlock (128 * g + 16 * k.val) = text[k]
  | k' :: ks, m, hm, hnodup, hk => by
    obtain ⟨hnot, hnodup'⟩ := List.nodup_cons.mp hnodup
    have hm' : (m.writeBlock (128 * g + 16 * k'.val) text[k']).wf = true := Memory.wf_writeBlock hm
    rw [writeBlocks_cons]
    rcases List.mem_cons.mp hk with rfl | hk
    · refine (Memory.readBlock_congr fun x hlo hhi => ?_).trans (Memory.readBlock_writeBlock hm)
      refine read_writeBlocks_other hm' fun k' hk' => ?_
      have hne : k'.val ≠ k.val := fun e => hnot (Fin.ext e ▸ hk')
      omega
    · exact readBlock_writeBlocks hm' hnodup' hk

/-- A group leaves every byte outside its 128 alone (R183). -/
theorem read_writeGroup_other {m : Memory} {g x : Nat} {text : Vector Block 8} (hm : m.wf = true)
    (hx : x < 128 * g ∨ 128 * g + 128 ≤ x) : (writeGroup m g text).read x = m.read x := by
  rw [writeGroup_eq_writeBlocks]
  exact read_writeBlocks_other hm fun k _ => by omega

/-- Block k of the group written is sub-block k (R183). -/
theorem readBlock_writeGroup {m : Memory} {g : Nat} {text : Vector Block 8} (hm : m.wf = true) (k : Fin 8) :
    (writeGroup m g text).readBlock (128 * g + 16 * k.val) = text[k] := by
  rw [writeGroup_eq_writeBlocks]
  exact readBlock_writeBlocks hm (List.nodup_finRange 8) (List.mem_finRange k)

/-- The blocks of another group are left alone. -/
theorem readBlock_writeGroup_other {m : Memory} {g g' : Nat} {text : Vector Block 8} (hm : m.wf = true) (hg : g' ≠ g)
    (k : Fin 8) : (writeGroup m g text).readBlock (128 * g' + 16 * k.val) = m.readBlock (128 * g' + 16 * k.val) :=
  Memory.readBlock_congr fun x hlo hhi => read_writeGroup_other hm (by omega)

/-! ## The first n groups -/

@[simp] theorem fillText_getElem (rk : Vector Block 10) (text : Vector Block 8) (k : Fin 8) :
    (fillText rk text)[k] = pseudoRound text[k] rk := by
  simp [fillText]

theorem wf_fillAfter {rk : Vector Block 10} {text : Vector Block 8} {sp : Memory} (h : sp.wf = true) :
    ∀ n, (fillAfter rk text sp n).2.wf = true
  | 0 => h
  | n + 1 => wf_writeGroup (wf_fillAfter h n)

/-- Each group applies the pseudo-round once more to every sub-block of TEXT. -/
theorem fillAfter_text (rk : Vector Block 10) (text : Vector Block 8) (sp : Memory) (k : Fin 8) :
    ∀ n, (fillAfter rk text sp n).1[k] = (fun X => pseudoRound X rk)^[n] text[k]
  | 0 => rfl
  | n + 1 => by
    rw [Function.iterate_succ_apply', ← fillAfter_text rk text sp k n]
    exact fillText_getElem rk _ k

/-- R184: a group keeps the text its step wrote, since the later groups write elsewhere. -/
theorem readBlock_fillAfter {rk : Vector Block 10} {text : Vector Block 8} {sp : Memory} (h : sp.wf = true) {g : Nat}
    (k : Fin 8) : ∀ {n : Nat}, g < n →
      (fillAfter rk text sp n).2.readBlock (128 * g + 16 * k.val) = (fun X => pseudoRound X rk)^[g + 1] text[k]
  | n + 1, hg => by
    rcases Nat.lt_succ_iff_lt_or_eq.mp hg with hlt | rfl
    · exact (readBlock_writeGroup_other (wf_fillAfter h n) hlt.ne k).trans (readBlock_fillAfter h k hlt)
    · exact (readBlock_writeGroup (wf_fillAfter h g) k).trans (fillAfter_text rk text sp k (g + 1))

/-! ## The run -/

/-- The state after n groups of phase FILL, n not 0: PROGRESS is the number of groups done (R441), which no statement
fixes before the first. -/
def State.filled (s : State) (n : Nat) : State :=
  let after := fillAfter s.rk1 s.text s.sp n
  { s with text := after.1, sp := after.2, g := n, progress := BitVec.ofNat 32 n }

theorem State.fillUnit_filled (s : State) (n : Nat) : (s.filled n).fillUnit = s.filled (n + 1) := rfl

theorem State.fillUnit_eq_filled {s : State} (hg : s.g = 0) : s.fillUnit = s.filled 1 := by
  simp only [State.fillUnit, State.filled, State.withProgress, fillAfter, hg]

/-- A step of phase FILL before its last group is one group (R183). -/
theorem step_of_fill {s : State} (hc : CoreMoves s) (hp : s.phase = .fill) (ho : s.jobOp = 0) (hg : s.g < groups) :
    step s = .next s.fillUnit := by
  have hr : ¬ RunsProgram s := fun h => by simp [RunsProgram, hp] at h
  simp only [step_of_slowHash hc hr ho, execSlowHash, hp, if_pos hg]

/-- Phase FILL from its first group, as far as its last. -/
theorem runs_fill {s : State} (hc : CoreMoves s) (hp : s.phase = .fill) (ho : s.jobOp = 0) (hg : s.g = 0) {n : Nat}
    (hn : n < groups) : runs (n + 1) s = .next (s.filled (n + 1)) := by
  have hfirst : step s = .next (s.filled 1) := by
    rw [step_of_fill hc hp ho (by omega), State.fillUnit_eq_filled hg]
  have hlater : ∀ m, m < n → step (s.filled (m + 1)) = .next (s.filled (m + 2)) := fun m hm => by
    have hg' : (s.filled (m + 1)).g < groups := (by omega : m + 1 < groups)
    rw [step_of_fill (s := s.filled (m + 1)) hc hp ho hg', State.fillUnit_filled]
  calc runs (n + 1) s
    _ = runs n (s.filled 1) := run_succ_of_step (M := core) hfirst n
    _ = .next (s.filled (n + 1)) := runs_of_steps (f := fun m => s.filled (m + 1)) hlater

/-- Settles O39: the run is the recursion of the fill over its groups, and each group's blocks keep what it wrote. -/
theorem fillContents : Obligations.FillContents := by
  unfold Obligations.FillContents
  intro s hc hp ho hg hwf
  have hrun : runs groups s = .next (s.filled groups) := runs_fill hc hp ho hg (Nat.lt_succ_self (2 ^ 14 - 1))
  exact ⟨s.filled groups, hrun, hp, rfl, fun g hg k => readBlock_fillAfter hwf k hg⟩

end Sys2Proof.Machine
end

section
/-! PROOFS. Phase SETUP of a SLOW_HASH job (spec/43_mixing_loop.md R202): the registers it loads, and the phase that
follows. -/

namespace Sys2Proof.Machine

/-! ## The halves of what SETUP loads -/

theorem lo64_xor (X Y : Block) : lo64 (X ^^^ Y) = lo64 X ^^^ lo64 Y := BitVec.extractLsb'_xor

theorem hi64_xor (X Y : Block) : hi64 (X ^^^ Y) = hi64 X ^^^ hi64 Y := BitVec.extractLsb'_xor

theorem lo64_laneBlock_xor (A : Lanes) (j k : Fin 12) :
    lo64 (laneBlock A j ^^^ laneBlock A k) = A[2 * j.val] ^^^ A[2 * k.val] := by
  rw [lo64_xor, laneBlock, laneBlock, lo64_mkBlock, lo64_mkBlock]

theorem hi64_laneBlock_xor (A : Lanes) (j k : Fin 12) :
    hi64 (laneBlock A j ^^^ laneBlock A k) = A[2 * j.val + 1] ^^^ A[2 * k.val + 1] := by
  rw [hi64_xor, laneBlock, laneBlock, hi64_mkBlock, hi64_mkBlock]

theorem toNat_lo32 (w : W64) : (lo32 w).toNat = w.toNat % 2 ^ 32 := by
  rw [lo32, BitVec.extractLsb'_toNat, Nat.shiftRight_zero]

theorem toNat_hi32 (w : W64) : (hi32 w).toNat = w.toNat / 2 ^ 32 := by
  have := w.isLt
  rw [hi32, BitVec.extractLsb'_toNat, Nat.shiftRight_eq_div_pow, Nat.mod_eq_of_lt (by omega)]

/-! ## The registers -/

theorem setup_b1_of_ge {v : BitVec 3} (s : State) (hv : 2 ≤ v.toNat) :
    lo64 (s.setup v).b1 = s.hashState[8] ^^^ s.hashState[10] ∧
      hi64 (s.setup v).b1 = s.hashState[9] ^^^ s.hashState[11] := by
  have hb1 : (s.setup v).b1 = laneBlock s.hashState 4 ^^^ laneBlock s.hashState 5 := if_pos (decide_eq_true hv)
  rw [hb1]
  exact ⟨lo64_laneBlock_xor s.hashState 4 5, hi64_laneBlock_xor s.hashState 4 5⟩

theorem setup_b1_of_lt {v : BitVec 3} (s : State) (hv : v.toNat < 2) : (s.setup v).b1 = 0 :=
  if_neg (by simp [shuffleGate, hv])

theorem setup_divR (v : BitVec 3) (s : State) :
    (s.setup v).divR = if v = 2 ∨ v = 3 then s.hashState[12] else s.divR := by
  simp only [State.setup, integerGate, decide_eq_true_eq]

theorem setup_sqrtR (v : BitVec 3) (s : State) :
    (s.setup v).sqrtR = if v = 2 ∨ v = 3 then s.hashState[13] else s.sqrtR := by
  simp only [State.setup, integerGate, decide_eq_true_eq]

theorem setup_r_of_ne_four {v : BitVec 3} (s : State) (hv : v ≠ 4) : (s.setup v).r = s.r :=
  if_neg (by rw [randomGate, decide_eq_false hv]; exact Bool.false_ne_true)

/-- SETUP seeds r[0..3] (spec/45_random_math.md R290) and leaves the others. -/
theorem regNat_setup_four (s : State) :
    regNat (s.setup 4) 0 = s.hashState[12].toNat % 2 ^ 32 ∧ regNat (s.setup 4) 1 = s.hashState[12].toNat / 2 ^ 32 ∧
      regNat (s.setup 4) 2 = s.hashState[13].toNat % 2 ^ 32 ∧ regNat (s.setup 4) 3 = s.hashState[13].toNat / 2 ^ 32 ∧
      ∀ k, 4 ≤ k → k < 9 → regNat (s.setup 4) k = regNat s k := by
  have hr : (s.setup 4).r = rmInit s.hashState s.r := rfl
  simp only [regNat, hr, rmInit, ← toNat_lo32, ← toNat_hi32]
  refine ⟨rfl, rfl, rfl, rfl, fun k hk hk' => ?_⟩
  have hget : s.r.toArray.getD k 0 = s.r[k] := by simp [Array.getD, hk']
  have hcase : k = 4 ∨ k = 5 ∨ k = 6 ∨ k = 7 ∨ k = 8 := by omega
  rw [hget]
  rcases hcase with rfl | rfl | rfl | rfl | rfl <;> rfl

/-! ## The next state -/

theorem slowSetup_of_ne_four {v : BitVec 3} (s : State) (hv : v ≠ 4) : s.slowSetup v = (s.setup v).enterFill := by
  have hgate : randomGate v = false := decide_eq_false hv
  simp only [State.slowSetup, hgate, Bool.false_eq_true, if_false]

/-- SETUP loads its registers and enters the next phase: RM_GEN restarts the generator, FILL loads TEXT (R183). -/
theorem slowSetup_eq (v : BitVec 3) (s : State) :
    s.slowSetup v = { s.setup v with
      phase := if v = 4 then .rmGen else .fill, progress := 0, text := if v = 4 then s.text else textOf s.hashState,
      g := if v = 4 then s.g else 0, gen := if v = 4 then { s.gen with stage := .seed } else s.gen } := by
  by_cases hv : v = 4
  · subst hv
    rfl
  · simp only [slowSetup_of_ne_four s hv, if_neg hv]
    rfl

/-- Settles O37: the next state is the one SETUP gives with the entry of the next phase, and each register of it is
read off by its own lemma. -/
theorem setupLoadsRegisters : Obligations.SetupLoadsRegisters := by
  unfold Obligations.SetupLoadsRegisters
  intro s v p hp
  have hexec : exec (.slowHash v p) s = .next (s.slowSetup v) := by simp only [exec, execSlowHash, hp]
  have hlo := lo64_laneBlock_xor s.hashState
  have hhi := hi64_laneBlock_xor s.hashState
  rw [hexec, slowSetup_eq]
  refine ⟨_, rfl, rfl, hlo 0 2, hhi 0 2, hlo 1 3, hhi 1 3, setup_b1_of_ge s, setup_b1_of_lt s, rfl, setup_divR v s,
    setup_sqrtR v s, ?_, setup_r_of_ne_four s, rfl⟩
  rintro rfl
  exact regNat_setup_four s

end Sys2Proof.Machine
end

section
/-! PROOFS. A SLOW_HASH job with VARIANT other than 4: it keeps out of phase RM_GEN and of the random-math program
(spec/43_mixing_loop.md R201, R209), and no step outside RM_GEN reads the latched HEIGHT (R217;
spec/45_random_math.md R301). -/

namespace Sys2Proof.Machine

/-! ## Runs and maps of the state -/

/-- A run that ends in a state goes through the state after its first step. -/
theorem exists_step_of_runs_succ {n : Nat} {s t : State} (h : runs (n + 1) s = .next t) :
    ∃ u, step s = .next u ∧ runs n u = .next t := by
  cases hstep : step s with
  | next u => exact ⟨u, rfl, (run_succ_of_step (M := core) hstep n).symm.trans h⟩
  | fault r => simp [runs, Host.Core.run, core, hstep] at h
  | refused r => simp [runs, Host.Core.run, core, hstep] at h

/-- Runs respect a map of the state that steps respect, within a class of states that steps do not leave. -/
theorem runs_map {P : State → Prop} {f : State → State} (hkeep : ∀ s t, P s → step s = .next t → P t)
    (hmap : ∀ s t, P s → step s = .next t → step (f s) = .next (f t)) :
    ∀ {n : Nat} {s t : State}, P s → runs n s = .next t → runs n (f s) = .next (f t)
  | 0, _, _, _, h => congrArg (Host.Outcome.next ∘ f) (Host.Outcome.next.inj h)
  | n + 1, s, t, hs, h => by
    obtain ⟨u, hu, ht⟩ := exists_step_of_runs_succ h
    exact (run_succ_of_step (M := core) (hmap s u hs hu) n).trans (runs_map hkeep hmap (hkeep s u hs hu) ht)

section
variable {v : BitVec 3} {p : Bool} {s t : State}

/-! ## What the steps keep -/

/-- No event is pending and the latched command is SLOW_HASH with the variant `v`. -/
def SlowCommand (v : BitVec 3) (s : State) : Prop := s.inputs = [] ∧ s.jobOp = 0 ∧ s.jobVariant = v

/-- The places of a job of a variant other than 4: not phase RM_GEN, not the random-math program. -/
def plainPlace : Phase → MixStep → Bool
  | .rmGen, _ => false
  | .mix, .rmRun => false
  | _, _ => true

/-- A SLOW_HASH job of variant `v` runs or has ended, and is where the variants other than 4 go. -/
structure PlainSlowJob (v : BitVec 3) (s : State) : Prop where
  command : SlowCommand v s
  place : plainPlace s.phase s.mixStep = true

/-- The start of a job is such a place. -/
theorem PlainSlowJob.of_check (hs : SlowCommand v s) (hp : s.phase = .check) : PlainSlowJob v s :=
  ⟨hs, by rw [hp]; rfl⟩

theorem PlainSlowJob.phase_ne (hs : PlainSlowJob v s) : s.phase ≠ .rmGen := fun hp => by
  have hplace := hs.place
  rw [hp] at hplace
  contradiction

theorem PlainSlowJob.not_runsProgram (hs : PlainSlowJob v s) : ¬ RunsProgram s := fun ⟨hp, hm⟩ => by
  have hplace := hs.place
  rw [hp, hm] at hplace
  contradiction

theorem PlainSlowJob.step_of_busy (hs : PlainSlowJob v s) (hb : s.busy = true) :
    step s = execSlowHash v s.jobPrehashed s := by
  obtain ⟨hin, hop, hv⟩ := hs.command
  rw [step_of_slowHash ⟨hin, hb⟩ hs.not_runsProgram hop, hv]

/-- With no event pending nothing moves once the job has ended (spec/60_exceptions.md R405). -/
theorem step_of_not_busy (hin : s.inputs = []) (hb : s.busy = false) : step s = .next s := by
  have haction : s.nextAction = .go s := by simp [State.nextAction_of_no_input hin, State.coreAction, hb]
  simp only [step, haction]

theorem PlainSlowJob.slowCheck (hs : PlainSlowJob v s) : PlainSlowJob v (s.slowCheck v p) := by
  unfold State.slowCheck
  split
  · exact ⟨hs.command, rfl⟩
  · cases p <;> exact ⟨hs.command, rfl⟩

theorem PlainSlowJob.absorbStep (hs : PlainSlowJob v s) (h : s.absorbStep (s.enterPhase .setup) = .next t) :
    PlainSlowJob v t := by
  rcases s.absorbStep_cases (s.enterPhase .setup) with ⟨-, e⟩ | ⟨-, -, e⟩ | ⟨-, -, e⟩ <;> cases e.symm.trans h
  · exact ⟨hs.command, rfl⟩
  · exact ⟨hs.command, hs.place⟩

/-- A step inside phase MIX, to a place outside the program. -/
theorem PlainSlowJob.of_mix (ht : SlowCommand v t) (hp : t.phase = .mix) (hm : plainPlace .mix t.mixStep = true) :
    PlainSlowJob v t := ⟨ht, by rw [hp]; exact hm⟩

theorem PlainSlowJob.half2Math (hs : PlainSlowJob v s) (hv : v ≠ 4) (hp : s.phase = .mix) :
    PlainSlowJob v (s.half2Math v) := by
  have hgate : randomGate v = false := decide_eq_false hv
  simp only [State.half2Math, hgate, Bool.false_eq_true, if_false]
  split <;> exact .of_mix hs.command hp rfl

/-- Phase MIX enters the random-math program for VARIANT = 4 only (R209). -/
theorem PlainSlowJob.mixUnit (hs : PlainSlowJob v s) (hv : v ≠ 4) (hp : s.phase = .mix) :
    PlainSlowJob v (s.mixUnit v) := by
  unfold State.mixUnit
  cases hm : s.mixStep with
  | half1Aes =>
    dsimp only
    split
    · exact .of_mix hs.command hp rfl
    · exact ⟨hs.command, rfl⟩
  | half1Shuffle | half2Shuffle =>
    dsimp only [State.half1Shuffle, State.half2Shuffle]
    rw [shuffleAt_frame]
    exact .of_mix hs.command hp rfl
  | half2Math => exact hs.half2Math hv hp
  | half2Fold =>
    dsimp only [State.half2Fold]
    split <;> exact .of_mix hs.command hp rfl
  | rmRun => exact hs
  | half1Store | half2Load | rmFold | half2Mul | half2Store | iterEnd => exact .of_mix hs.command hp rfl

/-- SETUP goes to FILL, not to RM_GEN, and the other phases go where they go for every variant (R201). -/
theorem PlainSlowJob.of_execSlowHash (hs : PlainSlowJob v s) (hv : v ≠ 4) (h : execSlowHash v p s = .next t) :
    PlainSlowJob v t := by
  unfold execSlowHash at h
  cases hp : s.phase <;> rw [hp] at h
  case check => cases h; exact hs.slowCheck
  case absorb => exact hs.absorbStep h
  case setup =>
    cases h
    rw [slowSetup_of_ne_four s hv]
    exact ⟨hs.command, rfl⟩
  case rmGen => exact absurd hp hs.phase_ne
  case fill =>
    cases h
    split
    · exact ⟨hs.command, hs.place⟩
    · exact ⟨hs.command, rfl⟩
  case mix => cases h; exact hs.mixUnit hv hp
  case finalFill =>
    cases h
    split
    · exact ⟨hs.command, hs.place⟩
    · exact ⟨hs.command, rfl⟩
  case permute | extra => cases h; exact ⟨hs.command, rfl⟩
  case idle | done | error => cases h; exact hs

theorem PlainSlowJob.of_step (hs : PlainSlowJob v s) (hv : v ≠ 4) (h : step s = .next t) : PlainSlowJob v t := by
  cases hb : s.busy with
  | false =>
    cases (step_of_not_busy hs.command.1 hb).symm.trans h
    exact hs
  | true => exact hs.of_execSlowHash hv ((hs.step_of_busy hb).symm.trans h)

/-! ## The latched HEIGHT is not read -/

/-- The state with another latched HEIGHT. -/
def State.atHeight (h : W64) (s : State) : State := { s with jobHeight := h }

variable {h : W64}

theorem PlainSlowJob.atHeight (hs : PlainSlowJob v s) : PlainSlowJob v (s.atHeight h) := ⟨hs.command, hs.place⟩

theorem State.slowCheck_atHeight : (s.atHeight h).slowCheck v p = (s.slowCheck v p).atHeight h := by
  have hcheck : checkJob 0 v p (s.atHeight h).jobLen.toNat (s.atHeight h).msgMax (s.atHeight h).spGrant =
      checkJob 0 v p s.jobLen.toNat s.msgMax s.spGrant := rfl
  unfold State.slowCheck
  rw [hcheck]
  split
  · rfl
  · cases p <;> rfl

theorem State.absorbStep_atHeight {after : State} (ht : s.absorbStep after = .next t) :
    (s.atHeight h).absorbStep (after.atHeight h) = .next (t.atHeight h) := by
  rcases s.absorbStep_cases after with ⟨-, e⟩ | ⟨hl, hd, e⟩ | ⟨hl, hd, e⟩ <;> cases e.symm.trans ht
  all_goals
    have hlen : ¬ (s.atHeight h).jobLen.toNat > (s.atHeight h).msgMax := hl.not_gt
    have hdone : (s.atHeight h).absorbDone = _ := hd
    rw [State.absorbStep, if_neg hlen, hdone]
    rfl

theorem State.slowSetup_atHeight : (s.atHeight h).slowSetup v = (s.slowSetup v).atHeight h := by
  unfold State.slowSetup
  split <;> rfl

theorem State.shuffleAt_atHeight (s : State) (j : BitVec 21) :
    (s.atHeight h).shuffleAt v j = (s.shuffleAt v j).atHeight h := by
  unfold State.shuffleAt
  split <;> rfl

theorem State.half2Math_atHeight : (s.atHeight h).half2Math v = (s.half2Math v).atHeight h := by
  unfold State.half2Math
  split
  · rfl
  · split <;> rfl

theorem State.half2Fold_atHeight : (s.atHeight h).half2Fold v = (s.half2Fold v).atHeight h := by
  unfold State.half2Fold
  split <;> rfl

theorem State.mixUnit_atHeight : (s.atHeight h).mixUnit v = (s.mixUnit v).atHeight h := by
  have hstep : (s.atHeight h).mixStep = s.mixStep := rfl
  unfold State.mixUnit
  rw [hstep]
  cases s.mixStep with
  | half1Aes => exact (apply_ite (State.atHeight h) (s.i < iterations) s.half1Aes s.enterFinalFill).symm
  | half1Shuffle => exact congrArg (fun t : State => { t with mixStep := .half1Store }) (s.shuffleAt_atHeight s.j1)
  | half2Shuffle => exact congrArg (fun t : State => { t with mixStep := .half2Store }) (s.shuffleAt_atHeight s.j2)
  | half2Math => exact State.half2Math_atHeight
  | half2Fold => exact State.half2Fold_atHeight
  | rmRun | half1Store | half2Load | rmFold | half2Mul | half2Store | iterEnd => rfl

/-- Only phase RM_GEN reads the latched HEIGHT (spec/45_random_math.md R301). -/
theorem execSlowHash_atHeight (hp : s.phase ≠ .rmGen) (ht : execSlowHash v p s = .next t) :
    execSlowHash v p (s.atHeight h) = .next (t.atHeight h) := by
  have hphase : (s.atHeight h).phase = s.phase := rfl
  unfold execSlowHash at ht ⊢
  rw [hphase]
  cases hq : s.phase <;> rw [hq] at ht
  case rmGen => exact absurd hq hp
  case absorb => exact State.absorbStep_atHeight ht
  all_goals cases ht
  case check => exact congrArg _ State.slowCheck_atHeight
  case setup => exact congrArg _ State.slowSetup_atHeight
  case fill => exact congrArg _ (apply_ite (State.atHeight h) (s.g < groups) s.fillUnit s.enterMix).symm
  case mix => exact congrArg _ State.mixUnit_atHeight
  case finalFill =>
    exact congrArg _ (apply_ite (State.atHeight h) (s.g < groups) s.finalFillUnit (s.enterPhase .permute)).symm
  case permute | extra | idle | done | error => rfl

theorem PlainSlowJob.step_atHeight (hs : PlainSlowJob v s) (ht : step s = .next t) :
    step (s.atHeight h) = .next (t.atHeight h) := by
  have hs' : PlainSlowJob v (s.atHeight h) := hs.atHeight
  cases hb : s.busy with
  | false =>
    cases (step_of_not_busy hs.command.1 hb).symm.trans ht
    exact step_of_not_busy hs'.command.1 hb
  | true =>
    rw [hs.step_of_busy hb] at ht
    rw [hs'.step_of_busy hb]
    exact execSlowHash_atHeight hs.phase_ne ht

end

/-- Settles O55: a job of a variant other than 4 stays where no step reads the latched HEIGHT. -/
theorem heightReachesOnlyVariantFour : Obligations.HeightReachesOnlyVariantFour := by
  unfold Obligations.HeightReachesOnlyVariantFour
  intro s t h n ⟨hin, _⟩ hp ho hv hrun
  have hs : PlainSlowJob s.jobVariant s := .of_check ⟨hin, ho, rfl⟩ hp
  exact runs_map (P := PlainSlowJob s.jobVariant) (f := State.atHeight h) (fun _ _ hs hstep => hs.of_step hv hstep)
    (fun _ _ hs hstep => hs.step_atHeight hstep) hs hrun

end Sys2Proof.Machine
end

section
/-! PROOFS. The variant tweaks (spec/44_variant_tweaks.md): isqrt_v2 as the library's square root (R251, R254), and
tweak_byte11 as the XOR of its table's byte at position 11 (R243). -/

namespace Sys2Proof.Machine

/-! ## The square root -/

/-- `isqrtFrom` sets the bits of the square root from the top down: at every bit, `acc` is at most the root, and
acc + 2^b is above it. -/
theorem isqrtFrom_eq_sqrt {n : Nat} : ∀ {b acc : Nat}, acc * acc ≤ n → n < (acc + 2 ^ b) * (acc + 2 ^ b) →
    isqrtFrom n b acc = Nat.sqrt n
  | 0, _, hlo, hhi => Nat.eq_sqrt.2 ⟨hlo, hhi⟩
  | b + 1, acc, hlo, hhi => by
    have htwice : acc + 2 ^ (b + 1) = acc + 2 ^ b + 2 ^ b := by rw [Nat.pow_succ, Nat.mul_two, Nat.add_assoc]
    rw [isqrtFrom]
    split
    case isTrue hbit => exact isqrtFrom_eq_sqrt hbit (htwice ▸ hhi)
    case isFalse hbit => exact isqrtFrom_eq_sqrt hlo (Nat.lt_of_not_le hbit)

/-- R251 for the argument of `isqrtV2`: it is below 2^68, so 34 bits are enough. -/
theorem isqrt_eq_sqrt {n : Nat} (hn : n < 2 ^ 68) : isqrt n = Nat.sqrt n :=
  isqrtFrom_eq_sqrt (Nat.zero_le n) (by omega)

/-- The root of R251 is at least 2^33, and what is left of it fits in a word: neither the subtraction nor the word
width loses anything. -/
theorem toNat_isqrtV2_add (n : W64) : (isqrtV2 n).toNat + 2 ^ 33 = Nat.sqrt (2 ^ 66 + 4 * n.toNat) := by
  have hn := n.isLt
  have hlo : 2 ^ 33 ≤ Nat.sqrt (2 ^ 66 + 4 * n.toNat) := Nat.le_sqrt.2 (by omega)
  have hhi : Nat.sqrt (2 ^ 66 + 4 * n.toNat) < 2 ^ 34 := Nat.sqrt_lt.2 (by omega)
  rw [isqrtV2, isqrt_eq_sqrt (by omega), BitVec.toNat_ofNat]
  omega

/-- The inequalities of R251 determine the value. -/
theorem isqrtV2_eq {n m : W64} (hlo : (m.toNat + 2 ^ 33) * (m.toNat + 2 ^ 33) ≤ 2 ^ 66 + 4 * n.toNat)
    (hhi : 2 ^ 66 + 4 * n.toNat < (m.toNat + 2 ^ 33 + 1) * (m.toNat + 2 ^ 33 + 1)) : isqrtV2 n = m :=
  BitVec.eq_of_toNat_eq (Nat.add_right_cancel ((toNat_isqrtV2_add n).trans (Nat.eq_sqrt.2 ⟨hlo, hhi⟩).symm))

theorem toNat_isqrtV2_mono {n n' : W64} (h : n.toNat ≤ n'.toNat) : (isqrtV2 n).toNat ≤ (isqrtV2 n').toNat := by
  have hroots : Nat.sqrt (2 ^ 66 + 4 * n.toNat) ≤ Nat.sqrt (2 ^ 66 + 4 * n'.toNat) := Nat.sqrt_le_sqrt (by omega)
  rw [← toNat_isqrtV2_add, ← toNat_isqrtV2_add] at hroots
  exact Nat.le_of_add_le_add_right hroots

theorem isqrtV2_eq_zero {n : W64} (h : n.toNat ≤ 2 ^ 32) : isqrtV2 n = 0 :=
  have hzero : (0 : W64).toNat = 0 := rfl
  isqrtV2_eq (by rw [hzero]; omega) (by rw [hzero]; omega)

/-- The largest argument has the largest root. -/
theorem isqrtV2_allOnes : isqrtV2 (BitVec.ofNat 64 (2 ^ 64 - 1)) = 3558067407 :=
  isqrtV2_eq (by decide) (by decide)

theorem toNat_isqrtV2_le (n : W64) : (isqrtV2 n).toNat ≤ 3558067407 := by
  have hn : n.toNat ≤ (BitVec.ofNat 64 (2 ^ 64 - 1)).toNat := Nat.le_of_lt_succ n.isLt
  have hmax := toNat_isqrtV2_mono hn
  rwa [isqrtV2_allOnes] at hmax

/-- Settles O49: `isqrtV2` is the library's square root less 2^33, which is monotone, and the inequalities determine the
corner values. -/
theorem isqrtIsExact : Obligations.IsqrtIsExact := by
  unfold Obligations.IsqrtIsExact
  refine ⟨fun n => ?_, fun _ _ => toNat_isqrtV2_mono, fun _ => isqrtV2_eq_zero, ?_, ?_, isqrtV2_allOnes⟩
  · rw [toNat_isqrtV2_add]
    exact ⟨Nat.sqrt_le _, Nat.lt_succ_sqrt _, toNat_isqrtV2_le n⟩
  · exact isqrtV2_eq (by decide) (by decide)
  · exact isqrtV2_eq (by decide) (by decide)

/-! ## The byte-11 tweak -/

/-- A byte put at position m of a block is byte m of it, and the others are zero. -/
theorem byteOf_setWidth_shiftLeft (b : Byte) {m n : Nat} (hn : n < 16) :
    byteOf (b.setWidth 128 <<< (8 * m)) n = if n = m then b else 0 := by
  apply BitVec.eq_of_getElem_eq
  intro i hi
  have hin : 8 * n + i < 128 := by omega
  simp only [byteOf, BitVec.getElem_extractLsb', BitVec.getLsbD_shiftLeft, BitVec.getLsbD_setWidth, hin, decide_true,
    Bool.true_and]
  rcases Nat.lt_trichotomy n m with hnm | rfl | hnm
  · have hbelow : 8 * n + i < 8 * m := by omega
    simp [hbelow, hnm.ne]
  · have hsame : 8 * n + i - 8 * n = i := by omega
    have hi128 : i < 128 := by omega
    simp [hsame, hi128, hi, BitVec.getLsbD_eq_getElem]
  · have habove : 8 ≤ 8 * n + i - 8 * m := by omega
    simp [habove, hnm.ne', BitVec.getLsbD_of_ge]

/-- The index k of R243: bits 5, 4 and 0 of the byte. -/
def tweakIndex (x : Byte) : Nat := 4 * (x.getLsbD 5).toNat + 2 * (x.getLsbD 4).toNat + (x.getLsbD 0).toNat

theorem tweakIndex_lt (x : Byte) : tweakIndex x < 8 := by
  have h5 := (x.getLsbD 5).toNat_le
  have h4 := (x.getLsbD 4).toNat_le
  have h0 := (x.getLsbD 0).toNat_le
  unfold tweakIndex
  omega

/-- The table m of R243. -/
def tweakTable (k : Nat) : Byte := [0x10, 0x00, 0x30, 0x00, 0x10, 0x10, 0x30, 0x10].getD k 0

/-- The shift of R242 is twice the index of R243. -/
theorem tweakShift_eq : ∀ x : Byte, (((x >>> 3 &&& 6) ||| (x &&& 1)) <<< 1).toNat = 2 * tweakIndex x := by decide

/-- The constant of R242 holds the table of R243, an entry every two bits. -/
theorem tweakConstant_eq : ∀ k < 8,
    ((0x75310#20 >>> (2 * k)) &&& 0x30).setWidth 128 = (tweakTable k).setWidth 128 := by decide

theorem tweakByte11_eq_xor (w : Block) :
    tweakByte11 w = w ^^^ ((tweakTable (tweakIndex (byteOf w 11))).setWidth 128 <<< (8 * 11)) := by
  simp only [tweakByte11, tweakShift_eq, tweakConstant_eq _ (tweakIndex_lt _), Nat.reduceMul]

/-- Settles O50: the tweak is the XOR of the table's byte at position 11. -/
theorem tweakByteElevenTable : Obligations.TweakByteElevenTable := by
  unfold Obligations.TweakByteElevenTable
  intro w
  have hbyte {n : Nat} (hn : n < 16) :
      byteOf (tweakByte11 w) n = byteOf w n ^^^ if n = 11 then tweakTable (tweakIndex (byteOf w 11)) else 0 := by
    rw [tweakByte11_eq_xor, byteOf_xor, byteOf_setWidth_shiftLeft _ hn]
  refine ⟨hbyte (by decide), fun n hn => ?_⟩
  rw [hbyte n.isLt, if_neg hn]
  exact BitVec.xor_zero

end Sys2Proof.Machine
end

section
/-! PROOFS. The six operations of the random-math machine (spec/45_random_math.md R271 to R277): what each leaves in
r[d], over numbers or bit by bit, and what it leaves unchanged. -/

namespace Sys2Proof.Machine

/-! ## The registers as numbers -/

theorem regNat_of_lt (s : State) {k : Nat} (hk : k < 9) : regNat s k = s.r[k].toNat := by simp [regNat, hk]

theorem regNat_dst (s : State) (d : BitVec 2) : regNat s d.toNat = (s.readDst d).toNat :=
  regNat_of_lt s (dstIndex d).isLt

/-! ## One operation -/

section
variable {s : State} {d : BitVec 2} {src : BitVec 4} (hsrc : src.toNat < 9)
include hsrc

/-- The source is read before the write (R278), so nothing here asks whether it is the destination. -/
theorem regNat_execAlu_dst (f : W32 → W32 → W32) :
    regNat (s.execAlu f d src) d.toNat = (f (s.readDst d) s.r[src.toNat]).toNat := by
  rw [State.execAlu_of_lt hsrc, regNat_dst]
  exact congrArg BitVec.toNat (State.readDst_writeDst s d _)

theorem regNat_execAlu_of_ne (f : W32 → W32 → W32) {k : Nat} (hk : k < 9) (hne : k ≠ d.toNat) :
    regNat (s.execAlu f d src) k = regNat s k := by
  rw [State.execAlu_of_lt hsrc, regNat_of_lt _ hk, regNat_of_lt _ hk]
  exact congrArg BitVec.toNat (State.writeDst_other s d _ hk hne)

/-- R271 for any operation `f` and any way to say its result. -/
theorem aluEffect_execAlu {f : W32 → W32 → W32} {value : Nat}
    (hvalue : (f (s.readDst d) s.r[src.toNat]).toNat = value) : AluEffect s d value (s.execAlu f d src) := by
  refine ⟨(regNat_execAlu_dst hsrc f).trans hvalue, fun k => regNat_execAlu_of_ne hsrc f, ?_⟩
  rw [State.execAlu_of_lt hsrc]
  rfl

end

/-! ## The results -/

theorem toNat_mulResult (x y : W32) : (mulResult x y).toNat = x.toNat * y.toNat % 2 ^ 32 := BitVec.toNat_mul x y

theorem toNat_xorResult (x y : W32) : (xorResult x y).toNat = x.toNat ^^^ y.toNat := BitVec.toNat_xor x y

theorem toNat_addResult (c x y : W32) : (addResult c x y).toNat = (x.toNat + y.toNat + c.toNat) % 2 ^ 32 := by
  rw [addResult, BitVec.toNat_add, BitVec.toNat_add, Nat.mod_add_mod]

theorem toNat_subResult (x y : W32) : (subResult x y).toNat = (x.toNat + 2 ^ 32 - y.toNat) % 2 ^ 32 := by
  have hy := y.isLt
  rw [subResult, BitVec.toNat_sub]
  congr 1
  omega

/-- ROR brings down to bit i the bit n places above it, around the word (R275). -/
theorem testBit_rorResult (x y : W32) {i : Nat} (hi : i < 32) :
    (rorResult x y).toNat.testBit i = x.toNat.testBit ((i + y.toNat % 32) % 32) := by
  have hn : y.toNat % 32 < 32 := Nat.mod_lt _ (by decide)
  rw [rorResult, BitVec.testBit_toNat, BitVec.testBit_toNat, BitVec.getLsbD_rotateRight_of_lt hn]
  by_cases h : i < 32 - y.toNat % 32
  · have hplace : (i + y.toNat % 32) % 32 = y.toNat % 32 + i := by omega
    simp [h, hplace]
  · have hplace : (i + y.toNat % 32) % 32 = i - (32 - y.toNat % 32) := by omega
    simp [h, hi, hplace]

/-- ROL brings up to bit i the bit n places below it, around the word (R276). -/
theorem testBit_rolResult (x y : W32) {i : Nat} (hi : i < 32) :
    (rolResult x y).toNat.testBit i = x.toNat.testBit ((i + 32 - y.toNat % 32) % 32) := by
  have hn : y.toNat % 32 < 32 := Nat.mod_lt _ (by decide)
  rw [rolResult, BitVec.testBit_toNat, BitVec.testBit_toNat, BitVec.getLsbD_rotateLeft_of_le hn]
  by_cases h : i < y.toNat % 32
  · have hplace : (i + 32 - y.toNat % 32) % 32 = 32 - y.toNat % 32 + i := by omega
    simp [h, hplace]
  · have hplace : (i + 32 - y.toNat % 32) % 32 = i - y.toNat % 32 := by omega
    simp [h, hi, hplace]

/-! ## The statements -/

/-- Settles O12: the frame holds of any operation, and the bits are those of the rotated word. -/
theorem rotateResults : Obligations.RotateResults := by
  unfold Obligations.RotateResults
  intro s d src hsrc
  have heffect (f : W32 → W32 → W32) :
      AluEffect s d (regNat (s.execAlu f d src) d.toNat) (s.execAlu f d src) :=
    aluEffect_execAlu hsrc (regNat_execAlu_dst hsrc f).symm
  refine ⟨⟨_, rfl, heffect rorResult, fun i hi => ?_⟩, _, rfl, heffect rolResult, fun i hi => ?_⟩
  · rw [regNat_execAlu_dst hsrc, regNat_dst, regNat_of_lt s hsrc]
    exact testBit_rorResult _ _ hi
  · rw [regNat_execAlu_dst hsrc, regNat_dst, regNat_of_lt s hsrc]
    exact testBit_rolResult _ _ hi

/-- Settles O10: R271 with the two results over numbers. -/
theorem mulAndXorResults : Obligations.MulAndXorResults := by
  unfold Obligations.MulAndXorResults
  intro s d src hsrc
  rw [regNat_dst, regNat_of_lt s hsrc]
  exact ⟨⟨_, rfl, aluEffect_execAlu hsrc (toNat_mulResult _ _)⟩, _, rfl,
    aluEffect_execAlu hsrc (toNat_xorResult _ _)⟩

/-- Settles O11: R271 with the two results over numbers. -/
theorem addAndSubResults : Obligations.AddAndSubResults := by
  unfold Obligations.AddAndSubResults
  intro s d src c hsrc
  rw [regNat_dst, regNat_of_lt s hsrc]
  exact ⟨⟨_, rfl, aluEffect_execAlu hsrc (toNat_addResult c _ _)⟩, _, rfl,
    aluEffect_execAlu hsrc (toNat_subResult _ _)⟩

end Sys2Proof.Machine
end

section
/-! PROOFS. The padding of BLAKE-256 (spec/46_finalization.md R334): its two parts, the bytes before the length and
the length, and what stands at each place of them. -/

namespace Sys2Proof.Machine

/-! ## The two parts -/

/-- The bytes from the first padding byte to the one before the length (R334). -/
def blakeFill (L : Nat) : List Byte :=
  if blakeZeros L = 0 then [0x81] else 0x80 :: (List.replicate (blakeZeros L - 1) 0 ++ [0x01])

/-- The bit length in 8 bytes, the most significant first (R334). -/
def blakeLengthBytes (L : Nat) : List Byte := (List.range 8).map fun k => byteOf (BitVec.ofNat 64 (8 * L)) (7 - k)

theorem blakePad_eq_append (L : Nat) : blakePad L = blakeFill L ++ blakeLengthBytes L := rfl

theorem blakeZeros_eq_zero_iff (L : Nat) : blakeZeros L = 0 ↔ L % 64 = 55 := by
  unfold blakeZeros
  omega

theorem blakeFill_of_eq_zero {L : Nat} (hz : blakeZeros L = 0) : blakeFill L = [0x81] := if_pos hz

theorem blakeFill_of_ne_zero {L : Nat} (hz : blakeZeros L ≠ 0) :
    blakeFill L = 0x80 :: (List.replicate (blakeZeros L - 1) 0 ++ [0x01]) := if_neg hz

theorem length_blakeFill (L : Nat) : (blakeFill L).length = blakeZeros L + 1 := by
  by_cases hz : blakeZeros L = 0
  · rw [blakeFill_of_eq_zero hz, hz, List.length_singleton]
  · rw [blakeFill_of_ne_zero hz, List.length_cons, List.length_append, List.length_replicate, List.length_singleton,
      Nat.sub_one_add_one hz]

@[simp] theorem length_blakeLengthBytes (L : Nat) : (blakeLengthBytes L).length = 8 := by simp [blakeLengthBytes]

theorem length_blakePad (L : Nat) : (blakePad L).length = blakeZeros L + 9 := by
  rw [blakePad_eq_append, List.length_append, length_blakeFill, length_blakeLengthBytes]

theorem getElem?_blakePad_of_le {L k : Nat} (hk : k ≤ blakeZeros L) : (blakePad L)[k]? = (blakeFill L)[k]? := by
  have hfill : k < (blakeFill L).length := by rw [length_blakeFill]; omega
  rw [blakePad_eq_append, List.getElem?_append_left hfill]

theorem getElem?_blakePad_length (L k : Nat) :
    (blakePad L)[blakeZeros L + 1 + k]? = (blakeLengthBytes L)[k]? := by
  rw [blakePad_eq_append, ← length_blakeFill, List.getElem?_append_right (Nat.le_add_right _ _),
    Nat.add_sub_cancel_left]

/-! ## The bytes before the length -/

section
variable {L : Nat} (hz : blakeZeros L ≠ 0)
include hz

theorem getElem?_blakeFill_zero : (blakeFill L)[0]? = some 0x80 := by
  rw [blakeFill_of_ne_zero hz, List.getElem?_cons_zero]

theorem getElem?_blakeFill_between {k : Nat} (hpos : 0 < k) (hk : k < blakeZeros L) :
    (blakeFill L)[k]? = some 0x00 := by
  obtain ⟨i, rfl⟩ := Nat.exists_eq_add_one.mpr hpos
  have hi : i < blakeZeros L - 1 := by omega
  rw [blakeFill_of_ne_zero hz, List.getElem?_cons_succ, List.getElem?_append_left (by simpa using hi),
    List.getElem?_replicate, if_pos hi]

theorem getElem?_blakeFill_last : (blakeFill L)[blakeZeros L]? = some 0x01 := by
  obtain ⟨n, hn⟩ := Nat.exists_eq_succ_of_ne_zero hz
  rw [blakeFill_of_ne_zero hz, hn, List.getElem?_cons_succ]
  simp

end

/-! ## The length -/

/-- A 64-bit word keeps its low eight bytes, so the cut to 64 bits does not show in them. -/
theorem byteOf_ofNat_64 (n : Nat) {k : Nat} (hk : k < 8) :
    byteOf (BitVec.ofNat 64 n) k = BitVec.ofNat 8 (n / 256 ^ k) := by
  have hsplit : 2 ^ 64 = 256 ^ k * (256 * 256 ^ (7 - k)) := by
    rw [← Nat.pow_succ', ← Nat.pow_add, show k + (7 - k).succ = 8 by omega]
    rfl
  apply BitVec.eq_of_toNat_eq
  rw [toNat_byteOf, BitVec.toNat_ofNat, BitVec.toNat_ofNat, Nat.pow_mul, hsplit, Nat.mod_mul_right_div_self,
    Nat.mod_mul_right_mod]

theorem getElem?_blakeLengthBytes (L : Nat) {k : Nat} (hk : k < 8) :
    (blakeLengthBytes L)[k]? = some (BitVec.ofNat 8 (8 * L / 256 ^ (7 - k))) := by
  rw [blakeLengthBytes, List.getElem?_map, List.getElem?_range hk, Option.map_some, byteOf_ofNat_64 _ (by omega)]

/-! ## The statement -/

/-- Settles O42: the places of the statement, counted from the end, are places of the two parts. -/
theorem blakePaddingFillsBlocks : Obligations.BlakePaddingFillsBlocks := by
  unfold Obligations.BlakePaddingFillsBlocks
  intro L
  have hzeros : blakeZeros L = (119 - L % 64) % 64 := rfl
  have hlast : blakeZeros L + 9 - 9 = blakeZeros L := Nat.add_sub_cancel ..
  have hlength (k : Nat) : blakeZeros L + 9 - 8 + k = blakeZeros L + 1 + k := rfl
  rw [length_blakePad]
  refine ⟨by omega, by omega, by omega, fun h55 => ?_, fun h55 => ?_, fun k hk => ?_⟩
  · have hz : blakeZeros L = 0 := (blakeZeros_eq_zero_iff L).mpr h55
    rw [getElem?_blakePad_of_le (Nat.zero_le _), blakeFill_of_eq_zero hz, List.getElem?_cons_zero]
  · have hz : blakeZeros L ≠ 0 := mt (blakeZeros_eq_zero_iff L).mp h55
    refine ⟨?first, ?last, fun k hpos hk => ?between⟩
    case first => rw [getElem?_blakePad_of_le (Nat.zero_le _), getElem?_blakeFill_zero hz]
    case last => rw [hlast, getElem?_blakePad_of_le le_rfl, getElem?_blakeFill_last hz]
    case between => rw [getElem?_blakePad_of_le (by omega), getElem?_blakeFill_between hz hpos (by omega)]
  · rw [hlength, getElem?_blakePad_length, getElem?_blakeLengthBytes L hk]

end Sys2Proof.Machine
end

section
/-! PROOFS. The command bits of CTRL (spec/47_commands.md R350 to R353): what START and CLR do while a job runs and
while none does, and that one write of CTRL acts as its three parts in order. -/

namespace Sys2Proof.Machine

/-! ## The two commands -/

theorem State.clrStatus_of_idle {s : State} (h : s.busy = false) :
    s.clrStatus = { s with done := false, err := false, errcode := .none, phase := .idle, progress := 0 } := by
  simp only [State.clrStatus, h, Bool.false_eq_true, if_false]

theorem State.startJob_of_idle {s : State} (h : s.busy = false) :
    s.startJob = { s with
      done := false, err := false, errcode := .none, busy := true, phase := .check, progress := 0,
      jobOp := cmdOp s.cmd, jobVariant := cmdVariant s.cmd, jobPrehashed := cmdPrehashed s.cmd, jobLen := s.len,
      jobHeight := s.heightHi ++ s.heightLo } := by
  simp only [State.startJob, h, Bool.false_eq_true, if_false]

/-- What START writes hides what CLR wrote before it. -/
theorem State.startJob_clrStatus (s : State) : s.clrStatus.startJob = s.startJob := by
  cases h : s.busy with
  | true => rw [State.clrStatus_of_busy h]
  | false =>
    rw [State.clrStatus_of_idle h, State.startJob_of_idle h]
    exact State.startJob_of_idle h

theorem State.startJob_busy (s : State) : s.startJob.busy = true := by
  cases h : s.busy with
  | true => rw [State.startJob_of_busy h, h]
  | false => rw [State.startJob_of_idle h]

theorem State.startJob_ie (s : State) : s.startJob.ie = s.ie := by
  cases h : s.busy with
  | true => rw [State.startJob_of_busy h]
  | false => rw [State.startJob_of_idle h]

/-- R353: with START set the CLR bit makes no difference. -/
theorem State.ctrlWrite_start (s : State) (ie clr : Bool) :
    s.ctrlWrite ie clr true = ({ s with ie := ie } : State).startJob := by
  cases clr with
  | false => rfl
  | true => exact State.startJob_clrStatus _

/-! ## The fields of CMD and HEIGHT -/

theorem toNat_cmdOp (w : W32) : (cmdOp w).toNat = w.toNat % 4 := by
  rw [cmdOp, BitVec.extractLsb'_toNat, Nat.shiftRight_zero]

theorem toNat_cmdVariant (w : W32) : (cmdVariant w).toNat = w.toNat / 16 % 8 := by
  rw [cmdVariant, BitVec.extractLsb'_toNat, Nat.shiftRight_eq_div_pow]

theorem toNat_append_words (hi lo : W32) : (hi ++ lo : W64).toNat = hi.toNat * 2 ^ 32 + lo.toNat := by
  rw [BitVec.toNat_append, ← Nat.shiftLeft_add_eq_or_of_lt lo.isLt, Nat.shiftLeft_eq]

/-- Settles O20: a busy core keeps everything but IE, an idle one takes START's writes, whose latched values are the
fields of CMD, LEN and HEIGHT as numbers. -/
theorem startLatchesParameters : Obligations.StartLatchesParameters := by
  unfold Obligations.StartLatchesParameters
  intro s ie clr
  refine ⟨fun hb => congrArg _ (State.ctrlWrite_of_busy hb ie clr true), fun hb => ?_⟩
  have hb' : ({ s with ie := ie } : State).busy = false := hb
  have hexec : exec (.start ie clr) s = .next ({ s with ie := ie } : State).startJob :=
    congrArg _ (s.ctrlWrite_start ie clr)
  rw [hexec, State.startJob_of_idle hb']
  exact ⟨_, rfl, toNat_cmdOp s.cmd, toNat_cmdVariant s.cmd, rfl, rfl, toNat_append_words s.heightHi s.heightLo, rfl⟩

/-- Settles O21: CLR is the two cases of `clrStatus` after the write of IE. -/
theorem clrReturnsToIdle : Obligations.ClrReturnsToIdle := by
  unfold Obligations.ClrReturnsToIdle
  intro s ie
  refine ⟨fun hb => congrArg _ (State.ctrlWrite_of_busy hb ie true false), fun hb => ?_⟩
  exact congrArg _ (State.clrStatus_of_idle (s := { s with ie := ie }) hb)

/-! ## The order of one write -/

/-- A pending write of CTRL, with or without a command bit, is the write of its three bits (R91, R351). -/
theorem step_of_ctrl_write {s : State} {v : W32} {rest : List Input} (h : s.inputs = .write 0 4 v :: rest) :
    step s = .next (({ s with inputs := rest } : State).ctrlWrite (v.getLsbD 1) (v.getLsbD 2) (v.getLsbD 0)) := by
  have haction : s.nextAction = State.inputAction (.write 0 4 v) { s with inputs := rest } := by
    simp only [State.nextAction, h]
  rw [step, haction, State.inputAction, hostCommand, if_pos ⟨rfl, rfl⟩, decode, decodeCtrl]
  cases hstart : v.getLsbD 0 with
  | true => rfl
  | false =>
    cases hclr : v.getLsbD 2 with
    | true => rfl
    | false => rfl

/-- The state with other events pending. -/
def State.withInputs (l : List Input) (s : State) : State := { s with inputs := l }

theorem State.clrStatus_withInputs (s : State) (l : List Input) :
    (s.withInputs l).clrStatus = s.clrStatus.withInputs l := by
  cases hb : s.busy with
  | true => rw [State.clrStatus_of_busy hb]; exact State.clrStatus_of_busy hb
  | false => rw [State.clrStatus_of_idle hb]; exact State.clrStatus_of_idle hb

theorem State.startJob_withInputs (s : State) (l : List Input) :
    (s.withInputs l).startJob = s.startJob.withInputs l := by
  cases hb : s.busy with
  | true => rw [State.startJob_of_busy hb]; exact State.startJob_of_busy hb
  | false => rw [State.startJob_of_idle hb]; exact State.startJob_of_idle hb

/-- A write of CTRL neither reads nor changes the pending events. -/
theorem State.ctrlWrite_withInputs (s : State) (l : List Input) (ie clr start : Bool) :
    (s.withInputs l).ctrlWrite ie clr start = (s.ctrlWrite ie clr start).withInputs l := by
  cases start with
  | true =>
    rw [State.ctrlWrite_start, State.ctrlWrite_start]
    exact State.startJob_withInputs { s with ie := ie } l
  | false =>
    cases clr with
    | true => exact State.clrStatus_withInputs { s with ie := ie } l
    | false => rfl

/-- R353 on the state: IE alone, then IE and CLR, then IE and START. -/
theorem State.ctrlWrite_in_order (s : State) (ie clr start : Bool) :
    ((s.ctrlWrite ie false false).ctrlWrite ie clr false).ctrlWrite ie false start = s.ctrlWrite ie clr start := by
  cases hb : s.busy with
  | true =>
    have hb' : ({ s with ie := ie } : State).busy = true := hb
    rw [State.ctrlWrite_of_busy hb, State.ctrlWrite_of_busy hb', State.ctrlWrite_of_busy hb',
      State.ctrlWrite_of_busy hb]
  | false =>
    have hclr := State.clrStatus_of_idle (s := { s with ie := ie }) hb
    cases clr with
    | false => rfl
    | true => simp only [State.ctrlWrite, if_true, Bool.false_eq_true, if_false, hclr]

/-- The next of several writes to CTRL takes its three bits and leaves the others pending. -/
theorem run_ctrl_write {v : W32} {ie clr start : Bool} (hie : v.getLsbD 1 = ie) (hclr : v.getLsbD 2 = clr)
    (hstart : v.getLsbD 0 = start) (s : State) (rest : List Input) (n : Nat) :
    runs (n + 1) (s.withInputs (.write 0 4 v :: rest)) = runs n ((s.ctrlWrite ie clr start).withInputs rest) := by
  rw [← State.ctrlWrite_withInputs, ← hie, ← hclr, ← hstart]
  exact run_succ_of_step (M := core) (step_of_ctrl_write (s := s.withInputs (.write 0 4 v :: rest)) rfl) n

/-- Settles O22: the masks 2, 6 and 3 leave the bits of the three writes of R353, which in order are the one write. -/
theorem controlWriteOrder : Obligations.ControlWriteOrder := by
  unfold Obligations.ControlWriteOrder
  refine ⟨fun s v rest h => ?_, fun s ie => ?_⟩
  · have hrun1 := run_ctrl_write (v := v &&& 2#32) (ie := v.getLsbD 1) (clr := false) (start := false)
      (by simp) (by simp) (by simp)
    have hrun2 := run_ctrl_write (v := v &&& 6#32) (ie := v.getLsbD 1) (clr := v.getLsbD 2) (start := false)
      (by simp) (by simp) (by simp)
    have hrun3 := run_ctrl_write (v := v &&& 3#32) (ie := v.getLsbD 1) (clr := false) (start := v.getLsbD 0)
      (by simp) (by simp) (by simp)
    calc step s
      _ = .next (({ s with inputs := rest } : State).ctrlWrite (v.getLsbD 1) (v.getLsbD 2) (v.getLsbD 0)) :=
        step_of_ctrl_write h
      _ = .next ((s.ctrlWrite (v.getLsbD 1) (v.getLsbD 2) (v.getLsbD 0)).withInputs rest) :=
        congrArg _ (s.ctrlWrite_withInputs rest _ _ _)
      _ = runs 3 (s.withInputs
          (.write 0 4 (v &&& 2#32) :: .write 0 4 (v &&& 6#32) :: .write 0 4 (v &&& 3#32) :: rest)) := by
        rw [hrun1, hrun2, hrun3, State.ctrlWrite_in_order]
        rfl
  · have hexec : exec (.clr true ie) s = .next ({ s with ie := ie } : State).startJob :=
      congrArg _ (s.ctrlWrite_start ie true)
    exact ⟨rfl, _, hexec, State.startJob_ie _, State.startJob_busy _⟩

end Sys2Proof.Machine
end

section
/-! PROOFS. Parts of the memories, registers and tables of a SLOW_HASH job that determine what its steps compute: the
first bytes of a memory, r[0..3], PROG up to its RET, and the message bytes below LEN. -/

namespace Sys2Proof.Machine

/-! ## The first bytes of a memory -/

/-- The first n bytes of a memory, in canonical form. -/
@[irreducible] def Memory.copy (m : Memory) (n : Nat) : Memory :=
  (List.range n).foldl (fun c x => c.write x (m.read x)) []

theorem Memory.copy_zero (m : Memory) : m.copy 0 = [] := by
  rw [Memory.copy, List.range_zero, List.foldl_nil]

theorem Memory.copy_succ (m : Memory) (n : Nat) : m.copy (n + 1) = (m.copy n).write n (m.read n) := by
  rw [Memory.copy, Memory.copy, List.range_succ, List.foldl_append, List.foldl_cons, List.foldl_nil]

theorem Memory.wf_copy (m : Memory) : ∀ n, (m.copy n).wf = true
  | 0 => by rw [m.copy_zero]; rfl
  | n + 1 => by rw [m.copy_succ]; exact Memory.wf_write (m.wf_copy n)

theorem Memory.read_copy (m : Memory) (x : Nat) : ∀ n, (m.copy n).read x = if x < n then m.read x else unlisted
  | 0 => by rw [m.copy_zero]; rfl
  | n + 1 => by
    rw [m.copy_succ]
    rcases Nat.lt_trichotomy x n with hlt | rfl | hgt
    · rw [Memory.read_write_other (m.wf_copy n) hlt.ne, m.read_copy x n, if_pos hlt, if_pos (by omega)]
    · rw [Memory.read_write_same (m.wf_copy x), if_pos (by omega)]
    · rw [Memory.read_write_other (m.wf_copy n) hgt.ne', m.read_copy x n, if_neg (by omega), if_neg (by omega)]

theorem Memory.copy_congr {m m' : Memory} {n : Nat} (h : ∀ x, x < n → m.read x = m'.read x) :
    m.copy n = m'.copy n := by
  refine Memory.ext_read (m.wf_copy n) (m'.wf_copy n) fun x => ?_
  rw [m.read_copy, m'.read_copy]
  exact if_ctx_congr Iff.rfl (h x) fun _ => rfl

theorem Memory.within_mono {m : Memory} {n n' : Nat} (hn : n ≤ n') (h : m.within n = true) : m.within n' = true := by
  simp only [Memory.within, List.all_eq_true, decide_eq_true_eq] at h ⊢
  exact fun cell hcell => (h cell hcell).trans_le hn

/-- Nothing is listed at or above a bound. -/
theorem Memory.read_of_within {n x : Nat} (hx : n ≤ x) : ∀ {m : Memory}, m.within n = true → m.read x = unlisted
  | [], _ => rfl
  | (k, b) :: m, h => by
    obtain ⟨hk, hm⟩ : k < n ∧ Memory.within n m = true := by simpa [Memory.within] using h
    rw [Memory.read, if_neg (by omega), if_neg (by omega), Memory.read_of_within hx hm]

/-- A canonical memory with nothing above n is its first n bytes. -/
theorem Memory.copy_eq_self {m : Memory} {n : Nat} (hwf : m.wf = true) (h : m.within n = true) : m.copy n = m := by
  refine Memory.ext_read (m.wf_copy n) hwf fun x => ?_
  rw [m.read_copy]
  split
  · rfl
  · exact (Memory.read_of_within (by omega) h).symm

/-- After the same write two memories agree where they agreed and where it wrote. -/
theorem Memory.read_write_congr {m m' : Memory} {a x : Nat} {v : Byte} (hm : m.wf = true) (hm' : m'.wf = true)
    (h : x ≠ a → m.read x = m'.read x) : (m.write a v).read x = (m'.write a v).read x := by
  by_cases hx : x = a
  · subst hx
    rw [Memory.read_write_same hm, Memory.read_write_same hm']
  · rw [Memory.read_write_other hm hx, Memory.read_write_other hm' hx, h hx]

theorem Memory.read_writeLE_congr {x : Nat} : ∀ {n : Nat} {m m' : Memory} {a v : Nat}, m.wf = true → m'.wf = true →
    (x < a ∨ a + n ≤ x → m.read x = m'.read x) → (m.writeLE a n v).read x = (m'.writeLE a n v).read x
  | 0, _, _, _, _, _, _, h => h (by omega)
  | n + 1, _, _, _, _, hm, hm', h =>
    Memory.read_writeLE_congr (n := n) (Memory.wf_write hm) (Memory.wf_write hm') fun _ =>
      Memory.read_write_congr hm hm' fun _ => h (by omega)

theorem read_writeBlocks_congr {g x : Nat} {text : Vector Block 8} : ∀ {ks : List (Fin 8)} {m m' : Memory},
    m.wf = true → m'.wf = true →
    ((∀ k ∈ ks, x < 128 * g + 16 * k.val ∨ 128 * g + 16 * k.val + 16 ≤ x) → m.read x = m'.read x) →
    (writeBlocks g text m ks).read x = (writeBlocks g text m' ks).read x
  | [], _, _, _, _, h => h (by simp)
  | k :: ks, m, m', hm, hm', h => by
    rw [writeBlocks_cons, writeBlocks_cons]
    refine read_writeBlocks_congr (Memory.wf_writeBlock hm) (Memory.wf_writeBlock hm') fun htail => ?_
    unfold Memory.writeBlock
    exact Memory.read_writeLE_congr hm hm' fun hk => h (List.forall_mem_cons.mpr ⟨hk, htail⟩)

/-- The first bytes of the scratchpad after group g are determined by those before it (R183). -/
theorem copy_writeGroup {m : Memory} (hm : m.wf = true) (g : Nat) (text : Vector Block 8) :
    (writeGroup m g text).copy (128 * (g + 1)) = (writeGroup (m.copy (128 * g)) g text).copy (128 * (g + 1)) := by
  refine Memory.copy_congr fun x hx => ?_
  rw [writeGroup_eq_writeBlocks, writeGroup_eq_writeBlocks]
  refine read_writeBlocks_congr hm (m.wf_copy _) fun hout => ?_
  have hlow : x < 128 * g := by
    by_contra hge
    have hblock := hout ⟨(x - 128 * g) / 16, by omega⟩ (List.mem_finRange _)
    dsimp only at hblock
    omega
  rw [m.read_copy, if_pos hlow]

/-! ## The registers and the program of the random-math machine -/

/-- r[0..3], the registers that a run of the random-math machine leaves to the next (spec/45_random_math.md R291). -/
def carriedRegs (r : Vector W32 9) : Vector W32 9 := #v[r[0], r[1], r[2], r[3], 0, 0, 0, 0, 0]

theorem rmT_carriedRegs (t : Block) (r : Vector W32 9) : rmT t (carriedRegs r) = rmT t r := by
  unfold rmT
  rfl

theorem rmSeed_carriedRegs (r : Vector W32 9) (a b0 b1 : Block) :
    rmSeed (carriedRegs r) a b0 b1 = rmSeed r a b0 b1 := by
  unfold rmSeed
  rfl

theorem rmA1_carriedRegs (a1 : Block) (r : Vector W32 9) : rmA1 a1 (carriedRegs r) = rmA1 a1 r := by
  unfold rmA1
  rfl

/-- The seeding of R290 writes every register that is carried. -/
theorem carriedRegs_rmInit (S : Lanes) (r r' : Vector W32 9) :
    carriedRegs (rmInit S r) = carriedRegs (rmInit S r') := by
  unfold rmInit
  rfl

/-- PROG[0..n]. -/
@[irreducible] def progUpTo (n : Nat) (prog : Vector ProgWord 71) : Vector ProgWord 71 :=
  Vector.ofFn fun k : Fin 71 => if k.val ≤ n then prog[k] else 0

theorem progUpTo_reset (n : Nat) : progUpTo n State.reset.prog = State.reset.prog := by
  ext k hk
  simp [progUpTo, State.reset]

theorem progUpTo_getElem (prog : Vector ProgWord 71) {n k : Nat} (hk : k < 71) (hn : k ≤ n) :
    (progUpTo n prog)[k] = prog[k] := by
  simp [progUpTo, hn]

/-- A generated program and its RET do not depend on what the store held before (R311). -/
theorem progUpTo_progStore (code : List Instr) (prog : Vector ProgWord 71) :
    progUpTo code.length (progStore code prog) = progStore code State.reset.prog := by
  ext k hk
  simp [progUpTo, progStore, State.reset]
  grind

/-! ## What the data path reads of the message -/

theorem absorbBlock_congr {f g : Nat → Byte} {L : Nat} (h : ∀ i, i < L → f i = g i) (k : Nat) (S : Lanes) :
    absorbBlock f L k S = absorbBlock g L k S := by
  have hbyte : absorbByte f L k = absorbByte g L k := by
    funext j
    have hm : (if rate * k + j < L then f (rate * k + j) else 0) = if rate * k + j < L then g (rate * k + j) else 0 :=
      if_ctx_congr Iff.rfl (h _) fun _ => rfl
    simp only [absorbByte, hm]
  rw [absorbBlock, absorbBlock, hbyte]

theorem read64_congr {m m' : Memory} {a : Nat} (h : ∀ x, x < a + 8 → m.read x = m'.read x) :
    m.read64 a = m'.read64 a := by
  rw [Memory.read64, Memory.read64, Memory.readLE_congr fun x _ hx => h x hx]

theorem lanesOfMessage_congr {m m' : Memory} (h : ∀ x, x < 200 → m.read x = m'.read x) :
    lanesOfMessage m = lanesOfMessage m' := by
  have hlane (i : Fin 25) : m.read64 (8 * i.val) = m'.read64 (8 * i.val) := read64_congr fun x hx => h x (by omega)
  simp only [lanesOfMessage, hlane]

end Sys2Proof.Machine
end

section
/-! PROOFS. What the rest of a SLOW_HASH or FAST_HASH job can read of a state, place by place: the registers that are not
written again before they are read, the message below LEN, and PROG up to its RET. First that a step of the job is the
same with another message that agrees below LEN and with the registers of other variants cleared. -/

namespace Sys2Proof.Machine

/-! ## What is needed of a state -/

/-- The state with the message `m` and, of the registers that only some variants use (spec/44_variant_tweaks.md R240),
those of its own variant. -/
def State.forJob (m : Memory) (s : State) : State :=
  { s with
    msg := m
    tweak12 := if s.jobVariant = 1 then s.tweak12 else 0
    divR := if integerGate s.jobVariant then s.divR else 0
    sqrtR := if integerGate s.jobVariant then s.sqrtR else 0
    r := if randomGate s.jobVariant then s.r else State.reset.r
    prog := if randomGate s.jobVariant then s.prog else State.reset.prog
    plen := if randomGate s.jobVariant then s.plen else 0 }

/-- The generator's state without the tables that an attempt has not yet begun to fill (R301, R304). -/
def GenState.kept (g : GenState) : GenState :=
  match g.stage with
  | .seed => GenState.reset
  | .attempt => { GenState.reset with gd := g.gd, gi := g.gi, stage := .attempt }
  | .decode | .pad | .output => g

/-- From SETUP to the end of MIX: the registers an outer iteration leaves to the next, and S for the end of the job. -/
def State.keptLoaded (s : State) : State :=
  { State.reset with
    hashState := s.hashState, a := s.a, b0 := s.b0, b1 := s.b1, tweak12 := s.tweak12, divR := s.divR, sqrtR := s.sqrtR
    r := carriedRegs s.r }

/-- Inside an outer iteration: the values that its rules so far leave to its later ones (R204 to R213). -/
def State.keptMix (s : State) : State :=
  let loop : State :=
    { s.keptLoaded with sp := s.sp, i := s.i, mixStep := s.mixStep, prog := s.prog, plen := s.plen }
  match s.mixStep with
  | .half1Aes => loop
  | .half1Shuffle | .half1Store => { loop with j1 := s.j1, c := s.c }
  | .half2Load => { loop with c := s.c }
  | .half2Math | .rmFold | .half2Mul => { loop with j2 := s.j2, c := s.c, t := s.t, a1 := s.a1 }
  | .rmRun => { loop with j2 := s.j2, c := s.c, t := s.t, a1 := s.a1, r := s.r, rpc := s.rpc }
  | .half2Fold | .half2Shuffle | .half2Store =>
    { loop with j2 := s.j2, c := s.c, t := s.t, a1 := s.a1, hi := s.hi, lo := s.lo }
  | .iterEnd => { loop with c := s.c, newa := s.newa }

/-- The registers that a step of a phase, or the steps after it, can read before they write them. -/
def State.keptPhase (s : State) : State :=
  match s.phase with
  | .idle | .check => State.reset
  | .absorb => { State.reset with hashState := s.hashState, blk := s.blk }
  | .setup | .extra => { State.reset with hashState := s.hashState }
  | .rmGen => { s.keptLoaded with rk1 := s.rk1, gen := s.gen.kept }
  | .fill =>
    { s.keptLoaded with
      rk1 := s.rk1, text := s.text, g := s.g, sp := s.sp.copy (128 * s.g), prog := s.prog, plen := s.plen }
  | .mix => s.keptMix
  | .finalFill => { State.reset with hashState := s.hashState, sp := s.sp, rk2 := s.rk2, text := s.text, g := s.g }
  | .permute => { State.reset with hashState := s.hashState, text := s.text }
  | .done => { State.reset with digest := s.digest }
  | .error => { State.reset with errcode := s.errcode }

/-- The state with every register cleared that the rest of the job does not need. -/
def State.kept (s : State) : State :=
  { s.keptPhase with
    busy := s.busy, phase := s.phase, jobOp := s.jobOp, jobVariant := s.jobVariant, jobPrehashed := s.jobPrehashed,
    jobLen := s.jobLen, jobHeight := s.jobHeight, msgMaxExtra := s.msgMaxExtra, spGrant := s.spGrant, msg := s.msg }

/-- The state with every register and every entry of PROG cleared that the rest of the job does not need: no run of the
random-math machine gets past entry PLEN. -/
def State.needed (s : State) : State := { s with prog := progUpTo s.plen.toNat s.prog : State }.kept

/-- A map of the states of an outcome. -/
def mapNext (f : State → State) : Host.Outcome State Fault Refusal → Host.Outcome State Fault Refusal
  | .next t => .next (f t)
  | .fault r => .fault r
  | .refused r => .refused r

/-! ## What holds along a job -/

/-- The scratchpad is canonical and inside its address space. -/
def SpInv (s : State) : Prop := s.sp.wf = true ∧ s.sp.within (2 ^ 21) = true

/-- The program of a VARIANT = 4 job ends with RET at entry PLEN. -/
def EndsProgram (s : State) : Prop :=
  randomGate s.jobVariant = true → ∃ h : s.plen.toNat < 71, decodeProg s.prog[s.plen.toNat] = .ok .ret

/-- A VARIANT = 1 job has the message bytes that its tweak reads (spec/44_variant_tweaks.md R241). -/
def TweakInv (s : State) : Prop := s.jobOp = 0 → s.jobVariant = 1 → 43 ≤ s.jobLen.toNat

/-- The rules of an outer iteration that belong to the random-math machine. -/
def MixStep.isRandomMath : MixStep → Bool
  | .rmRun | .rmFold => true
  | _ => false

/-- The random-math machine is at work for VARIANT = 4 only, and at or before the RET. -/
def RunInv (s : State) : Prop :=
  EndsProgram s ∧ (s.mixStep.isRandomMath = true → randomGate s.jobVariant = true) ∧
    (s.mixStep = .rmRun → s.rpc.toNat ≤ s.plen.toNat)

/-- What the steps of each phase rest on. -/
def PlaceInv (s : State) : Prop :=
  match s.phase with
  | .check => SpInv s
  | .absorb | .setup => SpInv s ∧ TweakInv s
  | .rmGen => SpInv s ∧ randomGate s.jobVariant = true
  | .fill => SpInv s ∧ EndsProgram s
  | .mix => RunInv s
  | .done => s.done = true
  | .idle | .finalFill | .permute | .extra | .error => True

/-- A SLOW_HASH or FAST_HASH job runs or has ended, no event is pending, and its message is that in `m`. -/
structure HashJob (m : Memory) (s : State) : Prop where
  inputs : s.inputs = []
  command : s.jobOp = 0 ∨ s.jobOp = 1
  status : s.busy = s.phase.running
  message : ∀ i, i < s.jobLen.toNat → s.msgByte i = m.read i
  place : PlaceInv s

section
variable {m : Memory} {s t : State} {v : BitVec 3} {p : Bool}

/-! ## One word of the program store -/

/-- The step of the random-math machine on a word. -/
def State.runWord (w : ProgWord) (s : State) : Host.Outcome State Fault Refusal :=
  match decodeProg w with
  | .ok i => exec i s
  | .error _ => .next (s.raiseJobError .internalFault)

theorem step_of_runsProgram (hc : CoreMoves s) (hr : RunsProgram s) (hrpc : s.rpc.toNat < 71) :
    step s = s.runWord s.prog[s.rpc.toNat] := by
  obtain ⟨hin, hb⟩ := hc
  have hrun : s.running = true := decide_eq_true hr
  have haction : s.nextAction = s.fetchProg := by
    simp [State.nextAction_of_no_input hin, State.coreAction, hb, hrun]
  rw [step, haction, State.fetchProg, dif_pos hrpc, State.runWord, decode]
  cases decodeProg s.prog[s.rpc.toNat] <;> rfl

/-- The decoder reads RET or an operation with a register source. -/
theorem decodeProg_ok {w : ProgWord} {i : Instr} (h : decodeProg w = .ok i) : i = .ret ∨ isAlu i = true := by
  unfold decodeProg at h
  split at h
  · cases h
  · split at h
    case h_7 => cases h; exact .inl rfl
    case h_8 => cases h
    all_goals
      obtain ⟨hsrc, rfl⟩ := withSource_eq_ok.mp h
      exact .inr (decide_eq_true hsrc)

theorem exec_of_isAlu {i : Instr} (h : isAlu i = true) :
    ∃ f d src, src.toNat < 9 ∧ ∀ s : State, exec i s = .next (s.execAlu f d src) := by
  cases i with
  | mul d src | add d src c | sub d src | ror d src | rol d src | xor d src =>
    exact ⟨_, d, src, of_decide_eq_true h, fun _ => rfl⟩
  | ret | slowHash | fastHash | keccakPermute | start | clr => cases h

/-- A word is reserved, RET, or an operation on registers, whatever the state it runs in. -/
theorem runWord_cases (w : ProgWord) :
    (∀ s : State, s.runWord w = .next (s.raiseJobError .internalFault)) ∨
      (∀ s : State, s.runWord w = .next { s with mixStep := .rmFold }) ∨
      (decodeProg w ≠ .ok .ret ∧
        ∃ f d src, src.toNat < 9 ∧ ∀ s : State, s.runWord w = .next (s.execAlu f d src)) := by
  cases hw : decodeProg w with
  | error e => exact .inl fun s => by rw [State.runWord, hw]
  | ok i =>
    have hrun (s : State) : s.runWord w = exec i s := by rw [State.runWord, hw]
    rcases decodeProg_ok hw with rfl | halu
    · exact .inr (.inl hrun)
    · obtain ⟨f, d, src, hsrc, hexec⟩ := exec_of_isAlu halu
      refine .inr (.inr ⟨fun hret => ?_, f, d, src, hsrc, fun s => (hrun s).trans (hexec s)⟩)
      cases hret
      cases halu

theorem step_of_fastHash (hc : CoreMoves s) (hr : ¬ RunsProgram s) (ho : s.jobOp = 1) : step s = execFastHash s := by
  obtain ⟨hin, hb⟩ := hc
  have hrun : s.running = false := decide_eq_false hr
  have haction : s.nextAction = .run .fastHash s := by
    simp [State.nextAction_of_no_input hin, State.coreAction, hb, hrun, State.fetchJob_eq, ho]
  simp only [step, haction, exec]

end

/-! ## Steps with the message and the registers of the variant only -/

theorem ite_else_ite {α : Type} (c : Prop) [Decidable c] (x y z : α) :
    (if c then x else if c then y else z) = if c then x else z := by
  split <;> rfl

theorem ite_ite_else {α : Type} (c : Prop) [Decidable c] (x y z : α) :
    (if c then if c then x else y else z) = if c then x else z := by
  split <;> rfl

section
variable {m : Memory} {s t : State} {v : BitVec 3} {p : Bool}

theorem State.slowCheck_forJob (hmsg : ∀ i, i < s.jobLen.toNat → s.msgByte i = m.read i) :
    (s.forJob m).slowCheck v p = (s.slowCheck v p).forJob m := by
  have hcheck : checkJob 0 v p (s.forJob m).jobLen.toNat (s.forJob m).msgMax (s.forJob m).spGrant =
      checkJob 0 v p s.jobLen.toNat s.msgMax s.spGrant := rfl
  unfold State.slowCheck
  rw [hcheck]
  split
  case h_1 => rfl
  case h_2 hpass =>
    cases p with
    | false => rfl
    | true =>
      obtain ⟨-, -, -, hlen, -⟩ := checkJob_slow_none.mp hpass
      have hload : lanesOfMessage s.msg = lanesOfMessage m :=
        lanesOfMessage_congr fun x hx => hmsg x ((hlen rfl).symm ▸ hx)
      simp only [State.loadPrehashed, if_true, hload]
      rfl

theorem State.fastCheck_forJob : (s.forJob m).fastCheck = s.fastCheck.forJob m := by
  have hcheck : checkJob 1 0 false (s.forJob m).jobLen.toNat (s.forJob m).msgMax (s.forJob m).spGrant =
      checkJob 1 0 false s.jobLen.toNat s.msgMax s.spGrant := rfl
  unfold State.fastCheck
  rw [hcheck]
  split <;> rfl

/-- A block of the absorb reads the message below LEN only (R140). -/
theorem State.absorbUnit_forJob (hmsg : ∀ i, i < s.jobLen.toNat → s.msgByte i = m.read i) :
    (s.forJob m).absorbUnit = s.absorbUnit.forJob m := by
  have hblock := absorbBlock_congr hmsg s.blk s.hashState
  simp only [State.absorbUnit, hblock]
  rfl

theorem State.absorbStep_forJob (hmsg : ∀ i, i < s.jobLen.toNat → s.msgByte i = m.read i) (after : State) :
    (s.forJob m).absorbStep (after.forJob m) = mapNext (State.forJob m) (s.absorbStep after) := by
  have hcond : (s.forJob m).absorbStep (after.forJob m) =
      if s.jobLen.toNat > s.msgMax then .fault .messageOutOfRange
      else if s.absorbDone then .next (after.forJob m) else .next (s.forJob m).absorbUnit := rfl
  rw [hcond, State.absorbUnit_forJob hmsg, State.absorbStep, apply_ite (mapNext _), apply_ite (mapNext _)]
  rfl

/-- SETUP reads the message for VARIANT = 1 only (R202). -/
theorem State.setup_forJob (hmsg : s.jobVariant = 1 → s.msg.read64 35 = m.read64 35) :
    (s.forJob m).setup s.jobVariant = (s.setup s.jobVariant).forJob m := by
  have htweak : (if s.jobVariant = 1 then s.hashState[24] ^^^ m.read64 35 else 0) =
      if s.jobVariant = 1 then s.hashState[24] ^^^ s.msg.read64 35 else 0 :=
    if_ctx_congr Iff.rfl (fun h1 => by rw [hmsg h1]) fun _ => rfl
  by_cases hr : randomGate s.jobVariant = true
  · simp only [State.setup, State.forJob, htweak, ite_else_ite, ite_ite_else, hr, if_true]
  · simp only [State.setup, State.forJob, htweak, ite_else_ite, ite_ite_else, hr, if_false, Bool.false_eq_true]

theorem State.slowSetup_forJob (hmsg : s.jobVariant = 1 → s.msg.read64 35 = m.read64 35) :
    (s.forJob m).slowSetup s.jobVariant = (s.slowSetup s.jobVariant).forJob m := by
  unfold State.slowSetup
  rw [State.setup_forJob hmsg]
  split <;> rfl

theorem State.rmGenUnit_forJob (hr : randomGate s.jobVariant = true) :
    (s.forJob m).rmGenUnit = s.rmGenUnit.forJob m := by
  have hgen : (s.forJob m).gen = s.gen := rfl
  unfold State.rmGenUnit
  rw [hgen]
  split
  · simp only [State.enterFill, State.enterPhase, State.forJob, hr, if_true]
    rfl
  · rfl

theorem State.half2Math_forJob : (s.forJob m).half2Math s.jobVariant = (s.half2Math s.jobVariant).forJob m := by
  by_cases hr : randomGate s.jobVariant = true
  · simp only [State.half2Math, State.rmEnter, State.forJob, hr, if_true]
  · by_cases hi : integerGate s.jobVariant = true
    · simp only [State.half2Math, State.integerMath, State.forJob, hr, hi, if_true, if_false, Bool.false_eq_true]
    · simp only [State.half2Math, State.forJob, hr, hi, if_false, Bool.false_eq_true]

theorem State.rmFold_forJob (hr : randomGate s.jobVariant = true) : (s.forJob m).rmFold = s.rmFold.forJob m := by
  simp only [State.rmFold, State.forJob, hr, if_true]
  rfl

theorem State.half2Fold_forJob : (s.forJob m).half2Fold v = (s.half2Fold v).forJob m := by
  unfold State.half2Fold
  split <;> rfl

theorem State.half2Store_forJob : (s.forJob m).half2Store s.jobVariant = (s.half2Store s.jobVariant).forJob m := by
  by_cases h1 : s.jobVariant = 1
  · simp only [State.half2Store, State.memWrite, State.forJob, h1, if_true]
  · simp only [State.half2Store, State.memWrite, State.forJob, h1, if_false]

theorem State.shuffleAt_forJob (j : BitVec 21) : (s.forJob m).shuffleAt v j = (s.shuffleAt v j).forJob m := by
  unfold State.shuffleAt
  split <;> rfl

theorem State.mixUnit_forJob (hr : s.mixStep = .rmFold → randomGate s.jobVariant = true) :
    (s.forJob m).mixUnit s.jobVariant = (s.mixUnit s.jobVariant).forJob m := by
  have hstep : (s.forJob m).mixStep = s.mixStep := rfl
  unfold State.mixUnit
  rw [hstep]
  cases hm : s.mixStep with
  | half1Aes => exact (apply_ite (State.forJob m) (s.i < iterations) s.half1Aes s.enterFinalFill).symm
  | half1Shuffle => exact congrArg (fun t : State => { t with mixStep := .half1Store }) (State.shuffleAt_forJob s.j1)
  | half2Shuffle => exact congrArg (fun t : State => { t with mixStep := .half2Store }) (State.shuffleAt_forJob s.j2)
  | half2Math => exact State.half2Math_forJob
  | half2Fold => exact State.half2Fold_forJob
  | half2Store => exact State.half2Store_forJob
  | rmFold => exact State.rmFold_forJob (hr hm)
  | rmRun | half1Store | half2Load | half2Mul | iterEnd => rfl

theorem State.execAlu_forJob {f : W32 → W32 → W32} {d : BitVec 2} {src : BitVec 4} (hsrc : src.toNat < 9)
    (hr : randomGate s.jobVariant = true) : (s.forJob m).execAlu f d src = (s.execAlu f d src).forJob m := by
  rw [State.execAlu_of_lt hsrc, State.execAlu_of_lt hsrc]
  simp only [State.writeDst, State.readDst, State.nextRpc, State.forJob, hr, if_true]
  rfl

/-- A step of a SLOW_HASH job outside the program. -/
theorem HashJob.execSlowHash_forJob (hs : HashJob m s) (ho : s.jobOp = 0) :
    execSlowHash s.jobVariant p (s.forJob m) = mapNext (State.forJob m) (execSlowHash s.jobVariant p s) := by
  have hphase : (s.forJob m).phase = s.phase := rfl
  have hplace := hs.place
  unfold execSlowHash
  unfold PlaceInv at hplace
  rw [hphase]
  cases hp : s.phase <;> rw [hp] at hplace
  case check => exact congrArg _ (State.slowCheck_forJob hs.message)
  case absorb => exact State.absorbStep_forJob hs.message (s.enterPhase .setup)
  case setup =>
    obtain ⟨-, hlen⟩ := hplace
    exact congrArg _ (State.slowSetup_forJob fun h1 => read64_congr fun x hx => hs.message x (hx.trans_le (hlen ho h1)))
  case rmGen => exact congrArg _ (State.rmGenUnit_forJob hplace.2)
  case fill => exact congrArg _ (apply_ite (State.forJob m) (s.g < groups) s.fillUnit s.enterMix).symm
  case mix => exact congrArg _ (State.mixUnit_forJob fun hm => hplace.2.1 (hm ▸ rfl))
  case finalFill =>
    exact congrArg _ (apply_ite (State.forJob m) (s.g < groups) s.finalFillUnit (s.enterPhase .permute)).symm
  case permute | extra | idle | done | error => rfl

theorem HashJob.execFastHash_forJob (hs : HashJob m s) :
    execFastHash (s.forJob m) = mapNext (State.forJob m) (execFastHash s) := by
  have hphase : (s.forJob m).phase = s.phase := rfl
  unfold execFastHash
  rw [hphase]
  cases s.phase
  case check => exact congrArg _ State.fastCheck_forJob
  case absorb => exact State.absorbStep_forJob hs.message (s.finishOkDigest (first32 s.hashState))
  all_goals rfl

end

end Sys2Proof.Machine
end

section
/-! PROOFS. A step of a job, on the registers that the rest of the job needs: what it leaves in those needed after it is
a function of those needed before it. -/

namespace Sys2Proof.Machine

/-! ## Steps with the needed registers only -/

theorem GenState.kept_genPass (h : W64) (g : GenState) : (genPass h g).kept = (genPass h g.kept).kept := by
  obtain ⟨⟩ := g
  rename_i stage
  cases stage
  case seed => unfold genPass genSeed; rfl
  case attempt => unfold genPass genAttempt; rfl
  case decode | pad | output => rfl

theorem GenState.kept_accepted (g : GenState) :
    g.kept.stage = .output ∧ genAccepted g.kept = true ↔ g.stage = .output ∧ genAccepted g = true := by
  obtain ⟨⟩ := g
  rename_i stage
  cases stage
  case output => rfl
  all_goals exact iff_of_false (fun h => nomatch h.1) (fun h => nomatch h.1)

theorem GenState.kept_of_output {g : GenState} (h : g.stage = .output) : g.kept = g := by
  unfold GenState.kept
  rw [h]

theorem State.shuffleAt_eq (s : State) (v : BitVec 3) (j : BitVec 21) :
    s.shuffleAt v j = { s with
      sp := if shuffleGate v then (shuffle (randomGate v) s.sp j s.c s.a s.b0 s.b1).sp else s.sp
      c := if shuffleGate v then (shuffle (randomGate v) s.sp j s.c s.a s.b0 s.b1).out else s.c } := by
  unfold State.shuffleAt
  split <;> rfl

/-- What a kept attempt with the program `code` leaves (R311). -/
def State.takeProgram (code : List Instr) (s : State) : State :=
  { s with prog := progStore code s.prog, plen := BitVec.ofNat 7 code.length : State }.enterFill

section
variable {m : Memory} {s t : State} {v : BitVec 3} {p : Bool}

theorem State.needed_rmFold (hp : s.phase = .mix) (hm : s.mixStep = .rmFold) :
    s.rmFold.needed = s.needed.rmFold.kept := by
  have hfold : s.needed.rmFold = { s.needed with a1 := rmA1 s.a1 s.r, mixStep := .half2Mul } := by
    rw [← rmA1_carriedRegs]
    cases s; cases hp; cases hm; rfl
  rw [hfold]
  cases s; cases hp; cases hm; rfl

theorem State.needed_half2Math (hp : s.phase = .mix) (hm : s.mixStep = .half2Math) :
    (s.half2Math v).needed = (s.needed.half2Math v).kept := by
  have henter : s.needed.rmEnter = { s.needed with t := rmT s.t s.r, r := rmSeed s.r s.a s.b0 s.b1, rpc := 0 } := by
    rw [← rmT_carriedRegs, ← rmSeed_carriedRegs]
    cases s; cases hp; cases hm; rfl
  unfold State.half2Math
  rw [henter]
  cases randomGate v with
  | true => cases s; cases hp; cases hm; rfl
  | false => cases integerGate v <;> (cases s; cases hp; cases hm; rfl)

theorem State.needed_half2Fold (hp : s.phase = .mix) (hm : s.mixStep = .half2Fold) :
    (s.half2Fold v).needed = (s.needed.half2Fold v).kept := by
  unfold State.half2Fold
  cases integerGate v <;> (cases s; cases hp; cases hm; rfl)

theorem State.needed_half1Aes (hp : s.phase = .mix) (hm : s.mixStep = .half1Aes) :
    (if s.i < iterations then s.half1Aes else s.enterFinalFill).needed =
      (if s.i < iterations then s.needed.half1Aes else s.needed.enterFinalFill).kept := by
  split <;> (cases s; cases hp; cases hm; rfl)

/-- The position inside an iteration is needed in phase MIX. -/
theorem State.needed_position (hp : s.phase = .mix) : s.needed.mixStep = s.mixStep ∧ s.needed.i = s.i := by
  simp only [State.needed, State.kept, State.keptPhase, hp, State.keptMix]
  split <;> exact ⟨rfl, rfl⟩

theorem State.needed_mixUnit (hp : s.phase = .mix) : (s.mixUnit v).needed = (s.needed.mixUnit v).kept := by
  obtain ⟨hstep, hi⟩ := State.needed_position hp
  unfold State.mixUnit
  rw [hstep, hi]
  cases hm : s.mixStep with
  | half1Aes => exact State.needed_half1Aes hp hm
  | half2Math => exact State.needed_half2Math hp hm
  | rmFold => exact State.needed_rmFold hp hm
  | half2Fold => exact State.needed_half2Fold hp hm
  | half1Shuffle | half2Shuffle =>
    dsimp only [State.half1Shuffle, State.half2Shuffle]
    rw [State.shuffleAt_eq, State.shuffleAt_eq]
    cases s; cases hp; cases hm; rfl
  | half1Store | half2Load | rmRun | half2Mul | half2Store | iterEnd => cases s; cases hp; cases hm; rfl

theorem State.needed_slowCheck : (s.slowCheck v p).needed = (s.needed.slowCheck v p).kept := by
  have hcheck : checkJob 0 v p s.needed.jobLen.toNat s.needed.msgMax s.needed.spGrant =
      checkJob 0 v p s.jobLen.toNat s.msgMax s.spGrant := rfl
  unfold State.slowCheck
  rw [hcheck]
  split
  · rfl
  · cases p <;> rfl

theorem State.needed_fastCheck : s.fastCheck.needed = s.needed.fastCheck.kept := by
  have hcheck : checkJob 1 0 false s.needed.jobLen.toNat s.needed.msgMax s.needed.spGrant =
      checkJob 1 0 false s.jobLen.toNat s.msgMax s.spGrant := rfl
  unfold State.fastCheck
  rw [hcheck]
  split <;> rfl

theorem State.needed_absorbStep (hp : s.phase = .absorb) {after after' : State} (hafter : after.needed = after'.kept) :
    mapNext State.needed (s.absorbStep after) = mapNext State.kept (s.needed.absorbStep after') := by
  have hlen : s.needed.jobLen = s.jobLen ∧ s.needed.msgMax = s.msgMax := ⟨rfl, rfl⟩
  have hdone : s.needed.absorbDone = s.absorbDone := by cases s; cases hp; rfl
  have hunit : s.absorbUnit.needed = s.needed.absorbUnit.kept := by cases s; cases hp; rfl
  unfold State.absorbStep
  rw [hlen.1, hlen.2, hdone]
  split
  · rfl
  · split
    · exact congrArg _ hafter
    · exact congrArg _ hunit

theorem State.needed_fillUnit (hp : s.phase = .fill) (hsp : SpInv s) : s.fillUnit.needed = s.needed.fillUnit.kept := by
  have hunit : s.fillUnit.needed = { s.needed.fillUnit.kept with
      sp := (writeGroup s.sp s.g (fillText s.rk1 s.text)).copy (128 * (s.g + 1)) } := by
    cases s; cases hp; rfl
  rw [hunit, copy_writeGroup hsp.1]
  cases s; cases hp; rfl

/-- The groups of the fill are the whole scratchpad (spec/42_scratchpad.md R185). -/
theorem State.needed_enterMix (hp : s.phase = .fill) (hsp : SpInv s) (hg : ¬ s.g < groups) :
    s.enterMix.needed = s.needed.enterMix.kept := by
  obtain ⟨hwf, hwithin⟩ := hsp
  have hge : 2 ^ 21 ≤ 128 * s.g := by
    unfold groups at hg
    omega
  have hall : s.sp.copy (128 * s.g) = s.sp := Memory.copy_eq_self hwf (Memory.within_mono hge hwithin)
  calc s.enterMix.needed
    _ = { s.needed.enterMix.kept with sp := s.sp } := by cases s; cases hp; rfl
    _ = { s.needed.enterMix.kept with sp := s.sp.copy (128 * s.g) } := by rw [hall]
    _ = s.needed.enterMix.kept := by cases s; cases hp; rfl

theorem State.needed_fill (hp : s.phase = .fill) (hsp : SpInv s) :
    (if s.g < groups then s.fillUnit else s.enterMix).needed =
      (if s.needed.g < groups then s.needed.fillUnit else s.needed.enterMix).kept := by
  have hg : s.needed.g = s.g := by cases s; cases hp; rfl
  rw [hg]
  split
  · exact State.needed_fillUnit hp hsp
  · exact State.needed_enterMix hp hsp ‹_›

theorem State.needed_finalFill (hp : s.phase = .finalFill) :
    (if s.g < groups then s.finalFillUnit else s.enterPhase .permute).needed =
      (if s.needed.g < groups then s.needed.finalFillUnit else s.needed.enterPhase .permute).kept := by
  have hg : s.needed.g = s.g := by cases s; cases hp; rfl
  rw [hg]
  split <;> (cases s; cases hp; rfl)

/-- Of PROG as a kept attempt writes it (R311), the entries up to the RET are needed. -/
theorem State.needed_takeProgram {code : List Instr} (hlen : code.length ≤ 70) (hp : s.phase = .rmGen) :
    (s.takeProgram code).needed = (s.needed.takeProgram code).kept := by
  have hplen : (BitVec.ofNat 7 code.length).toNat = code.length := Nat.mod_eq_of_lt (by omega)
  calc (s.takeProgram code).needed
    _ = { (s.needed.takeProgram code).kept with
          sp := s.sp.copy 0, prog := progUpTo (BitVec.ofNat 7 code.length).toNat (progStore code s.prog) } := by
      cases s; cases hp; rfl
    _ = { (s.needed.takeProgram code).kept with
          sp := State.reset.sp.copy 0, prog := progStore code State.reset.prog } := by
      rw [hplen, progUpTo_progStore, Memory.copy_zero, Memory.copy_zero]
    _ = (s.needed.takeProgram code).kept := by cases s; cases hp; rfl

theorem State.needed_rmGenUnit (hp : s.phase = .rmGen) : s.rmGenUnit.needed = s.needed.rmGenUnit.kept := by
  have hgen : s.needed.gen = s.gen.kept := by cases s; cases hp; rfl
  unfold State.rmGenUnit
  rw [hgen]
  by_cases hacc : s.gen.stage = .output ∧ genAccepted s.gen = true
  · obtain ⟨-, hlen⟩ : _ ∧ s.gen.code.length ≤ 70 := by simpa [genAccepted] using hacc.2
    rw [GenState.kept_of_output hacc.1, if_pos hacc, if_pos hacc]
    exact State.needed_takeProgram hlen hp
  · rw [if_neg hacc, if_neg (mt s.gen.kept_accepted.mp hacc)]
    calc { s with gen := genPass s.jobHeight s.gen : State }.needed
      _ = { s.needed.kept with gen := (genPass s.jobHeight s.gen).kept } := by cases s; cases hp; rfl
      _ = { s.needed.kept with gen := (genPass s.jobHeight s.gen.kept).kept } := by rw [GenState.kept_genPass]
      _ = { s.needed with gen := genPass s.needed.jobHeight s.gen.kept : State }.kept := by cases s; cases hp; rfl

/-- SETUP loads every register that its variant uses (R202), so the cleared ones make no difference. -/
theorem State.needed_slowSetup (hp : s.phase = .setup) :
    ((s.forJob m).slowSetup s.jobVariant).needed = ((s.forJob m).needed.slowSetup s.jobVariant).kept := by
  by_cases hr : randomGate s.jobVariant = true
  · have hregs := carriedRegs_rmInit s.hashState s.r State.reset.r
    simp only [State.slowSetup, State.enterRmGen, State.enterPhase, State.setup, State.needed, State.kept,
      State.keptPhase, State.keptLoaded, State.forJob, hp, hr, if_true, ite_else_ite, hregs]
    rfl
  · simp only [State.slowSetup, State.enterFill, State.enterPhase, State.setup, State.needed, State.kept,
      State.keptPhase, State.keptLoaded, State.forJob, hp, hr, if_false, Bool.false_eq_true, ite_else_ite, Nat.mul_zero,
      Memory.copy_zero, progUpTo_reset]
    rfl

end

/-! ## A step on the live part of a state -/

/-- What the rest of a job can read of a state. -/
def State.live (m : Memory) (s : State) : State := (s.forJob m).needed

section
variable {m : Memory} {s t : State} {v : BitVec 3} {p : Bool}

theorem HashJob.execSlowHash_live (hs : HashJob m s) (ho : s.jobOp = 0) :
    mapNext (State.live m) (execSlowHash s.jobVariant p s) =
      mapNext State.kept (execSlowHash s.jobVariant p (s.live m)) := by
  have hfor : mapNext (State.live m) (execSlowHash s.jobVariant p s) =
      mapNext State.needed (execSlowHash s.jobVariant p (s.forJob m)) := by
    rw [hs.execSlowHash_forJob ho]
    cases execSlowHash s.jobVariant p s <;> rfl
  have hphase : (s.forJob m).phase = s.phase ∧ (s.live m).phase = s.phase := ⟨rfl, rfl⟩
  have hplace := hs.place
  rw [hfor]
  unfold execSlowHash
  unfold PlaceInv at hplace
  rw [hphase.1, hphase.2]
  cases hp : s.phase <;> rw [hp] at hplace
  case check => exact congrArg _ State.needed_slowCheck
  case absorb => exact State.needed_absorbStep (s := s.forJob m) hp (by cases s; cases hp; rfl)
  case setup => exact congrArg _ (State.needed_slowSetup hp)
  case rmGen => exact congrArg _ (State.needed_rmGenUnit (s := s.forJob m) hp)
  case fill => exact congrArg _ (State.needed_fill (s := s.forJob m) hp hplace.1)
  case mix => exact congrArg _ (State.needed_mixUnit (s := s.forJob m) hp)
  case finalFill => exact congrArg _ (State.needed_finalFill (s := s.forJob m) hp)
  case permute | extra | idle | done | error => cases s; cases hp; rfl

theorem HashJob.execFastHash_live (hs : HashJob m s) :
    mapNext (State.live m) (execFastHash s) = mapNext State.kept (execFastHash (s.live m)) := by
  have hfor : mapNext (State.live m) (execFastHash s) = mapNext State.needed (execFastHash (s.forJob m)) := by
    rw [hs.execFastHash_forJob]
    cases execFastHash s <;> rfl
  have hphase : (s.forJob m).phase = s.phase ∧ (s.live m).phase = s.phase := ⟨rfl, rfl⟩
  rw [hfor]
  unfold execFastHash
  rw [hphase.1, hphase.2]
  cases hp : s.phase
  case check => exact congrArg _ State.needed_fastCheck
  case absorb => exact State.needed_absorbStep (s := s.forJob m) hp (by cases s; cases hp; rfl)
  case idle | done | error => cases s; cases hp; rfl
  all_goals rfl

theorem State.execAlu_live {f : W32 → W32 → W32} {d : BitVec 2} {src : BitVec 4} (hsrc : src.toNat < 9)
    (hr : randomGate s.jobVariant = true) (hrun : RunsProgram s) :
    (s.execAlu f d src).live m = ((s.live m).execAlu f d src).kept := by
  rw [State.live, ← State.execAlu_forJob hsrc hr, State.execAlu_of_lt hsrc, State.execAlu_of_lt hsrc]
  obtain ⟨hp, hm⟩ := hrun
  cases s; cases hp; cases hm; rfl

theorem State.keptPhase_inputs (s : State) : s.keptPhase.inputs = [] := by
  cases hp : s.phase
  case mix =>
    simp only [State.keptPhase, hp, State.keptMix]
    split <;> rfl
  all_goals cases s; cases hp; rfl

theorem State.live_inputs : (s.live m).inputs = [] := State.keptPhase_inputs _

theorem runsProgram_live : RunsProgram (s.live m) ↔ RunsProgram s :=
  and_congr_right fun hp => by rw [State.live, (State.needed_position (s := s.forJob m) hp).1]; rfl

theorem HashJob.runInv (hs : HashJob m s) (hp : s.phase = .mix) : RunInv s := by
  have hplace := hs.place
  rw [PlaceInv, hp] at hplace
  exact hplace

/-- While the random-math machine runs. -/
theorem HashJob.program (hs : HashJob m s) (hrun : RunsProgram s) :
    randomGate s.jobVariant = true ∧ s.rpc.toNat ≤ s.plen.toNat ∧
      ∃ h : s.plen.toNat < 71, decodeProg s.prog[s.plen.toNat] = .ok .ret := by
  obtain ⟨hp, hm⟩ := hrun
  obtain ⟨hends, hgate, hrpc⟩ := hs.runInv hp
  have hr : randomGate s.jobVariant = true := hgate (hm ▸ rfl)
  exact ⟨hr, hrpc hm, hends hr⟩

/-- The fetch reads a needed word: no run of the program gets past its RET. -/
theorem HashJob.fetch_live (hs : HashJob m s) (hc : CoreMoves s) (hrun : RunsProgram s) :
    ∃ w, step s = s.runWord w ∧ step (s.live m) = (s.live m).runWord w := by
  obtain ⟨hr, hle, hplen, -⟩ := hs.program hrun
  have hlt : s.rpc.toNat < 71 := hle.trans_lt hplen
  have hgated : (s.forJob m).prog = s.prog ∧ (s.forJob m).plen = s.plen := ⟨if_pos hr, if_pos hr⟩
  have hlive : (s.live m).rpc = s.rpc ∧ (s.live m).prog = progUpTo s.plen.toNat s.prog := by
    rw [← hgated.1, ← hgated.2]
    obtain ⟨hp, hm⟩ := hrun
    cases s; cases hp; cases hm; exact ⟨rfl, rfl⟩
  refine ⟨s.prog[s.rpc.toNat], step_of_runsProgram hc hrun hlt, ?_⟩
  have hstep := step_of_runsProgram (s := s.live m) ⟨State.live_inputs, hc.2⟩ (runsProgram_live.mpr hrun)
    (hlive.1.symm ▸ hlt)
  simpa only [hlive.1, hlive.2, progUpTo_getElem s.prog hlt hle] using hstep

theorem HashJob.runWord_live (hs : HashJob m s) (hc : CoreMoves s) (hrun : RunsProgram s) :
    mapNext (State.live m) (step s) = mapNext State.kept (step (s.live m)) := by
  obtain ⟨w, hstep, hstep'⟩ := hs.fetch_live hc hrun
  rw [hstep, hstep']
  rcases runWord_cases w with hw | hw | ⟨-, f, d, src, hsrc, hw⟩ <;> rw [hw, hw]
  · rfl
  · obtain ⟨hp, hm⟩ := hrun
    cases s; cases hp; cases hm; rfl
  · exact congrArg _ (State.execAlu_live hsrc (hs.program hrun).1 hrun)

/-- R358 for one step: what it leaves in the registers needed after it is a function of those needed before it. -/
theorem HashJob.step_live (hs : HashJob m s) :
    mapNext (State.live m) (step s) = mapNext State.kept (step (s.live m)) := by
  cases hb : s.busy with
  | false =>
    rw [step_of_not_busy hs.inputs hb, step_of_not_busy State.live_inputs hb]
    have hstatus := hs.status
    rw [hb] at hstatus
    cases hp : s.phase <;> rw [hp] at hstatus
    case idle | done | error => cases s; cases hp; rfl
    all_goals cases hstatus
  | true =>
    have hc : CoreMoves s := ⟨hs.inputs, hb⟩
    have hc' : CoreMoves (s.live m) := ⟨State.live_inputs, hb⟩
    by_cases hrun : RunsProgram s
    · exact hs.runWord_live hc hrun
    · have hrun' : ¬ RunsProgram (s.live m) := mt runsProgram_live.mp hrun
      rcases hs.command with ho | ho
      · rw [step_of_slowHash hc hrun ho, step_of_slowHash hc' hrun' ho]
        exact hs.execSlowHash_live ho
      · rw [step_of_fastHash hc hrun ho, step_of_fastHash hc' hrun' ho]
        exact hs.execFastHash_live

end

end Sys2Proof.Machine
end

section
/-! PROOFS. A job's digest depends on its parameters and its message alone (spec/47_commands.md R358): at the start of a
job nothing else is needed, and every step of it keeps what the lemmas about one step rest on. -/

namespace Sys2Proof.Machine

/-! ## What the steps of a job keep -/

section
variable {m : Memory} {s t : State} {v : BitVec 3} {p : Bool}

theorem PlaceInv.of_phase {q : Phase} (hp : s.phase = q) (h : PlaceInv { s with phase := q }) : PlaceInv s := by
  subst hp
  exact h

theorem HashJob.placeInv {q : Phase} (hs : HashJob m s) (hp : s.phase = q) : PlaceInv { s with phase := q } := by
  subst hp
  exact hs.place

theorem HashJob.raiseJobError (hs : HashJob m s) (code : ErrCode) : HashJob m (s.raiseJobError code) :=
  ⟨hs.inputs, hs.command, rfl, hs.message, trivial⟩

theorem HashJob.finishOkDigest (hs : HashJob m s) (d : Vector Byte 32) : HashJob m (s.finishOkDigest d) :=
  ⟨hs.inputs, hs.command, rfl, hs.message, rfl⟩

theorem HashJob.slowCheck (hs : HashJob m s) (hb : s.busy = true) (hp : s.phase = .check) :
    HashJob m (s.slowCheck s.jobVariant p) := by
  have hsp : SpInv s := hs.placeInv hp
  unfold State.slowCheck
  split
  case h_1 code _ => exact hs.raiseJobError code
  case h_2 hpass =>
    obtain ⟨-, -, htweak, -, -⟩ := checkJob_slow_none.mp hpass
    cases p <;> exact ⟨hs.inputs, hs.command, hb, hs.message, hsp, fun _ => htweak⟩

theorem HashJob.fastCheck (hs : HashJob m s) (hb : s.busy = true) (hp : s.phase = .check) (ho : s.jobOp = 1) :
    HashJob m s.fastCheck := by
  have hsp : SpInv s := hs.placeInv hp
  unfold State.fastCheck
  split
  case h_1 code _ => exact hs.raiseJobError code
  case h_2 =>
    refine ⟨hs.inputs, hs.command, hb, hs.message, hsp, fun h0 => ?_⟩
    exact absurd (h0.symm.trans ho) (by decide)

theorem HashJob.absorbStep {after : State} (hs : HashJob m s) (hafter : HashJob m after)
    (h : s.absorbStep after = .next t) : HashJob m t := by
  rcases s.absorbStep_cases after with ⟨-, e⟩ | ⟨-, -, e⟩ | ⟨-, -, e⟩ <;> cases e.symm.trans h
  · exact hafter
  · exact ⟨hs.inputs, hs.command, hs.status, hs.message, hs.place⟩

theorem HashJob.slowSetup (hs : HashJob m s) (hb : s.busy = true) (hp : s.phase = .setup) :
    HashJob m (s.slowSetup s.jobVariant) := by
  obtain ⟨hsp, -⟩ : SpInv s ∧ TweakInv s := hs.placeInv hp
  unfold State.slowSetup
  split
  case isTrue hr => exact ⟨hs.inputs, hs.command, hb, hs.message, hsp, hr⟩
  case isFalse hr => exact ⟨hs.inputs, hs.command, hb, hs.message, hsp, fun hr' => absurd hr' hr⟩

/-- The generator writes RET after its program (R311). -/
theorem endsProgram_takeProgram {code : List Instr} (hlen : code.length ≤ 70) : EndsProgram (s.takeProgram code) := by
  have hplen : (BitVec.ofNat 7 code.length).toNat = code.length := Nat.mod_eq_of_lt (by omega)
  have hlt : (BitVec.ofNat 7 code.length).toNat < 71 := by omega
  have hret : (progStore code s.prog)[(BitVec.ofNat 7 code.length).toNat] = progWordOf .ret := by
    simp [progStore, hplen]
  exact fun _ => ⟨hlt, (congrArg decodeProg hret).trans (by decide)⟩

theorem HashJob.rmGenUnit (hs : HashJob m s) (hb : s.busy = true) (hp : s.phase = .rmGen) : HashJob m s.rmGenUnit := by
  obtain ⟨hsp, hr⟩ : SpInv s ∧ randomGate s.jobVariant = true := hs.placeInv hp
  unfold State.rmGenUnit
  split
  case isTrue hacc =>
    obtain ⟨-, hlen⟩ : _ ∧ s.gen.code.length ≤ 70 := by simpa [genAccepted] using hacc.2
    exact ⟨hs.inputs, hs.command, hb, hs.message, hsp, endsProgram_takeProgram hlen⟩
  case isFalse => exact ⟨hs.inputs, hs.command, hs.status, hs.message, hs.place⟩

/-- Outside the random-math machine. -/
theorem RunInv.of_mixStep (hends : EndsProgram s) (hm : s.mixStep.isRandomMath = false) : RunInv s := by
  refine ⟨hends, fun h => ?_, fun h => ?_⟩
  · exact absurd (h.symm.trans hm) (by decide)
  · rw [h] at hm
    cases hm

theorem HashJob.fill (hs : HashJob m s) (hb : s.busy = true) (hp : s.phase = .fill) :
    HashJob m (if s.g < groups then s.fillUnit else s.enterMix) := by
  obtain ⟨⟨hwf, hwithin⟩, hends⟩ : SpInv s ∧ EndsProgram s := hs.placeInv hp
  split
  case isTrue hg =>
    have hbound : 128 * s.g + 128 ≤ 2 ^ 21 := by unfold groups at hg; omega
    have hsp : SpInv s.fillUnit := ⟨wf_writeGroup hwf, within_writeGroup hbound hwithin⟩
    exact ⟨hs.inputs, hs.command, hs.status, hs.message, .of_phase hp ⟨hsp, hends⟩⟩
  case isFalse => exact ⟨hs.inputs, hs.command, hb, hs.message, RunInv.of_mixStep (s := s.enterMix) hends rfl⟩

theorem HashJob.half2Math (hs : HashJob m s) (hp : s.phase = .mix) : HashJob m (s.half2Math s.jobVariant) := by
  obtain ⟨hends, -, -⟩ := hs.runInv hp
  unfold State.half2Math
  split
  case isTrue hr =>
    have hinv : RunInv { s.rmEnter with mixStep := .rmRun } := ⟨hends, fun _ => hr, fun _ => Nat.zero_le _⟩
    exact ⟨hs.inputs, hs.command, hs.status, hs.message, .of_phase hp hinv⟩
  case isFalse =>
    split <;>
      exact ⟨hs.inputs, hs.command, hs.status, hs.message, .of_phase hp (RunInv.of_mixStep hends rfl)⟩

theorem HashJob.mixUnit (hs : HashJob m s) (hb : s.busy = true) (hp : s.phase = .mix) :
    HashJob m (s.mixUnit s.jobVariant) := by
  obtain ⟨hends, -, -⟩ := hs.runInv hp
  unfold State.mixUnit
  cases s.mixStep with
  | half1Aes =>
    dsimp only
    split
    · exact ⟨hs.inputs, hs.command, hs.status, hs.message, .of_phase hp (RunInv.of_mixStep hends rfl)⟩
    · exact ⟨hs.inputs, hs.command, hb, hs.message, trivial⟩
  | half1Shuffle | half2Shuffle =>
    dsimp only [State.half1Shuffle, State.half2Shuffle]
    rw [shuffleAt_frame]
    exact ⟨hs.inputs, hs.command, hs.status, hs.message, .of_phase hp (RunInv.of_mixStep hends rfl)⟩
  | half2Math => exact hs.half2Math hp
  | half2Fold =>
    dsimp only [State.half2Fold]
    split <;> exact ⟨hs.inputs, hs.command, hs.status, hs.message, .of_phase hp (RunInv.of_mixStep hends rfl)⟩
  | rmRun => exact hs
  | half1Store | half2Load | rmFold | half2Mul | half2Store | iterEnd =>
    exact ⟨hs.inputs, hs.command, hs.status, hs.message, .of_phase hp (RunInv.of_mixStep hends rfl)⟩

theorem HashJob.execSlowHash (hs : HashJob m s) (hb : s.busy = true) (h : execSlowHash s.jobVariant p s = .next t) :
    HashJob m t := by
  unfold Machine.execSlowHash at h
  cases hp : s.phase <;> rw [hp] at h
  case check => cases h; exact hs.slowCheck hb hp
  case absorb =>
    have hinv : SpInv s ∧ TweakInv s := hs.placeInv hp
    exact hs.absorbStep (after := s.enterPhase .setup) ⟨hs.inputs, hs.command, hb, hs.message, hinv⟩ h
  case setup => cases h; exact hs.slowSetup hb hp
  case rmGen => cases h; exact hs.rmGenUnit hb hp
  case fill => cases h; exact hs.fill hb hp
  case mix => cases h; exact hs.mixUnit hb hp
  case finalFill =>
    cases h
    split
    · exact ⟨hs.inputs, hs.command, hs.status, hs.message, .of_phase hp trivial⟩
    · exact ⟨hs.inputs, hs.command, hb, hs.message, trivial⟩
  case permute => cases h; exact ⟨hs.inputs, hs.command, hb, hs.message, trivial⟩
  case extra => cases h; exact hs.finishOkDigest _
  case idle | done | error => cases h; exact hs

theorem HashJob.execFastHash (hs : HashJob m s) (hb : s.busy = true) (ho : s.jobOp = 1) (h : execFastHash s = .next t) :
    HashJob m t := by
  unfold Machine.execFastHash at h
  cases hp : s.phase <;> rw [hp] at h
  case check => cases h; exact hs.fastCheck hb hp ho
  case absorb => exact hs.absorbStep (hs.finishOkDigest _) h
  case idle | done | error => cases h; exact hs
  all_goals cases h

/-- An operation that is not the RET leaves the machine at or before the RET. -/
theorem HashJob.execAlu {f : W32 → W32 → W32} {d : BitVec 2} {src : BitVec 4} (hs : HashJob m s)
    (hrun : RunsProgram s) (hsrc : src.toNat < 9) (hlt : s.rpc.toNat < s.plen.toNat) : HashJob m (s.execAlu f d src) := by
  obtain ⟨hr, -, hplen, -⟩ := hs.program hrun
  obtain ⟨hends, -, -⟩ := hs.runInv hrun.1
  have hnext : (s.rpc + 1).toNat ≤ s.plen.toNat := by
    rw [BitVec.toNat_add]
    exact (Nat.mod_le _ _).trans hlt
  rw [State.execAlu_of_lt hsrc]
  exact ⟨hs.inputs, hs.command, hs.status, hs.message, .of_phase hrun.1 ⟨hends, fun _ => hr, fun _ => hnext⟩⟩

theorem HashJob.of_runsProgram (hs : HashJob m s) (hc : CoreMoves s) (hrun : RunsProgram s) (h : step s = .next t) :
    HashJob m t := by
  obtain ⟨hr, hle, hplen, hret⟩ := hs.program hrun
  have hlt : s.rpc.toNat < 71 := hle.trans_lt hplen
  rw [step_of_runsProgram hc hrun hlt] at h
  rcases runWord_cases s.prog[s.rpc.toNat] with hw | hw | ⟨hne, f, d, src, hsrc, hw⟩ <;> cases (hw s).symm.trans h
  · exact hs.raiseJobError _
  · obtain ⟨hends, -, -⟩ := hs.runInv hrun.1
    have hinv : RunInv { s with mixStep := .rmFold } := ⟨hends, fun _ => hr, fun h => nomatch h⟩
    exact ⟨hs.inputs, hs.command, hs.status, hs.message, .of_phase hrun.1 hinv⟩
  · refine hs.execAlu hrun hsrc (hle.lt_of_ne fun heq => hne ?_)
    simpa only [heq] using hret

theorem HashJob.of_step (hs : HashJob m s) (h : step s = .next t) : HashJob m t := by
  cases hb : s.busy with
  | false =>
    cases (step_of_not_busy hs.inputs hb).symm.trans h
    exact hs
  | true =>
    have hc : CoreMoves s := ⟨hs.inputs, hb⟩
    by_cases hrun : RunsProgram s
    · exact hs.of_runsProgram hc hrun h
    · rcases hs.command with ho | ho
      · exact hs.execSlowHash hb ((step_of_slowHash hc hrun ho).symm.trans h)
      · exact hs.execFastHash hb ho ((step_of_fastHash hc hrun ho).symm.trans h)

/-! ## The run -/

/-- The start of a job. -/
theorem HashJob.of_check (hc : CoreMoves s) (ho : s.jobOp = 0 ∨ s.jobOp = 1) (hp : s.phase = .check) (hsp : SpInv s)
    (hmsg : ∀ i, i < s.jobLen.toNat → s.msgByte i = m.read i) : HashJob m s :=
  ⟨hc.1, ho, by rw [hp]; exact hc.2, hmsg, .of_phase hp hsp⟩

/-- At its start a job needs nothing but what `SameJob` names. -/
theorem live_of_check {s' : State} (hb : s.busy = true) (hb' : s'.busy = true) (hp : s.phase = .check)
    (hp' : s'.phase = .check) (hsame : SameJob s s') : s'.live m = s.live m := by
  obtain ⟨hop, hvariant, hprehashed, hlen, hheight, hmax, hgrant, -⟩ := hsame
  simp only [State.live, State.needed, State.kept, State.keptPhase, State.forJob, hb, hb', hp, hp', hop, hvariant,
    hprehashed, hlen, hheight, hmax, hgrant]

/-- R358 for two states with the same live part. -/
theorem HashJob.step_of_live_eq {s' : State} (hs : HashJob m s) (hs' : HashJob m s') (hlive : s'.live m = s.live m)
    (h : step s = .next t) : ∃ t', step s' = .next t' ∧ t'.live m = t.live m := by
  have heq : mapNext (State.live m) (step s') = .next (t.live m) := by
    rw [hs'.step_live, hlive, ← hs.step_live, h]
    rfl
  cases hstep : step s' with
  | next t' => exact ⟨t', rfl, Host.Outcome.next.inj (by rw [← heq, hstep]; rfl)⟩
  | fault r => rw [hstep] at heq; cases heq
  | refused r => rw [hstep] at heq; cases heq

theorem HashJob.runs_of_live_eq : ∀ {n : Nat} {s s' t : State}, HashJob m s → HashJob m s' →
    s'.live m = s.live m → runs n s = .next t → ∃ t', runs n s' = .next t' ∧ HashJob m t' ∧ t'.live m = t.live m
  | 0, s, s', _, _, hs', hlive, h => by
    cases h
    exact ⟨s', rfl, hs', hlive⟩
  | n + 1, s, s', t, hs, hs', hlive, h => by
    obtain ⟨u, hu, ht⟩ := exists_step_of_runs_succ h
    obtain ⟨u', hu', hlive'⟩ := hs.step_of_live_eq hs' hlive hu
    obtain ⟨t', ht', hkeep⟩ := HashJob.runs_of_live_eq (hs.of_step hu) (hs'.of_step hu') hlive' ht
    exact ⟨t', (run_succ_of_step (M := core) hu' n).trans ht', hkeep⟩

theorem phase_eq_of_live_eq {s' : State} (h : s'.live m = s.live m) : s'.phase = s.phase :=
  (congrArg State.phase h : (s'.live m).phase = (s.live m).phase)

theorem live_errcode (hp : s.phase = .error) : (s.live m).errcode = s.errcode := by cases s; cases hp; rfl

theorem live_digest (hp : s.phase = .done) : (s.live m).digest = s.digest := by cases s; cases hp; rfl

end

/-- Settles O54: the two jobs have the same live part at their start, and each step keeps it the same. The live part
holds the phase, the error code in phase ERROR and the digest in phase DONE. -/
theorem jobsAreDeterministic : Obligations.JobsAreDeterministic := by
  unfold Obligations.JobsAreDeterministic
  intro s s' n t hc hc' hp hp' ho hsame hwf hwf' hin hin' hrun
  obtain ⟨hop, -, -, hlen, -, -, -, hmsg⟩ := id hsame
  have hs : HashJob s.msg s := .of_check hc ho hp ⟨hwf, hin⟩ fun _ _ => rfl
  have hs' : HashJob s.msg s' := .of_check hc' (hop ▸ ho) hp' ⟨hwf', hin'⟩ fun i hi => (hmsg i (hlen ▸ hi)).symm
  obtain ⟨t', hrun', ht', hlive⟩ := hs.runs_of_live_eq hs' (live_of_check hc.2 hc'.2 hp hp' hsame) hrun
  have hphase : t'.phase = t.phase := phase_eq_of_live_eq hlive
  refine ⟨t', hrun', hphase, fun herr => ?_, fun hdone => ⟨ht'.placeInv (hphase.trans hdone), ?_⟩⟩
  · rw [← live_errcode (m := s.msg) herr, ← live_errcode (m := s.msg) (hphase.trans herr), hlive]
  · rw [← live_digest (m := s.msg) hdone, ← live_digest (m := s.msg) (hphase.trans hdone), hlive]

end Sys2Proof.Machine
end

section
/-! PROOFS. Job errors and the interrupt (spec/60_exceptions.md): the checks of phase CHECK in their order (R381), and
the output irq as the writes of CTRL leave it (R392). -/

namespace Sys2Proof.Machine

/-! ## The fetch of a command -/

/-- Outside a run of the random-math machine the core fetches the command of the job. -/
theorem State.nextAction_of_job {s : State} (hc : CoreMoves s) (hr : ¬ RunsProgram s) : s.nextAction = s.fetchJob := by
  obtain ⟨hin, hb⟩ := hc
  have hrun : s.running = false := decide_eq_false hr
  simp only [State.nextAction_of_no_input hin, State.coreAction, hb, hrun, if_true, Bool.false_eq_true, if_false]

theorem step_of_keccakPermute {s : State} (hc : CoreMoves s) (hr : ¬ RunsProgram s) (ho : s.jobOp = 2) :
    step s = execKeccakPermute s := by
  have haction : s.nextAction = .run .keccakPermute s := by
    simp [State.nextAction_of_job hc hr, State.fetchJob_eq, ho]
  simp only [step, haction, exec]

/-- OP = 3 names no command (R99, R381). -/
theorem step_of_badCommand {s : State} (hc : CoreMoves s) (hr : ¬ RunsProgram s) (ho : s.jobOp = 3) :
    step s = .next (s.raiseJobError .badCommand) := by
  have haction : s.nextAction = .go (s.raiseJobError .badCommand) := by
    simp [State.nextAction_of_job hc hr, State.fetchJob_eq, ho]
  simp only [step, haction]

/-! ## The checks of phase CHECK -/

/-- The checks that SLOW_HASH goes through, in the order of R381. -/
theorem checkJob_slow (v : BitVec 3) (p : Bool) (len msgMax : Nat) (grant : Bool) :
    checkJob 0 v p len msgMax grant =
      if 4 < v.toNat then some .badVariant
      else if msgMax < len then some .badLength
      else if v = 1 ∧ len < 43 then some .invalidInputLength
      else if p = true ∧ len ≠ 200 then some .badLength
      else if grant = false then some .allocationFailure
      else none := by
  simp [checkJob]

section
variable {s : State} (hc : CoreMoves s) (hp : s.phase = .check)
include hp

theorem not_runsProgram_of_check : ¬ RunsProgram s := fun h => nomatch hp.symm.trans h.1

include hc

theorem step_of_slowHash_check (ho : s.jobOp = 0) : step s = .next (s.slowCheck s.jobVariant s.jobPrehashed) := by
  rw [step_of_slowHash hc (not_runsProgram_of_check hp) ho, execSlowHash, hp]

theorem step_of_slowHash_fails (ho : s.jobOp = 0) {code : ErrCode}
    (hcheck : checkJob 0 s.jobVariant s.jobPrehashed s.jobLen.toNat s.msgMax s.spGrant = some code) :
    step s = .next (s.raiseJobError code) := by
  rw [step_of_slowHash_check hc hp ho, State.slowCheck, hcheck]

/-- A SLOW_HASH job that passes owns the buffer and begins with SETUP or with ABSORB (R180, R201, R356). -/
theorem step_of_slowHash_passes (ho : s.jobOp = 0)
    (hcheck : checkJob 0 s.jobVariant s.jobPrehashed s.jobLen.toNat s.msgMax s.spGrant = none) :
    step s = .next (if s.jobPrehashed = true
      then ({ s with spOwned := true } : State).loadPrehashed.enterPhase .setup
      else ({ s with spOwned := true } : State).enterAbsorb) := by
  rw [step_of_slowHash_check hc hp ho, State.slowCheck, hcheck]

/-- FAST_HASH has the check of its length alone (R361). -/
theorem step_of_fastHash_check (ho : s.jobOp = 1) :
    step s = .next (if s.msgMax < s.jobLen.toNat then s.raiseJobError .badLength else s.enterAbsorb) := by
  rw [step_of_fastHash hc (not_runsProgram_of_check hp) ho, execFastHash, hp]
  simp only [State.fastCheck, checkJob_fast]
  by_cases hlen : s.msgMax < s.jobLen.toNat
  · rw [if_pos hlen, if_pos hlen]
  · rw [if_neg hlen, if_neg hlen]

/-- KECCAK_PERMUTE has no check (R367). -/
theorem step_of_keccakPermute_check (ho : s.jobOp = 2) : step s = .next (s.enterPhase .permute) := by
  rw [step_of_keccakPermute hc (not_runsProgram_of_check hp) ho, execKeccakPermute, hp]

end

/-- Settles O17: the command picks its part of the list, in which every check before the one that fails is passed by
the clause's premises. -/
theorem checkOrder : Obligations.CheckOrder := by
  unfold Obligations.CheckOrder
  intro s hc hp
  have fails {code : ErrCode} := step_of_slowHash_fails hc hp (code := code)
  refine ⟨step_of_badCommand hc (not_runsProgram_of_check hp), step_of_keccakPermute_check hc hp,
    fun ho hv => fails ho (by rw [checkJob_slow, if_pos hv]), ?_, fun ho hlen => ?_, fun ho hv hlen => ?_⟩
  · rintro (⟨ho, hv⟩ | ho) hlen
    · exact fails ho (by rw [checkJob_slow, if_neg (Nat.not_lt.mpr hv), if_pos hlen])
    · rw [step_of_fastHash_check hc hp ho, if_pos hlen]
  · rw [step_of_fastHash_check hc hp ho, if_neg (Nat.not_lt.mpr hlen)]
    rfl
  · have hv' := Nat.not_lt.mpr hv
    have hlen' := Nat.not_lt.mpr hlen
    refine ⟨fun h43 => fails ho (by rw [checkJob_slow, if_neg hv', if_neg hlen', if_pos h43]), fun h43 =>
      ⟨fun h200 => fails ho (by rw [checkJob_slow, if_neg hv', if_neg hlen', if_neg h43, if_pos h200]), fun h200 =>
        ⟨fun hg => fails ho (by rw [checkJob_slow, if_neg hv', if_neg hlen', if_neg h43, if_neg h200, if_pos hg]),
          fun hg => ?_⟩⟩⟩
    have hcheck : checkJob 0 s.jobVariant s.jobPrehashed s.jobLen.toNat s.msgMax s.spGrant = none := by
      rw [checkJob_slow, if_neg hv', if_neg hlen', if_neg h43, if_neg h200, if_neg (by simp [hg])]
    rw [step_of_slowHash_passes hc hp ho hcheck]
    refine ⟨fun hpre => ?_, fun hpre => ?_⟩
    · rw [if_pos hpre]
      rfl
    · rw [if_neg (by simp [hpre])]
      rfl

/-! ## The interrupt output -/

theorem State.irq_eq_true {s : State} : s.irq = true ↔ s.ie = true ∧ (s.done = true ∨ s.err = true) := by
  simp only [State.irq, Bool.and_eq_true, Bool.or_eq_true]

theorem State.irq_of_ie_false {s : State} (h : s.ie = false) : s.irq = false := by
  simp only [State.irq, h, Bool.false_and]

theorem State.irq_of_no_status {s : State} (hd : s.done = false) (he : s.err = false) : s.irq = false := by
  simp only [State.irq, hd, he, Bool.or_false, Bool.and_false]

theorem State.irq_startJob {s : State} (h : s.busy = false) : s.startJob.irq = false := by
  rw [State.startJob_of_idle h]
  exact State.irq_of_no_status rfl rfl

theorem State.irq_clrStatus {s : State} (h : s.busy = false) : s.clrStatus.irq = false := by
  rw [State.clrStatus_of_idle h]
  exact State.irq_of_no_status rfl rfl

/-- A pending write of IE alone changes no other register, and no command comes with it (R353). -/
theorem step_of_ie_write {s t : State} {ie : Bool} {rest : List Input}
    (hin : s.inputs = .write 0 4 (ctrlOf false ie false) :: rest) (ht : step s = .next t) :
    t = { s with inputs := rest, ie := ie } := by
  rw [step_of_ctrl_write hin, ctrlOf_start, ctrlOf_ie, ctrlOf_clr] at ht
  exact (Host.Outcome.next.inj ht).symm

/-- Settles O23: the words 2 and 0 write IE alone and leave DONE and ERR, START and CLR of an idle core clear both. -/
theorem interruptFollowsStatus : Obligations.InterruptFollowsStatus := by
  unfold Obligations.InterruptFollowsStatus
  refine fun s => ⟨State.irq_eq_true, fun hd t rest hin ht => ?_, fun t rest hin ht => ?_, fun hb t ie clr ht => ?_,
    fun hb t ie ht => ?_⟩
  · rw [step_of_ie_write (ie := true) hin ht]
    exact State.irq_eq_true.mpr ⟨rfl, .inl hd⟩
  · rw [step_of_ie_write (ie := false) hin ht]
    exact State.irq_of_ie_false rfl
  · rw [← Host.Outcome.next.inj ht, State.ctrlWrite_start]
    exact State.irq_startJob (s := { s with ie := ie }) hb
  · rw [← Host.Outcome.next.inj ht]
    exact State.irq_clrStatus (s := { s with ie := ie }) hb

end Sys2Proof.Machine
end

section
/-! PROOFS. The moves of the core in a job (spec/43_mixing_loop.md R201, spec/70_reset_and_hazards.md R441): a move goes
on in its phase, with PROGRESS as it was or at the units done so far, or it enters a phase of the command's sequence
once the units of its own are done, or it is an error entry at a word or a command that does not decode. -/

namespace Sys2Proof.Machine

/-! ## The units of a phase -/

/-- The units a job has completed in its phase (spec/10_state.md R25). -/
def State.unitsDone (s : State) : Nat :=
  match s.phase with
  | .absorb => s.blk
  | .fill | .finalFill => s.g
  | .mix => s.i
  | .idle | .check | .setup | .rmGen | .permute | .extra | .done | .error => 0

/-- The units after which a job leaves its phase (R441). -/
def State.unitsOf (s : State) : Nat :=
  match s.phase with
  | .absorb => absorbBlocks s.jobLen.toNat
  | .fill | .finalFill => groups
  | .mix => iterations
  | .idle | .check | .setup | .rmGen | .permute | .extra | .done | .error => 0

/-- The counts of a job fit in the 32 bits of PROGRESS. -/
theorem State.unitsOf_lt (s : State) : s.unitsOf + 1 < 2 ^ 32 := by
  have hlen := s.jobLen.isLt
  unfold State.unitsOf
  cases s.phase <;> simp only [absorbBlocks, rate, groups, iterations] <;> omega

/-- Under the invariant PROGRESS is the number of completed units (R25). -/
theorem State.progress_of_inv {s : State} (h : Inv s) :
    s.progress.toNat = s.unitsDone ∧ s.unitsDone ≤ s.unitsOf := by
  have hcount : s.progress = BitVec.ofNat 32 s.unitsDone ∧ s.unitsDone ≤ s.unitsOf := by
    obtain ⟨-, -, -, hplace⟩ := h
    unfold PhaseInv at hplace
    unfold State.unitsDone State.unitsOf
    cases hp : s.phase <;> rw [hp] at hplace
    case absorb | fill | mix | finalFill =>
      obtain ⟨hle, hprogress, -⟩ := hplace
      exact ⟨hprogress, hle⟩
    all_goals
      obtain ⟨hprogress, -⟩ := hplace
      exact ⟨hprogress, Nat.le_refl 0⟩
  obtain ⟨hprogress, hle⟩ := hcount
  have hlt := s.unitsOf_lt
  exact ⟨by rw [hprogress, BitVec.toNat_ofNat]; exact Nat.mod_eq_of_lt (by omega), hle⟩

/-! ## A move -/

/-- DIGEST and SW are the same in two states. -/
def SameOutputs (s t : State) : Prop := t.digest = s.digest ∧ t.sw = s.sw

/-- What a move of the core can do in a job. -/
inductive JobMove (s t : State) : Prop
  /-- Work inside a unit. -/
  | within (hphase : t.phase = s.phase) (hprogress : t.progress = s.progress) (hout : SameOutputs s t)
  /-- The end of a unit. -/
  | counts (hphase : t.phase = s.phase) (hprogress : t.progress = BitVec.ofNat 32 (s.unitsDone + 1))
      (hout : SameOutputs s t)
  /-- The next phase of the command's sequence begins, or the job ends with its results. -/
  | enters (hnext : t.phase ∈ nextPhases s.jobOp s.jobVariant s.jobPrehashed s.phase)
      (hunits : s.unitsOf ≤ s.unitsDone) (hprogress : t.progress = 0) (hout : t.busy = true → SameOutputs s t)
  /-- The word of the program store is reserved (spec/30_encoding.md R102). -/
  | reservedWord (hrun : RunsProgram s) (hrpc : s.rpc.toNat < 71) {e : Reject}
      (hword : decodeProg s.prog[s.rpc.toNat] = .error e) (ht : t = s.raiseJobError .internalFault)
  /-- OP = 3 names no command (R99). -/
  | badCommand (hop : s.jobOp = 3) (ht : t = s.raiseJobError .badCommand)

section
variable {s t : State}

/-- `counts` where the phase is known: its counter is then read off. -/
theorem JobMove.counts_in {p : Phase} (hp : s.phase = p) (hphase : t.phase = p)
    (hprogress : t.progress = BitVec.ofNat 32 (({ s with phase := p } : State).unitsDone + 1))
    (hout : SameOutputs s t) : JobMove s t := by
  subst hp
  exact .counts hphase hprogress hout

/-- `enters` where the phase is known; a phase without units is left by its one step. -/
theorem JobMove.enters_from {p : Phase} (hp : s.phase = p)
    (hunits : ({ s with phase := p } : State).unitsOf ≤ ({ s with phase := p } : State).unitsDone)
    (hnext : t.phase ∈ nextPhases s.jobOp s.jobVariant s.jobPrehashed p) (hprogress : t.progress = 0)
    (hout : t.busy = true → SameOutputs s t) : JobMove s t := by
  subst hp
  exact .enters hnext hunits hprogress hout

/-- Outside the phases of its job a command does nothing. -/
theorem JobMove.refl (s : State) : JobMove s s := .within rfl rfl ⟨rfl, rfl⟩

/-! ## The phases -/

theorem JobMove.slowCheck (hp : s.phase = .check) (ho : s.jobOp = 0) :
    JobMove s (s.slowCheck s.jobVariant s.jobPrehashed) := by
  unfold State.slowCheck
  cases hpre : s.jobPrehashed with
  | true => split <;> exact .enters_from hp (Nat.le_refl 0) (by simp [nextPhases, ho, hpre]) rfl fun _ => ⟨rfl, rfl⟩
  | false =>
    split
    · exact .enters_from hp (Nat.le_refl 0) (by simp [nextPhases, ho, hpre]) rfl fun _ => ⟨rfl, rfl⟩
    · exact .enters_from hp (Nat.le_refl 0) (by simp [nextPhases, ho, hpre, State.enterAbsorb]) rfl fun _ => ⟨rfl, rfl⟩

theorem JobMove.fastCheck (hp : s.phase = .check) (ho : s.jobOp = 1) : JobMove s s.fastCheck := by
  unfold State.fastCheck
  split
  · exact .enters_from hp (Nat.le_refl 0) (by simp [nextPhases, ho]) rfl fun _ => ⟨rfl, rfl⟩
  · exact .enters_from hp (Nat.le_refl 0) (by simp [nextPhases, ho, State.enterAbsorb]) rfl fun _ => ⟨rfl, rfl⟩

/-- What follows the last block is the command's (R143). -/
theorem JobMove.absorbStep {after : State} (hp : s.phase = .absorb)
    (hafter : absorbBlocks s.jobLen.toNat ≤ s.blk → JobMove s after) (h : s.absorbStep after = .next t) :
    JobMove s t := by
  rcases s.absorbStep_cases after with ⟨-, e⟩ | ⟨-, hdone, e⟩ | ⟨-, -, e⟩ <;> cases e.symm.trans h
  · exact hafter (of_decide_eq_true hdone)
  · exact .counts_in hp hp rfl ⟨rfl, rfl⟩

theorem JobMove.slowSetup (hp : s.phase = .setup) : JobMove s (s.slowSetup s.jobVariant) := by
  unfold State.slowSetup
  split
  case isTrue hgate =>
    have hnext : nextPhases s.jobOp s.jobVariant s.jobPrehashed .setup = [.rmGen] := if_pos (of_decide_eq_true hgate)
    exact .enters_from hp (Nat.le_refl 0) (hnext ▸ List.mem_singleton.mpr rfl) rfl fun _ => ⟨rfl, rfl⟩
  case isFalse hgate =>
    have hnext : nextPhases s.jobOp s.jobVariant s.jobPrehashed .setup = [.fill] :=
      if_neg fun hv => hgate (decide_eq_true hv)
    exact .enters_from hp (Nat.le_refl 0) (hnext ▸ List.mem_singleton.mpr rfl) rfl fun _ => ⟨rfl, rfl⟩

theorem JobMove.rmGenUnit (hp : s.phase = .rmGen) : JobMove s s.rmGenUnit := by
  unfold State.rmGenUnit
  split
  · exact .enters_from hp (Nat.le_refl 0) (List.mem_singleton.mpr rfl) rfl fun _ => ⟨rfl, rfl⟩
  · exact .within rfl rfl ⟨rfl, rfl⟩

theorem JobMove.fill (hp : s.phase = .fill) : JobMove s (if s.g < groups then s.fillUnit else s.enterMix) := by
  split
  case isTrue => exact .counts_in hp hp rfl ⟨rfl, rfl⟩
  case isFalse hg =>
    exact .enters_from hp (Nat.le_of_not_lt hg) (List.mem_singleton.mpr rfl) rfl fun _ => ⟨rfl, rfl⟩

theorem JobMove.finalFill (hp : s.phase = .finalFill) :
    JobMove s (if s.g < groups then s.finalFillUnit else s.enterPhase .permute) := by
  split
  case isTrue => exact .counts_in hp hp rfl ⟨rfl, rfl⟩
  case isFalse hg =>
    exact .enters_from hp (Nat.le_of_not_lt hg) (List.mem_singleton.mpr rfl) rfl fun _ => ⟨rfl, rfl⟩

/-- Of the rules of an outer iteration the last counts (R213); the phase is left between two iterations (R215). -/
theorem JobMove.mixUnit (hp : s.phase = .mix) (v : BitVec 3) : JobMove s (s.mixUnit v) := by
  unfold State.mixUnit
  cases s.mixStep with
  | half1Aes =>
    dsimp only
    split
    case isTrue => exact .within rfl rfl ⟨rfl, rfl⟩
    case isFalse hi =>
      exact .enters_from hp (Nat.le_of_not_lt hi) (List.mem_singleton.mpr rfl) rfl fun _ => ⟨rfl, rfl⟩
  | half1Shuffle | half2Shuffle =>
    dsimp only [State.half1Shuffle, State.half2Shuffle]
    rw [shuffleAt_frame]
    exact .within rfl rfl ⟨rfl, rfl⟩
  | half2Math =>
    dsimp only [State.half2Math]
    split
    · exact .within rfl rfl ⟨rfl, rfl⟩
    · split <;> exact .within rfl rfl ⟨rfl, rfl⟩
  | half2Fold =>
    dsimp only [State.half2Fold]
    split <;> exact .within rfl rfl ⟨rfl, rfl⟩
  | half1Store | half2Load | rmRun | rmFold | half2Mul | half2Store => exact .within rfl rfl ⟨rfl, rfl⟩
  | iterEnd => exact .counts_in hp hp rfl ⟨rfl, rfl⟩

/-! ## The commands -/

theorem JobMove.execSlowHash (ho : s.jobOp = 0) (h : execSlowHash s.jobVariant s.jobPrehashed s = .next t) :
    JobMove s t := by
  unfold Machine.execSlowHash at h
  cases hp : s.phase <;> rw [hp] at h
  case check => cases h; exact .slowCheck hp ho
  case absorb =>
    refine .absorbStep hp (fun hblk => ?_) h
    exact .enters_from hp hblk (by simp [nextPhases, ho]) rfl fun _ => ⟨rfl, rfl⟩
  case setup => cases h; exact .slowSetup hp
  case rmGen => cases h; exact .rmGenUnit hp
  case fill => cases h; exact .fill hp
  case mix => cases h; exact .mixUnit hp _
  case finalFill => cases h; exact .finalFill hp
  case permute =>
    cases h
    exact .enters_from hp (Nat.le_refl 0) (by simp [nextPhases, ho, State.slowPermute]) rfl fun _ => ⟨rfl, rfl⟩
  case extra =>
    cases h
    exact .enters_from hp (Nat.le_refl 0) (List.mem_singleton.mpr rfl) rfl fun hb => nomatch hb
  case idle | done | error => cases h; exact .refl s

theorem JobMove.execFastHash (ho : s.jobOp = 1) (h : execFastHash s = .next t) : JobMove s t := by
  unfold Machine.execFastHash at h
  cases hp : s.phase <;> rw [hp] at h
  case check => cases h; exact .fastCheck hp ho
  case absorb =>
    refine .absorbStep hp (fun hblk => ?_) h
    exact .enters_from hp hblk (by simp [nextPhases, ho, State.finishOkDigest]) rfl fun hb => nomatch hb
  case idle | done | error => cases h; exact .refl s
  all_goals cases h

theorem JobMove.execKeccakPermute (ho : s.jobOp = 2) (h : execKeccakPermute s = .next t) : JobMove s t := by
  unfold Machine.execKeccakPermute at h
  cases hp : s.phase <;> rw [hp] at h
  case check =>
    cases h
    exact .enters_from hp (Nat.le_refl 0) (by simp [nextPhases, ho]) rfl fun _ => ⟨rfl, rfl⟩
  case permute =>
    cases h
    exact .enters_from hp (Nat.le_refl 0) (by simp [nextPhases, ho]) rfl fun hb => nomatch hb
  case idle | done | error => cases h; exact .refl s
  all_goals cases h

/-! ## The random-math program -/

/-- Past the last entry of PROG there is no fetch. -/
theorem rpc_lt_of_step (hc : CoreMoves s) (hrun : RunsProgram s) (h : step s = .next t) : s.rpc.toNat < 71 := by
  by_contra hrpc
  have hrunning : s.running = true := decide_eq_true hrun
  have haction : s.nextAction = .stop .progOutOfRange := by
    simp only [State.nextAction_of_no_input hc.1, State.coreAction, hc.2, hrunning, if_true, State.fetchProg,
      dif_neg hrpc]
  simp only [step, haction] at h
  cases h

/-- A word of the program store moves inside an iteration, or it is reserved. -/
theorem JobMove.of_runsProgram (hc : CoreMoves s) (hrun : RunsProgram s) (h : step s = .next t) : JobMove s t := by
  have hrpc := rpc_lt_of_step hc hrun h
  rw [step_of_runsProgram hc hrun hrpc] at h
  cases hword : decodeProg s.prog[s.rpc.toNat] with
  | error e =>
    rw [State.runWord, hword] at h
    cases h
    exact .reservedWord hrun hrpc hword rfl
  | ok i =>
    rw [State.runWord, hword] at h
    rcases decodeProg_ok hword with rfl | halu
    · cases h
      exact .within rfl rfl ⟨rfl, rfl⟩
    · obtain ⟨f, d, src, hsrc, hexec⟩ := exec_of_isAlu halu
      cases (hexec s).symm.trans h
      rw [State.execAlu_of_lt hsrc]
      exact .within rfl rfl ⟨rfl, rfl⟩

/-- Every move of the core while a job runs. -/
theorem JobMove.of_step (hc : CoreMoves s) (h : step s = .next t) : JobMove s t := by
  by_cases hrun : RunsProgram s
  · exact .of_runsProgram hc hrun h
  · rcases jobOp_cases s.jobOp with ho | ho | ho | ho
    · exact .execSlowHash ho ((step_of_slowHash hc hrun ho).symm.trans h)
    · exact .execFastHash ho ((step_of_fastHash hc hrun ho).symm.trans h)
    · exact .execKeccakPermute ho ((step_of_keccakPermute hc hrun ho).symm.trans h)
    · cases (step_of_badCommand hc hrun ho).symm.trans h
      exact .badCommand ho rfl

/-! ## Moves under the invariant -/

/-- A generated program holds no reserved word at or before its RET (spec/45_random_math.md R311). -/
theorem decodeProg_of_inv (h : Inv s) (hrun : RunsProgram s) (hrpc : s.rpc.toNat < 71) :
    ∃ i, decodeProg s.prog[s.rpc.toNat] = .ok i := by
  obtain ⟨hp, hm⟩ := hrun
  obtain ⟨-, -, -, hplace⟩ := h
  simp only [PhaseInv, hp] at hplace
  obtain ⟨-, -, -, hprog, -, hrunning, -⟩ := hplace
  obtain ⟨hv, hle⟩ := hrunning hm
  obtain ⟨-, -, hwords⟩ := hprog hv
  obtain ⟨hop, hret⟩ := hwords ⟨s.rpc.toNat, hrpc⟩
  rcases hle.lt_or_eq with hlt | heq
  · obtain ⟨i, hi, -⟩ := hop hlt
    exact ⟨i, hi⟩
  · exact ⟨.ret, hret heq⟩

/-- A job with OP = 3 does not get past CHECK (spec/60_exceptions.md R381). -/
theorem phase_of_badCommand (h : Inv s) (hb : s.busy = true) (ho : s.jobOp = 3) : s.phase = .check := by
  obtain ⟨hstatus, -, -, hplace⟩ := h
  obtain ⟨-, -, -, hrunning⟩ := status_of_busy hstatus hb
  unfold PhaseInv at hplace
  cases hp : s.phase <;> rw [hp] at hplace hrunning
  case idle | done | error => cases hrunning
  all_goals simp [SlowInv, ho] at hplace

/-- No phase follows itself in R201. -/
theorem ne_of_mem_nextPhases {op : BitVec 2} {v : BitVec 3} {pre : Bool} {p q : Phase}
    (h : q ∈ nextPhases op v pre p) : q ≠ p := by
  rintro rfl
  unfold nextPhases at h
  split at h <;> repeat' split at h
  all_goals simp at h

/-- The units after which R441 lets a phase be left. -/
theorem State.unitsOf_of_phase (s : State) :
    (s.phase = .absorb → s.unitsOf = s.jobLen.toNat / 136 + 1) ∧
      (s.phase = .fill ∨ s.phase = .finalFill → s.unitsOf = 2 ^ 14) ∧ (s.phase = .mix → s.unitsOf = 2 ^ 19) := by
  unfold State.unitsOf
  refine ⟨fun hp => ?_, fun hp => ?_, fun hp => ?_⟩
  · rw [hp]; rfl
  · rcases hp with hp | hp <;> rw [hp] <;> rfl
  · rw [hp]; rfl

end

/-- Settles O57: the invariant says that PROGRESS is the number of completed units and at most the number of the phase,
so a move that counts one more does not wrap, and one that leaves the phase finds them equal. It leaves OP = 3 in CHECK
as the one way to an error entry outside the checks. -/
theorem phaseSequence : Obligations.PhaseSequence := by
  unfold Obligations.PhaseSequence
  intro s t hinv hc h
  obtain ⟨hdone, hle⟩ := State.progress_of_inv hinv
  cases JobMove.of_step hc h with
  | within hphase hprogress _ =>
    exact ⟨.inl ⟨hphase, by rw [hprogress]⟩, fun hne => absurd hphase hne⟩
  | counts hphase hprogress _ =>
    have hlt := s.unitsOf_lt
    have hnext : t.progress.toNat = s.unitsDone + 1 := by
      rw [hprogress, BitVec.toNat_ofNat]
      exact Nat.mod_eq_of_lt (by omega)
    exact ⟨.inl ⟨hphase, by omega⟩, fun hne => absurd hphase hne⟩
  | enters hnext hunits hprogress _ =>
    have hfinal : s.progress.toNat = s.unitsOf := by omega
    rw [hfinal]
    exact ⟨.inr ⟨ne_of_mem_nextPhases hnext, hnext, hprogress⟩, fun _ => s.unitsOf_of_phase⟩
  | reservedWord hrun hrpc hword _ =>
    obtain ⟨i, hi⟩ := decodeProg_of_inv hinv hrun hrpc
    cases hi.symm.trans hword
  | badCommand hop ht =>
    have hp := phase_of_badCommand hinv hc.2 hop
    subst ht
    rw [hp]
    exact ⟨.inr ⟨by simp, by simp [nextPhases, hop], rfl⟩, fun _ => ⟨nofun, by simp, nofun⟩⟩

end Sys2Proof.Machine
end

section
/-! PROOFS. What a running job locks (spec/70_reset_and_hazards.md R431): a host write reaches IE alone, reads go on,
and DIGEST and SW show their old values until the job ends. -/

namespace Sys2Proof.Machine

section
variable {s : State}

/-- CTRL is the one register that takes a write while a job runs. -/
theorem State.writeRegister_of_busy (hb : s.busy = true) {off : Nat} (hoff : off ≠ 0) (v : W32) :
    s.writeRegister off v = s := by
  unfold State.writeRegister
  split
  case h_1 => exact absurd rfl hoff
  case h_6 => rfl
  all_goals exact if_pos hb

theorem State.writeByte_of_busy (hb : s.busy = true) (off : Nat) (b : Byte) : s.writeByte off b = s := if_pos hb

theorem State.hostWrite_of_busy (hb : s.busy = true) {off : BitVec 16} {w : Nat} (hc : ¬ (off = 0 ∧ w = 4))
    (v : W32) : s.hostWrite off w v = s := by
  by_cases href : RefusedAccess off w
  · exact State.hostWrite_of_refused href
  · obtain ⟨hl, -, -⟩ := accessLegal_of_not_refused href
    rw [State.hostWrite, if_pos hl]
    split
    case isTrue hblock =>
      have hw : w = 4 := by by_contra hw; exact href (.inr (.inr ⟨hblock, hw⟩))
      refine State.writeRegister_of_busy hb (fun hoff => hc ⟨?_, hw⟩) v
      exact BitVec.eq_of_toNat_eq hoff
    case isFalse => exact List.foldl_fixed' (fun _ => State.writeByte_of_busy hb _ _) _

end

theorem step_of_read {s : State} {off : BitVec 16} {w : Nat} {rest : List Input}
    (hin : s.inputs = .read off w :: rest) :
    step s = .next { s with inputs := rest, hostData := s.hostRead off w } := by
  simp only [step, State.nextAction, hin, State.inputAction]
  rfl

theorem step_of_busy_write {s : State} {off : BitVec 16} {w : Nat} {v : W32} {rest : List Input} (hb : s.busy = true)
    (hin : s.inputs = .write off w v :: rest) :
    step s = .next { s with inputs := rest, ie := if off = 0 ∧ w = 4 then v.getLsbD 1 else s.ie } := by
  have hb' : ({ s with inputs := rest } : State).busy = true := hb
  by_cases hc : off = 0 ∧ w = 4
  · obtain ⟨rfl, rfl⟩ := hc
    rw [step_of_ctrl_write hin, State.ctrlWrite_of_busy hb']
    rfl
  · rw [step_of_plain_write hc hin, State.hostWrite_of_busy hb' hc, if_neg hc]

/-- Until the job ends its moves leave DIGEST and SW as they are. -/
theorem sameOutputs_of_step {s t : State} (hc : CoreMoves s) (h : step s = .next t) (hb : t.busy = true) :
    SameOutputs s t := by
  cases JobMove.of_step hc h with
  | within _ _ hout | counts _ _ hout => exact hout
  | enters _ _ _ hout => exact hout hb
  | reservedWord _ _ _ ht | badCommand _ ht =>
    subst ht
    exact ⟨rfl, rfl⟩

/-- Settles O24: the host's accesses one by one, and the core by what its moves leave. -/
theorem busyLockHoldsInputs : Obligations.BusyLockHoldsInputs := by
  unfold Obligations.BusyLockHoldsInputs
  exact ⟨fun _ _ _ _ _ => step_of_busy_write, fun _ _ _ _ => step_of_read, fun _ _ => sameOutputs_of_step⟩

end Sys2Proof.Machine
end

section
/-! PROOFS. The three encodings (spec/30_encoding.md R91, R92, R95, R99 to R102): the fields of a word over numbers, which
words are rejected, and that decoding and encoding are inverse to each other. -/

namespace Sys2Proof

/-! ## The fields of a program-store word (R100) -/

theorem toNat_progOpc (w : ProgWord) : (progOpc w).toNat = w.toNat % 8 := by
  rw [progOpc, BitVec.extractLsb'_toNat, Nat.shiftRight_zero]

theorem toNat_progDst (w : ProgWord) : (progDst w).toNat = w.toNat / 2 ^ 3 % 2 ^ 2 := by
  rw [progDst, BitVec.extractLsb'_toNat, Nat.shiftRight_eq_div_pow]

theorem toNat_progSrc (w : ProgWord) : (progSrc w).toNat = w.toNat / 2 ^ 5 % 2 ^ 4 := by
  rw [progSrc, BitVec.extractLsb'_toNat, Nat.shiftRight_eq_div_pow]

theorem toNat_progReserved (w : ProgWord) : (progReserved w).toNat = w.toNat / 2 ^ 9 % 2 ^ 7 := by
  rw [progReserved, BitVec.extractLsb'_toNat, Nat.shiftRight_eq_div_pow]

theorem toNat_progConst (w : ProgWord) : (progConst w).toNat = w.toNat / 2 ^ 16 % 2 ^ 32 := by
  rw [progConst, BitVec.extractLsb'_toNat, Nat.shiftRight_eq_div_pow]

theorem toNat_append_eq_add {m n : Nat} (x : BitVec m) (y : BitVec n) :
    (x ++ y).toNat = x.toNat * 2 ^ n + y.toNat := by
  rw [BitVec.toNat_append, ← Nat.shiftLeft_add_eq_or_of_lt y.isLt, Nat.shiftLeft_eq]

theorem toNat_progOf (o : BitVec 3) (d : BitVec 2) (s : BitVec 4) (c : W32) :
    (progOf o d s c).toNat = c.toNat * 2 ^ 16 + s.toNat * 2 ^ 5 + d.toNat * 2 ^ 3 + o.toNat := by
  have hzero : (0#7).toNat = 0 := rfl
  simp only [progOf, toNat_append_eq_add, hzero]
  ring

/-- A word without reserved bits is its fields put together. -/
theorem progOf_fields {w : ProgWord} (h : progReserved w = 0) :
    progOf (progOpc w) (progDst w) (progSrc w) (progConst w) = w := by
  have hres : w.toNat / 2 ^ 9 % 2 ^ 7 = 0 := (toNat_progReserved w).symm.trans (congrArg BitVec.toNat h)
  have hlt := w.isLt
  apply BitVec.eq_of_toNat_eq
  rw [toNat_progOf, toNat_progOpc, toNat_progDst, toNat_progSrc, toNat_progConst]
  omega

/-- Without its constant it is the word's bits 15:0. -/
theorem progOf_fields_zero {w : ProgWord} (h : progReserved w = 0) :
    progOf (progOpc w) (progDst w) (progSrc w) 0 = w &&& 0xFFFF#48 := by
  have hres : w.toNat / 2 ^ 9 % 2 ^ 7 = 0 := (toNat_progReserved w).symm.trans (congrArg BitVec.toNat h)
  have hmask : (w &&& 0xFFFF#48).toNat = w.toNat % 2 ^ 16 := Nat.and_two_pow_sub_one_eq_mod w.toNat 16
  have hzero : (0 : W32).toNat = 0 := rfl
  apply BitVec.eq_of_toNat_eq
  rw [toNat_progOf, toNat_progOpc, toNat_progDst, toNat_progSrc, hzero, hmask]
  omega

/-! ## Decoding a program-store word -/

theorem withSource_eq_error {src : BitVec 4} {i : Instr} :
    (∃ e, withSource src i = .error e) ↔ 9 ≤ src.toNat := by
  unfold withSource srcOk
  by_cases h : src.toNat < 9
  · simp [h]
  · simp [h, Nat.le_of_not_lt h]

/-- R102 over the fields: RET is the one operation that no SRC makes reserved (notes/assumptions/5.md). -/
theorem decodeProg_rejects_iff (w : ProgWord) : (∃ e, decodeProg w = .error e) ↔
    progOpc w = 7 ∨ progReserved w ≠ 0 ∨ (progOpc w ≠ 6 ∧ 9 ≤ (progSrc w).toNat) := by
  unfold decodeProg
  by_cases hres : progReserved w = 0
  · rw [if_neg (not_not.mpr hres)]
    have hcase : ∀ o : BitVec 3, o = 0 ∨ o = 1 ∨ o = 2 ∨ o = 3 ∨ o = 4 ∨ o = 5 ∨ o = 6 ∨ o = 7 := by decide
    rcases hcase (progOpc w) with h | h | h | h | h | h | h | h <;> rw [h]
    case inr.inr.inr.inr.inr.inr.inl => simp [hres]
    case inr.inr.inr.inr.inr.inr.inr => simp
    all_goals simp [withSource_eq_error, hres]
  · rw [if_pos hres]
    exact iff_of_true ⟨_, rfl⟩ (.inr (.inl hres))

/-- Settles O3: the fields of the word as numbers. -/
theorem reservedProgramWordsRejected : Obligations.ReservedProgramWordsRejected := by
  unfold Obligations.ReservedProgramWordsRejected
  intro w
  refine (decodeProg_rejects_iff w).trans ?_
  simp only [ne_eq, ← BitVec.toNat_inj, toNat_progOpc, toNat_progReserved, toNat_progSrc]
  rfl

/-- The word values of R101 over numbers. -/
theorem ofNat_fields (d : BitVec 2) (s : BitVec 4) (c : W32) (op : BitVec 3) :
    BitVec.ofNat 48 (c.toNat <<< 16 ||| s.toNat <<< 5 ||| d.toNat <<< 3 ||| op.toNat) = progOf op d s c := by
  have hword : (progOf op d s c).toNat = c.toNat <<< 16 ||| s.toNat <<< 5 ||| d.toNat <<< 3 ||| op.toNat := by
    simp only [progOf, BitVec.toNat_append, BitVec.toNat_zero, Nat.or_zero, Nat.shiftLeft_or_distrib,
      ← Nat.shiftLeft_add]
  rw [← hword, BitVec.ofNat_toNat, BitVec.setWidth_eq]

/-- Settles O2: the decoder reads the fields back, and SRC 0 to 8 names a register. -/
theorem programWordsDecodeByFields : Obligations.ProgramWordsDecodeByFields := by
  unfold Obligations.ProgramWordsDecodeByFields
  intro d s c word
  have hword (op : BitVec 3) : decode (.prog (word op.toNat)) = decodeProg (progOf op d s c) :=
    congrArg decodeProg (ofNat_fields d s c op)
  refine ⟨fun hs => ⟨?_, ?_, ?_, ?_, ?_, ?_⟩, ?_⟩
  · exact (hword 0).trans (by simp [decodeProg, withSource_eq_ok, hs])
  · exact (hword 1).trans (by simp [decodeProg, withSource_eq_ok, hs])
  · exact (hword 2).trans (by simp [decodeProg, withSource_eq_ok, hs])
  · exact (hword 3).trans (by simp [decodeProg, withSource_eq_ok, hs])
  · exact (hword 4).trans (by simp [decodeProg, withSource_eq_ok, hs])
  · exact (hword 5).trans (by simp [decodeProg, withSource_eq_ok, hs])
  · exact (hword 6).trans (by simp [decodeProg])

/-! ## The words of the host registers (R91, R92) -/

/-- Settles O1: each word by evaluation of the decoder. -/
theorem specWordsDecode : Obligations.SpecWordsDecode := by
  unfold Obligations.SpecWordsDecode
  decide

theorem cmdVariant_eq_ofNat (w : W32) : cmdVariant w = BitVec.ofNat 3 (w.toNat / 16) := by
  apply BitVec.eq_of_toNat_eq
  rw [Machine.toNat_cmdVariant, BitVec.toNat_ofNat]

theorem getLsbD_zero_eq_decide (w : W32) : w.getLsbD 0 = decide (w.toNat % 2 = 1) := Nat.testBit_zero w.toNat

/-- Settles O4: OP and the three bits of CTRL as numbers pick the branch of the decoder. -/
theorem hostWordsDecodeByFields : Obligations.HostWordsDecodeByFields := by
  unfold Obligations.HostWordsDecodeByFields
  refine ⟨fun w => ?_, fun w => ?_⟩
  · have hop {n : BitVec 2} (h : w.toNat % 4 = n.toNat) : cmdOp w = n :=
      BitVec.eq_of_toNat_eq ((Machine.toNat_cmdOp w).trans h)
    rw [← cmdVariant_eq_ofNat]
    refine ⟨fun h => ?_, fun h => ?_, fun h => ?_, fun h => ?_⟩
    · simp [decode, decodeCmd, hop (n := 0) h, cmdPrehashed, BitVec.getLsbD]
    · simp [decode, decodeCmd, hop (n := 1) h]
    · simp [decode, decodeCmd, hop (n := 2) h]
    · simp [decode, decodeCmd, hop (n := 3) h]
  · simp only [decode, decodeCtrl, getLsbD_zero_eq_decide, decide_eq_true_eq]
    refine ⟨fun h => if_pos h, fun h hclr => ?_, fun h hclr => ?_⟩
    · rw [if_neg (by omega)]
      exact if_pos hclr
    · rw [if_neg (by omega)]
      exact if_neg (ne_true_of_eq_false hclr)

/-! ## Decoding and encoding -/

/-- Settles O5: for a program word the decoder reads back the fields that the encoder put together, and so it does for
the words of CMD and CTRL, whose operands are few. -/
theorem decodeInvertsEncode : Obligations.DecodeInvertsEncode := by
  unfold Obligations.DecodeInvertsEncode
  intro i h
  cases i with
  | mul d src | add d src c | sub d src | ror d src | rol d src | xor d src =>
    have hsrc : src.toNat < 9 := of_decide_eq_true h
    simp [encode, decode, decodeProg, withSource_eq_ok, hsrc]
  | ret => rfl
  | slowHash v p => simp [encode, decode, decodeCmd]
  | fastHash | keccakPermute => rfl
  | start ie clr => simp only [encode, decode, decodeCtrl, ctrlOf_start, ctrlOf_ie, ctrlOf_clr, if_true]
  | clr withStart ie =>
    have hstart : withStart = false := by simpa [Instr.wellFormed] using h
    simp only [encode, decode, decodeCtrl, ctrlOf_start, ctrlOf_ie, ctrlOf_clr, hstart, if_true, if_false,
      Bool.false_eq_true]

/-- What the decoder reads from a program-store word, by its operation. -/
theorem decodeProg_eq_ok {w : ProgWord} {i : Instr} (h : decodeProg w = .ok i) :
    progReserved w = 0 ∧ encode i = .prog (if progOpc w = 6 then progOf 6 0 0 0
      else progOf (progOpc w) (progDst w) (progSrc w) (if progOpc w = 1 then progConst w else 0)) := by
  unfold decodeProg at h
  split at h
  · cases h
  case isFalse hres =>
    refine ⟨not_not.mp hres, ?_⟩
    generalize progOpc w = o at h
    split at h
    case h_7 => cases h; rfl
    case h_8 => cases h
    all_goals
      obtain ⟨-, rfl⟩ := withSource_eq_ok.mp h
      rfl

/-- The bits of CMD that are not reserved (R92). -/
theorem cmdMask_bits : ∀ i : Fin 32, (0x173#32)[i.val] = decide (i.val < 2 ∨ 4 ≤ i.val ∧ i.val < 7 ∨ i.val = 8) := by
  decide

theorem cmdOf_fields (w : W32) : cmdOf (cmdOp w) (cmdVariant w) (cmdPrehashed w) = w &&& 0x173#32 := by
  ext i hi
  rw [BitVec.getElem_and, cmdMask_bits ⟨i, hi⟩]
  simp [cmdOf, cmdOp, cmdVariant, cmdPrehashed]
  grind

theorem cmdOf_op (w : W32) : cmdOf (cmdOp w) 0 false = w &&& 3#32 := by
  have hmask : ∀ i : Fin 32, (3#32)[i.val] = decide (i.val < 2) := by decide
  ext i hi
  rw [BitVec.getElem_and, hmask ⟨i, hi⟩]
  simp [cmdOf, cmdOp]
  grind

theorem ctrlOf_bits (w : W32) : ctrlOf (w.getLsbD 0) (w.getLsbD 1) (w.getLsbD 2) = w &&& 7#32 := by
  have hmask : ∀ i : Fin 32, (7#32)[i.val] = decide (i.val < 3) := by decide
  ext i hi
  rw [BitVec.getElem_and, hmask ⟨i, hi⟩]
  simp [ctrlOf]
  grind

theorem wellFormed_of_decode {e : EncWord} {i : Instr} (h : decode e = .ok i) : i.wellFormed = true := by
  cases e with
  | prog w =>
    rcases Machine.decodeProg_ok h with rfl | halu
    · rfl
    · cases i with
      | mul | add | sub | ror | rol | xor => exact halu
      | ret | slowHash | fastHash | keccakPermute | start | clr => cases halu
  | cmd w =>
    rw [decode, decodeCmd] at h
    split at h <;> cases h <;> rfl
  | ctrl w =>
    rw [decode, decodeCtrl] at h
    split at h
    · cases h; rfl
    · split at h <;> cases h
      rfl

theorem progOpc_eq_iff (w : ProgWord) (o : BitVec 3) : progOpc w = o ↔ w.toNat % 8 = o.toNat := by
  rw [← BitVec.toNat_inj, toNat_progOpc]

theorem encode_of_decodeProg {w : ProgWord} {i : Instr} (h : decodeProg w = .ok i) :
    encode i = .prog (if w.toNat % 8 = 6 then w &&& 7#48 else if w.toNat % 8 = 1 then w else w &&& 0xFFFF#48) := by
  obtain ⟨hres, hi⟩ := decodeProg_eq_ok h
  have h6 : progOpc w = 6 ↔ w.toNat % 8 = 6 := progOpc_eq_iff w 6
  have h1 : progOpc w = 1 ↔ w.toNat % 8 = 1 := progOpc_eq_iff w 1
  rw [hi, ← if_congr h6 rfl rfl, ← if_congr h1 rfl rfl]
  refine congrArg EncWord.prog ?_
  split
  case isTrue hret =>
    have hmask : (w &&& 7#48).toNat = w.toNat % 2 ^ 3 := Nat.and_two_pow_sub_one_eq_mod w.toNat 3
    exact BitVec.eq_of_toNat_eq (hmask.trans (h6.mp hret)).symm
  case isFalse =>
    split
    · exact progOf_fields hres
    · exact progOf_fields_zero hres

theorem encode_of_decodeCmd {w : W32} {i : Instr} (h : decodeCmd w = .ok i) :
    encode i = .cmd (if w.toNat % 4 = 0 then w &&& 0x173#32 else w &&& 3#32) := by
  rw [← Machine.toNat_cmdOp, ← cmdOf_fields, ← cmdOf_op]
  unfold decodeCmd at h
  generalize cmdOp w = o at h ⊢
  split at h <;> cases h <;> rfl

theorem encode_of_decodeCtrl {w : W32} {i : Instr} (h : decodeCtrl w = .ok i) : encode i = .ctrl (w &&& 7#32) := by
  rw [← ctrlOf_bits]
  unfold decodeCtrl at h
  split at h
  case isTrue hstart =>
    cases h
    rw [encode, hstart]
  case isFalse hstart =>
    split at h
    case isTrue hclr =>
      cases h
      rw [encode, hclr, Bool.eq_false_of_not_eq_true hstart]
    case isFalse => cases h

/-- Settles O6: each of the three decoders keeps the fields of its word that the instruction it reads has. -/
theorem decodedInstructionsAreWellFormed : Obligations.DecodedInstructionsAreWellFormed := by
  unfold Obligations.DecodedInstructionsAreWellFormed
  exact ⟨fun _ _ => wellFormed_of_decode, fun _ _ => encode_of_decodeProg, fun _ _ => encode_of_decodeCmd,
    fun _ _ => encode_of_decodeCtrl⟩

end Sys2Proof
end

section
/-! PROOFS. The steps of the core with other events pending (notes/assumptions/7.md) and with a variant of the same gates
(spec/44_variant_tweaks.md R240): they are the same steps. For variants 2 and 3 this is R216. -/

namespace Sys2Proof.Machine

/-- Every gate of R240 and every check of R381 answers alike for two variants. -/
structure SameGates (v w : BitVec 3) : Prop where
  shuffle : shuffleGate w = shuffleGate v
  integer : integerGate w = integerGate v
  random : randomGate w = randomGate v
  tweak : w = 1 ↔ v = 1
  valid : w.toNat > 4 ↔ v.toNat > 4

theorem SameGates.refl (v : BitVec 3) : SameGates v v := ⟨rfl, rfl, rfl, .rfl, .rfl⟩

/-- R216. -/
theorem sameGates_two_three : SameGates 2 3 := by constructor <;> decide

/-- The state with another latched variant and other events pending. -/
def State.recast (w : BitVec 3) (l : List Input) (s : State) : State := { s with jobVariant := w, inputs := l }

section
variable {v w : BitVec 3} {p : Bool} {l : List Input} {s : State}

/-! ## Phase by phase -/

theorem SameGates.checkJob (h : SameGates v w) (len msgMax : Nat) (grant : Bool) :
    checkJob 0 w p len msgMax grant = checkJob 0 v p len msgMax grant := by
  simp only [Machine.checkJob, h.tweak, h.valid]

theorem SameGates.slowCheck (h : SameGates v w) : (s.recast w l).slowCheck w p = (s.slowCheck v p).recast w l := by
  have hcheck : Machine.checkJob 0 w p (s.recast w l).jobLen.toNat (s.recast w l).msgMax (s.recast w l).spGrant =
      Machine.checkJob 0 v p s.jobLen.toNat s.msgMax s.spGrant := h.checkJob _ _ _
  unfold State.slowCheck
  rw [hcheck]
  split
  · rfl
  · cases p <;> rfl

theorem State.fastCheck_recast : (s.recast w l).fastCheck = s.fastCheck.recast w l := by
  have hcheck : checkJob 1 0 false (s.recast w l).jobLen.toNat (s.recast w l).msgMax (s.recast w l).spGrant =
      checkJob 1 0 false s.jobLen.toNat s.msgMax s.spGrant := rfl
  unfold State.fastCheck
  rw [hcheck]
  split <;> rfl

theorem State.absorbStep_recast (after : State) :
    (s.recast w l).absorbStep (after.recast w l) = mapNext (State.recast w l) (s.absorbStep after) := by
  have hcond : (s.recast w l).absorbStep (after.recast w l) =
      if s.jobLen.toNat > s.msgMax then .fault .messageOutOfRange
      else if s.absorbDone then .next (after.recast w l) else .next (s.absorbUnit.recast w l) := rfl
  rw [hcond, State.absorbStep, apply_ite (mapNext _), apply_ite (mapNext _)]
  rfl

theorem SameGates.slowSetup (h : SameGates v w) : (s.recast w l).slowSetup w = (s.slowSetup v).recast w l := by
  have htweak (x y : W64) : (if w = 1 then x else y) = if v = 1 then x else y := if_congr h.tweak rfl rfl
  unfold State.slowSetup State.setup
  simp only [h.shuffle, h.integer, h.random, htweak]
  split <;> rfl

theorem State.rmGenUnit_recast : (s.recast w l).rmGenUnit = s.rmGenUnit.recast w l := by
  have hgen : (s.recast w l).gen = s.gen := rfl
  unfold State.rmGenUnit
  rw [hgen]
  split <;> rfl

theorem SameGates.shuffleAt (h : SameGates v w) (j : BitVec 21) :
    (s.recast w l).shuffleAt w j = (s.shuffleAt v j).recast w l := by
  unfold State.shuffleAt
  rw [h.shuffle, h.random]
  split <;> rfl

theorem SameGates.half1Store (h : SameGates v w) : (s.recast w l).half1Store w = (s.half1Store v).recast w l := by
  have htweak (x y : Block) : (if w = 1 then x else y) = if v = 1 then x else y := if_congr h.tweak rfl rfl
  unfold State.half1Store
  simp only [htweak]
  rfl

theorem SameGates.half2Math (h : SameGates v w) : (s.recast w l).half2Math w = (s.half2Math v).recast w l := by
  unfold State.half2Math
  rw [h.random, h.integer]
  split
  · rfl
  · split <;> rfl

theorem SameGates.half2Fold (h : SameGates v w) : (s.recast w l).half2Fold w = (s.half2Fold v).recast w l := by
  unfold State.half2Fold
  rw [h.integer]
  split <;> rfl

theorem SameGates.half2Store (h : SameGates v w) : (s.recast w l).half2Store w = (s.half2Store v).recast w l := by
  have htweak (x y : Block) : (if w = 1 then x else y) = if v = 1 then x else y := if_congr h.tweak rfl rfl
  unfold State.half2Store
  simp only [htweak]
  rfl

theorem SameGates.mixUnit (h : SameGates v w) : (s.recast w l).mixUnit w = (s.mixUnit v).recast w l := by
  have hstep : (s.recast w l).mixStep = s.mixStep := rfl
  unfold State.mixUnit
  rw [hstep]
  cases s.mixStep with
  | half1Aes => exact (apply_ite (State.recast w l) (s.i < iterations) s.half1Aes s.enterFinalFill).symm
  | half1Shuffle => exact congrArg (fun t : State => { t with mixStep := .half1Store }) (h.shuffleAt s.j1)
  | half1Store => exact h.half1Store
  | half2Math => exact h.half2Math
  | half2Fold => exact h.half2Fold
  | half2Shuffle => exact congrArg (fun t : State => { t with mixStep := .half2Store }) (h.shuffleAt s.j2)
  | half2Store => exact h.half2Store
  | half2Load | rmRun | rmFold | half2Mul | iterEnd => rfl

/-! ## The jobs -/

theorem SameGates.execSlowHash (h : SameGates v w) :
    execSlowHash w p (s.recast w l) = mapNext (State.recast w l) (execSlowHash v p s) := by
  have hphase : (s.recast w l).phase = s.phase := rfl
  unfold Machine.execSlowHash
  rw [hphase]
  cases s.phase
  case check => exact congrArg _ h.slowCheck
  case absorb => exact State.absorbStep_recast (s.enterPhase .setup)
  case setup => exact congrArg _ h.slowSetup
  case rmGen => exact congrArg _ State.rmGenUnit_recast
  case fill => exact congrArg _ (apply_ite (State.recast w l) (s.g < groups) s.fillUnit s.enterMix).symm
  case mix => exact congrArg _ h.mixUnit
  case finalFill =>
    exact congrArg _ (apply_ite (State.recast w l) (s.g < groups) s.finalFillUnit (s.enterPhase .permute)).symm
  case permute | extra | idle | done | error => rfl

theorem execFastHash_recast : execFastHash (s.recast w l) = mapNext (State.recast w l) (execFastHash s) := by
  have hphase : (s.recast w l).phase = s.phase := rfl
  unfold execFastHash
  rw [hphase]
  cases s.phase
  case check => exact congrArg _ State.fastCheck_recast
  case absorb => exact State.absorbStep_recast (s.finishOkDigest (first32 s.hashState))
  all_goals rfl

theorem execKeccakPermute_recast :
    execKeccakPermute (s.recast w l) = mapNext (State.recast w l) (execKeccakPermute s) := by
  have hphase : (s.recast w l).phase = s.phase := rfl
  unfold execKeccakPermute
  rw [hphase]
  cases s.phase <;> rfl

theorem State.execAlu_recast (f : W32 → W32 → W32) (d : BitVec 2) (src : BitVec 4) :
    (s.recast w l).execAlu f d src = (s.execAlu f d src).recast w l := by
  have hsrc : (s.recast w l).readSrc src = s.readSrc src := rfl
  unfold State.execAlu
  rw [hsrc]
  split <;> rfl

/-! ## Variants 2 and 3 -/

/-- The state with VARIANT = 3 latched. -/
def State.asVariantThree (s : State) : State := { s with jobVariant := 3 }

theorem State.asVariantThree_eq_recast (hin : s.inputs = []) : s.asVariantThree = s.recast 3 [] := by
  rw [← hin]
  rfl

theorem PlainSlowJob.step_asVariantThree {t : State} (hs : PlainSlowJob 2 s) (hstep : step s = .next t) :
    step s.asVariantThree = .next t.asVariantThree := by
  have ht : PlainSlowJob 2 t := hs.of_step (by decide) hstep
  have hs' : PlainSlowJob 3 s.asVariantThree := ⟨⟨hs.command.1, hs.command.2.1, rfl⟩, hs.place⟩
  cases hb : s.busy with
  | false =>
    cases (step_of_not_busy hs.command.1 hb).symm.trans hstep
    exact step_of_not_busy hs'.command.1 hb
  | true =>
    rw [hs.step_of_busy hb] at hstep
    calc step s.asVariantThree
      _ = execSlowHash 3 s.jobPrehashed s.asVariantThree := hs'.step_of_busy hb
      _ = execSlowHash 3 s.jobPrehashed (s.recast 3 []) := by rw [State.asVariantThree_eq_recast hs.command.1]
      _ = .next (t.recast 3 []) := by rw [sameGates_two_three.execSlowHash, hstep, mapNext]
      _ = .next t.asVariantThree := by rw [State.asVariantThree_eq_recast ht.command.1]

end

/-- Settles O56: a VARIANT = 2 job stays in the places of the plain variants, where each step of it is the step of the
VARIANT = 3 job. -/
theorem variantThreeIsVariantTwo : Obligations.VariantThreeIsVariantTwo := by
  unfold Obligations.VariantThreeIsVariantTwo
  intro s t n ⟨hin, _⟩ hp ho hv hrun
  have hs : PlainSlowJob 2 s := .of_check ⟨hin, ho, hv⟩ hp
  exact runs_map (P := PlainSlowJob 2) (f := State.asVariantThree) (fun _ _ hs hstep => hs.of_step (by decide) hstep)
    (fun _ _ hs hstep => hs.step_asVariantThree hstep) hs hrun

/-! ## Other events pending -/

/-- What a step makes of its action. -/
def Action.take : Action → Host.Outcome State Fault Refusal
  | .run i s => exec i s
  | .go s => .next s
  | .stop r => .fault r

theorem step_eq_take (s : State) : step s = s.nextAction.take := by
  unfold step
  cases s.nextAction <;> rfl

theorem take_fetchProg_recast (s : State) (l : List Input) :
    (s.recast s.jobVariant l).fetchProg.take = mapNext (State.recast s.jobVariant l) s.fetchProg.take := by
  have hrpc : (s.recast s.jobVariant l).rpc = s.rpc ∧ (s.recast s.jobVariant l).prog = s.prog := ⟨rfl, rfl⟩
  unfold State.fetchProg
  simp only [hrpc.1, hrpc.2]
  split
  case isFalse => rfl
  case isTrue h =>
    cases hw : decode (.prog s.prog[s.rpc.toNat]) with
    | error e => rfl
    | ok i =>
      rcases decodeProg_ok hw with rfl | halu
      · rfl
      · obtain ⟨f, d, src, -, hexec⟩ := exec_of_isAlu halu
        simp only [Action.take, hexec, State.execAlu_recast, mapNext]

theorem take_fetchJob_recast (s : State) (l : List Input) :
    (s.recast s.jobVariant l).fetchJob.take = mapNext (State.recast s.jobVariant l) s.fetchJob.take := by
  have hop : (s.recast s.jobVariant l).jobOp = s.jobOp := rfl
  rw [State.fetchJob_eq, State.fetchJob_eq, hop]
  rcases jobOp_cases s.jobOp with h | h | h | h <;> rw [h]
  · exact (SameGates.refl s.jobVariant).execSlowHash
  · exact execFastHash_recast
  · exact execKeccakPermute_recast
  · rfl

theorem take_coreAction_recast (s : State) (l : List Input) :
    (s.recast s.jobVariant l).coreAction.take = mapNext (State.recast s.jobVariant l) s.coreAction.take := by
  have hflags : (s.recast s.jobVariant l).busy = s.busy ∧ (s.recast s.jobVariant l).running = s.running := ⟨rfl, rfl⟩
  unfold State.coreAction
  rw [hflags.1, hflags.2]
  split
  · split
    · exact take_fetchProg_recast s l
    · exact take_fetchJob_recast s l
  · rfl

/-- The move of the core does not read the events and leaves them pending. That it leaves VARIANT latched is the case of
the same events. -/
theorem take_coreAction_withInputs (s : State) (l : List Input) :
    (s.withInputs l).coreAction.take = mapNext (State.withInputs l) s.coreAction.take := by
  have hsame := take_coreAction_recast s s.inputs
  have hother : (s.withInputs l).coreAction.take = _ := take_coreAction_recast s l
  rw [hother]
  cases h : s.coreAction.take with
  | next t =>
    have ht : t = t.recast s.jobVariant s.inputs := Host.Outcome.next.inj (h.symm.trans (hsame.trans (by rw [h]; rfl)))
    rw [ht]
    rfl
  | fault r => rfl
  | refused r => rfl

theorem step_of_core_event {s t : State} {rest : List Input} (hin : s.inputs = .core :: rest)
    (h : step { s with inputs := [] } = .next t) : step s = .next { t with inputs := rest } := by
  have hfirst : (s.withInputs []).coreAction.take = .next t := by
    rw [← h, step_eq_take, State.nextAction_of_no_input rfl]
    rfl
  calc step s
    _ = ((s.withInputs []).withInputs rest).coreAction.take := by
      rw [step_eq_take, State.nextAction, hin]
      rfl
    _ = .next (t.withInputs rest) := by rw [take_coreAction_withInputs, hfirst, mapNext]

end Sys2Proof.Machine
end

section
/-! PROOFS. What one step of the machine does: the instruction it fetches, outside events, reset, and reads and writes of
the register block (spec/20_memory.md, spec/30_encoding.md R90 to R99, spec/70_reset_and_hazards.md R420). -/

namespace Sys2Proof.Machine

/-! ## The fetch -/

theorem step_of_progWord {s : State} (hc : CoreMoves s) (hr : RunsProgram s) (h : s.rpc.toNat < 71) {i : Instr}
    (hi : decode (.prog s.prog[s.rpc.toNat]) = .ok i) : step s = exec i s := by
  have hi' : decodeProg s.prog[s.rpc.toNat] = .ok i := hi
  rw [step_of_runsProgram hc hr h, State.runWord, hi']

theorem step_of_reserved_progWord {s : State} (hc : CoreMoves s) (hr : RunsProgram s) (h : s.rpc.toNat < 71)
    {e : Reject} (he : decode (.prog s.prog[s.rpc.toNat]) = .error e) :
    step s = .next (s.raiseJobError .internalFault) := by
  have he' : decodeProg s.prog[s.rpc.toNat] = .error e := he
  rw [step_of_runsProgram hc hr h, State.runWord, he']

/-- A pending CTRL write with a command bit (R91). -/
theorem step_of_command_write {s : State} {v : W32} {rest : List Input} (hin : s.inputs = .write 0 4 v :: rest)
    {i : Instr} (hi : decode (.ctrl v) = .ok i) : step s = exec i { s with inputs := rest } := by
  simp only [step, State.nextAction, hin, State.inputAction, hostCommand, and_self, if_true, hi]

/-- A pending CTRL write without one (R351). -/
theorem step_of_ie_only_write {s : State} {v : W32} {rest : List Input} (hin : s.inputs = .write 0 4 v :: rest)
    {e : Reject} (he : decode (.ctrl v) = .error e) : step s = .next { s with inputs := rest, ie := v.getLsbD 1 } := by
  simp only [step, State.nextAction, hin, State.inputAction, hostCommand, and_self, if_true, he]
  rfl

/-- Settles O7, one lemma for each place an instruction is fetched from. -/
theorem stepRunsDecodedInstruction : Obligations.StepRunsDecodedInstruction := by
  unfold Obligations.StepRunsDecodedInstruction
  exact ⟨fun s h hc hr => ⟨fun i => step_of_progWord hc hr h, fun e => step_of_reserved_progWord hc hr h⟩,
    fun s hc hr => ⟨step_of_slowHash hc hr, step_of_fastHash hc hr, step_of_keccakPermute hc hr,
      step_of_badCommand hc hr⟩,
    fun s v rest hin => ⟨fun i => step_of_command_write hin, fun e => step_of_ie_only_write hin⟩⟩

/-- Settles O8. -/
theorem stepTakesOutsideEvents : Obligations.StepTakesOutsideEvents := by
  unfold Obligations.StepTakesOutsideEvents
  refine ⟨fun _ _ _ _ => step_of_read, fun _ _ _ => step_of_core_event, fun s g rest hin => ?_, fun _ => step_of_not_busy⟩
  simp only [step, State.nextAction, hin, State.inputAction]

/-! ## The fetch helper -/

/-- A pending `core` event: the core moves. -/
theorem step_of_core_input {s : State} {rest : List Input} (hin : s.inputs = .core :: rest) :
    step s = (s.withInputs rest).coreAction.take := by
  rw [step_eq_take, State.nextAction, hin]
  rfl

theorem step_withProgWord {s : State} {w : ProgWord} {i : Instr} (h : decodeProg w = .ok i) :
    step (s.withProgWord w) = exec i { s.withProgWord w with inputs := s.inputs } := by
  have hfetch : ((s.withProgWord w).withInputs s.inputs).coreAction =
      .run i { s.withProgWord w with inputs := s.inputs } := by
    simp [State.withInputs, State.withProgWord, State.coreAction, State.running, State.fetchProg, decode, h]
  rw [step_of_core_input rfl, hfetch]
  rfl

theorem step_withCmdWord {s : State} {w : W32} {i : Instr} (h : decodeCmd w = .ok i) :
    step (s.withCmdWord w) = exec i { s.withCmdWord w with inputs := s.inputs } := by
  have hlatched : decode (.cmd (cmdOf (cmdOp w) (cmdVariant w) (cmdPrehashed w))) = .ok i := by
    rw [← h]
    simp only [decode, decodeCmd, cmdOp_cmdOf, cmdVariant_cmdOf, cmdPrehashed_cmdOf]
  have hfetch : ((s.withCmdWord w).withInputs s.inputs).coreAction =
      .run i { s.withCmdWord w with inputs := s.inputs } := by
    simp [State.withInputs, State.withCmdWord, State.coreAction, State.running, State.fetchJob, State.latchedCmd,
      hlatched]
  rw [step_of_core_input rfl, hfetch]
  rfl

theorem step_withCtrlWord {s : State} {w : W32} {i : Instr} (h : decodeCtrl w = .ok i) :
    step (s.withCtrlWord w) = exec i { s.withCtrlWord w with inputs := s.inputs } :=
  step_of_command_write rfl h

/-- Settles O9, one lemma for each place of a word. -/
theorem tableWordRunsNext : Obligations.TableWordRunsNext := by
  unfold Obligations.TableWordRunsNext
  intro s nbits w i h
  unfold decodeTableWord at h
  unfold State.withFetchWord
  split at h
  case h_1 => cases h
  case h_2 e he =>
    rw [he]
    split at h
    case h_2 => cases h
    case h_1 i' hi =>
      cases h
      cases e with
      | prog w => exact step_withProgWord hi
      | cmd w => exact step_withCmdWord hi
      | ctrl w => exact step_withCtrlWord hi

/-! ## RET and reserved sources -/

/-- Settles O13: RET by its definition, and a source that names no register reads nothing. -/
theorem retAndReservedSourceEndRun : Obligations.RetAndReservedSourceEndRun := by
  unfold Obligations.RetAndReservedSourceEndRun
  refine ⟨fun s => rfl, fun s d src c i hsrc hi => ?_⟩
  have hsrc' : srcOk src = false := decide_eq_false (Nat.not_lt.mpr hsrc)
  have halu (f : W32 → W32 → W32) : s.execAlu f d src = s.raiseJobError .internalFault := State.execAlu_of_ge hsrc
  simp only [List.mem_cons, List.not_mem_nil, or_false] at hi
  rcases hi with rfl | rfl | rfl | rfl | rfl | rfl <;> exact ⟨hsrc', congrArg Host.Outcome.next (halu _)⟩

/-! ## Reset -/

/-- Settles O28: the reset event gives the registers of `State.reset`. -/
theorem resetClearsRegisters : Obligations.ResetClearsRegisters := by
  unfold Obligations.ResetClearsRegisters
  intro t h
  have hfields : ∃ u : State, t = u.resetCore := by
    rcases h with rfl | ⟨s, rest, hin, hstep⟩
    · exact ⟨State.reset, rfl⟩
    · simp only [step, State.nextAction, hin, State.inputAction] at hstep
      cases hstep
      exact ⟨_, rfl⟩
  obtain ⟨u, rfl⟩ := hfields
  have hstatus : u.resetCore.hostRead 0x20 4 = State.reset.statusWord := rfl
  rw [hstatus]
  refine ⟨rfl, rfl, rfl, rfl, rfl, rfl, rfl, rfl, rfl, rfl, by decide, rfl, rfl, rfl, rfl, rfl, rfl⟩

/-- Settles O58. -/
theorem resetMeetsInvariant : Obligations.ResetMeetsInvariant := by
  unfold Obligations.ResetMeetsInvariant
  refine ⟨⟨rfl, rfl, rfl, by decide⟩, ⟨rfl, rfl, rfl, rfl, rfl, rfl⟩, rfl, rfl, rfl⟩

/-! ## The register block -/

theorem toNat_ctrlWord (s : State) : s.ctrlWord.toNat = s.ie.toNat * 2 := by
  cases h : s.ie <;> simp [State.ctrlWord, h]

theorem toNat_statusWord (s : State) : s.statusWord.toNat =
    s.phase.code.toNat * 2 ^ 8 + s.errcode.code.toNat * 2 ^ 4 + s.err.toNat * 4 + s.done.toNat * 2 + s.busy.toNat := by
  have hzero : (0#20).toNat = 0 ∧ (0#1).toNat = 0 := ⟨rfl, rfl⟩
  simp only [State.statusWord, toNat_append_eq_add, BitVec.toNat_ofBool, hzero]
  ring

/-- A register write is a plain write, except of CTRL. -/
theorem step_of_register_write {s : State} {off : BitVec 16} {v : W32} {rest : List Input} (hoff : off ≠ 0)
    (halign : off.toNat % 4 = 0) (hblock : off.toNat < 0x100) (hin : s.inputs = .write off 4 v :: rest) :
    step s = .next (State.writeRegister off.toNat v { s with inputs := rest }) := by
  have hlegal : accessLegal off 4 = true := by simp [accessLegal, halign]
  rw [step_of_plain_write (fun h => hoff h.1) hin, State.hostWrite, if_pos hlegal, if_pos hblock]

/-- Settles O25: each register by its arm of the read and of the write. -/
theorem registerBlockReadsAndWrites : Obligations.RegisterBlockReadsAndWrites := by
  unfold Obligations.RegisterBlockReadsAndWrites
  refine ⟨fun s => ⟨toNat_ctrlWord s, rfl, rfl, rfl, rfl, toNat_statusWord s, rfl⟩, fun s v rest hb => ?_⟩
  have hb' : ¬ s.busy = true := ne_true_of_eq_false hb
  have hwrite {off : BitVec 16} := step_of_register_write (s := s) (off := off) (v := v) (rest := rest)
  refine ⟨fun hin => ?_, fun hin => ?_, fun hin => ?_, fun hin => ?_, fun hin => ?_, fun hin => ?_⟩
  · exact (hwrite (by decide) rfl (by decide) hin).trans (congrArg _ (if_neg hb'))
  · exact (hwrite (by decide) rfl (by decide) hin).trans (congrArg _ (if_neg hb'))
  · exact (hwrite (by decide) rfl (by decide) hin).trans (congrArg _ (if_neg hb'))
  · exact (hwrite (by decide) rfl (by decide) hin).trans (congrArg _ (if_neg hb'))
  · exact hwrite (by decide) rfl (by decide) hin
  · exact hwrite (by decide) rfl (by decide) hin

end Sys2Proof.Machine
end

section
/-! PROOFS. A run of the random-math machine (spec/45_random_math.md R271, R287): a program is operations up to a RET, and
the machine runs through it as `runProg` does. What stands around the run (R291 to R293). -/

namespace Sys2Proof.Machine

/-! ## Operations -/

theorem State.execAlu_eq_aluFile {f : W32 → W32 → W32} {d : BitVec 2} {src : BitVec 4} (s : State)
    (hsrc : src.toNat < 9) : s.execAlu f d src = { s with r := aluFile f d src s.r, rpc := s.rpc + 1 } := by
  rw [State.execAlu_of_lt hsrc, aluFile, srcValue, dif_pos hsrc]
  rfl

/-- An operation on registers is its function on the file (R272 to R277). -/
theorem exec_of_isAlu_eq {i : Instr} (h : isAlu i = true) (s : State) :
    exec i s = .next { s with r := aluStep i s.r, rpc := s.rpc + 1 } := by
  cases i with
  | mul d src | add d src c | sub d src | ror d src | rol d src | xor d src =>
    exact congrArg Host.Outcome.next (s.execAlu_eq_aluFile (of_decide_eq_true h))
  | ret | slowHash | fastHash | keccakPermute | start | clr => cases h

/-! ## Programs -/

/-- From entry `pc` there are `m` operations and then a RET. -/
inductive EndsAfter (prog : Vector ProgWord 71) : Nat → Nat → Prop
  | ret {pc : Nat} (h : pc < 71) (hw : decodeProg prog[pc] = .ok .ret) : EndsAfter prog pc 0
  | op {pc m : Nat} (h : pc < 71) {i : Instr} (hw : decodeProg prog[pc] = .ok i) (hi : isAlu i = true)
      (hrest : EndsAfter prog (pc + 1) m) : EndsAfter prog pc (m + 1)

section
variable {prog : Vector ProgWord 71} {r r' : Vector W32 9} {fuel pc m : Nat}

theorem runProg_of_ret (h : pc < 71) (hw : decodeProg prog[pc] = .ok .ret) :
    runProg prog (fuel + 1) pc r = some r := by
  simp only [runProg, h, dif_pos, hw]

theorem runProg_of_isAlu (h : pc < 71) {i : Instr} (hw : decodeProg prog[pc] = .ok i) (hi : isAlu i = true) :
    runProg prog (fuel + 1) pc r = runProg prog fuel (pc + 1) (aluStep i r) := by
  rw [runProg, dif_pos h, hw]
  cases i with
  | ret => cases hi
  | _ => rfl

theorem EndsAfter.lt (h : EndsAfter prog pc m) : pc + m < 71 := by
  induction h with
  | ret h _ => exact h
  | op _ _ _ _ ih => omega

/-- A run that gives registers went through operations to a RET. -/
theorem endsAfter_of_runProg : ∀ {fuel pc : Nat} {r : Vector W32 9}, runProg prog fuel pc r = some r' →
    ∃ m, m < fuel ∧ EndsAfter prog pc m
  | 0, _, _, h => nomatch h
  | fuel + 1, pc, r, h => by
    by_cases hpc : pc < 71
    · cases hw : decodeProg prog[pc] with
      | error e => simp [runProg, hpc, hw] at h
      | ok i =>
        rcases decodeProg_ok hw with rfl | halu
        · exact ⟨0, fuel.succ_pos, .ret hpc hw⟩
        · rw [runProg_of_isAlu hpc hw halu] at h
          obtain ⟨m, hm, hends⟩ := endsAfter_of_runProg h
          exact ⟨m + 1, Nat.succ_lt_succ hm, .op hpc hw halu hends⟩
    · simp [runProg, hpc] at h

/-- A generated program from any of its entries (R311). -/
theorem endsAfter_of_programInv {s : State} (h : ProgramInv s) :
    ∀ {m pc : Nat}, pc + m = s.plen.toNat → EndsAfter s.prog pc m
  | 0, pc, hpc => by
    obtain ⟨-, hle, hwords⟩ := h
    have hlt : pc < 71 := by omega
    exact .ret hlt ((hwords ⟨pc, hlt⟩).2 hpc)
  | m + 1, pc, hpc => by
    have hlt : pc < 71 := by have := h.2.1; omega
    obtain ⟨i, hw, hi⟩ := (h.2.2 ⟨pc, hlt⟩).1 (by show pc < _; omega)
    exact .op hlt hw hi (endsAfter_of_programInv h (by omega))

end

/-- The machine runs through a program to the state after its RET, with the registers of the sequential run. -/
theorem EndsAfter.runs {prog : Vector ProgWord 71} {pc m : Nat} (h : EndsAfter prog pc m) :
    ∀ {s : State} {fuel : Nat}, CoreMoves s → RunsProgram s → s.prog = prog → s.rpc.toNat = pc → m < fuel →
      ∃ r', runProg prog fuel pc s.r = some r' ∧
        runs (m + 1) s = .next { s with r := r', rpc := BitVec.ofNat 7 (pc + m), mixStep := .rmFold } := by
  induction h with
  | ret hlt hw =>
    rintro s (_ | fuel) hc hr rfl rfl hfuel
    · cases hfuel
    · have hrpc : BitVec.ofNat 7 (s.rpc.toNat + 0) = s.rpc := by
        rw [Nat.add_zero, BitVec.ofNat_toNat, BitVec.setWidth_eq]
      refine ⟨s.r, runProg_of_ret hlt hw, ?_⟩
      rw [hrpc]
      exact run_succ_of_step (M := core) (step_of_progWord hc hr hlt hw) 0
  | @op pc m hlt i hw hi hrest ih =>
    rintro s (_ | fuel) hc hr rfl rfl hfuel
    · cases hfuel
    · have hstep := (step_of_progWord hc hr hlt hw).trans (exec_of_isAlu_eq hi s)
      have hnext : (s.rpc + 1).toNat = s.rpc.toNat + 1 := by
        rw [BitVec.toNat_add]
        exact Nat.mod_eq_of_lt (by show s.rpc.toNat + 1 < 128; omega)
      obtain ⟨r', hrun, hruns⟩ := ih (s := { s with r := aluStep i s.r, rpc := s.rpc + 1 }) hc hr rfl hnext
        (Nat.lt_of_succ_lt_succ hfuel)
      refine ⟨r', (runProg_of_isAlu hlt hw hi).trans hrun, ?_⟩
      have hidx : s.rpc.toNat + (m + 1) = s.rpc.toNat + 1 + m := by omega
      rw [hidx]
      exact (run_succ_of_step (M := core) hstep _).trans hruns

/-- Settles O14: a generated program is operations up to the RET at PLEN. -/
theorem programRunIsSequential : Obligations.ProgramRunIsSequential := by
  unfold Obligations.ProgramRunIsSequential
  intro s hc hr hrpc hprog
  have hlen : s.plen.toNat < 71 := by have := hprog.2.1; omega
  have hends : EndsAfter s.prog 0 s.plen.toNat := endsAfter_of_programInv hprog (Nat.zero_add _)
  obtain ⟨r', hrun, hruns⟩ := hends.runs hc hr rfl (by rw [hrpc]; rfl) hlen
  refine ⟨r', hrun, ?_⟩
  have hplen : BitVec.ofNat 7 (0 + s.plen.toNat) = s.plen := by
    rw [Nat.zero_add, BitVec.ofNat_toNat, BitVec.setWidth_eq]
  rw [hruns, hplen]

/-! ## Around the run -/

theorem toNat_mk64 (low high : W32) : (mk64 low high).toNat = low.toNat + high.toNat * 2 ^ 32 := by
  rw [mk64, toNat_append_eq_add, Nat.add_comm]

theorem half2Math_four (s : State) : s.half2Math 4 = { s.rmEnter with mixStep := .rmRun } := rfl

theorem regNat_rmSeed (s : State) : (∀ k, k < 4 → regNat s.rmEnter k = regNat s k) ∧
    regNat s.rmEnter 4 = (lo64 s.a).toNat % 2 ^ 32 ∧ regNat s.rmEnter 5 = (hi64 s.a).toNat % 2 ^ 32 ∧
    regNat s.rmEnter 6 = (lo64 s.b0).toNat % 2 ^ 32 ∧ regNat s.rmEnter 7 = (lo64 s.b1).toNat % 2 ^ 32 ∧
    regNat s.rmEnter 8 = (hi64 s.b1).toNat % 2 ^ 32 := by
  have hr : s.rmEnter.r = rmSeed s.r s.a s.b0 s.b1 := rfl
  simp only [regNat, hr, rmSeed, ← toNat_lo32]
  refine ⟨fun k hk => ?_, rfl, rfl, rfl, rfl, rfl⟩
  have hget : s.r.toArray.getD k 0 = s.r[k] := getD_toArray s.r k (by omega) 0
  have hcase : k = 0 ∨ k = 1 ∨ k = 2 ∨ k = 3 := by omega
  rw [hget]
  rcases hcase with rfl | rfl | rfl | rfl <;> rfl

/-- Settles O15: the XORs into t and a1 over numbers, and the seeds by `regNat_rmSeed`. -/
theorem randomMathSeedsAndFolds : Obligations.RandomMathSeedsAndFolds := by
  unfold Obligations.RandomMathSeedsAndFolds
  have hreg (s : State) : regNat s 0 = s.r[0].toNat ∧ regNat s 1 = s.r[1].toNat ∧ regNat s 2 = s.r[2].toNat ∧
      regNat s 3 = s.r[3].toNat := ⟨regNat_of_lt s (by decide), regNat_of_lt s (by decide), regNat_of_lt s (by decide),
    regNat_of_lt s (by decide)⟩
  refine ⟨fun s p hp hm => ?_, fun s v p hp hm => ?_⟩
  · have hexec : exec (.slowHash 4 p) s = .next { s.rmEnter with mixStep := .rmRun } := by
      simp only [exec, execSlowHash, hp, State.mixUnit, hm, half2Math_four]
    have ht : s.rmEnter.t = rmT s.t s.r := rfl
    obtain ⟨hlow, h4, h5, h6, h7, h8⟩ := regNat_rmSeed s
    refine ⟨_, hexec, ?_, ?_, hlow, h4, h5, h6, h7, h8, rfl⟩
    · simp only [ht, rmT, lo64_mkBlock, BitVec.toNat_xor, toNat_mk64, BitVec.toNat_add, hreg s]
    · simp only [ht, rmT, hi64_mkBlock]
  · have hexec : exec (.slowHash v p) s = .next s.rmFold := by
      simp only [exec, execSlowHash, hp, State.mixUnit, hm]
    have ha1 : s.rmFold.a1 = rmA1 s.a1 s.r := rfl
    refine ⟨_, hexec, ?_, ?_, rfl⟩
    · simp only [ha1, rmA1, lo64_mkBlock, BitVec.toNat_xor, toNat_mk64, hreg s]
    · simp only [ha1, rmA1, hi64_mkBlock, BitVec.toNat_xor, toNat_mk64, hreg s]

end Sys2Proof.Machine
end

section
/-! PROOFS. Addresses of the scratchpad (spec/43_mixing_loop.md R203, spec/44_variant_tweaks.md R247) and the steps of an
outer iteration over it: loads and stores (R204 to R207, R210 to R213), the shuffle-add (R245, R246), the second fold
(R252) and integer math (R250). -/

namespace Sys2Proof.Machine

/-! ## Addresses -/

theorem toNat_addrOf_eq_and (x : Block) : (addrOf x).toNat = (lo64 x).toNat &&& 0x1FFFF0 := by
  have hlow : ((lo64 x).extractLsb' 0 21).toNat = (lo64 x).toNat &&& (2 ^ 21 - 1) := by
    rw [BitVec.extractLsb'_toNat, Nat.shiftRight_zero, Nat.and_two_pow_sub_one_eq_mod]
  unfold addrOf
  rw [BitVec.toNat_and, hlow, Nat.and_assoc]
  rfl

/-- R203 by bits 20:4. -/
theorem toNat_addrOf (x : Block) : (addrOf x).toNat = 16 * ((lo64 x).toNat / 16 % 2 ^ 17) := by
  have hdiv : (addrOf x).toNat / 2 ^ 4 = (lo64 x).toNat / 2 ^ 4 % 2 ^ 17 := by
    rw [toNat_addrOf_eq_and, Nat.and_div_two_pow, ← Nat.and_two_pow_sub_one_eq_mod]
  have hmod := addrOf_mod x
  omega

/-- XOR with a multiple of 16 below 64 picks another block of the same 64-byte line (R247). -/
theorem toNat_xor_chunk (j : BitVec 21) {k : Nat} (hk : k < 4) : (j ^^^ BitVec.ofNat 21 (16 * k)).toNat =
    64 * (j.toNat / 64) + 16 * (j.toNat / 16 % 4 ^^^ k) + j.toNat % 16 := by
  have hxor : (j ^^^ BitVec.ofNat 21 (16 * k)).toNat = j.toNat ^^^ 16 * k := by
    rw [BitVec.toNat_xor, BitVec.toNat_ofNat, Nat.mod_eq_of_lt (by omega)]
  have hline : (j.toNat ^^^ 16 * k) / 2 ^ 6 = j.toNat / 2 ^ 6 := by
    rw [Nat.xor_div_two_pow, Nat.div_eq_of_lt (a := 16 * k) (by omega), Nat.xor_zero]
  have hbyte : (j.toNat ^^^ 16 * k) % 2 ^ 4 = j.toNat % 2 ^ 4 := by
    rw [Nat.xor_mod_two_pow, Nat.mul_mod_right, Nat.xor_zero]
  have hblock : (j.toNat ^^^ 16 * k) / 2 ^ 4 % 2 ^ 2 = j.toNat / 16 % 4 ^^^ k := by
    rw [Nat.xor_div_two_pow, Nat.xor_mod_two_pow, Nat.mul_div_cancel_left k (by decide), Nat.mod_eq_of_lt hk]
  rw [hxor]
  omega

theorem xor_chunk_ne (q : Nat) {k k' : Nat} (h : k ≠ k') : q ^^^ k ≠ q ^^^ k' := fun e => h (Nat.xor_right_injective e)

/-- Two chunks of a line do not overlap. -/
theorem chunk_disjoint (j : BitVec 21) {k k' : Nat} (hk : k < 4) (hk' : k' < 4) (h : k ≠ k') :
    (j ^^^ BitVec.ofNat 21 (16 * k)).toNat + 16 ≤ (j ^^^ BitVec.ofNat 21 (16 * k')).toNat ∨
      (j ^^^ BitVec.ofNat 21 (16 * k')).toNat + 16 ≤ (j ^^^ BitVec.ofNat 21 (16 * k)).toNat := by
  have hne := xor_chunk_ne (j.toNat / 16 % 4) h
  rw [toNat_xor_chunk j hk, toNat_xor_chunk j hk']
  omega

/-- Settles O43: the address is bits 20:4 of the half, and a chunk differs from it in bits 5:4. -/
theorem scratchpadAddressesInBounds : Obligations.ScratchpadAddressesInBounds := by
  unfold Obligations.ScratchpadAddressesInBounds
  intro x j
  have hmod : j.toNat % 16 = 0 := addrOf_mod x
  have hlt : j.toNat < 2 ^ 21 := j.isLt
  refine ⟨toNat_addrOf x, toNat_addrOf_eq_and x, block_in_bounds j hmod, fun k k' => ?_⟩
  intro chunk
  have hk : chunk k = 64 * (j.toNat / 64) + 16 * (j.toNat / 16 % 4 ^^^ k.val) + j.toNat % 16 := toNat_xor_chunk j k.isLt
  have hxor : j.toNat / 16 % 4 ^^^ k.val < 2 ^ 2 := Nat.xor_lt_two_pow (Nat.mod_lt _ (by decide)) k.isLt
  refine ⟨by omega, by omega, by omega, fun h heq => ?_⟩
  have hdisjoint : chunk k + 16 ≤ chunk k' ∨ chunk k' + 16 ≤ chunk k :=
    chunk_disjoint j k.isLt k'.isLt (Fin.val_ne_of_ne h)
  omega

/-! ## Loads, stores and the end of an iteration -/

section
variable {s : State} {v : BitVec 3} {p : Bool}

/-- A step of phase MIX outside the program is one rule of the iteration. -/
theorem exec_of_mix (hp : s.phase = .mix) : exec (.slowHash v p) s = .next (s.mixUnit v) := by
  simp only [exec, execSlowHash, hp]

theorem toNat_hi_lo_product (c t : Block) : (hi64 (product c t)).toNat * 2 ^ 64 + (lo64 (product c t)).toNat =
    (lo64 c).toNat * (lo64 t).toNat := by
  have hlt : (lo64 c).toNat * (lo64 t).toNat < 2 ^ 64 * 2 ^ 64 := Nat.mul_lt_mul'' (lo64 c).isLt (lo64 t).isLt
  have hproduct : (product c t).toNat = (lo64 c).toNat * (lo64 t).toNat := by
    unfold product
    rw [BitVec.toNat_mul, BitVec.toNat_setWidth_of_le (by decide), BitVec.toNat_setWidth_of_le (by decide)]
    exact Nat.mod_eq_of_lt hlt
  rw [← hproduct, ← toNat_append_eq_add]
  exact congrArg BitVec.toNat (mkBlock_lo64_hi64 (product c t))

/-- Settles O44. -/
theorem mixLoadsAndProduct : Obligations.MixLoadsAndProduct := by
  unfold Obligations.MixLoadsAndProduct
  intro s v p hp
  refine ⟨fun hm hi => ?_, fun hm => ?_, fun hm => ?_⟩
  · have hunit : s.mixUnit v = s.half1Aes := by
      simp only [State.mixUnit, hm]
      exact if_pos hi
    exact ⟨_, (exec_of_mix hp).trans (congrArg _ hunit), toNat_addrOf s.a, rfl, rfl⟩
  · have hunit : s.mixUnit v = s.half2Load := by simp only [State.mixUnit, hm]
    exact ⟨_, (exec_of_mix hp).trans (congrArg _ hunit), toNat_addrOf s.c, rfl, rfl⟩
  · have hunit : s.mixUnit v = s.half2Mul := by simp only [State.mixUnit, hm]
    exact ⟨_, (exec_of_mix hp).trans (congrArg _ hunit), toNat_hi_lo_product s.c s.t, rfl⟩

theorem lo64_accumulate (a1 : Block) (hi lo : W64) : lo64 (accumulate a1 hi lo) = lo64 a1 + hi := by
  unfold accumulate
  exact lo64_mkBlock _ _

theorem hi64_accumulate (a1 : Block) (hi lo : W64) : hi64 (accumulate a1 hi lo) = hi64 a1 + lo := by
  unfold accumulate
  exact hi64_mkBlock _ _

theorem Memory.sameOutside_writeBlock {m : Memory} {a : Nat} {b : Block} (h : m.wf = true) :
    SameOutside a 16 m (m.writeBlock a b) := fun _ => Memory.read_writeBlock_other h

/-- Settles O45: a store writes one block, which reads back, and the tweak of variant 1 is in the stored copy alone. -/
theorem mixStores : Obligations.MixStores := by
  unfold Obligations.MixStores
  intro s v p hp hwf
  have hexec := exec_of_mix (v := v) (p := p) hp
  refine ⟨fun hm => ?_, fun hm => ?_, fun hm => ?_⟩
  · have hunit : s.mixUnit v = s.half1Store v := by simp only [State.mixUnit, hm]
    exact ⟨_, hexec.trans (congrArg _ hunit), Memory.readBlock_writeBlock hwf, Memory.sameOutside_writeBlock hwf, rfl⟩
  · have hunit : s.mixUnit v = s.half2Store v := by simp only [State.mixUnit, hm]
    have hnewa : (s.half2Store v).newa = accumulate s.a1 s.hi s.lo ^^^ s.t := rfl
    have hread : (s.half2Store v).sp.readBlock s.j2.toNat =
        if v = 1 then tweakHalf2 s.tweak12 (accumulate s.a1 s.hi s.lo) else accumulate s.a1 s.hi s.lo :=
      Memory.readBlock_writeBlock hwf
    refine ⟨_, hexec.trans (congrArg _ hunit), ?_, ?_, ?_, ?_, Memory.sameOutside_writeBlock hwf, rfl⟩
    · rw [hnewa, lo64_xor, lo64_accumulate]
    · rw [hnewa, hi64_xor, hi64_accumulate]
    · rw [hread, apply_ite lo64, tweakHalf2, lo64_mkBlock, lo64_accumulate, ite_self]
    · rw [hread, apply_ite hi64, tweakHalf2, hi64_mkBlock, hi64_accumulate]
  · have hunit : s.mixUnit v = s.iterEnd := by simp only [State.mixUnit, hm]
    exact hexec.trans (congrArg _ hunit)

/-! ## The shuffle-add -/

/-- Chunk k of the line of `j` (R245). -/
def chunkOf (m : Memory) (j : BitVec 21) (k : Nat) : Block := m.readBlock (j ^^^ BitVec.ofNat 21 (16 * k)).toNat

/-- The scratchpad with another chunk k. -/
def writeChunk (m : Memory) (j : BitVec 21) (k : Nat) (b : Block) : Memory :=
  m.writeBlock (j ^^^ BitVec.ofNat 21 (16 * k)).toNat b

section
variable {m : Memory} {j : BitVec 21} {b : Block}

theorem wf_writeChunk (h : m.wf = true) (k : Nat) : (writeChunk m j k b).wf = true := Memory.wf_writeBlock h

theorem chunkOf_writeChunk (h : m.wf = true) (k : Nat) : chunkOf (writeChunk m j k b) j k = b :=
  Memory.readBlock_writeBlock h

theorem chunkOf_writeChunk_of_ne (h : m.wf = true) {k k' : Nat} (hk : k < 4) (hk' : k' < 4) (hne : k ≠ k') :
    chunkOf (writeChunk m j k b) j k' = chunkOf m j k' :=
  Memory.readBlock_writeBlock_other h (chunk_disjoint j hk' hk hne.symm)

theorem read_writeChunk_other (h : m.wf = true) {k x : Nat}
    (hx : ∀ n, n < 16 → x ≠ (j ^^^ BitVec.ofNat 21 (16 * k)).toNat + n) : (writeChunk m j k b).read x = m.read x := by
  refine Memory.read_writeBlock_other h ?_
  by_contra hin
  exact hx (x - (j ^^^ BitVec.ofNat 21 (16 * k)).toNat) (by omega) (by omega)

end

theorem shuffle_sp_eq_writeChunk (fold : Bool) (m : Memory) (j : BitVec 21) (out x y0 y1 : Block) :
    (shuffle fold m j out x y0 y1).sp = writeChunk (writeChunk (writeChunk m j 1 (add2 (chunkOf m j 3) y1)) j 2
      (add2 (chunkOf m j 1) y0)) j 3 (add2 (chunkOf m j 2) x) :=
  shuffle_sp fold m j out x y0 y1

theorem shuffle_out (fold : Bool) (m : Memory) (j : BitVec 21) (out x y0 y1 : Block) :
    (shuffle fold m j out x y0 y1).out =
      if fold then out ^^^ chunkOf m j 1 ^^^ chunkOf m j 2 ^^^ chunkOf m j 3 else out := by
  simp only [shuffle]
  rfl

/-- The three chunks after the shuffle-add (R245). -/
theorem chunkOf_shuffle {m : Memory} (h : m.wf = true) (fold : Bool) (j : BitVec 21) (out x y0 y1 : Block) :
    chunkOf (shuffle fold m j out x y0 y1).sp j 1 = add2 (chunkOf m j 3) y1 ∧
      chunkOf (shuffle fold m j out x y0 y1).sp j 2 = add2 (chunkOf m j 1) y0 ∧
      chunkOf (shuffle fold m j out x y0 y1).sp j 3 = add2 (chunkOf m j 2) x := by
  rw [shuffle_sp_eq_writeChunk]
  refine ⟨?_, ?_, chunkOf_writeChunk (wf_writeChunk (wf_writeChunk h 1) 2) 3⟩
  · rw [chunkOf_writeChunk_of_ne (wf_writeChunk (wf_writeChunk h 1) 2) (by decide) (by decide) (by decide),
      chunkOf_writeChunk_of_ne (wf_writeChunk h 1) (by decide) (by decide) (by decide), chunkOf_writeChunk h 1]
  · rw [chunkOf_writeChunk_of_ne (wf_writeChunk (wf_writeChunk h 1) 2) (by decide) (by decide) (by decide),
      chunkOf_writeChunk (wf_writeChunk h 1) 2]

theorem read_shuffle_other {m : Memory} (h : m.wf = true) {fold : Bool} {j : BitVec 21} {out x y0 y1 : Block} {a : Nat}
    (ha : ∀ k : Fin 3, ∀ n, n < 16 → a ≠ (j ^^^ BitVec.ofNat 21 (16 * (k.val + 1))).toNat + n) :
    (shuffle fold m j out x y0 y1).sp.read a = m.read a := by
  rw [shuffle_sp_eq_writeChunk, read_writeChunk_other (k := 3) (wf_writeChunk (wf_writeChunk h 1) 2) (ha 2),
    read_writeChunk_other (k := 2) (wf_writeChunk h 1) (ha 1), read_writeChunk_other (k := 1) h (ha 0)]

theorem lo64_add2 (p q : Block) : lo64 (add2 p q) = lo64 p + lo64 q := lo64_mkBlock _ _

theorem hi64_add2 (p q : Block) : hi64 (add2 p q) = hi64 p + hi64 q := hi64_mkBlock _ _

theorem shuffleAt_of_lt (s : State) {v : BitVec 3} (j : BitVec 21) (hv : v.toNat < 2) : s.shuffleAt v j = s := by
  have hgate : shuffleGate v = false := decide_eq_false (by omega)
  rw [State.shuffleAt, hgate]
  rfl

theorem shuffleAt_of_ge (s : State) {v : BitVec 3} (j : BitVec 21) (hv : 2 ≤ v.toNat) : s.shuffleAt v j =
    { s with sp := (shuffle (decide (v = 4)) s.sp j s.c s.a s.b0 s.b1).sp
             c := (shuffle (decide (v = 4)) s.sp j s.c s.a s.b0 s.b1).out } := by
  have hgate : shuffleGate v = true := decide_eq_true hv
  rw [State.shuffleAt, hgate]
  rfl

/-- At both call sites the step is the shuffle-add at that site's address. -/
theorem mixUnit_of_shuffle {j : BitVec 21} {after : MixStep}
    (h : (s.mixStep = .half1Shuffle ∧ j = s.j1 ∧ after = .half1Store) ∨
      (s.mixStep = .half2Shuffle ∧ j = s.j2 ∧ after = .half2Store)) :
    s.mixUnit v = { s.shuffleAt v j with mixStep := after } := by
  rcases h with ⟨hm, rfl, rfl⟩ | ⟨hm, rfl, rfl⟩ <;> rw [State.mixUnit, hm] <;> rfl

/-- Settles O46: the three writes go to three chunks that do not overlap, from the chunks as they stood before. -/
theorem shuffleAddRotatesChunks : Obligations.ShuffleAddRotatesChunks := by
  unfold Obligations.ShuffleAddRotatesChunks
  intro s v p j after hp hwf hsite chunk
  have hexec : exec (.slowHash v p) s = .next { s.shuffleAt v j with mixStep := after } :=
    (exec_of_mix hp).trans (congrArg _ (mixUnit_of_shuffle hsite))
  refine ⟨_, hexec, by rw [shuffleAt_frame], fun hv => ?_, fun hv => ?_⟩
  · rw [shuffleAt_of_lt s j hv]
    exact ⟨rfl, rfl⟩
  · rw [shuffleAt_of_ge s j hv]
    obtain ⟨h1, h2, h3⟩ := chunkOf_shuffle hwf (decide (v = 4)) j s.c s.a s.b0 s.b1
    have hout := shuffle_out (decide (v = 4)) s.sp j s.c s.a s.b0 s.b1
    simp only [decide_eq_true_eq] at hout
    refine ⟨?_, ?_, ?_, ?_, ?_, ?_, hout, fun x hx => ?_⟩
    · exact (congrArg lo64 h1).trans (lo64_add2 _ _)
    · exact (congrArg hi64 h1).trans (hi64_add2 _ _)
    · exact (congrArg lo64 h2).trans (lo64_add2 _ _)
    · exact (congrArg hi64 h2).trans (hi64_add2 _ _)
    · exact (congrArg lo64 h3).trans (lo64_add2 _ _)
    · exact (congrArg hi64 h3).trans (hi64_add2 _ _)
    · exact read_shuffle_other hwf hx

/-! ## The second fold -/

theorem secondFold_hi_lo {m : Memory} (h : m.wf = true) (j : BitVec 21) (hi lo : W64) :
    (secondFold m j hi lo).hi = hi ^^^ lo64 (chunkOf m j 2) ∧ (secondFold m j hi lo).lo = lo ^^^ hi64 (chunkOf m j 2) := by
  have hother := chunkOf_writeChunk_of_ne (j := j) (k := 1) (k' := 2)
    (b := mkBlock (lo64 (chunkOf m j 1) ^^^ hi) (hi64 (chunkOf m j 1) ^^^ lo)) h (by decide) (by decide) (by decide)
  rw [← hother]
  simp only [secondFold]
  exact ⟨rfl, rfl⟩

/-- Settles O47: the one write goes to chunk 1, and chunk 2, which does not overlap it, is read after it. -/
theorem secondFoldEffect : Obligations.SecondFoldEffect := by
  unfold Obligations.SecondFoldEffect
  intro s v p hp hm hwf p1 d1 d2
  have hexec : exec (.slowHash v p) s = .next (s.half2Fold v) := by
    rw [exec_of_mix hp, State.mixUnit, hm]
  by_cases hv : v = 2 ∨ v = 3
  · have hgate : integerGate v = true := decide_eq_true hv
    have hunit : s.half2Fold v = { s with
        sp := (secondFold s.sp s.j2 s.hi s.lo).sp, hi := (secondFold s.sp s.j2 s.hi s.lo).hi
        lo := (secondFold s.sp s.j2 s.hi s.lo).lo, mixStep := .half2Shuffle } := by
      rw [State.half2Fold, hgate]
      rfl
    have hread : (secondFold s.sp s.j2 s.hi s.lo).sp.readBlock p1 = mkBlock (lo64 d1 ^^^ s.hi) (hi64 d1 ^^^ s.lo) := by
      rw [secondFold_sp]
      exact Memory.readBlock_writeBlock hwf
    have hother : SameOutside p1 16 s.sp (secondFold s.sp s.j2 s.hi s.lo).sp := by
      rw [secondFold_sp]
      exact Memory.sameOutside_writeBlock hwf
    obtain ⟨hhi, hlo⟩ := secondFold_hi_lo hwf s.j2 s.hi s.lo
    rw [hunit] at hexec
    exact ⟨_, hexec, rfl, fun _ => ⟨(congrArg lo64 hread).trans (lo64_mkBlock _ _),
      (congrArg hi64 hread).trans (hi64_mkBlock _ _), hhi, hlo, hother⟩, fun h => absurd hv h⟩
  · have hgate : integerGate v = false := decide_eq_false hv
    have hunit : s.half2Fold v = { s with mixStep := .half2Shuffle } := by
      rw [State.half2Fold, hgate]
      rfl
    exact ⟨_, hexec.trans (congrArg _ hunit), rfl, fun h => absurd h hv, fun _ => ⟨rfl, rfl, rfl⟩⟩

/-! ## Integer math -/

theorem toNat_intDivisor (c : Block) (sqrtR : W64) : (intDivisor c sqrtR).toNat =
    ((lo64 c).toNat + sqrtR.toNat * 2 % 2 ^ 32) % 2 ^ 32 ||| 0x80000001 := by
  have hsum : (lo32 (lo64 c) + lo32 (sqrtR <<< 1)).toNat =
      ((lo64 c).toNat + sqrtR.toNat * 2 % 2 ^ 32) % 2 ^ 32 := by
    rw [BitVec.toNat_add, toNat_lo32, toNat_lo32, BitVec.toNat_shiftLeft, Nat.shiftLeft_eq]
    omega
  rw [intDivisor, BitVec.toNat_or, hsum]
  rfl

/-- Bits 31 and 0 of the divisor are set (R250). -/
theorem intDivisor_bounds (c : Block) (sqrtR : W64) :
    2 ^ 31 + 1 ≤ (intDivisor c sqrtR).toNat ∧ (intDivisor c sqrtR).toNat ≤ 2 ^ 32 - 1 := by
  have hlt := (intDivisor c sqrtR).isLt
  refine ⟨?_, by omega⟩
  rw [toNat_intDivisor]
  exact Nat.right_le_or

/-- The quotient's low half below the remainder, which is below 2^32 like the divisor. -/
theorem toNat_intDiv (c : Block) (sqrtR : W64) : (intDiv c sqrtR).toNat =
    (hi64 c).toNat / (intDivisor c sqrtR).toNat % 2 ^ 32 +
      (hi64 c).toNat % (intDivisor c sqrtR).toNat * 2 ^ 32 := by
  have hdivisor : ((intDivisor c sqrtR).setWidth 64).toNat = (intDivisor c sqrtR).toNat :=
    BitVec.toNat_setWidth_of_le (by decide)
  have hlt := (intDivisor c sqrtR).isLt
  have hrem : (hi64 c).toNat % (intDivisor c sqrtR).toNat < (intDivisor c sqrtR).toNat :=
    Nat.mod_lt _ (by have := (intDivisor_bounds c sqrtR).1; omega)
  unfold intDiv
  rw [BitVec.toNat_add, BitVec.toNat_setWidth_of_le (by decide), toNat_lo32, BitVec.toNat_udiv, BitVec.toNat_shiftLeft,
    BitVec.toNat_umod, hdivisor, Nat.shiftLeft_eq]
  omega

theorem lo64_intT (t : Block) (divR sqrtR : W64) : lo64 (intT t divR sqrtR) = lo64 t ^^^ divR ^^^ (sqrtR <<< 32) := by
  unfold intT
  exact lo64_mkBlock _ _

theorem hi64_intT (t : Block) (divR sqrtR : W64) : hi64 (intT t divR sqrtR) = hi64 t := by
  unfold intT
  exact hi64_mkBlock _ _

/-- The square root of R251 by its defining inequalities. -/
theorem intSqrt_bounds (c : Block) (divR : W64) :
    let n := ((lo64 c).toNat + divR.toNat) % 2 ^ 64
    let m := (intSqrt c divR).toNat + 2 ^ 33
    m * m ≤ 2 ^ 66 + 4 * n ∧ 2 ^ 66 + 4 * n < (m + 1) * (m + 1) := by
  have hexact : Obligations.IsqrtIsExact := isqrtIsExact
  obtain ⟨hbounds, -⟩ := hexact
  obtain ⟨hle, hlt, -⟩ := hbounds (lo64 c + divR)
  rw [BitVec.toNat_add] at hle hlt
  unfold intSqrt
  exact ⟨hle, hlt⟩

/-- Settles O48: the division by numbers, and the square root by the exactness of `isqrtV2`. -/
theorem integerMathResult : Obligations.IntegerMathResult := by
  unfold Obligations.IntegerMathResult
  intro s v p hp hm hv dividend divisor
  have hunit : s.mixUnit v = { s.integerMath with mixStep := .half2Mul } := by
    rw [State.mixUnit, hm]
    rcases hv with rfl | rfl <;> rfl
  have hdivisor : (intDivisor s.c s.sqrtR).toNat = divisor := toNat_intDivisor s.c s.sqrtR
  obtain ⟨hge, hle⟩ := intDivisor_bounds s.c s.sqrtR
  have hdiv := toNat_intDiv s.c s.sqrtR
  rw [hdivisor] at hge hle hdiv
  exact ⟨_, (exec_of_mix hp).trans (congrArg _ hunit), hge, hle, lo64_intT _ _ _, hi64_intT _ _ _, hdiv,
    intSqrt_bounds s.c (intDiv s.c s.sqrtR), rfl⟩

end

end Sys2Proof.Machine
end

section
/-! PROOFS. Runs put together, phase ABSORB as a whole (spec/40_keccak.md R140, R143), and the jobs FAST_HASH and
KECCAK_PERMUTE (spec/47_commands.md R361 to R368). -/

namespace Sys2Proof.Machine

/-! ## Runs one after the other -/

/-- Some number of moves of the core leads from the first state to the second. -/
def Reaches (s t : State) : Prop := ∃ n, runs n s = .next t

theorem runs_add : ∀ {m n : Nat} {s t : State}, runs m s = .next t → runs (m + n) s = runs n t
  | 0, n, s, t, h => by
    cases h
    rw [Nat.zero_add]
  | m + 1, n, s, t, h => by
    obtain ⟨u, hstep, hrest⟩ := exists_step_of_runs_succ h
    rw [Nat.add_right_comm]
    exact (run_succ_of_step (M := core) hstep (m + n)).trans (runs_add hrest)

theorem Reaches.refl (s : State) : Reaches s s := ⟨0, rfl⟩

theorem Reaches.trans {s t u : State} : Reaches s t → Reaches t u → Reaches s u
  | ⟨m, hm⟩, ⟨n, hn⟩ => ⟨m + n, (runs_add hm).trans hn⟩

theorem Reaches.of_step {s t : State} (h : step s = .next t) : Reaches s t := ⟨1, run_succ_of_step (M := core) h 0⟩

/-! ## The blocks of phase ABSORB -/

theorem absorbBlock_eq (msg : Nat → Byte) (L k : Nat) (S : Lanes) :
    absorbBlock msg L k S = keccakF (xorRate S (absorbByte msg L k)) := by
  rw [absorbBlock]

theorem absorbUpTo_succ (msg : Nat → Byte) (L n : Nat) :
    absorbUpTo msg L (n + 1) = absorbBlock msg L n (absorbUpTo msg L n) := by
  rw [absorbUpTo, List.range_succ, List.foldl_append]
  rfl

theorem absorb_eq (msg : Nat → Byte) (L : Nat) : absorb msg L = absorbUpTo msg L (L / 136 + 1) := by
  rw [absorb]
  rfl

section
variable {s : State} {v : BitVec 3} {p : Bool}

theorem absorbUnit_eq (s : State) : s.absorbUnit = { s with
    hashState := keccakF (xorRate s.hashState (absorbByte s.msgByte s.jobLen.toNat s.blk)), blk := s.blk + 1
    progress := BitVec.ofNat 32 (s.blk + 1) } := by
  rw [← absorbBlock_eq]
  rfl

theorem absorbStep_of_lt (hlen : s.jobLen.toNat ≤ s.msgMax) (hblk : s.blk < s.jobLen.toNat / 136 + 1) (after : State) :
    s.absorbStep after = .next s.absorbUnit := by
  have hdone : s.absorbDone = false := decide_eq_false (Nat.not_le.mpr hblk)
  rw [State.absorbStep, if_neg (Nat.not_lt.mpr hlen), hdone]
  rfl

theorem absorbStep_of_ge (hlen : s.jobLen.toNat ≤ s.msgMax) (hblk : s.jobLen.toNat / 136 + 1 ≤ s.blk) (after : State) :
    s.absorbStep after = .next after := by
  have hdone : s.absorbDone = true := decide_eq_true hblk
  rw [State.absorbStep, if_neg (Nat.not_lt.mpr hlen), hdone]
  rfl

/-- A job in phase ABSORB after `n` blocks. -/
def State.absorbed (n : Nat) (s : State) : State :=
  { s with hashState := absorbUpTo s.msgByte s.jobLen.toNat n, blk := n, phase := .absorb
           progress := BitVec.ofNat 32 n }

theorem enterAbsorb_eq_absorbed (s : State) : s.enterAbsorb = s.absorbed 0 := rfl

theorem absorbUnit_absorbed (s : State) (n : Nat) : (s.absorbed n).absorbUnit = s.absorbed (n + 1) := by
  unfold State.absorbed
  rw [absorbUpTo_succ]
  rfl

theorem not_runsProgram_absorbed (s : State) (n : Nat) : ¬ RunsProgram (s.absorbed n) := fun h => nomatch h.1

theorem execSlowHash_of_absorb (hp : s.phase = .absorb) :
    execSlowHash v p s = s.absorbStep (s.enterPhase .setup) := by
  rw [execSlowHash, hp]

theorem execFastHash_of_absorb (hp : s.phase = .absorb) :
    execFastHash s = s.absorbStep (s.finishOkDigest (first32 s.hashState)) := by
  rw [execFastHash, hp]

/-- The commands that have a phase ABSORB do one block a step. -/
theorem step_of_absorb (hc : CoreMoves s) (hp : s.phase = .absorb) (ho : s.jobOp = 0 ∨ s.jobOp = 1)
    (hlen : s.jobLen.toNat ≤ s.msgMax) (hblk : s.blk < s.jobLen.toNat / 136 + 1) : step s = .next s.absorbUnit := by
  have hr : ¬ RunsProgram s := fun h => nomatch hp.symm.trans h.1
  rcases ho with ho | ho
  · rw [step_of_slowHash hc hr ho, execSlowHash_of_absorb hp, absorbStep_of_lt hlen hblk]
  · rw [step_of_fastHash hc hr ho, execFastHash_of_absorb hp, absorbStep_of_lt hlen hblk]

theorem reaches_absorbed (hc : CoreMoves s) (ho : s.jobOp = 0 ∨ s.jobOp = 1) (hlen : s.jobLen.toNat ≤ s.msgMax) :
    Reaches (s.absorbed 0) (s.absorbed (s.jobLen.toNat / 136 + 1)) :=
  ⟨_, runs_of_steps (f := fun n => s.absorbed n) fun m hm =>
    (step_of_absorb (s := s.absorbed m) hc rfl ho hlen hm).trans (congrArg _ (absorbUnit_absorbed s m))⟩

/-! ## FAST_HASH -/

theorem fastCheck_of_le (hlen : s.jobLen.toNat ≤ s.msgMax) : s.fastCheck = s.enterAbsorb := by
  rw [State.fastCheck, checkJob_fast, if_neg (Nat.not_lt.mpr hlen)]

theorem first32_getElem (S : Lanes) (i : Fin 32) : (first32 S)[i] = (bytesOfLanes S)[i.val] := by
  rw [bytesOfLanes_get S i.val (by omega), first32]
  exact Vector.getElem_ofFn _

/-- Settles O33: CHECK, the blocks of the absorb, and the step that writes DIGEST. -/
theorem fastHashDigest : Obligations.FastHashDigest := by
  unfold Obligations.FastHashDigest
  intro s hc hp ho hlen
  have hcheck : Reaches s (s.absorbed 0) := .of_step <| by
    rw [step_of_fastHash hc (not_runsProgram_of_check hp) ho, execFastHash, hp]
    exact congrArg _ (fastCheck_of_le hlen)
  have hlast : Reaches (s.absorbed (s.jobLen.toNat / 136 + 1))
      ((s.absorbed (s.jobLen.toNat / 136 + 1)).finishOkDigest (first32 (absorb s.msgByte s.jobLen.toNat))) :=
    .of_step <| by
      rw [step_of_fastHash (s := s.absorbed _) hc (not_runsProgram_absorbed s _) ho, absorb_eq]
      exact absorbStep_of_ge (s := s.absorbed _) hlen (Nat.le_refl _) _
  rw [absorb_eq] at hlast ⊢
  exact hcheck.trans ((reaches_absorbed hc (.inr ho) hlen).trans hlast)

/-- Phase CHECK of a job whose checks pass, when it is not prehashed. -/
theorem slowCheck_of_passes (hpre : p = false)
    (hpass : checkJob 0 v false s.jobLen.toNat s.msgMax s.spGrant = none) :
    s.slowCheck v p = State.absorbed 0 { s with spOwned := true } := by
  subst hpre
  rw [State.slowCheck, hpass]
  rfl

/-- From CHECK of a SLOW_HASH job that is not prehashed to its SETUP (R201). -/
theorem reaches_setup_of_check (hc : CoreMoves s) (hp : s.phase = .check) (ho : s.jobOp = 0)
    (hpre : s.jobPrehashed = false)
    (hpass : checkJob 0 s.jobVariant false s.jobLen.toNat s.msgMax s.spGrant = none) :
    Reaches s { s with spOwned := true, hashState := absorb s.msgByte s.jobLen.toNat, blk := s.jobLen.toNat / 136 + 1
                       phase := .setup, progress := 0 } := by
  obtain ⟨-, hlen, -⟩ := checkJob_slow_none.mp hpass
  have hcheck : Reaches s (State.absorbed 0 { s with spOwned := true }) := .of_step <| by
    rw [step_of_slowHash_check hc hp ho, slowCheck_of_passes hpre hpass]
  have hblocks := reaches_absorbed (s := { s with spOwned := true }) hc (.inl ho) hlen
  refine hcheck.trans (hblocks.trans (.of_step ?_))
  rw [step_of_slowHash (s := State.absorbed _ { s with spOwned := true }) hc (not_runsProgram_absorbed _ _) ho, absorb_eq]
  exact absorbStep_of_ge (s := State.absorbed _ { s with spOwned := true }) hlen (Nat.le_refl _) _

/-- Settles O32: each phase by its step, and the way from CHECK to SETUP. -/
theorem fastHashPhases : Obligations.FastHashPhases := by
  unfold Obligations.FastHashPhases
  refine ⟨fun s hlen => ⟨fun hp => ?_, fun hp hblk => ?_, fun hp hblk => ?_⟩, fun s v p hlen hp => ⟨fun hblk => ?_, fun hblk => ?_⟩,
    fun s => reaches_setup_of_check⟩
  · rw [exec, execFastHash, hp]
    exact congrArg _ (fastCheck_of_le hlen)
  · exact (execFastHash_of_absorb hp).trans ((absorbStep_of_lt hlen hblk _).trans (congrArg _ (absorbUnit_eq s)))
  · have hexec : exec .fastHash s = .next (s.finishOkDigest (first32 s.hashState)) :=
      (execFastHash_of_absorb hp).trans (absorbStep_of_ge hlen hblk _)
    exact ⟨_, hexec, first32_getElem s.hashState, rfl⟩
  · exact (execSlowHash_of_absorb hp).trans ((absorbStep_of_lt hlen hblk _).trans (congrArg _ (absorbUnit_eq s)))
  · exact (execSlowHash_of_absorb hp).trans (absorbStep_of_ge hlen hblk _)

/-! ## KECCAK_PERMUTE -/

theorem execKeccakPermute_of_permute (hp : s.phase = .permute) :
    execKeccakPermute s = .next s.permuteWindow.finishOk := by
  rw [execKeccakPermute, hp]

/-- Settles O34. -/
theorem keccakPermuteJob : Obligations.KeccakPermuteJob := by
  unfold Obligations.KeccakPermuteJob
  refine ⟨fun s hp => ?_, fun s hp => execKeccakPermute_of_permute hp, fun s hc hp ho => ?_⟩
  · rw [exec, execKeccakPermute, hp]
    rfl
  · have hr : ¬ RunsProgram (s.enterPhase .permute) := fun h => nomatch h.1
    have hpermute : step (s.enterPhase .permute) = .next (s.enterPhase .permute).permuteWindow.finishOk :=
      (step_of_keccakPermute (s := s.enterPhase .permute) hc hr ho).trans (execKeccakPermute_of_permute rfl)
    have hruns : runs 2 s = .next (s.enterPhase .permute).permuteWindow.finishOk :=
      (run_succ_of_step (M := core) (step_of_keccakPermute_check hc hp ho) 1).trans
        (run_succ_of_step (M := core) hpermute 0)
    exact ⟨_, hruns, lanes_bytes _, rfl, rfl, rfl⟩

end

end Sys2Proof.Machine
end

section
/-! PROOFS. The fill forgets the scratchpad it writes over (spec/42_scratchpad.md R183, R185); the steps of the
finalization (spec/46_finalization.md R321 to R325). -/

namespace Sys2Proof.Machine

/-! ## Phase FILL -/

/-- Settles O38: the sub-blocks of the group and its eight writes. -/
theorem fillGroup : Obligations.FillGroup := by
  unfold Obligations.FillGroup
  intro s v p hp hg hwf
  have hexec : exec (.slowHash v p) s = .next s.fillUnit := by
    rw [exec, execSlowHash, hp]
    exact congrArg _ (if_pos hg)
  exact ⟨_, hexec, fun k => ⟨fillText_getElem s.rk1 s.text k, readBlock_writeGroup hwf k⟩,
    fun _ => read_writeGroup_other hwf, rfl⟩

section
variable {rk : Vector Block 10} {text : Vector Block 8} {sp sp' : Memory}

theorem fillAfter_text_congr : ∀ n, (fillAfter rk text sp n).1 = (fillAfter rk text sp' n).1
  | 0 => rfl
  | n + 1 => congrArg (fillText rk) (fillAfter_text_congr n)

theorem within_fillAfter (h : sp.within (2 ^ 21) = true) :
    ∀ {n : Nat}, n ≤ groups → (fillAfter rk text sp n).2.within (2 ^ 21) = true
  | 0, _ => h
  | n + 1, hn => within_writeGroup (by unfold groups at hn; omega) (within_fillAfter h (Nat.le_of_succ_le hn))

/-- After n groups the first 128n bytes do not depend on the scratchpad before. -/
theorem copy_fillAfter (h : sp.wf = true) (h' : sp'.wf = true) :
    ∀ n, (fillAfter rk text sp n).2.copy (128 * n) = (fillAfter rk text sp' n).2.copy (128 * n)
  | 0 => by rw [Nat.mul_zero, Memory.copy_zero, Memory.copy_zero]
  | n + 1 => by
    rw [fillAfter, fillAfter, copy_writeGroup (wf_fillAfter h n), copy_writeGroup (wf_fillAfter h' n),
      copy_fillAfter h h' n, fillAfter_text_congr n]

/-- The groups are the whole scratchpad. -/
theorem fillAfter_congr (h : sp.wf = true) (hin : sp.within (2 ^ 21) = true) (h' : sp'.wf = true)
    (hin' : sp'.within (2 ^ 21) = true) : fillAfter rk text sp groups = fillAfter rk text sp' groups := by
  have hall {m : Memory} (hm : m.wf = true) (hmin : m.within (2 ^ 21) = true) :
      (fillAfter rk text m groups).2.copy (128 * groups) = (fillAfter rk text m groups).2 :=
    Memory.copy_eq_self (wf_fillAfter hm groups) (within_fillAfter hmin (Nat.le_refl groups))
  have hcopy := copy_fillAfter (rk := rk) (text := text) h h' groups
  rw [hall h hin, hall h' hin'] at hcopy
  exact Prod.ext (fillAfter_text_congr groups) hcopy

end

/-- Settles O40: both runs end in what the fill makes of its scratchpad, which is the same. -/
theorem fillForgetsOldScratchpad : Obligations.FillForgetsOldScratchpad := by
  unfold Obligations.FillForgetsOldScratchpad
  intro s m hc hp ho hg hwf hin hwf' hin'
  have hlast : 2 ^ 14 - 1 < groups := by decide
  have hrun : runs (2 ^ 14) s = .next (s.filled groups) := runs_fill hc hp ho hg hlast
  have hrun' : runs (2 ^ 14) { s with sp := m } = .next (State.filled { s with sp := m } groups) :=
    runs_fill (s := { s with sp := m }) hc hp ho hg hlast
  have hsame : State.filled { s with sp := m } groups = s.filled groups := by
    unfold State.filled
    simp only [fillAfter_congr (rk := s.rk1) (text := s.text) hwf' hin' hwf hin]
  exact ⟨_, hrun, hrun'.trans (congrArg _ hsame)⟩

/-! ## The finalization -/

theorem foldText_getElem (rk : Vector Block 10) (sp : Memory) (g : Nat) (text : Vector Block 8) (k : Fin 8) :
    (foldText rk sp g text)[k] = pseudoRound (text[k] ^^^ sp.readBlock (128 * g + 16 * k.val)) rk := by
  unfold foldText
  exact Vector.getElem_ofFn _

theorem withText_getElem (S : Lanes) (text : Vector Block 8) {i : Nat} (hi : i < 25) : (withText S text)[i] =
    if h : 8 ≤ i ∧ i < 24 then
      if i % 2 = 0 then lo64 (text[(i - 8) / 2]'(by omega)) else hi64 (text[(i - 8) / 2]'(by omega))
    else S[i] := by
  unfold withText
  exact Vector.getElem_ofFn _

/-- The lanes 8 to 23 are the halves of TEXT (R322). -/
theorem withText_text (S : Lanes) (text : Vector Block 8) (k : Fin 8) (h : 2 * k.val + 9 < 25) :
    mkBlock (withText S text)[2 * k.val + 8] (withText S text)[2 * k.val + 9] = text[k] := by
  have hlow : (2 * k.val + 8 - 8) / 2 = k.val ∧ (2 * k.val + 8) % 2 = 0 := by omega
  have hhigh : (2 * k.val + 9 - 8) / 2 = k.val ∧ (2 * k.val + 9) % 2 ≠ 0 := by omega
  rw [withText_getElem S text h, dif_pos (by omega), if_neg hhigh.2, withText_getElem S text (Nat.lt_of_succ_lt h),
    dif_pos (by omega), if_pos hlow.2]
  simp only [hlow.1, hhigh.1]
  exact mkBlock_lo64_hi64 _

theorem withText_other (S : Lanes) (text : Vector Block 8) (i : Fin 25) (h : i.val < 8 ∨ i.val = 24) :
    (withText S text)[i] = S[i] :=
  (withText_getElem S text i.isLt).trans (dif_neg (by omega))

/-- The selector of the terminal hash is the low two bits of byte 0 (R323). -/
theorem extraHash_eq (S : Lanes) : extraHash S =
    if (bytesOfLanes S)[0].toNat % 4 = 0 then blake256 (bytesOfLanes S).toList
    else if (bytesOfLanes S)[0].toNat % 4 = 1 then Config.groestl256 (bytesOfLanes S)
    else if (bytesOfLanes S)[0].toNat % 4 = 2 then Config.jh256 (bytesOfLanes S)
    else Config.skein256 (bytesOfLanes S) := by
  have hsel : (bytesOfLanes S)[0].toNat % 4 = (S[0].extractLsb' 0 2).toNat := by
    have hbyte : (bytesOfLanes S)[0].toNat = S[0].toNat / 1 % 256 :=
      (congrArg BitVec.toNat (bytesOfLanes_get S 0 (by decide))).trans (toNat_byteOf S[0] 0)
    rw [hbyte, BitVec.extractLsb'_toNat, Nat.shiftRight_zero]
    omega
  unfold extraHash
  rw [hsel]
  rcases jobOp_cases (S[0].extractLsb' 0 2) with h | h | h | h <;> rw [h] <;> rfl

/-- Settles O41. -/
theorem finalizationSteps : Obligations.FinalizationSteps := by
  unfold Obligations.FinalizationSteps
  refine ⟨fun s v p hp hg => ?_, fun s v p hp => ?_, fun s v p hp => ?_⟩
  · have hexec : exec (.slowHash v p) s = .next s.finalFillUnit := by
      rw [exec, execSlowHash, hp]
      exact congrArg _ (if_pos hg)
    exact ⟨_, hexec, foldText_getElem s.rk2 s.sp s.g s.text, rfl⟩
  · have hexec : exec (.slowHash v p) s = .next s.slowPermute := by
      rw [exec, execSlowHash, hp]
    exact ⟨withText s.hashState s.text, hexec, withText_text s.hashState s.text, withText_other s.hashState s.text⟩
  · have hexec : exec (.slowHash v p) s = .next (s.finishOkDigest (extraHash s.hashState)) := by
      rw [exec, execSlowHash, hp]
    rw [hexec, extraHash_eq]
    rfl

end Sys2Proof.Machine
end

section
/-! PROOFS. The invariant (spec/10_state.md, spec/60_exceptions.md): what the host does and what the core does keep it, no
step under it stops, and where a job error comes from (R381 to R388). -/

namespace Sys2Proof.Machine

/-! ## What the host and the outside world do -/

/-- A move that keeps the invariant and brings in no error code. -/
structure SafeMove (s t : State) : Prop where
  inv : Inv s → Inv t
  code : t.errcode = s.errcode ∨ t.errcode = .none

theorem SafeMove.refl (s : State) : SafeMove s s := ⟨id, .inl rfl⟩

theorem SafeMove.trans {s t u : State} (h : SafeMove s t) (h' : SafeMove t u) : SafeMove s u :=
  ⟨h'.inv ∘ h.inv, h'.code.elim (fun e => h.code.imp e.trans e.trans) .inr⟩

section
variable {s t : State}

/-- Between jobs nobody owns the buffer (spec/42_scratchpad.md R180, R187). -/
theorem spOwned_of_not_busy (h : Inv s) (hb : s.busy = false) : s.spOwned = false := by
  obtain ⟨⟨hbusy, -⟩, -, -, hplace⟩ := h
  rw [hb] at hbusy
  unfold PhaseInv at hplace
  cases hp : s.phase <;> rw [hp] at hplace hbusy
  case idle | done | error => exact hplace.2
  all_goals cases hbusy

theorem SafeMove.clrStatus (s : State) : SafeMove s s.clrStatus := by
  cases hb : s.busy with
  | true => rw [State.clrStatus_of_busy hb]; exact .refl s
  | false =>
    rw [State.clrStatus_of_idle hb]
    refine ⟨fun h => ?_, .inr rfl⟩
    have howned := spOwned_of_not_busy h hb
    obtain ⟨-, hmem, hcmd, -⟩ := h
    exact ⟨⟨hb, rfl, rfl, by simp⟩, hmem, hcmd, rfl, howned⟩

theorem SafeMove.startJob (s : State) : SafeMove s s.startJob := by
  cases hb : s.busy with
  | true => rw [State.startJob_of_busy hb]; exact .refl s
  | false =>
    rw [State.startJob_of_idle hb]
    refine ⟨fun h => ?_, .inr rfl⟩
    have howned := spOwned_of_not_busy h hb
    obtain ⟨-, hmem, hcmd, -⟩ := h
    exact ⟨⟨rfl, rfl, rfl, by simp⟩, hmem, hcmd, rfl, howned⟩

theorem SafeMove.ctrlWrite (ie clr start : Bool) (s : State) : SafeMove s (s.ctrlWrite ie clr start) := by
  have hie : SafeMove s { s with ie := ie } := ⟨id, .inl rfl⟩
  have hclr : SafeMove s (if clr then State.clrStatus { s with ie := ie } else { s with ie := ie }) := by
    cases clr with
    | true => exact hie.trans (.clrStatus _)
    | false => exact hie
  cases start with
  | true => exact hclr.trans (.startJob _)
  | false => exact hclr

theorem SafeMove.writeRegister (off : Nat) (v : W32) (s : State) : SafeMove s (s.writeRegister off v) := by
  unfold State.writeRegister
  split
  case h_2 =>
    split
    · exact .refl s
    · refine ⟨fun ⟨hstatus, hmem, _, hplace⟩ => ⟨hstatus, hmem, ?_, hplace⟩, .inl rfl⟩
      show v &&& 0x173#32 &&& 0xFFFFFE8C#32 = 0
      rw [BitVec.and_assoc]
      exact BitVec.and_zero
  case h_1 | h_6 => exact ⟨id, .inl rfl⟩
  all_goals
    split
    · exact .refl s
    · exact ⟨id, .inl rfl⟩

theorem SafeMove.writeByte (off : Nat) (b : Byte) (s : State) : SafeMove s (s.writeByte off b) := by
  unfold State.writeByte
  split
  · exact .refl s
  · split
    · exact ⟨id, .inl rfl⟩
    · split
      case isTrue hin =>
        have hlt : off - 0x8000 < s.msgMax := by omega
        exact ⟨fun ⟨hstatus, ⟨hwf, hwithin, hsp⟩, hcmd, hplace⟩ =>
          ⟨hstatus, ⟨Memory.wf_write hwf, Memory.within_write hlt hwithin, hsp⟩, hcmd, hplace⟩, .inl rfl⟩
      case isFalse => exact .refl s

theorem SafeMove.hostWrite (off : BitVec 16) (w : Nat) (v : W32) (s : State) : SafeMove s (s.hostWrite off w v) := by
  unfold State.hostWrite
  split
  · split
    · exact .writeRegister off.toNat v s
    · exact List.foldlRecOn (motive := SafeMove s) _ _ (.refl s) fun t ht k _ => ht.trans (.writeByte _ _ t)
  · exact .refl s

theorem SafeMove.resetCore (s : State) : SafeMove s s.resetCore := by
  obtain ⟨hstatus, -, hcmd, hplace⟩ := resetMeetsInvariant
  exact ⟨fun _ => ⟨hstatus, ⟨rfl, rfl, rfl, rfl, rfl, rfl⟩, hcmd, hplace⟩, .inr rfl⟩

/-- Every event but `core` is a safe move. -/
theorem step_of_event {e : Input} {rest : List Input} (hin : s.inputs = e :: rest) (he : e ≠ .core) :
    ∃ t, step s = .next t ∧ SafeMove s t := by
  have hrest : SafeMove s { s with inputs := rest } := ⟨id, .inl rfl⟩
  cases e with
  | core => exact absurd rfl he
  | read off w => exact ⟨_, step_of_read hin, ⟨id, .inl rfl⟩⟩
  | write off w v =>
    by_cases hc : off = 0 ∧ w = 4
    · obtain ⟨rfl, rfl⟩ := hc
      exact ⟨_, step_of_ctrl_write hin, hrest.trans (.ctrlWrite _ _ _ _)⟩
    · exact ⟨_, step_of_plain_write hc hin, hrest.trans (.hostWrite _ _ _ _)⟩
  | reset =>
    refine ⟨_, ?_, hrest.trans (.resetCore _)⟩
    simp only [step, State.nextAction, hin, State.inputAction]
  | grant g =>
    refine ⟨{ s with inputs := rest, spGrant := g }, ?_, ⟨id, .inl rfl⟩⟩
    simp only [step, State.nextAction, hin, State.inputAction]

/-! ## Where a job error comes from -/

/-- What a move of the core does to ERR and ERRCODE. -/
inductive CodeMove (s t : State) : Prop
  | keeps (herr : t.err = s.err) (hcode : t.errcode = s.errcode)
  /-- A check of phase CHECK fails (R381). -/
  | check (hp : s.phase = .check) (code : ErrCode) (hcode : code ≠ .none ∧ code ≠ .internalFault)
      (ht : t = s.raiseJobError code)
  /-- The word of the program store is reserved (spec/30_encoding.md R102). -/
  | reservedWord (hrun : RunsProgram s) (hrpc : s.rpc.toNat < 71) {e : Reject}
      (hword : decodeProg s.prog[s.rpc.toNat] = .error e) (ht : t = s.raiseJobError .internalFault)
  /-- OP = 3 names no command (R99). -/
  | badCommand (ho : s.jobOp = 3) (ht : t = s.raiseJobError .badCommand)

theorem CodeMove.refl (s : State) : CodeMove s s := .keeps rfl rfl

theorem CodeMove.slowCheck (hp : s.phase = .check) (v : BitVec 3) (p : Bool) : CodeMove s (s.slowCheck v p) := by
  unfold State.slowCheck
  split
  case h_1 code hcheck => exact .check hp code (checkJob_ne_none_code hcheck) rfl
  case h_2 => cases p <;> exact .keeps rfl rfl

theorem CodeMove.fastCheck (hp : s.phase = .check) : CodeMove s s.fastCheck := by
  unfold State.fastCheck
  split
  case h_1 code hcheck => exact .check hp code (checkJob_ne_none_code hcheck) rfl
  case h_2 => exact .keeps rfl rfl

theorem CodeMove.absorbStep {after : State} (hafter : CodeMove s after) (h : s.absorbStep after = .next t) :
    CodeMove s t := by
  rcases s.absorbStep_cases after with ⟨-, e⟩ | ⟨-, -, e⟩ | ⟨-, -, e⟩ <;> cases e.symm.trans h
  · exact hafter
  · exact .keeps rfl rfl

theorem CodeMove.mixUnit (v : BitVec 3) : CodeMove s (s.mixUnit v) := by
  unfold State.mixUnit
  cases s.mixStep with
  | half1Aes => dsimp only; split <;> exact .keeps rfl rfl
  | half1Shuffle | half2Shuffle =>
    dsimp only [State.half1Shuffle, State.half2Shuffle]
    rw [shuffleAt_frame]
    exact .keeps rfl rfl
  | half2Math =>
    dsimp only [State.half2Math]
    split
    · exact .keeps rfl rfl
    · split <;> exact .keeps rfl rfl
  | half2Fold => dsimp only [State.half2Fold]; split <;> exact .keeps rfl rfl
  | half1Store | half2Load | rmRun | rmFold | half2Mul | half2Store | iterEnd => exact .keeps rfl rfl

theorem CodeMove.execSlowHash {v : BitVec 3} {p : Bool} (h : execSlowHash v p s = .next t) : CodeMove s t := by
  unfold Machine.execSlowHash at h
  cases hp : s.phase <;> rw [hp] at h
  case check => cases h; exact .slowCheck hp v p
  case absorb => exact .absorbStep (after := s.enterPhase .setup) (.keeps rfl rfl) h
  case setup => cases h; unfold State.slowSetup; split <;> exact .keeps rfl rfl
  case rmGen => cases h; unfold State.rmGenUnit; split <;> exact .keeps rfl rfl
  case fill | finalFill => cases h; split <;> exact .keeps rfl rfl
  case mix => cases h; exact .mixUnit v
  case permute | extra => cases h; exact .keeps rfl rfl
  case idle | done | error => cases h; exact .refl s

theorem CodeMove.execFastHash (h : execFastHash s = .next t) : CodeMove s t := by
  unfold Machine.execFastHash at h
  cases hp : s.phase <;> rw [hp] at h
  case check => cases h; exact .fastCheck hp
  case absorb => exact .absorbStep (after := s.finishOkDigest (first32 s.hashState)) (.keeps rfl rfl) h
  case idle | done | error => cases h; exact .refl s
  all_goals cases h

theorem CodeMove.execKeccakPermute (h : execKeccakPermute s = .next t) : CodeMove s t := by
  unfold Machine.execKeccakPermute at h
  cases hp : s.phase <;> rw [hp] at h
  case check | permute => cases h; exact .keeps rfl rfl
  case idle | done | error => cases h; exact .refl s
  all_goals cases h

theorem CodeMove.of_runsProgram (hc : CoreMoves s) (hrun : RunsProgram s) (h : step s = .next t) : CodeMove s t := by
  have hrpc := rpc_lt_of_step hc hrun h
  rw [step_of_runsProgram hc hrun hrpc, State.runWord] at h
  cases hword : decodeProg s.prog[s.rpc.toNat] with
  | error e =>
    rw [hword] at h
    cases h
    exact .reservedWord hrun hrpc hword rfl
  | ok i =>
    rw [hword] at h
    rcases decodeProg_ok hword with rfl | halu
    · cases h
      exact .keeps rfl rfl
    · cases (exec_of_isAlu_eq halu s).symm.trans h
      exact .keeps rfl rfl

/-- Every move of the core while a job runs. -/
theorem CodeMove.of_step (hc : CoreMoves s) (h : step s = .next t) : CodeMove s t := by
  by_cases hrun : RunsProgram s
  · exact .of_runsProgram hc hrun h
  · rcases jobOp_cases s.jobOp with ho | ho | ho | ho
    · exact .execSlowHash ((step_of_slowHash hc hrun ho).symm.trans h)
    · exact .execFastHash ((step_of_fastHash hc hrun ho).symm.trans h)
    · exact .execKeccakPermute ((step_of_keccakPermute hc hrun ho).symm.trans h)
    · cases (step_of_badCommand hc hrun ho).symm.trans h
      exact .badCommand ho rfl

/-- Under the invariant a job error comes from phase CHECK alone (R388). -/
theorem CodeMove.of_inv (hi : Inv s) (hb : s.busy = true) (h : CodeMove s t) :
    t.errcode = s.errcode ∧ t.err = s.err ∨
      s.phase = .check ∧ ∃ code, code ≠ .none ∧ code ≠ .internalFault ∧ t = s.raiseJobError code := by
  cases h with
  | keeps herr hcode => exact .inl ⟨hcode, herr⟩
  | check hp code hcode ht => exact .inr ⟨hp, code, hcode.1, hcode.2, ht⟩
  | badCommand ho ht => exact .inr ⟨phase_of_badCommand hi hb ho, _, by decide, by decide, ht⟩
  | reservedWord hrun hrpc hword _ =>
    obtain ⟨i, hok⟩ := decodeProg_of_inv hi hrun hrpc
    rw [hok] at hword
    cases hword

/-! ## The moves of the core keep the invariant and never stop -/

/-- Under the invariant rpc is inside the program, up to its RET. -/
theorem rpc_le_of_inv (h : Inv s) (hrun : RunsProgram s) : s.rpc.toNat ≤ s.plen.toNat ∧ ProgramInv s := by
  obtain ⟨hp, hm⟩ := hrun
  obtain ⟨-, -, -, hplace⟩ := h
  simp only [PhaseInv, hp] at hplace
  obtain ⟨-, -, -, hprog, -, hrunning, -⟩ := hplace
  obtain ⟨hv, hle⟩ := hrunning hm
  exact ⟨hle, hprog hv⟩

/-- A word of the program is executed, and what it leaves meets the invariant. -/
theorem inv_step_of_runsProgram (h : Inv s) (hc : CoreMoves s) (hrun : RunsProgram s) :
    ∃ t, step s = .next t ∧ Inv t := by
  obtain ⟨hle, -, hlen, hwords⟩ := rpc_le_of_inv h hrun
  have hrpc : s.rpc.toNat < 71 := by omega
  obtain ⟨hop, hret⟩ := hwords ⟨s.rpc.toNat, hrpc⟩
  rw [step_of_runsProgram hc hrun hrpc, State.runWord]
  rcases hle.lt_or_eq with hlt | heq
  · obtain ⟨i, hi, halu⟩ := hop hlt
    obtain ⟨f, d, src, hsrc, hexec⟩ := exec_of_isAlu halu
    exact ⟨_, by rw [show decodeProg s.prog[s.rpc.toNat] = _ from hi]; exact hexec s,
      inv_execAlu h hc.2 hrun.1 hrun.2 hlt f d src hsrc⟩
  · refine ⟨{ s with mixStep := .rmFold }, by rw [show decodeProg s.prog[s.rpc.toNat] = _ from hret heq]; rfl, ?_⟩
    obtain ⟨-, hmem, -, hplace⟩ := id h
    simp only [PhaseInv, hrun.1] at hplace
    obtain ⟨-, -, -, -, hcount, hrunning, -⟩ := hplace
    exact inv_of_mix h hc.2 hrun.1 rfl rfl rfl rfl rfl rfl rfl rfl rfl rfl rfl rfl rfl rfl rfl rfl hmem
      (hcount (by simp [hrun.2])) nofun fun _ => (hrunning hrun.2).1

/-- In phase ABSORB the message is in the buffer, so the phase's steps read inside it (R28). -/
theorem absorbStep_next (hlen : s.jobLen.toNat ≤ s.msgMax) (after : State) : ∃ t, s.absorbStep after = .next t := by
  rcases s.absorbStep_cases after with ⟨hgt, -⟩ | ⟨-, -, e⟩ | ⟨-, -, e⟩
  · omega
  · exact ⟨_, e⟩
  · exact ⟨_, e⟩

theorem execSlowHash_next (h : Inv s) (v : BitVec 3) (p : Bool) : ∃ t, execSlowHash v p s = .next t := by
  obtain ⟨-, -, -, hplace⟩ := h
  unfold execSlowHash
  cases hp : s.phase
  case absorb =>
    simp only [PhaseInv, hp] at hplace
    obtain ⟨-, -, hlen, -⟩ := hplace
    exact absorbStep_next hlen _
  all_goals exact ⟨_, rfl⟩

theorem execFastHash_next (h : Inv s) (ho : s.jobOp = 1) : ∃ t, execFastHash s = .next t := by
  obtain ⟨-, -, -, hplace⟩ := h
  unfold execFastHash
  cases hp : s.phase
  case idle | check | done | error => exact ⟨_, rfl⟩
  all_goals simp [PhaseInv, hp, SlowInv, ho] at hplace
  exact absorbStep_next hplace.2.2.1 _

theorem execKeccakPermute_next (h : Inv s) (ho : s.jobOp = 2) : ∃ t, execKeccakPermute s = .next t := by
  obtain ⟨-, -, -, hplace⟩ := h
  unfold execKeccakPermute
  cases hp : s.phase
  case idle | check | done | error | permute => exact ⟨_, rfl⟩
  all_goals simp [PhaseInv, hp, SlowInv, ho] at hplace

/-- A move of the core while a job runs answers a state that meets the invariant. -/
theorem inv_step_of_coreMoves (h : Inv s) (hc : CoreMoves s) : ∃ t, step s = .next t ∧ Inv t := by
  by_cases hrun : RunsProgram s
  · exact inv_step_of_runsProgram h hc hrun
  · rcases jobOp_cases s.jobOp with ho | ho | ho | ho
    · obtain ⟨t, ht⟩ := execSlowHash_next h s.jobVariant s.jobPrehashed
      exact ⟨t, (step_of_slowHash hc hrun ho).trans ht, inv_slowHash h hc.2 ho (decide_eq_false hrun) ht⟩
    · obtain ⟨t, ht⟩ := execFastHash_next h ho
      exact ⟨t, (step_of_fastHash hc hrun ho).trans ht, inv_fastHash h hc.2 ho ht⟩
    · obtain ⟨t, ht⟩ := execKeccakPermute_next h ho
      exact ⟨t, (step_of_keccakPermute hc hrun ho).trans ht, inv_keccakPermute h hc.2 ho ht⟩
    · exact ⟨_, step_of_badCommand hc hrun ho, inv_raiseJobError (by decide) h⟩

/-! ## Every step -/

/-- With no event pending the core moves, or nothing happens (R405). -/
theorem inv_step_of_no_input (h : Inv s) (hin : s.inputs = []) :
    ∃ t, step s = .next t ∧ Inv t ∧ (t.errcode = .internalFault → s.errcode = .internalFault) := by
  cases hb : s.busy with
  | false => exact ⟨s, step_of_not_busy hin hb, h, id⟩
  | true =>
    obtain ⟨t, hstep, ht⟩ := inv_step_of_coreMoves h ⟨hin, hb⟩
    refine ⟨t, hstep, ht, fun hfault => ?_⟩
    rcases (CodeMove.of_step ⟨hin, hb⟩ hstep).of_inv h hb with ⟨hcode, -⟩ | ⟨-, code, -, hne, rfl⟩
    · exact hcode.symm.trans hfault
    · exact absurd hfault hne

/-- Under the invariant every step answers a state that meets it, and brings in no INTERNAL_FAULT. -/
theorem inv_step (h : Inv s) :
    ∃ t, step s = .next t ∧ Inv t ∧ (t.errcode = .internalFault → s.errcode = .internalFault) := by
  cases hin : s.inputs with
  | nil => exact inv_step_of_no_input h hin
  | cons e rest =>
    by_cases he : e = .core
    · subst he
      have hcore : Inv { s with inputs := [] } := h
      obtain ⟨t, hstep, ht, hfault⟩ := inv_step_of_no_input hcore rfl
      exact ⟨_, step_of_core_event hin hstep, ht, hfault⟩
    · obtain ⟨t, hstep, hsafe⟩ := step_of_event hin he
      refine ⟨t, hstep, hsafe.inv h, fun hfault => ?_⟩
      rcases hsafe.code with hcode | hcode
      · exact hcode.symm.trans hfault
      · rw [hcode] at hfault
        cases hfault

end

/-! ## The obligations -/

/-- Settles O59: whatever moves, the state after the step meets the invariant (`inv_step`). -/
theorem stepKeepsInvariant : Obligations.StepKeepsInvariant := by
  intro s t h hstep
  obtain ⟨t', hstep', ht, -⟩ := inv_step h
  cases hstep.symm.trans hstep'
  exact ht

/-- Settles O60: under the invariant no step stops, and none raises INTERNAL_FAULT (`inv_step`). -/
theorem invariantStepsNeverStop : Obligations.InvariantStepsNeverStop := by
  intro s h
  obtain ⟨t, hstep, -, hfault⟩ := inv_step h
  refine ⟨⟨t, hstep⟩, fun t' hstep' => ?_⟩
  cases hstep.symm.trans hstep'
  exact hfault

/-- Settles O19: of the moves of the core (`CodeMove`) those that set ERR are error entries, which write no output and
no input, and under the invariant only those of phase CHECK remain. -/
theorem errorsLeaveOutputsAlone : Obligations.ErrorsLeaveOutputsAlone := by
  intro s t hc hstatus hstep herr
  obtain ⟨-, -, hclear, -⟩ := status_of_busy hstatus hc.2
  have hmove := CodeMove.of_step hc hstep
  have hplace : Inv s → s.phase = .check ∧ t.errcode ≠ .internalFault := fun h => by
    rcases hmove.of_inv h hc.2 with ⟨-, hsame⟩ | ⟨hp, code, -, hne, rfl⟩
    · rw [hsame, hclear] at herr
      cases herr
    · exact ⟨hp, hne⟩
  cases hmove with
  | keeps hsame _ =>
    rw [hsame, hclear] at herr
    cases herr
  | check hp code hcode ht =>
    subst ht
    exact ⟨rfl, rfl, rfl, rfl, rfl, rfl, rfl, hcode.1, fun hfault => absurd hfault hcode.2, hplace⟩
  | reservedWord hrun _ _ ht =>
    subst ht
    exact ⟨rfl, rfl, rfl, rfl, rfl, rfl, rfl, nofun, fun _ => hrun.1, hplace⟩
  | badCommand _ ht =>
    subst ht
    exact ⟨rfl, rfl, rfl, rfl, rfl, rfl, rfl, nofun, nofun, hplace⟩

/-- Settles O18: error entry by its definition, and the checks of phase CHECK that enter it. -/
theorem errorEntryEffect : Obligations.ErrorEntryEffect := by
  refine ⟨fun s code => ⟨rfl, ?_, fun hin => step_of_not_busy hin rfl⟩, fun s v p code hp hcheck => ?_,
    fun s hp hlen => ?_⟩
  · simp [State.irq]
  · rw [exec, execSlowHash, hp]
    simp only [State.slowCheck, hcheck]
  · rw [exec, execFastHash, hp]
    simp only [State.fastCheck, checkJob_fast, if_pos hlen]

end Sys2Proof.Machine
end

section
/-! PROOFS. The buffers in the host window (spec/20_memory.md R62, R63, R90): the byte at each offset, what a read of
them answers and what a write to them leaves. -/

namespace Sys2Proof.Machine

section
variable {s : State} {off : BitVec 16} {w : Nat} {v : W32}

theorem State.hostByte_digest (s : State) (i : Fin 32) : s.hostByte (0x100 + i.val) = s.digest[i] := by
  have hi := i.isLt
  rw [State.hostByte, if_pos (by omega), show 0x100 + i.val - 0x100 = i.val by omega]
  simp

theorem State.hostByte_sw (s : State) (i : Fin 200) : s.hostByte (0x200 + i.val) = s.sw[i] := by
  have hi := i.isLt
  rw [State.hostByte, if_neg (by omega), if_pos (by omega), show 0x200 + i.val - 0x200 = i.val by omega]
  simp

theorem State.hostByte_msg (s : State) {i : Nat} (hi : i < s.msgMax) : s.hostByte (0x8000 + i) = s.msg.read i := by
  rw [State.hostByte, if_neg (by omega), if_neg (by omega), if_pos (by omega), State.msgByte,
    show 0x8000 + i - 0x8000 = i by omega]

/-- An offset that takes no write reads from neither SW nor MSG. -/
theorem State.hostByte_congr {t : State} (hd : t.digest = s.digest) (hm : t.msgMax = s.msgMax) {x : Nat}
    (hsw : ∀ i : Fin 200, x = 0x200 + i.val → t.sw[i] = s.sw[i])
    (hmsg : ∀ i, i < s.msgMax → x = 0x8000 + i → t.msg.read i = s.msg.read i) : t.hostByte x = s.hostByte x := by
  unfold State.hostByte
  rw [hd, hm]
  split
  · rfl
  · split
    case isTrue hin =>
      have hx := hsw ⟨x - 0x200, by omega⟩ (by show x = 0x200 + (x - 0x200); omega)
      have hlt : x - 0x200 < 200 := by omega
      simpa [hlt] using hx
    case isFalse =>
      split
      case isTrue hin => exact hmsg (x - 0x8000) (by omega) (by omega)
      case isFalse => rfl

/-- A legal read of the buffers answers their bytes, little-endian (R62). -/
theorem State.toNat_hostRead (s : State) (hl : ¬ RefusedAccess off w) (hoff : 0x100 ≤ off.toNat) :
    (s.hostRead off w).toNat = leNat ((List.range w).map fun k => s.hostByte (off.toNat + k)) := by
  obtain ⟨hlegal, hw, -⟩ := accessLegal_of_not_refused hl
  obtain ⟨hlt, -⟩ := leNat_bytes (fun k => s.hostByte (off.toNat + k)) w hw
  have hbound : 256 ^ w ≤ 2 ^ 32 := by rcases hw with rfl | rfl | rfl <;> decide
  rw [State.hostRead, if_pos hlegal, if_neg (by omega), BitVec.toNat_ofNat]
  exact Nat.mod_eq_of_lt (by omega)

/-- The bytes of a word are its number, as far as they go. -/
theorem leNat_map_byteOf (v : W32) (w : Nat) (hw : w = 1 ∨ w = 2 ∨ w = 4) :
    leNat ((List.range w).map (byteOf v)) = v.toNat % 256 ^ w := by
  rcases hw with rfl | rfl | rfl <;>
    simp only [List.range, List.range.loop, List.map, leNat, toNat_byteOf] <;> omega

/-- What a legal write at or above 0x100 leaves while no job runs: the bytes of SW and of MSG that it names are the
word's, and nothing else is changed (R62, R90; past the end of MSG by notes/assumptions/13.md). -/
theorem step_of_buffer_write {rest : List Input} (hb : s.busy = false) (hwf : s.msg.wf = true)
    (hl : ¬ RefusedAccess off w) (hoff : 0x100 ≤ off.toNat) (hin : s.inputs = .write off w v :: rest) :
    ∃ t, step s = .next t ∧ t = { s with inputs := rest, sw := t.sw, msg := t.msg } ∧
      (∀ i : Fin 200, t.sw[i] =
        if off.toNat ≤ 0x200 + i.val ∧ 0x200 + i.val < off.toNat + w then byteOf v (0x200 + i.val - off.toNat)
        else s.sw[i]) ∧
      ∀ i, t.msg.read i =
        if i < s.msgMax ∧ off.toNat ≤ 0x8000 + i ∧ 0x8000 + i < off.toNat + w then byteOf v (0x8000 + i - off.toNat)
        else s.msg.read i := by
  obtain ⟨hlegal, -⟩ := accessLegal_of_not_refused hl
  have hctrl : ¬ (off = 0 ∧ w = 4) := by
    rintro ⟨rfl, -⟩
    exact absurd hoff (by decide)
  obtain ⟨t, ht, hframe, -, hsw, hmsg⟩ := writeBytes_spec (s := { s with inputs := rest }) hb hwf off.toNat (byteOf v) w
  refine ⟨t, ?_, hframe, hsw, hmsg⟩
  rw [step_of_plain_write hctrl hin, State.hostWrite, if_pos hlegal, if_neg (by omega), ht]

/-- A write inside SW or MSG: each of its bytes reads back, and no other byte of the window changes. -/
theorem hostByte_of_buffer_write {t : State} {rest : List Input} (hin : WritableBytes s off w)
    (hframe : t = { s with inputs := rest, sw := t.sw, msg := t.msg })
    (hsw : ∀ i : Fin 200, t.sw[i] =
      if off.toNat ≤ 0x200 + i.val ∧ 0x200 + i.val < off.toNat + w then byteOf v (0x200 + i.val - off.toNat)
      else s.sw[i])
    (hmsg : ∀ i, t.msg.read i =
      if i < s.msgMax ∧ off.toNat ≤ 0x8000 + i ∧ 0x8000 + i < off.toNat + w then byteOf v (0x8000 + i - off.toNat)
      else s.msg.read i) :
    (∀ k, k < w → t.hostByte (off.toNat + k) = byteOf v k) ∧
      ∀ x, x < off.toNat ∨ off.toNat + w ≤ x → t.hostByte x = s.hostByte x := by
  have hmax : t.msgMax = s.msgMax := by rw [hframe]
  have hdigest : t.digest = s.digest := by rw [hframe]
  refine ⟨fun k hk => ?_, fun x hx => ?_⟩
  · rcases hin with ⟨hlo, hhi⟩ | ⟨hlo, hhi⟩
    · have hbyte := t.hostByte_sw ⟨off.toNat + k - 0x200, by omega⟩
      rw [hsw] at hbyte
      dsimp only at hbyte
      rw [if_pos (by omega), show 0x200 + (off.toNat + k - 0x200) = off.toNat + k by omega,
        show off.toNat + k - off.toNat = k by omega] at hbyte
      exact hbyte
    · have hbyte := t.hostByte_msg (i := off.toNat + k - 0x8000) (by omega)
      rw [hmsg, if_pos (by omega), show 0x8000 + (off.toNat + k - 0x8000) = off.toNat + k by omega,
        show off.toNat + k - off.toNat = k by omega] at hbyte
      exact hbyte
  · refine State.hostByte_congr hdigest hmax (fun i hi => ?_) fun i _ hi => ?_
    · rw [hsw, if_neg (by omega)]
    · rw [hmsg, if_neg (by omega)]

end

/-- Settles O27: a write inside SW or MSG is read back by its bytes (`hostByte_of_buffer_write`), a read answers the
bytes of the window, and a write leaves what `step_of_buffer_write` says. -/
theorem bufferWritesReadBack : Obligations.BufferWritesReadBack := by
  refine ⟨fun s off w v rest hb hwf hl hwritable hin => ?_, fun s off w hl hoff => ?_,
    fun s off w v rest hb hwf hl hoff hin => ?_⟩
  · have hoff : 0x100 ≤ off.toNat := by unfold WritableBytes at hwritable; omega
    obtain ⟨-, hw, -⟩ := accessLegal_of_not_refused hl
    obtain ⟨t, hstep, hframe, hsw, hmsg⟩ := step_of_buffer_write hb hwf hl hoff hin
    obtain ⟨hback, hother⟩ := hostByte_of_buffer_write hwritable hframe hsw hmsg
    refine ⟨t, hstep, hframe, ?_, hother⟩
    calc (t.hostRead off w).toNat
      _ = leNat ((List.range w).map fun k => t.hostByte (off.toNat + k)) := t.toNat_hostRead hl hoff
      _ = leNat ((List.range w).map (byteOf v)) := by
        rw [List.map_congr_left fun k hk => hback k (List.mem_range.mp hk)]
      _ = v.toNat % 256 ^ w := leNat_map_byteOf v w hw
  · obtain ⟨-, hw, -⟩ := accessLegal_of_not_refused hl
    obtain ⟨hlt, hdigits⟩ := leNat_bytes (fun k => s.hostByte (off.toNat + k)) w hw
    rw [s.toNat_hostRead hl hoff]
    refine ⟨hlt, fun k hk => ?_⟩
    simp only [hdigits k hk]
    refine ⟨fun i hi => ?_, fun i hi => ?_, fun i hmax hi => ?_, fun hres => ?_⟩
    · rw [hi, State.hostByte_digest]
    · rw [hi, State.hostByte_sw]
    · rw [hi, State.hostByte_msg s hmax]
    · rw [State.hostByte_of_reserved hres]
      rfl
  · simp only [← byteOf_eq_ofNat]
    exact step_of_buffer_write hb hwf hl hoff hin

end Sys2Proof.Machine
end

section
/-! PROOFS. Phase RM_GEN (spec/45_random_math.md section 3): every pass of the generator, and the program it writes. -/

namespace Sys2Proof.Machine

theorem genAccepted_iff (g : GenState) :
    genAccepted g = true ↔ g.r8Used = true ∧ 60 ≤ g.code.length ∧ g.code.length ≤ 70 := by
  simp [genAccepted, and_assoc]

/-- The word of an operation encodes it. -/
theorem encode_of_isAlu {i : Instr} (h : isAlu i = true) : encode i = .prog (progWordOf i) := by
  cases i
  case mul | add | sub | ror | rol | xor => rfl
  all_goals cases h

section
variable {code : List Instr} {prog : Vector ProgWord 71} {k : Fin 71}

/-- The code, its RET and the old words, entry by entry (R311). -/
theorem progStore_of_lt (h : k.val < code.length) : (progStore code prog)[k] = progWordOf code[k.val] := by
  simp [progStore, h]

theorem progStore_of_eq (h : k.val = code.length) : (progStore code prog)[k] = 6 := by
  have hret : progWordOf .ret = 6 := rfl
  simp [progStore, h, hret]

theorem progStore_of_gt (h : code.length < k.val) : (progStore code prog)[k] = prog[k] := by
  simp [progStore, show ¬ k.val < code.length by omega, show ¬ k.val = code.length by omega]

end

/-- Every pass but the last follows its rule. -/
theorem genPass_rule (height : W64) (g : GenState) : PassRule height g (genPass height g) := by
  unfold genPass PassRule
  cases hstage : g.stage with
  | seed => exact ⟨fun _ => genSeed_rule height g, nofun, nofun, nofun, nofun⟩
  | attempt => exact ⟨nofun, fun _ => genAttempt_rule g, nofun, nofun, nofun⟩
  | decode => exact ⟨nofun, nofun, fun _ => genDecode_rule g, nofun, nofun⟩
  | pad => exact ⟨nofun, nofun, nofun, fun _ => genPad_rule g, nofun⟩
  | output => exact ⟨nofun, nofun, nofun, nofun, fun _ => rfl⟩

/-- A step of phase RM_GEN is one unit of the generator. -/
theorem exec_of_rmGen {s : State} (hp : s.phase = .rmGen) (v : BitVec 3) (p : Bool) :
    exec (.slowHash v p) s = .next s.rmGenUnit := by
  rw [exec, execSlowHash, hp]

/-- Settles O16: the unit of an accepted attempt writes `progStore` and enters phase FILL; any other is a pass of the
generator (`genPass_rule`). -/
theorem generatorWritesProgram : Obligations.GeneratorWritesProgram := by
  refine ⟨fun s v p hp hstage hgen hused hlen => ?_, fun s v p hp hnot => ?_⟩
  · obtain ⟨-, hcode, -⟩ := hgen
    obtain ⟨hmax, halu⟩ := hcode (.inr (.inr hstage))
    have haccepted := (genAccepted_iff s.gen).mpr ⟨hused, hlen, hmax⟩
    refine ⟨_, exec_of_rmGen hp v p, ?_⟩
    rw [State.rmGenUnit, if_pos ⟨hstage, haccepted⟩]
    refine ⟨?_, programInv_of_output s.prog hlen hmax halu _ rfl rfl, fun k => ⟨fun hk => ?_, progStore_of_eq,
      progStore_of_gt⟩, rfl⟩
    · show (BitVec.ofNat 7 s.gen.code.length).toNat = _
      rw [BitVec.toNat_ofNat]
      omega
    · have hi : isAlu s.gen.code[k.val] = true := halu _ (List.getElem_mem hk)
      have hword := progStore_of_lt (prog := s.prog) hk
      exact ⟨(encode_of_isAlu hi).trans (congrArg EncWord.prog hword.symm),
        (congrArg decodeProg hword).trans (decodeProg_progWordOf hi)⟩
  · have hpass : ¬ (s.gen.stage = .output ∧ genAccepted s.gen = true) := fun ⟨hstage, haccepted⟩ =>
      hnot ⟨hstage, (genAccepted_iff s.gen).mp haccepted⟩
    refine ⟨genPass s.jobHeight s.gen, ?_, genPass_rule s.jobHeight s.gen⟩
    rw [exec_of_rmGen hp, State.rmGenUnit, if_neg hpass]

end Sys2Proof.Machine
end

section
/-! PROOFS. The steps of an outer iteration, put together, are mix_iteration() (spec/43_mixing_loop.md R204 to R214). -/

namespace Sys2Proof.Machine

/-! ## A SLOW_HASH job in phase MIX -/

/-- The core moves in phase MIX of a SLOW_HASH job. -/
def MixJob (s : State) : Prop := CoreMoves s ∧ s.phase = .mix ∧ s.jobOp = 0

section
variable {s : State}

theorem step_of_mix (h : MixJob s) (hm : s.mixStep ≠ .rmRun) : step s = .next (s.mixUnit s.jobVariant) := by
  obtain ⟨hc, hp, ho⟩ := h
  rw [step_of_slowHash hc (fun hr => hm hr.2) ho]
  exact exec_of_mix hp

theorem reaches_mixUnit (h : MixJob s) (hm : s.mixStep ≠ .rmRun) : Reaches s (s.mixUnit s.jobVariant) :=
  .of_step (step_of_mix h hm)

/-! ## The gated operations -/

/-- The shuffle-add of the machine is that of mix_iteration() for the same three registers. -/
theorem shuffleAt_eq_gatedShuffle (s : State) (v : BitVec 3) (j : BitVec 21) (m : MixRegs) (ha : m.a = s.a)
    (hb0 : m.b0 = s.b0) (hb1 : m.b1 = s.b1) : s.shuffleAt v j =
      { s with sp := (gatedShuffle v s.sp j s.c m).sp, c := (gatedShuffle v s.sp j s.c m).out } := by
  unfold gatedShuffle
  rw [ha, hb0, hb1]
  by_cases hv : 2 ≤ v.toNat
  · rw [shuffleAt_of_ge s j hv, if_pos hv]
  · rw [shuffleAt_of_lt s j (Nat.lt_of_not_le hv), if_neg hv]

/-- The second fold where the variant has it (R240). -/
def gatedFold (v : BitVec 3) (sp : Memory) (j : BitVec 21) (hi lo : W64) : FoldOut :=
  if v = 2 ∨ v = 3 then secondFold sp j hi lo else { sp := sp, hi := hi, lo := lo }

theorem half2Fold_eq_gatedFold (s : State) (v : BitVec 3) : s.half2Fold v =
    { s with sp := (gatedFold v s.sp s.j2 s.hi s.lo).sp, hi := (gatedFold v s.sp s.j2 s.hi s.lo).hi
             lo := (gatedFold v s.sp s.j2 s.hi s.lo).lo, mixStep := .half2Shuffle } := by
  unfold State.half2Fold gatedFold integerGate
  simp only [decide_eq_true_eq]
  split <;> rfl

/-! ## The first half-iteration and the load of the second (R204 to R207) -/

/-- What the first half-iteration makes of c and the scratchpad. -/
def firstShuffle (v : BitVec 3) (m : MixRegs) : ShuffleOut :=
  gatedShuffle v m.sp (addrOf m.a) (aesRound (m.sp.readBlock (addrOf m.a).toNat) m.a) m

/-- The scratchpad after the store of half-iteration 1 (R206). -/
def firstStore (v : BitVec 3) (m : MixRegs) : Memory :=
  (firstShuffle v m).sp.writeBlock (addrOf m.a).toNat
    (if v = 1 then tweakByte11 ((firstShuffle v m).out ^^^ m.b0) else (firstShuffle v m).out ^^^ m.b0)

/-- The state in which the middle of half-iteration 2 begins. -/
def State.atMiddle (s : State) : State :=
  let v := s.jobVariant
  let c := (firstShuffle v s.mixRegs).out
  { s with
    j1 := addrOf s.a, c := c, sp := firstStore v s.mixRegs, j2 := addrOf c
    t := (firstStore v s.mixRegs).readBlock (addrOf c).toNat, a1 := s.a, mixStep := .half2Math }

theorem reaches_atMiddle (h : MixJob s) (hm : s.mixStep = .half1Aes) (hi : s.i < iterations) : Reaches s s.atMiddle := by
  have haes : Reaches s s.half1Aes := by
    have hunit : s.mixUnit s.jobVariant = s.half1Aes := by
      simp only [State.mixUnit, hm, if_pos hi]
    exact hunit ▸ reaches_mixUnit h (by rw [hm]; decide)
  have hshuffle : Reaches s.half1Aes (s.half1Aes.half1Shuffle s.jobVariant) :=
    reaches_mixUnit (s := s.half1Aes) h nofun
  rw [State.half1Shuffle, shuffleAt_eq_gatedShuffle s.half1Aes s.jobVariant s.half1Aes.j1 s.mixRegs rfl rfl rfl] at hshuffle
  have hstore := reaches_mixUnit (s := { s.half1Aes with
    sp := (firstShuffle s.jobVariant s.mixRegs).sp, c := (firstShuffle s.jobVariant s.mixRegs).out
    mixStep := .half1Store }) h nofun
  have hload := reaches_mixUnit (s := { s.half1Aes with
    sp := firstStore s.jobVariant s.mixRegs, c := (firstShuffle s.jobVariant s.mixRegs).out
    mixStep := .half2Load }) h nofun
  exact haes.trans (hshuffle.trans (hstore.trans hload))

/-! ## The middle (R208, R209) -/

/-- The state after integer math or the random-math run. -/
def State.afterMiddle (mid : MidRegs) (rpc : BitVec 7) (s : State) : State :=
  { s with
    t := mid.t, a1 := mid.a1, divR := mid.divR, sqrtR := mid.sqrtR, r := mid.r, rpc := rpc, mixStep := .half2Mul }

/-- random_math() of variant 4 (R291): up to the run, the run, and the fold after it. -/
theorem reaches_afterMiddle_four (h : MixJob s) (hm : s.mixStep = .half2Math) (ha : s.a1 = s.a) (hv : s.jobVariant = 4)
    {r : Vector W32 9} (hrun : runProg s.prog 71 0 (rmSeed s.r s.a s.b0 s.b1) = some r) : ∃ rpc, Reaches s (s.afterMiddle
      { t := rmT s.t s.r, a1 := rmA1 s.a r, divR := s.divR, sqrtR := s.sqrtR, r := r } rpc) := by
  obtain ⟨hc, hp, -⟩ := id h
  have henter : Reaches s { s.rmEnter with mixStep := .rmRun } := by
    have hunit : s.mixUnit s.jobVariant = { s.rmEnter with mixStep := .rmRun } := by
      rw [State.mixUnit, hm, hv]
      exact half2Math_four s
    exact hunit ▸ reaches_mixUnit h (by rw [hm]; decide)
  obtain ⟨m, hlt, hends⟩ := endsAfter_of_runProg hrun
  obtain ⟨r', hrun', hruns⟩ := hends.runs (s := { s.rmEnter with mixStep := .rmRun }) hc ⟨hp, rfl⟩ rfl rfl hlt
  cases hrun.symm.trans hrun'
  have hfold : Reaches { s.rmEnter with r := r, rpc := BitVec.ofNat 7 (0 + m), mixStep := .rmFold }
      (State.rmFold { s.rmEnter with r := r, rpc := BitVec.ofNat 7 (0 + m), mixStep := .rmFold }) :=
    reaches_mixUnit (s := { s.rmEnter with r := r, rpc := BitVec.ofNat 7 (0 + m), mixStep := .rmFold }) h nofun
  rw [← ha]
  exact ⟨_, henter.trans (.trans ⟨_, hruns⟩ hfold)⟩

theorem reaches_afterMiddle (h : MixJob s) (hm : s.mixStep = .half2Math) (ha : s.a1 = s.a) {mid : MidRegs}
    (hmid : midIteration s.jobVariant s.prog s.mixRegs s.c s.t = some mid) :
    ∃ rpc, Reaches s (s.afterMiddle mid rpc) := by
  unfold midIteration at hmid
  split at hmid
  case isTrue hv =>
    split at hmid
    · cases hmid
    case h_2 r hrun =>
      cases hmid
      exact reaches_afterMiddle_four h hm ha hv hrun
  case isFalse hv =>
    have hunit : s.mixUnit s.jobVariant = s.half2Math s.jobVariant := by rw [State.mixUnit, hm]
    have hgate : randomGate s.jobVariant = false := decide_eq_false hv
    have hstep : Reaches s (s.half2Math s.jobVariant) := hunit ▸ reaches_mixUnit h (by rw [hm]; decide)
    rw [State.half2Math, hgate] at hstep
    have hsame : s.mixRegs.a = s.a1 := ha.symm
    refine ⟨s.rpc, ?_⟩
    split at hmid <;> cases hmid <;> rw [hsame]
    case isTrue hint =>
      have hint : integerGate s.jobVariant = true := decide_eq_true hint
      rw [hint] at hstep
      exact hstep
    case isFalse hint =>
      have hint : integerGate s.jobVariant = false := decide_eq_false hint
      rw [hint] at hstep
      exact hstep

/-! ## The end of the iteration (R210 to R213) -/

/-- The second fold of the product. -/
def lastFold (v : BitVec 3) (s : State) : FoldOut :=
  gatedFold v s.sp s.j2 (hi64 (product s.c s.t)) (lo64 (product s.c s.t))

/-- The state between the second fold and the second shuffle-add. -/
def State.afterFold (s : State) : State :=
  { s with
    sp := (lastFold s.jobVariant s).sp, hi := (lastFold s.jobVariant s).hi, lo := (lastFold s.jobVariant s).lo
    mixStep := .half2Shuffle }

/-- The second shuffle-add, over what the fold left. -/
def lastShuffle (v : BitVec 3) (s : State) : ShuffleOut := gatedShuffle v (lastFold v s).sp s.j2 s.c s.mixRegs

/-- The value that half-iteration 2 stores, before the tweak (R212). -/
def lastValue (v : BitVec 3) (s : State) : Block := accumulate s.a1 (lastFold v s).hi (lastFold v s).lo

/-- The state after an iteration, from the one in which its multiply begins. -/
def State.atEnd (s : State) : State :=
  let v := s.jobVariant
  { s with
    hi := (lastFold v s).hi, lo := (lastFold v s).lo, c := (lastShuffle v s).out
    sp := (lastShuffle v s).sp.writeBlock s.j2.toNat
      (if v = 1 then tweakHalf2 s.tweak12 (lastValue v s) else lastValue v s)
    newa := lastValue v s ^^^ s.t, a := lastValue v s ^^^ s.t, b1 := s.b0, b0 := (lastShuffle v s).out
    i := s.i + 1, progress := BitVec.ofNat 32 (s.i + 1), mixStep := .half1Aes }

theorem reaches_atEnd (h : MixJob s) (hm : s.mixStep = .half2Mul) : Reaches s s.atEnd := by
  have hmul : Reaches s s.half2Mul := by
    have hunit : s.mixUnit s.jobVariant = s.half2Mul := by rw [State.mixUnit, hm]
    exact hunit ▸ reaches_mixUnit h (by rw [hm]; decide)
  have hfold : Reaches s.half2Mul (s.half2Mul.half2Fold s.jobVariant) := reaches_mixUnit (s := s.half2Mul) h nofun
  rw [half2Fold_eq_gatedFold] at hfold
  have hshuffle : Reaches s.afterFold (s.afterFold.half2Shuffle s.jobVariant) :=
    reaches_mixUnit (s := s.afterFold) h nofun
  rw [State.half2Shuffle, shuffleAt_eq_gatedShuffle s.afterFold s.jobVariant s.afterFold.j2 s.mixRegs rfl rfl rfl]
    at hshuffle
  have hstore := reaches_mixUnit (s := { s.afterFold with
    sp := (lastShuffle s.jobVariant s).sp, c := (lastShuffle s.jobVariant s).out, mixStep := .half2Store }) h nofun
  have hend := reaches_mixUnit (s := { s.atEnd with a := s.a, b0 := s.b0, b1 := s.b1, i := s.i, progress := s.progress
                                                    mixStep := .iterEnd }) h nofun
  exact hmul.trans (hfold.trans (hshuffle.trans (hstore.trans hend)))

/-! ## The iteration -/

/-- The second state is the first but for what the mixing loop writes. -/
def SameButMixing (s t : State) : Prop :=
  t = { s with
    sp := t.sp, a := t.a, b0 := t.b0, b1 := t.b1, c := t.c, t := t.t, a1 := t.a1, hi := t.hi, lo := t.lo
    divR := t.divR, sqrtR := t.sqrtR, r := t.r, rpc := t.rpc, j1 := t.j1, j2 := t.j2, newa := t.newa, i := t.i
    mixStep := t.mixStep, progress := t.progress }

theorem SameButMixing.mixJob {t : State} (h : SameButMixing s t) (hs : MixJob s) : MixJob t := by
  rw [h]
  exact hs

theorem SameButMixing.internal {t : State} (h : SameButMixing s t) :
    t.hashState = s.hashState ∧ t.prog = s.prog ∧ t.tweak12 = s.tweak12 ∧ t.jobVariant = s.jobVariant := by
  rw [h]
  exact ⟨rfl, rfl, rfl, rfl⟩

theorem SameButMixing.visible {t : State} (h : SameButMixing s t) :
    t.digest = s.digest ∧ t.sw = s.sw ∧ t.msg = s.msg ∧ t.cmd = s.cmd ∧ t.len = s.len ∧ t.heightLo = s.heightLo ∧
      t.heightHi = s.heightHi := by
  rw [h]
  exact ⟨rfl, rfl, rfl, rfl, rfl, rfl, rfl⟩

theorem SameButMixing.trans {t u : State} (h : SameButMixing s t) (h' : SameButMixing t u) : SameButMixing s u := by
  unfold SameButMixing at h h' ⊢
  exact h'.trans (by rw [h])

/-- R214, with all that an iteration leaves alone. -/
theorem reaches_mixIteration (h : MixJob s) (hm : s.mixStep = .half1Aes) (hi : s.i < iterations) {m : MixRegs}
    (hiter : mixIteration s.jobVariant s.tweak12 s.prog s.mixRegs = some m) :
    ∃ t, Reaches s t ∧ SameButMixing s t ∧ t.mixRegs = m ∧ t.i = s.i + 1 ∧ t.mixStep = .half1Aes ∧
      t.progress = BitVec.ofNat 32 (s.i + 1) := by
  unfold mixIteration at hiter
  dsimp only at hiter
  split at hiter
  · cases hiter
  case h_2 mid hmid =>
    cases hiter
    obtain ⟨rpc, hmiddle⟩ := reaches_afterMiddle (s := s.atMiddle) h rfl rfl hmid
    have hend := reaches_atEnd (s := s.atMiddle.afterMiddle mid rpc) h rfl
    exact ⟨_, (reaches_atMiddle h hm hi).trans (hmiddle.trans hend), rfl, rfl, rfl, rfl, rfl⟩

end

/-- Settles O51: the frame of `reaches_mixIteration` holds what the statement asks. -/
theorem iterationMatchesReference : Obligations.IterationMatchesReference := by
  intro s m hc hp hm hi ho hiter
  obtain ⟨t, ⟨n, hruns⟩, hframe, hregs, hcount, hstep, hprogress⟩ := reaches_mixIteration ⟨hc, hp, ho⟩ hm hi hiter
  obtain ⟨hmoves, hphase, -⟩ := hframe.mixJob ⟨hc, hp, ho⟩
  obtain ⟨hstate, hprog, -⟩ := hframe.internal
  obtain ⟨hdigest, hsw, hmsg, -⟩ := hframe.visible
  exact ⟨n, t, hruns, hregs, hcount, hstep, hphase, hprogress, hstate, hprog, hdigest, hsw, hmsg, hmoves⟩

end Sys2Proof.Machine
end

section
/-! PROOFS. A SLOW_HASH job to its end (spec/47_commands.md R355): the fill, the 2^19 iterations (spec/43_mixing_loop.md
R215), the final fold, the permutation and the terminal hash (spec/46_finalization.md R321 to R325). -/

namespace Sys2Proof.Machine

/-! ## The mixing loop -/

section
variable {v : BitVec 3} {tweak tweak' : W64} {prog : Vector ProgWord 71}

/-- A program that ends gives registers, whatever it starts with. -/
theorem EndsAfter.runProg_eq_some {pc m : Nat} (h : EndsAfter prog pc m) :
    ∀ {fuel : Nat} (r : Vector W32 9), m < fuel → ∃ r', runProg prog fuel pc r = some r' := by
  induction h with
  | ret hlt hw =>
    rintro (_ | fuel) r hfuel
    · cases hfuel
    · exact ⟨r, runProg_of_ret hlt hw⟩
  | op hlt hw hi _ ih =>
    rintro (_ | fuel) r hfuel
    · cases hfuel
    · rw [runProg_of_isAlu hlt hw hi]
      exact ih _ (Nat.lt_of_succ_lt_succ hfuel)

/-- The middle of an iteration gives a result, whatever it starts with. -/
def MiddleRuns (v : BitVec 3) (prog : Vector ProgWord 71) : Prop :=
  ∀ (m : MixRegs) (c t : Block), ∃ mid, midIteration v prog m c t = some mid

/-- Without random_math() nothing can stop it (R240). -/
theorem middleRuns_of_ne_four (hv : v ≠ 4) : MiddleRuns v prog := fun m c t => by
  unfold midIteration
  rw [if_neg hv]
  split <;> exact ⟨_, rfl⟩

/-- A generated program runs to its RET (R311). -/
theorem middleRuns_of_programInv {s : State} (h : ProgramInv s) : MiddleRuns 4 s.prog := fun m c t => by
  obtain ⟨-, hle, -⟩ := id h
  have hends : EndsAfter s.prog 0 s.plen.toNat := endsAfter_of_programInv h (Nat.zero_add _)
  obtain ⟨r, hr⟩ := hends.runProg_eq_some (fuel := 71) (rmSeed m.r m.a m.b0 m.b1) (by omega)
  unfold midIteration
  rw [if_pos rfl, hr]
  exact ⟨_, rfl⟩

theorem mixIteration_eq_some (h : MiddleRuns v prog) (m : MixRegs) : ∃ m', mixIteration v tweak prog m = some m' := by
  obtain ⟨mid, hmid⟩ := h m (firstShuffle v m).out
    ((firstStore v m).readBlock (addrOf (firstShuffle v m).out).toNat)
  unfold firstStore firstShuffle at hmid
  unfold mixIteration
  dsimp only
  rw [hmid]
  exact ⟨_, rfl⟩

theorem mixLoop_eq_some (h : MiddleRuns v prog) : ∀ (n : Nat) (m : MixRegs), ∃ m', mixLoop v tweak prog n m = some m'
  | 0, m => ⟨m, rfl⟩
  | n + 1, m => by
    obtain ⟨m', hm'⟩ := mixIteration_eq_some (tweak := tweak) h m
    rw [mixLoop, hm']
    exact mixLoop_eq_some h n m'

/-- The tweak is variant 1's alone (R240). -/
theorem mixIteration_tweak_congr (h : v = 1 → tweak = tweak') (m : MixRegs) :
    mixIteration v tweak prog m = mixIteration v tweak' prog m := by
  by_cases hv : v = 1
  · rw [h hv]
  · unfold mixIteration
    simp only [if_neg hv]

theorem mixLoop_tweak_congr (h : v = 1 → tweak = tweak') : ∀ (n : Nat) (m : MixRegs),
    mixLoop v tweak prog n m = mixLoop v tweak' prog n m
  | 0, _ => rfl
  | n + 1, m => by
    rw [mixLoop, mixLoop, mixIteration_tweak_congr h m]
    cases mixIteration v tweak' prog m with
    | none => rfl
    | some m' => exact mixLoop_tweak_congr h n m'

end

section
variable {s : State}

/-- As many iterations as are left before 2^19 (R215). -/
theorem reaches_mixLoop : ∀ {n : Nat} {s : State} {m : MixRegs}, MixJob s → s.mixStep = .half1Aes →
    s.i + n ≤ iterations → mixLoop s.jobVariant s.tweak12 s.prog n s.mixRegs = some m →
    ∃ t, Reaches s t ∧ SameButMixing s t ∧ t.mixRegs = m ∧ t.i = s.i + n ∧ t.mixStep = .half1Aes
  | 0, s, m, _, hm, _, hloop => by
    cases hloop
    exact ⟨s, .refl s, rfl, rfl, rfl, hm⟩
  | n + 1, s, m, h, hm, hi, hloop => by
    rw [mixLoop] at hloop
    split at hloop
    · cases hloop
    case h_2 m' hiter =>
      obtain ⟨t, hfirst, hframe, hregs, hcount, hstep, -⟩ := reaches_mixIteration h hm (by omega) hiter
      obtain ⟨-, hprog, htweak, hvariant⟩ := hframe.internal
      rw [← hregs, ← hvariant, ← htweak, ← hprog] at hloop
      obtain ⟨u, hrest, hframe', hregs', hcount', hstep'⟩ := reaches_mixLoop (hframe.mixJob h) hstep (by omega) hloop
      exact ⟨u, hfirst.trans hrest, hframe.trans hframe', hregs', by omega, hstep'⟩

/-! ## The finalization -/

/-- The second state is the end of the job without error, with digest `d`, and the first in what the host sees
besides. -/
structure EndsWith (s : State) (d : Vector Byte 32) (t : State) : Prop where
  digest : t.digest = d
  status : t.done = true ∧ t.busy = false ∧ t.phase = .done ∧ t.progress = 0
  buffers : t.sw = s.sw ∧ t.msg = s.msg
  registers : t.cmd = s.cmd ∧ t.len = s.len ∧ t.heightLo = s.heightLo ∧ t.heightHi = s.heightHi

/-- A state in phase FINAL_FILL after n groups. -/
def State.folded (s : State) (n : Nat) : State :=
  { s with text := foldAfter s.rk2 s.sp s.text n, g := n, progress := BitVec.ofNat 32 n }

theorem execSlowHash_of_finalFill {v : BitVec 3} {p : Bool} (hp : s.phase = .finalFill) :
    execSlowHash v p s = .next (if s.g < groups then s.finalFillUnit else s.enterPhase .permute) := by
  rw [execSlowHash, hp]

/-- The 2^14 groups of the final fold (R321). -/
theorem reaches_folded (hc : CoreMoves s) (hp : s.phase = .finalFill) (ho : s.jobOp = 0) :
    Reaches (s.folded 0) (s.folded groups) := by
  have hr : ∀ n, ¬ RunsProgram (s.folded n) := fun n h => nomatch hp.symm.trans h.1
  refine ⟨groups, runs_of_steps (f := s.folded) fun n hn => ?_⟩
  rw [step_of_slowHash (s := s.folded n) hc (hr n) ho, execSlowHash_of_finalFill (s := s.folded n) hp]
  exact congrArg _ (if_pos hn)

theorem execSlowHash_of_permute {v : BitVec 3} {p : Bool} (hp : s.phase = .permute) :
    execSlowHash v p s = .next s.slowPermute := by
  rw [execSlowHash, hp]

theorem execSlowHash_of_extra {v : BitVec 3} {p : Bool} (hp : s.phase = .extra) :
    execSlowHash v p s = .next (s.finishOkDigest (extraHash s.hashState)) := by
  rw [execSlowHash, hp]

/-- The permutation and the terminal hash (R322 to R325). -/
theorem reaches_end_of_permute (hc : CoreMoves s) (hp : s.phase = .permute) (ho : s.jobOp = 0) :
    Reaches s (s.slowPermute.finishOkDigest (extraHash (keccakF (withText s.hashState s.text)))) := by
  have hpermute : step s = .next s.slowPermute := by
    rw [step_of_slowHash hc (fun h => nomatch hp.symm.trans h.1) ho, execSlowHash_of_permute hp]
  have hextra : step s.slowPermute =
      .next (s.slowPermute.finishOkDigest (extraHash (keccakF (withText s.hashState s.text)))) := by
    rw [step_of_slowHash (s := s.slowPermute) hc (fun h => nomatch h.1) ho,
      execSlowHash_of_extra (s := s.slowPermute) rfl]
    rfl
  exact (Reaches.of_step hpermute).trans (.of_step hextra)

/-- The final fold and what follows it, from its first group. -/
theorem reaches_end_of_finalFill (hc : CoreMoves s) (hp : s.phase = .finalFill) (ho : s.jobOp = 0) :
    ∃ t, Reaches (s.folded 0) t ∧
      EndsWith s (extraHash (keccakF (withText s.hashState (foldAfter s.rk2 s.sp s.text groups)))) t := by
  have hleave : step (s.folded groups) = .next ((s.folded groups).enterPhase .permute) := by
    rw [step_of_slowHash (s := s.folded groups) hc (fun h => nomatch hp.symm.trans h.1) ho,
      execSlowHash_of_finalFill (s := s.folded groups) hp]
    exact congrArg _ (if_neg (Nat.lt_irrefl groups))
  have hend := reaches_end_of_permute (s := (s.folded groups).enterPhase .permute) hc rfl ho
  exact ⟨_, (reaches_folded hc hp ho).trans ((Reaches.of_step hleave).trans hend), rfl, ⟨rfl, rfl, rfl, rfl⟩, ⟨rfl, rfl⟩,
    ⟨rfl, rfl, rfl, rfl⟩⟩

/-- From the end of the last iteration to the end of the job (R321 to R325). -/
theorem reaches_end_of_mix (h : MixJob s) (hm : s.mixStep = .half1Aes) (hi : s.i = iterations) :
    ∃ t, Reaches s t ∧ EndsWith s (finalDigest s.hashState s.sp) t := by
  obtain ⟨hc, -, ho⟩ := id h
  have henter : Reaches s s.enterFinalFill := by
    have hunit : s.mixUnit s.jobVariant = s.enterFinalFill := by
      simp only [State.mixUnit, hm, hi, Nat.lt_irrefl, if_false]
    exact hunit ▸ reaches_mixUnit h (by rw [hm]; decide)
  obtain ⟨t, hend, hdigest, hstatus, hbuffers, hregisters⟩ :=
    reaches_end_of_finalFill (s := s.enterFinalFill) hc rfl ho
  exact ⟨t, henter.trans hend, hdigest, hstatus, hbuffers, hregisters⟩

/-! ## From the fill to the end -/

/-- The registers with which phase MIX begins. -/
def State.filledRegs (s : State) : MixRegs := { s.mixRegs with sp := (fillAfter s.rk1 s.text s.sp groups).2 }

theorem execSlowHash_of_fill {v : BitVec 3} {p : Bool} (hp : s.phase = .fill) :
    execSlowHash v p s = .next (if s.g < groups then s.fillUnit else s.enterMix) := by
  rw [execSlowHash, hp]

theorem reaches_end_of_fill (hc : CoreMoves s) (hp : s.phase = .fill) (ho : s.jobOp = 0) (hg : s.g = 0) {m : MixRegs}
    (hloop : mixLoop s.jobVariant s.tweak12 s.prog iterations s.filledRegs = some m) :
    ∃ t, Reaches s t ∧ EndsWith s (finalDigest s.hashState m.sp) t := by
  have hfill : Reaches s (s.filled groups) := ⟨groups, runs_fill hc hp ho hg (Nat.lt_succ_self (2 ^ 14 - 1))⟩
  have henter : Reaches (s.filled groups) (s.filled groups).enterMix := .of_step <| by
    rw [step_of_slowHash (s := s.filled groups) hc (fun h => nomatch hp.symm.trans h.1) ho,
      execSlowHash_of_fill (s := s.filled groups) hp]
    exact congrArg _ (if_neg (Nat.lt_irrefl groups))
  obtain ⟨t, hmix, hframe, hregs, hcount, hstep⟩ := reaches_mixLoop (s := (s.filled groups).enterMix) ⟨hc, rfl, ho⟩ rfl
    (Nat.le_of_eq (Nat.zero_add iterations)) hloop
  obtain ⟨hstate, -⟩ := hframe.internal
  obtain ⟨-, hsw, hmsg, hcmd, hlen, hlo, hhi⟩ := hframe.visible
  obtain ⟨u, hend, hdigest, hstatus, ⟨hsw', hmsg'⟩, hcmd', hlen', hlo', hhi'⟩ :=
    reaches_end_of_mix (hframe.mixJob ⟨hc, rfl, ho⟩) hstep (hcount.trans (Nat.zero_add iterations))
  have hsp : t.sp = m.sp := congrArg MixRegs.sp hregs
  rw [hstate, hsp] at hdigest
  exact ⟨u, hfill.trans (henter.trans (hmix.trans hend)), hdigest, hstatus, ⟨hsw'.trans hsw, hmsg'.trans hmsg⟩,
    hcmd'.trans hcmd, hlen'.trans hlen, hlo'.trans hlo, hhi'.trans hhi⟩

/-! ## From CHECK to the fill -/

/-- The state in which SETUP begins. -/
def State.atSetup (s : State) (blk : Nat) : State :=
  { s with spOwned := true, hashState := s.slowInput s.jobPrehashed, blk := blk, phase := .setup, progress := 0 }

/-- A prehashed job loads its state; any other absorbs its message (R201, R356). -/
theorem reaches_atSetup (hc : CoreMoves s) (hp : s.phase = .check) (ho : s.jobOp = 0)
    (hpass : checkJob 0 s.jobVariant s.jobPrehashed s.jobLen.toNat s.msgMax s.spGrant = none) :
    ∃ blk, Reaches s (s.atSetup blk) := by
  unfold State.atSetup State.slowInput
  by_cases hpre : s.jobPrehashed = true
  · have hstep := step_of_slowHash_passes hc hp ho hpass
    rw [if_pos hpre] at hstep ⊢
    exact ⟨s.blk, .of_step hstep⟩
  · have hfalse : s.jobPrehashed = false := Bool.eq_false_of_not_eq_true hpre
    rw [hfalse] at hpass
    rw [if_neg hpre]
    exact ⟨_, reaches_setup_of_check hc hp ho hfalse hpass⟩

/-- SETUP leaves the registers of mixStart() (R202). -/
theorem filledRegs_of_setup {v : BitVec 3} (hv : v ≠ 4) (u : State) : (u.setup v).enterFill.filledRegs =
    mixStart v u.hashState (fillAfter (expandKey (laneBlock u.hashState 0) (laneBlock u.hashState 1)) (textOf u.hashState)
      u.sp groups).2 u.mixRegs := by
  have hgate : randomGate v = false := decide_eq_false hv
  unfold mixStart State.filledRegs State.setup State.enterFill
  simp only [hgate, if_neg hv, shuffleGate, integerGate, decide_eq_true_eq]
  rfl

/-- SETUP leaves variant 1 its tweak (R202, R241). -/
theorem tweak12_setup (v : BitVec 3) (u : State) (hv : v = 1) : (u.setup v).tweak12 = u.hashState[24] ^^^ u.msg.read64 35 :=
  if_pos hv

/-- The whole-job function, where its loop gives a result. -/
theorem slowHashDigest_eq_some {v : BitVec 3} {S : Lanes} {msg35 : W64} {prog : Vector ProgWord 71} {other m : MixRegs}
    (h : mixLoop v (S[24] ^^^ msg35) prog iterations (mixStart v S
      (fillAfter (expandKey (laneBlock S 0) (laneBlock S 1)) (textOf S) other.sp groups).2 other) = some m) :
    slowHashDigest v S msg35 prog other = some (finalDigest S m.sp) := by
  unfold slowHashDigest
  dsimp only
  rw [h]

/-- From SETUP of a job of another variant than 4 to its end (R202). -/
theorem reaches_end_of_setup (hc : CoreMoves s) (hp : s.phase = .setup) (ho : s.jobOp = 0) (hv : s.jobVariant ≠ 4) :
    ∃ t d, Reaches s t ∧ slowHashDigest s.jobVariant s.hashState (s.msg.read64 35) s.prog s.mixRegs = some d ∧
      EndsWith s d t := by
  have hfill : Reaches s (s.setup s.jobVariant).enterFill := .of_step <| by
    rw [step_of_slowHash hc (fun h => nomatch hp.symm.trans h.1) ho, ← slowSetup_of_ne_four s hv, execSlowHash, hp]
  obtain ⟨m, hloop⟩ := mixLoop_eq_some (v := s.jobVariant) (prog := s.prog) (tweak := (s.setup s.jobVariant).tweak12)
    (middleRuns_of_ne_four hv) iterations (s.setup s.jobVariant).enterFill.filledRegs
  obtain ⟨t, hend, hdigest, hstatus, hbuffers, hregisters⟩ :=
    reaches_end_of_fill (s := (s.setup s.jobVariant).enterFill) hc rfl ho rfl hloop
  rw [mixLoop_tweak_congr (tweak12_setup s.jobVariant s), filledRegs_of_setup hv] at hloop
  exact ⟨t, _, hfill.trans hend, slowHashDigest_eq_some hloop, hdigest, hstatus, hbuffers, hregisters⟩

end

/-- Settles O53: a generated program runs to its RET in every iteration, so the loop gives a result. -/
theorem slowHashVariantFourDigest : Obligations.SlowHashVariantFourDigest := by
  intro s hc hp hg ho hv hprog
  obtain ⟨m, hloop⟩ := mixLoop_eq_some (tweak := s.tweak12) (middleRuns_of_programInv hprog) iterations s.filledRegs
  have hloop' : mixLoop s.jobVariant s.tweak12 s.prog iterations s.filledRegs = some m := hv.symm ▸ hloop
  obtain ⟨t, ⟨n, hruns⟩, hdigest, ⟨hdone, hbusy, hphase, -⟩, ⟨hsw, hmsg⟩, -⟩ := reaches_end_of_fill hc hp ho hg hloop'
  refine ⟨n, t, finalDigest s.hashState m.sp, hruns, ?_, hdigest, hdone, hbusy, hphase, hsw, hmsg⟩
  unfold State.filledRegs groups at hloop
  rw [hloop]

end Sys2Proof.Machine

namespace Sys2Proof

open Sys2Proof.Machine

/-- Settles O52: CHECK and the absorb of a job that is not prehashed, and from SETUP to the end. -/
theorem slowHashDigest : Obligations.SlowHashDigest := by
  intro s hc hp ho hv hpass
  have hv4 : s.jobVariant ≠ 4 := fun h => by
    rw [h] at hv
    exact absurd hv (by decide)
  obtain ⟨blk, hsetup⟩ := reaches_atSetup hc hp ho hpass
  obtain ⟨t, d, hend, hd, hdigest, ⟨hdone, hbusy, hphase, hprogress⟩, ⟨hsw, hmsg⟩, hcmd, hlen, hlo, hhi⟩ :=
    reaches_end_of_setup (s := s.atSetup blk) hc rfl ho hv4
  obtain ⟨n, hruns⟩ := hsetup.trans hend
  exact ⟨n, t, hruns, hdigest ▸ hd, hdone, hbusy, hphase, hprogress, hsw, hmsg, hcmd, hlen, hlo, hhi⟩

end Sys2Proof
end
